-- ==== Sys2Proof/Word.lean ====
section
/-!
DEFINITION. The word types of the block: bytes, halfwords, 32-bit registers and addresses, 64-bit request words.
Widths: spec/30_encoding.md R100, R106, R110, R111; spec/10_state.md R55.
-/
namespace Sys2Proof

/-- One byte of shared memory (R70). -/
abbrev Byte := BitVec 8

/-- A 16-bit descriptor field (R110, R111). -/
abbrev Halfword := BitVec 16

/-- A 32-bit register, descriptor field or operand (R101, R106). -/
abbrev Word := BitVec 32

/-- A format Q request word (R101). -/
abbrev RequestWord := BitVec 64

/-- A transceiver address, below 32 (R36, R106). -/
abbrev PhyAddress := Fin 32

end Sys2Proof
end

