-- ==== Sys2Proof/Config.lean ====
section
/-!
DEFINITION. The implementation parameters of the block, spec/00_scope.md R7: "every parameter below is therefore an
argument the model takes (a field of its configuration record)". The record is a field of the machine's State, so that
a claim about every state is a claim about every configuration. Constraints of the table of R7 are in WellFormed.lean.
-/
namespace Sys2Proof

/-- What SUBMIT does while the link is absent (R7, R140, decision D20: an open parameter). -/
inductive NoLinkSendPolicy where
  | queueSends
  | failSends
  deriving DecidableEq, Repr

/-- The configuration record, one field per row of the table of R7, in its order. -/
structure Config where
  numTcb : Nat
  numLocalBuf : Nat
  maxFragments : Nat
  minFrameSize : Nat
  maxFrameSize : Nat
  rxInitialCount : Nat
  rxMaxCount : Nat
  rxMinWorkingSet : Nat
  rxMinReady : Nat
  rxLowWater : Nat
  growPersistence : Nat
  shrinkThreshold : Nat
  shrinkResetOnGrow : Bool
  rxBufferCapacity : Nat
  rxAlignShift : Nat
  descAlign : Nat
  indicateBatchMax : Nat
  harvestIterationMax : Nat
  acceptPollBudget : Nat
  maxResetAttempts : Nat
  hangThreshold : Nat
  phyCandidates : List PhyAddress
  negotiationAttemptsMax : Nat
  defaultPhyAddress : Option PhyAddress
  phyAddressOverride : Option PhyAddress
  forcedConnector : Option Nat
  defaultSpeed : BitVec 4
  defaultDuplex : BitVec 1
  noLinkSendPolicy : NoLinkSendPolicy
  linkTickPeriodMs : Nat
  healthCheckPeriodMs : Nat
  deriving DecidableEq, Repr

/-- The example configuration `CFG-T` of spec/95_test_vectors.md section 1. The spec calls it "an example, not a
default"; the model's reset state carries it. DESIGN CHOICE (log entry 1), unsafe: no statement rests on it. -/
def Config.cfgT : Config where
  numTcb := 4
  numLocalBuf := 2
  maxFragments := 2
  minFrameSize := 60
  maxFrameSize := 1514
  rxInitialCount := 4
  rxMaxCount := 6
  rxMinWorkingSet := 4
  rxMinReady := 1
  rxLowWater := 2
  growPersistence := 1
  shrinkThreshold := 2
  shrinkResetOnGrow := true
  rxBufferCapacity := 256
  rxAlignShift := 0
  descAlign := 4
  indicateBatchMax := 2
  harvestIterationMax := 8
  acceptPollBudget := 3
  maxResetAttempts := 3
  hangThreshold := 2
  phyCandidates := [1, 2, 3]
  negotiationAttemptsMax := 3
  defaultPhyAddress := some 1
  phyAddressOverride := none
  forcedConnector := none
  defaultSpeed := 1
  defaultDuplex := 0
  noLinkSendPolicy := .queueSends
  linkTickPeriodMs := 100
  healthCheckPeriodMs := 2000

end Sys2Proof
end

