-- ==== Sys2Proof/Syntax.lean ====
section
/-!
DEFINITION. The instructions of the block, one constructor per row of spec/opcode_table.json: the operation requests of
format Q (spec/30_encoding.md R103), the device command codes of format K (R104) and the port codes of format P (R105).
-/
namespace Sys2Proof

/-- The power states (spec/10_state.md R48); the operand of SET_POWER (R102). -/
inductive PowerState where
  | fullyPowered
  | lowPower
  deriving DecidableEq, Repr

/-- The instructions. Operands are as R102 gives them: 32-bit `arg` values used as they stand. -/
inductive Instr where
  /-- START, R240 -/
  | start
  /-- TEARDOWN, R241 -/
  | teardown
  /-- RESET, R242 -/
  | reset
  /-- HEALTH_CHECK, R243 -/
  | healthCheck
  /-- INTERRUPT, R244 -/
  | interrupt
  /-- INT_ENABLE, R245 -/
  | intEnable
  /-- INT_DISABLE, R246 -/
  | intDisable
  /-- SET_POWER, R247 -/
  | setPower (target : PowerState)
  /-- SUBMIT, R140 -/
  | submit (handle : Word)
  /-- RECLAIM, R143 -/
  | reclaim
  /-- CANCEL, R145 -/
  | cancel (tag : Word)
  /-- DRAIN, R144 -/
  | drain
  /-- HARVEST, R162 -/
  | harvest
  /-- RECYCLE, R163 -/
  | recycle (d : Word)
  /-- ENSURE_STARTED, R164 -/
  | ensureStarted
  /-- GROW, R167 -/
  | grow
  /-- GROW_COMPLETE, R168 -/
  | growComplete (success : Bool) (allocBase : Word)
  /-- RX_RETURN, R169 -/
  | rxReturn (d : Word)
  /-- SHRINK, R170 -/
  | shrink (d : Word)
  /-- ISSUE_COMMAND, R190: `sub[7]` is `mustWaitFirst`, `sub[6:0]` the command code, `arg` the pointer -/
  | issueCommand (mustWaitFirst : Bool) (code : BitVec 7) (pointer : Word)
  /-- WAIT_ACCEPT, R191 -/
  | waitAccept (budget : Word)
  /-- LINK_START, R211 -/
  | linkStart
  /-- LINK_TICK, R212 -/
  | linkTick
  /-- GET_LINK_SPEED, R218 -/
  | getLinkSpeed (request : Word)
  /-- GET_MEDIA_STATE, R219 -/
  | getMediaState (request : Word)
  /-- SET_FILTER, R220 -/
  | setFilter (mask : Word)
  /-- SET_MCAST, R221 -/
  | setMcast (list : Word)
  /-- CU_START, accepted from `COMMAND` by R195 -/
  | cuStart
  /-- CU_RESUME, accepted from `COMMAND` by R196 -/
  | cuResume
  /-- RU_START, accepted from `COMMAND` by R197 -/
  | ruStart
  /-- SELECTIVE_RESET, written to `PORT`, R199 -/
  | selectiveReset
  /-- FULL_RESET, written to `PORT`, R200 -/
  | fullReset
  deriving DecidableEq, Repr

end Sys2Proof
end

