-- ==== Sys2Proof/WellFormed.lean ====
section
/-!
DEFINITION. What the spec requires of an instruction as an encoding (spec/30_encoding.md R102, R112) and of the
configuration record (spec/00_scope.md R7, spec/10_state.md R55).
-/
namespace Sys2Proof

/-- The one operand rule that joins two fields: "`arg` is the allocation's base physical address when `sub[0] = 1` and
must be 0 otherwise" (R102). Every other operand of every row is legal at every value of its field. -/
def Instr.wf : Instr → Bool
  | .growComplete success allocBase => success || allocBase == 0
  | _ => true

/-- "addresses pairwise distinct" (R7). -/
def Config.candidatesDistinct (c : Config) : Bool := decide c.phyCandidates.Nodup

/-- The constraint column of the table of R7, the field widths of R55 (c), and a non-zero alignment unit. -/
def Config.wf (c : Config) : Bool :=
  decide (1 ≤ c.numTcb) && decide (1 ≤ c.maxFragments) && decide (c.maxFragments ≤ 255) &&
  decide (c.minFrameSize ≤ c.maxFrameSize) && decide (1 ≤ c.rxInitialCount) &&
  decide (c.rxInitialCount ≤ c.rxMaxCount) && decide (1 ≤ c.rxMinWorkingSet) &&
  decide (c.rxMinWorkingSet ≤ c.rxInitialCount) && decide (1 ≤ c.growPersistence) &&
  decide (1 ≤ c.rxBufferCapacity) && decide (c.rxBufferCapacity ≤ 16383) && decide (1 ≤ c.descAlign) &&
  decide (1 ≤ c.indicateBatchMax) && decide (1 ≤ c.harvestIterationMax) && decide (1 ≤ c.acceptPollBudget) &&
  decide (1 ≤ c.maxResetAttempts) && c.candidatesDistinct && decide (1 ≤ c.negotiationAttemptsMax) &&
  decide (1 ≤ c.linkTickPeriodMs) && decide (1 ≤ c.healthCheckPeriodMs)

end Sys2Proof
end

