-- ==== Sys2Proof/Decode.lean ====
section
/-!
DEFINITION. The decoder and the encoder of the three formats (spec/30_encoding.md R100 to R105, R112). "a decoder tells
the format from where the word is presented (request port, `COMMAND`, `PORT`), never from the word itself" (R100): a
presented word carries the place. Undecodable words are rejected by name.
-/
namespace Sys2Proof

/-- A word and the place it is presented at (R100). -/
inductive Presented where
  /-- format Q, at the request port -/
  | request (w : RequestWord)
  /-- format K, in register `COMMAND` -/
  | command (w : Word)
  /-- format P, written to register `PORT` -/
  | port (w : Word)
  deriving DecidableEq, Repr

/-- The place alone, for reading a word from bytes. -/
inductive Channel where
  | request
  | command
  | port
  deriving DecidableEq, Repr

/-- Why a word is not an instruction (R112). -/
inductive DecodeError where
  /-- `op` is not in the map of R103 -/
  | unknownOp (op : Byte)
  /-- the `zero` field is not 0 -/
  | zeroFieldSet
  /-- `sub` is not 0 where R103 leaves the column empty -/
  | subSet
  /-- `arg` is not 0 where R103 leaves the column empty -/
  | argSet
  /-- `sub[7:1]` is not 0 (SET_POWER, GROW_COMPLETE) -/
  | subReservedSet
  /-- a failed GROW_COMPLETE with an address -/
  | failedAllocationWithAddress
  /-- a code of format K that is not 1, 2 or 3 -/
  | reservedCommandCode
  /-- a value of format P that is not 1 or 2 -/
  | reservedPortCode
  /-- fewer bytes than the format has -/
  | truncated
  deriving DecidableEq, Repr

/-! ## Fields of format Q (R101) -/

/-- `op`, bits 63:56. -/
def requestOp (w : RequestWord) : Byte := w.extractLsb' 56 8
/-- `sub`, bits 55:48. -/
def requestSub (w : RequestWord) : Byte := w.extractLsb' 48 8
/-- `zero`, bits 47:32. -/
def requestZero (w : RequestWord) : Halfword := w.extractLsb' 32 16
/-- `arg`, bits 31:0. -/
def requestArg (w : RequestWord) : Word := w.extractLsb' 0 32

/-- The word with these fields and `zero = 0`. -/
def requestOf (op sub : Byte) (arg : Word) : RequestWord := op ++ sub ++ (0 : Halfword) ++ arg

/-- Rows whose `sub` and `arg` columns are empty. -/
def decodeBare (sub : Byte) (arg : Word) (i : Instr) : Except DecodeError Instr :=
  if sub ≠ 0 then .error .subSet else if arg ≠ 0 then .error .argSet else .ok i

/-- Rows with an `arg` operand and an empty `sub` column. -/
def decodeWithArg (sub : Byte) (arg : Word) (f : Word → Instr) : Except DecodeError Instr :=
  if sub ≠ 0 then .error .subSet else .ok (f arg)

/-- SET_POWER: `sub[0]` is the target, `sub[7:1]` and `arg` must be 0 (R102). -/
def decodeSetPower (sub : Byte) (arg : Word) : Except DecodeError Instr :=
  if sub.extractLsb' 1 7 ≠ 0 then .error .subReservedSet
  else if arg ≠ 0 then .error .argSet
  else .ok (.setPower (if sub.getLsbD 0 then .lowPower else .fullyPowered))

/-- GROW_COMPLETE: `sub[0]` is success, `sub[7:1]` must be 0, `arg` must be 0 on failure (R102). -/
def decodeGrowComplete (sub : Byte) (arg : Word) : Except DecodeError Instr :=
  if sub.extractLsb' 1 7 ≠ 0 then .error .subReservedSet
  else if !sub.getLsbD 0 && arg != 0 then .error .failedAllocationWithAddress
  else .ok (.growComplete (sub.getLsbD 0) arg)

/-- The opcode map of R103, on the fields of a word whose `zero` field is 0. -/
def decodeFields (op sub : Byte) (arg : Word) : Except DecodeError Instr :=
  if op = 0x01#8 then decodeBare sub arg .start
  else if op = 0x02#8 then decodeBare sub arg .teardown
  else if op = 0x03#8 then decodeBare sub arg .reset
  else if op = 0x04#8 then decodeBare sub arg .healthCheck
  else if op = 0x05#8 then decodeBare sub arg .interrupt
  else if op = 0x06#8 then decodeBare sub arg .intEnable
  else if op = 0x07#8 then decodeBare sub arg .intDisable
  else if op = 0x08#8 then decodeSetPower sub arg
  else if op = 0x10#8 then decodeWithArg sub arg .submit
  else if op = 0x11#8 then decodeBare sub arg .reclaim
  else if op = 0x12#8 then decodeWithArg sub arg .cancel
  else if op = 0x13#8 then decodeBare sub arg .drain
  else if op = 0x20#8 then decodeBare sub arg .harvest
  else if op = 0x21#8 then decodeWithArg sub arg .recycle
  else if op = 0x22#8 then decodeBare sub arg .ensureStarted
  else if op = 0x23#8 then decodeBare sub arg .grow
  else if op = 0x24#8 then decodeGrowComplete sub arg
  else if op = 0x25#8 then decodeWithArg sub arg .rxReturn
  else if op = 0x26#8 then decodeWithArg sub arg .shrink
  else if op = 0x30#8 then .ok (.issueCommand (sub.getLsbD 7) (sub.extractLsb' 0 7) arg)
  else if op = 0x31#8 then decodeWithArg sub arg .waitAccept
  else if op = 0x40#8 then decodeBare sub arg .linkStart
  else if op = 0x41#8 then decodeBare sub arg .linkTick
  else if op = 0x42#8 then decodeWithArg sub arg .getLinkSpeed
  else if op = 0x43#8 then decodeWithArg sub arg .getMediaState
  else if op = 0x44#8 then decodeWithArg sub arg .setFilter
  else if op = 0x45#8 then decodeWithArg sub arg .setMcast
  else .error (.unknownOp op)

/-- Format Q (R101 to R103, R112). -/
def decodeRequest (w : RequestWord) : Except DecodeError Instr :=
  if requestZero w ≠ 0 then .error .zeroFieldSet
  else decodeFields (requestOp w) (requestSub w) (requestArg w)

/-- Format K (R104): the whole word of `COMMAND`, whose reserved bits read 0. -/
def decodeCommand (w : Word) : Except DecodeError Instr :=
  if w = 1#32 then .ok .cuStart
  else if w = 2#32 then .ok .cuResume
  else if w = 3#32 then .ok .ruStart
  else .error .reservedCommandCode

/-- Format P (R105). -/
def decodePort (w : Word) : Except DecodeError Instr :=
  if w = 1#32 then .ok .selectiveReset
  else if w = 2#32 then .ok .fullReset
  else .error .reservedPortCode

/-- The decoder: total on every presented word. -/
def decode : Presented → Except DecodeError Instr
  | .request w => decodeRequest w
  | .command w => decodeCommand w
  | .port w => decodePort w

/-! ## Words as bytes: little-endian, the byte at the lowest address holds bits 7:0 (spec/20_memory.md R73) -/

/-- The presented word at the head of a list of bytes, and the bytes after it. -/
def presentedOfBytes : Channel → List Byte → Option (Presented × List Byte)
  | .request, b0 :: b1 :: b2 :: b3 :: b4 :: b5 :: b6 :: b7 :: rest =>
    some (.request (b7 ++ b6 ++ b5 ++ b4 ++ b3 ++ b2 ++ b1 ++ b0), rest)
  | .command, b0 :: b1 :: b2 :: b3 :: rest => some (.command (b3 ++ b2 ++ b1 ++ b0), rest)
  | .port, b0 :: b1 :: b2 :: b3 :: rest => some (.port (b3 ++ b2 ++ b1 ++ b0), rest)
  | _, _ => none

/-- The decoder on any bytes: the instruction and the bytes after it, or a rejection by name. -/
def decodeBytes (c : Channel) (bs : List Byte) : Except DecodeError (Instr × List Byte) :=
  match presentedOfBytes c bs with
  | none => .error .truncated
  | some (p, rest) => (decode p).map (fun i => (i, rest))

/-- The low `n` bytes of a number, lowest first. -/
def bytesOfNat : Nat → Nat → List Byte
  | 0, _ => []
  | n + 1, w => BitVec.ofNat 8 w :: bytesOfNat n (w / 256)

/-- The instruction the decoder reads from a row's bits. The rows of format K and of format P are both 32 bits wide and
their words coincide (1 and 2 are a command and a port code): a 32-bit word alone does not say where it is presented
(R100), and this reading presents it in `COMMAND`. Log entry 2. -/
def decodeTableWord (nbits w : Nat) : Option Instr :=
  let bits := w % 2 ^ nbits
  let answer :=
    if nbits ≤ 32 then decodeBytes .command (bytesOfNat 4 bits)
    else if nbits ≤ 64 then decodeBytes .request (bytesOfNat 8 bits)
    else .error .truncated
  match answer with
  | .ok (i, _) => some i
  | .error _ => none

/-! ## The encoder -/

/-- `sub` of ISSUE_COMMAND: bit 7 is `mustWaitFirst`, bits 6:0 the code (R102). -/
def issueSub (mustWaitFirst : Bool) (code : BitVec 7) : Byte :=
  (BitVec.ofBool mustWaitFirst ++ code : BitVec (1 + 7))

/-- The word of an instruction and the place it is presented at, written from R101 to R105. -/
def encode : Instr → Presented
  | .start => .request (requestOf 0x01 0 0)
  | .teardown => .request (requestOf 0x02 0 0)
  | .reset => .request (requestOf 0x03 0 0)
  | .healthCheck => .request (requestOf 0x04 0 0)
  | .interrupt => .request (requestOf 0x05 0 0)
  | .intEnable => .request (requestOf 0x06 0 0)
  | .intDisable => .request (requestOf 0x07 0 0)
  | .setPower .fullyPowered => .request (requestOf 0x08 0 0)
  | .setPower .lowPower => .request (requestOf 0x08 1 0)
  | .submit handle => .request (requestOf 0x10 0 handle)
  | .reclaim => .request (requestOf 0x11 0 0)
  | .cancel tag => .request (requestOf 0x12 0 tag)
  | .drain => .request (requestOf 0x13 0 0)
  | .harvest => .request (requestOf 0x20 0 0)
  | .recycle d => .request (requestOf 0x21 0 d)
  | .ensureStarted => .request (requestOf 0x22 0 0)
  | .grow => .request (requestOf 0x23 0 0)
  | .growComplete false allocBase => .request (requestOf 0x24 0 allocBase)
  | .growComplete true allocBase => .request (requestOf 0x24 1 allocBase)
  | .rxReturn d => .request (requestOf 0x25 0 d)
  | .shrink d => .request (requestOf 0x26 0 d)
  | .issueCommand wait code pointer => .request (requestOf 0x30 (issueSub wait code) pointer)
  | .waitAccept budget => .request (requestOf 0x31 0 budget)
  | .linkStart => .request (requestOf 0x40 0 0)
  | .linkTick => .request (requestOf 0x41 0 0)
  | .getLinkSpeed q => .request (requestOf 0x42 0 q)
  | .getMediaState q => .request (requestOf 0x43 0 q)
  | .setFilter mask => .request (requestOf 0x44 0 mask)
  | .setMcast l => .request (requestOf 0x45 0 l)
  | .cuStart => .command 1
  | .cuResume => .command 2
  | .ruStart => .command 3
  | .selectiveReset => .port 1
  | .fullReset => .port 2

end Sys2Proof
end

