-- ==== Sys2Proof/Machine/State.lean ====
section
/-!
DEFINITION. The state of the block as plain data: every piece of state of spec/10_state.md, the shared memory of
spec/20_memory.md, the locks of R84 and R85, the history of events, and the model's own input ports (what the
environment will do next). The descriptors `txDesc` and `rxDesc` are bytes of the shared memory (R70); their fields are
read and written by Machine/Operands.lean. INVENTORY.md lists every field with its rule and its reset value.
-/
namespace Sys2Proof.Machine

/-! ## Small types -/

/-- Status codes (spec/60_exceptions.md R270). `Sent` and `Success` are names of code 0. -/
inductive Status where
  | ok
  | queued
  | resourcesExhausted
  | hardError
  | cancelled
  | nonRecoverable
  | pending
  | invalidRequest
  | linkDown
  | notMine
  deriving DecidableEq, Repr

/-- `{addr, len}` of one fragment (R40, R110). -/
structure Fragment where
  addr : Word
  len : Word
  deriving DecidableEq, Repr

/-- A packet: `{handle, frags, totalLen, tag}` (R40). -/
structure Packet where
  handle : Word
  frags : List Fragment
  totalLen : Nat
  tag : Word
  deriving DecidableEq, Repr

/-- `txShadow[i]` (R38). -/
structure TxShadow where
  inUse : Bool
  usesLocalBuf : Bool
  isMcastWorkaround : Bool
  packet : Option Packet
  localBuf : Option Nat
  retryCount : Nat
  deriving DecidableEq, Repr

/-- The one-hot state of a receive descriptor (R28). -/
inductive RxSlotState where
  | posted
  | allocationPending
  | handedToUpperLayer
  | lowResource
  deriving DecidableEq, Repr

/-- `rxShadow[d]` (R42); the addresses are absent while the allocation is in flight (R167). -/
structure RxShadow where
  state : RxSlotState
  allocBase : Option Nat
  hwAddress : Option Nat
  capacity : Nat
  actualBytes : Nat
  deriving DecidableEq, Repr

/-- `allocState` (R44). -/
inductive AllocState where
  | idle
  | allocationInFlight (d : Nat)
  deriving DecidableEq, Repr

/-- `linkState` (R45). -/
inductive LinkPhase where
  | notStarted
  | scanningForLink
  | waitingForNegotiation
  | configuring
  | done
  deriving DecidableEq, Repr

/-- `selected` (R46). -/
inductive Selection where
  | none
  | addr (a : PhyAddress)
  | connector (c : Nat)
  | alternateWiring
  deriving DecidableEq, Repr

/-- `mediaState` (R46). -/
inductive MediaState where
  | connected
  | disconnected
  deriving DecidableEq, Repr

/-- `deviceState` (R47). -/
inductive Lifecycle where
  | uninitialised
  | running
  | withdrawn
  | halting
  | halted
  deriving DecidableEq, Repr

/-- A timer (R49). -/
inductive TimerState where
  | idle
  | armed
  deriving DecidableEq, Repr

/-- `ruPhase` (R50 c). -/
inductive RuPhase where
  | none
  | statusDone
  | countDone
  deriving DecidableEq, Repr

/-- The property a read asks for (R218, R219). -/
inductive Property where
  | linkSpeed
  | mediaState
  deriving DecidableEq, Repr

/-- The value of `CompleteRequest` (R218, R219, R241). -/
inductive PropertyValue where
  | speed (code : BitVec 4)
  | media (m : MediaState)
  | cancelled
  deriving DecidableEq, Repr

/-- One frame of an indication (R165). -/
structure IndicatedFrame where
  d : Nat
  bytes : List Byte
  low : Bool
  deriving DecidableEq, Repr

/-- The events of `S.events` (R13). -/
inductive Event where
  | completeSend (p : Packet) (s : Status)
  | indicateReceived (frames : List IndicatedFrame) (count : Nat)
  | wireTx (bytes : List Byte)
  | completeRequest (request : Word) (value : PropertyValue)
  | powerTransitionComplete
  deriving DecidableEq, Repr

/-- What `PhyProbe` returns (R36, R109). -/
structure PhyRecord where
  present : Bool
  linkUp : Bool
  negotiationComplete : Bool
  duplex : BitVec 1
  speed : BitVec 4
  deriving DecidableEq, Repr

/-- The four locks (spec/20_memory.md R84, R85). -/
inductive Lock where
  | dev
  | tx
  | rx
  | cmd
  deriving DecidableEq, Repr

/-- A live allocation (R77, R78). -/
structure Region where
  base : Nat
  size : Nat
  deriving DecidableEq, Repr

/-- One step of a device agent, with the values it draws (R20, R114). -/
inductive DeviceStep where
  /-- the Acceptor consumes `COMMAND` (R194) -/
  | accept
  /-- the CU executes the descriptor at its cursor (R146) -/
  | cuExecute
  /-- the RU writes the status halfword (R176) -/
  | ruStatus (ok : Bool)
  /-- the RU writes the payload and the count halfword (R177) -/
  | ruCount (bytes : List Byte)
  /-- the PHY agent changes `PHYSTAT[a]` (R223) -/
  | phy (a : PhyAddress) (r : PhyRecord)
  deriving DecidableEq, Repr

/-- One step that some agent takes next: what the environment presents to the block. -/
inductive Stimulus where
  /-- a host-side agent presents a request word (R100) -/
  | request (w : RequestWord)
  /-- a device agent takes a step (R20) -/
  | device (d : DeviceStep)
  /-- a host-side agent writes a device register directly (R70, U2, U3) -/
  | registerWrite (offset : Nat) (v : Word)
  /-- the second transition of TEARDOWN (R241) -/
  | teardownFinish
  /-- the caller writes its own bytes of shared memory (R70); what the model does where the bytes are not the caller's to
  write is said at `occur` and in log entry 23 -/
  | memoryWrite (addr : Nat) (bytes : List Byte)
  /-- the environment enters a packet in its table (R102) -/
  | providePacket (p : Packet)
  /-- the environment enters a multicast list in its table (R102, R221) -/
  | provideMcastList (handle : Word) (addresses : List Nat)
  /-- the next answer of the shared-memory allocator (R78) -/
  | allocatorReply (r : Option Nat)
  /-- the next answer of the lookaside allocator (R78) -/
  | lookasideReply (ok : Bool)
  deriving DecidableEq, Repr

/-! ## The parts of the state -/

/-- The device registers (R31 to R36). `PORT` is write-only and holds nothing (R35). -/
structure Registers where
  status : Word
  command : Word
  pointer : Word
  intmask : Word
  phystat : Vector Word 32
  deriving DecidableEq, Repr

/-- The hidden state of the CU and the RU (R50 b, c). -/
structure Units where
  cuCursor : Nat
  ruCursor : Option Nat
  ruPhase : RuPhase
  deriving DecidableEq, Repr

/-- The transmit ring (R21, R25, R37 to R40). `base` is `Phys(txDesc[0])` and `bufs` the list of `Phys(localBuf[b])`
(R79, R240 step 1). -/
structure TxRing where
  base : Nat
  bufs : List Nat
  head : Nat
  tail : Nat
  busyCount : Nat
  shadow : List TxShadow
  localBufFree : List Nat
  waitQueue : List Packet
  transmitIdle : Bool
  resumeWaitNeeded : Bool
  deriving DecidableEq, Repr

/-- The receive ring (R23, R28, R41 to R44). `shadows` is the finite map from descriptor ids to shadow records (R130),
ids rising. -/
structure RxRing where
  shadows : List (Nat × RxShadow)
  readyList : List Nat
  pendingList : List Nat
  readyCount : Nat
  currentCount : Nat
  outstandingReceives : Nat
  allocState : AllocState
  lowCount : Nat
  shrinkCounter : Nat
  deriving DecidableEq, Repr

/-- The link machine, its results and the operations it defers (R29, R45, R46, R49). -/
structure Link where
  phase : LinkPhase
  candidateAddressIndex : Nat
  foundAddress : Option PhyAddress
  waitCounter : Nat
  waitingForNegotiation : Bool
  selected : Selection
  speed : BitVec 4
  duplex : BitVec 1
  media : MediaState
  timer : TimerState
  pendingReset : Bool
  pendingFilter : Option Word
  pendingMcast : Option (List Nat)
  pendingPropertyReads : List (Word × Property)
  deriving DecidableEq, Repr

/-- Device-level state (R24, R26, R29, R47 to R49). -/
structure Device where
  lifecycle : Lifecycle
  power : PowerState
  powerTransitionPending : Bool
  packetFilter : Word
  mcastList : List Nat
  hardwareError : Bool
  nonRecoverable : Bool
  consecutiveResetFailures : Nat
  refCount : Nat
  healthTimer : TimerState
  deriving DecidableEq, Repr

/-- A set of locks (R84, R85). -/
structure Held where
  dev : Bool
  tx : Bool
  rx : Bool
  cmd : Bool
  deriving DecidableEq, Repr

/-- No lock. -/
def Held.none : Held := ⟨false, false, false, false⟩

/-- Who holds which lock (R84 to R86): `mine` are the locks of the host-side operation that is running, `others` those of
the operations of other contexts that it runs inside. -/
structure Locks where
  mine : Held
  others : Held
  deriving DecidableEq, Repr

/-- No lock held by anyone. -/
def Locks.free : Locks := ⟨Held.none, Held.none⟩

/-- How far the one TEARDOWN of the device's life has come ("torn down exactly once", R138): `beginning` while its first
transition is under way, `finished` once its second has freed the rings (log entry 14). -/
inductive TeardownPhase where
  | notUnderWay
  | beginning
  | finished
  deriving DecidableEq, Repr

/-- The model's own fields: what the environment will do, as plain data the step reads (log entries 3 to 6).
`schedule`: which agent steps next. `interleaved`: for each point inside a host-side operation, what the other agents,
device agents and other host-side contexts alike, do there (R82, R86, R87, R281, R285 d). `packets`, `mcastLists`: the
tables the environment owns (R102). `sharedReplies`, `lookasideReplies`: the answers of the allocators (R78).
`liveRegions`: the allocations not yet returned. `isrActive`: INTERRUPT is under way (R279). `startActive`: START is under
way and the device not yet `Running`. `teardown`: how far TEARDOWN has come (R138, R241). `completions`, `indications`: the
packets RECLAIM has retired and the batches HARVEST has gathered whose upward events are still to be made, oldest first
(R89, R90, log entry 31). `submits`: how many SUBMITs are under way past their check of `deviceState` (log entry 33).
`callbackResults`: the statuses of the requests run inside others. -/
structure Ports where
  schedule : List Stimulus
  interleaved : List (List Stimulus)
  packets : List Packet
  mcastLists : List (Word × List Nat)
  sharedReplies : List (Option Nat)
  lookasideReplies : List Bool
  liveRegions : List Region
  isrActive : Bool
  startActive : Bool
  teardown : TeardownPhase
  completions : List Packet
  indications : List (List IndicatedFrame)
  submits : Nat
  callbackResults : List Status
  deriving DecidableEq, Repr

/-- Shared memory: (address, byte) pairs, addresses strictly rising, no byte equal to what an unlisted address reads as
(Machine/Ops.lean: `unlistedByte`, `Memory.wf`). -/
structure Memory where
  cells : List Host.Cell
  deriving DecidableEq, Repr

/-- The whole machine. `result` is the status the last presented request returned (R270), none while a TEARDOWN it
began has not finished. -/
structure State where
  cfg : Config
  regs : Registers
  units : Units
  tx : TxRing
  rx : RxRing
  link : Link
  dev : Device
  mem : Memory
  locks : Locks
  events : List Event
  result : Option Status
  ports : Ports
  deriving DecidableEq, Repr

/-! ## Reasons to stop -/

/-- The faults: states "no rule of this spec produces from a correct environment" (spec/60_exceptions.md R293,
spec/93_implementation_defined.md U2 to U5, U8), and accesses to places that do not exist. -/
inductive Fault where
  /-- An `assert` of a rule is false (R13, R293), or a rule meets a state its own text excludes. Raised by TEARDOWN's
  second transition, by the link tick, by descriptor accesses to a descriptor without an address, by the detach of a
  descriptor that another context has returned already, and by a second completion of one allocation. Safe. -/
  | assertionViolated
  /-- A reserved command code was written to `COMMAND` (R112, U2). Raised by a direct register write and by the
  Acceptor. Safe: the spec calls it a fault. -/
  | reservedCommand
  /-- A reserved value was written to `PORT` (R112, U3). Raised by a direct register write. Safe. -/
  | reservedPortCode
  /-- The `POINTER` of a start command is misaligned or names no descriptor of the right kind (R74, R195, R197, U4). By
  the Acceptor. Safe. -/
  | badStartPointer
  /-- A `link` that a unit follows is misaligned or names no descriptor (R74, R178, D11, U4). Raised by the CU, the RU and
  the Acceptor. Safe. -/
  | danglingLink
  /-- `COMMAND` was written while a command other than a resume under a resume was pending (R198, U5). Safe. -/
  | commandOverrun
  /-- The allocator answered with a region that overlaps a live one, holds address 0 or passes 2^32 (U8), or in which the
  descriptor would be misaligned (R7, R110, R111). Raised by START and GROW_COMPLETE. Safe. -/
  | badAllocation
  /-- A byte outside the 32-bit address space (R70) was accessed. Safe. -/
  | noSuchAddress
  /-- A direct write to an offset where no register is (R106). Safe. -/
  | noSuchRegister
  /-- A lock was taken against the order `dev`, `tx`, `rx`, `cmd` or while held, or an upward event was emitted while a
  lock was held (R85, R87, R317, R318), or a request waits for a lock or a service while no other operation is under way
  to end the wait. Safe: no operation of the spec does it. -/
  | lockDiscipline
  deriving DecidableEq, Repr

/-- The refusals. -/
inductive Refusal where
  /-- An instruction without a meaning; raised by exec's refused arms only (there is none). Safe. -/
  | notModelled (mnemonic : String)
  deriving DecidableEq, Repr

/-! ## Reset (R54, R310) -/

/-- The registers at power-on (R54, R310): `PHYSTAT` is unspecified there; zeros are a DESIGN CHOICE, log entry 7. -/
def Registers.reset : Registers where
  status := 0
  command := 0
  pointer := 0
  intmask := 1
  phystat := Vector.replicate 32 0

/-- No ring exists before START (R310); the counters and flags of the table of R54 stand at its values. -/
def TxRing.reset : TxRing where
  base := 0
  bufs := []
  head := 0
  tail := 0
  busyCount := 0
  shadow := []
  localBufFree := []
  waitQueue := []
  transmitIdle := true
  resumeWaitNeeded := true

/-- No receive descriptor exists before START (R310). -/
def RxRing.reset : RxRing where
  shadows := []
  readyList := []
  pendingList := []
  readyCount := 0
  currentCount := 0
  outstandingReceives := 0
  allocState := .idle
  lowCount := 0
  shrinkCounter := 0

/-- The link machine not started (R54). -/
def Link.reset (c : Config) : Link where
  phase := .notStarted
  candidateAddressIndex := 0
  foundAddress := none
  waitCounter := 0
  waitingForNegotiation := false
  selected := .none
  speed := c.defaultSpeed
  duplex := c.defaultDuplex
  media := .disconnected
  timer := .idle
  pendingReset := false
  pendingFilter := none
  pendingMcast := none
  pendingPropertyReads := []

/-- Device-level state at power-on (R54, R310). -/
def Device.reset : Device where
  lifecycle := .uninitialised
  power := .fullyPowered
  powerTransitionPending := false
  packetFilter := 0
  mcastList := []
  hardwareError := false
  nonRecoverable := false
  consecutiveResetFailures := 0
  refCount := 0
  healthTimer := .idle

/-- The ports at reset: nothing scheduled; the allocators will answer as the example allocator of
spec/95_test_vectors.md section 1 (DESIGN CHOICE, log entry 6, unsafe: no statement rests on it). -/
def Ports.reset : Ports where
  schedule := []
  interleaved := []
  packets := []
  mcastLists := []
  sharedReplies := [some 0x1000, some 0x4000, some 0x4800, some 0x2000, some 0x2200, some 0x2400, some 0x2600]
  lookasideReplies := [true, true, true, true, true, true]
  liveRegions := []
  isrActive := false
  startActive := false
  teardown := .notUnderWay
  completions := []
  indications := []
  submits := 0
  callbackResults := []

/-- The machine at power-on (R54, R310). -/
def State.reset : State where
  cfg := Config.cfgT
  regs := Registers.reset
  units := ⟨0, none, .none⟩
  tx := TxRing.reset
  rx := RxRing.reset
  link := Link.reset Config.cfgT
  dev := Device.reset
  mem := ⟨[]⟩
  locks := Locks.free
  events := []
  result := none
  ports := Ports.reset

end Sys2Proof.Machine
end

