-- ==== Sys2Proof/Machine/Ops.lean ====
section
/-!
DEFINITION. The named operations everything else is made of: operations that may fault, the shared memory, the locks,
the event history, error entry and return, and the allocation ports.
-/
namespace Sys2Proof

/-! ## Derived constants (spec/00_scope.md R8) -/

/-- `TD_SIZE = 12 + 8 * maxFragments`. -/
def Config.tdSize (c : Config) : Nat := 12 + 8 * c.maxFragments

/-- `RD_SIZE = 16`. -/
def rdSize : Nat := 16

/-- The region of one receive descriptor: `rxAlignShift + RD_SIZE + rxBufferCapacity` bytes (R135). -/
def Config.rxRegionSize (c : Config) : Nat := c.rxAlignShift + rdSize + c.rxBufferCapacity

/-- `next(i) = (i + 1) mod NumTcb` (R11). -/
def Config.next (c : Config) (i : Nat) : Nat := (i + 1) % c.numTcb

/-- `prev(i) = (i + NumTcb - 1) mod NumTcb` (R11). -/
def Config.prev (c : Config) (i : Nat) : Nat := (i + c.numTcb - 1) % c.numTcb

end Sys2Proof

namespace Sys2Proof.Machine

/-! ## Status names (R270) -/

/-- `Sent` is the name of code 0 as the result of SUBMIT. -/
abbrev Status.sent : Status := .ok

/-- `Success` is the name of code 0 inside `CompleteSend`. -/
abbrev Status.success : Status := .ok

/-- The numbers of R270. -/
def Status.code : Status → Nat
  | .ok => 0
  | .queued => 1
  | .resourcesExhausted => 2
  | .hardError => 3
  | .cancelled => 4
  | .nonRecoverable => 5
  | .pending => 6
  | .invalidRequest => 7
  | .linkDown => 8
  | .notMine => 9

/-! ## Operations -/

/-- Why an operation gives no answer: it stops the machine with a fault, or it cannot go on before an operation of
another context that is under way has gone on. -/
inductive Stop where
  | fault (f : Fault)
  | wait
  deriving DecidableEq, Repr

/-- A computation on the state that answers a value or stops. -/
abbrev Op := StateT State (Except Stop)

/-- Stop with a fault (R13, R293). -/
def fault {α : Type} (f : Fault) : Op α := fun _ => .error (.fault f)

/-- Wait for another context. -/
def blocked {α : Type} : Op α := fun _ => .error .wait

/-- Read a value off the state. -/
def read {α : Type} (f : State → α) : Op α := fun s => .ok (f s, s)

/-- Change the state. -/
def update (f : State → State) : Op Unit := fun s => .ok ((), f s)

/-! ## One named update per part of the state -/

def State.mapRegs (f : Registers → Registers) (s : State) : State := { s with regs := f s.regs }
def State.mapUnits (f : Units → Units) (s : State) : State := { s with units := f s.units }
def State.mapTx (f : TxRing → TxRing) (s : State) : State := { s with tx := f s.tx }
def State.mapRx (f : RxRing → RxRing) (s : State) : State := { s with rx := f s.rx }
def State.mapLink (f : Link → Link) (s : State) : State := { s with link := f s.link }
def State.mapDev (f : Device → Device) (s : State) : State := { s with dev := f s.dev }
def State.mapMem (f : Memory → Memory) (s : State) : State := { s with mem := f s.mem }
def State.mapLocks (f : Locks → Locks) (s : State) : State := { s with locks := f s.locks }
def State.mapEvents (f : List Event → List Event) (s : State) : State := { s with events := f s.events }
def State.mapPorts (f : Ports → Ports) (s : State) : State := { s with ports := f s.ports }
def State.withResult (r : Option Status) (s : State) : State := { s with result := r }

def updateRegs (f : Registers → Registers) : Op Unit := update (State.mapRegs f)
def updateUnits (f : Units → Units) : Op Unit := update (State.mapUnits f)
def updateTx (f : TxRing → TxRing) : Op Unit := update (State.mapTx f)
def updateRx (f : RxRing → RxRing) : Op Unit := update (State.mapRx f)
def updateLink (f : Link → Link) : Op Unit := update (State.mapLink f)
def updateDev (f : Device → Device) : Op Unit := update (State.mapDev f)
def updatePorts (f : Ports → Ports) : Op Unit := update (State.mapPorts f)

/-! ## Shared memory (R70, R73, R82) -/

/-- What a byte nothing has written reads as. The spec gives shared memory no contents; 0 is a DESIGN CHOICE
(log entry 8), unsafe. -/
def unlistedByte : Byte := 0

/-- The byte at an address. -/
def loadCell : List Host.Cell → Nat → Byte
  | [], _ => unlistedByte
  | (k, b) :: rest, a => if k = a then b else loadCell rest a

/-- The canonical list with `b` at address `a`: an address that reads as an unlisted one is not listed. -/
def storeCell : List Host.Cell → Nat → Byte → List Host.Cell
  | [], a, b => if b = unlistedByte then [] else [(a, b)]
  | (k, c) :: rest, a, b =>
    if a < k then (if b = unlistedByte then (k, c) :: rest else (a, b) :: (k, c) :: rest)
    else if a = k then (if b = unlistedByte then rest else (a, b) :: rest)
    else (k, c) :: storeCell rest a b

/-- Addresses strictly rising above `low`, and no listed byte equal to `unlistedByte`. -/
def cellsAbove : Option Nat → List Host.Cell → Bool
  | _, [] => true
  | low, (k, b) :: rest =>
    (match low with
      | none => true
      | some l => decide (l < k)) && b != unlistedByte && cellsAbove (some k) rest

/-- The canonical form of memory. -/
def Memory.wf (m : Memory) : Bool := cellsAbove none m.cells

/-- Reading one byte. -/
def Memory.byte (m : Memory) (a : Nat) : Byte := loadCell m.cells a

/-- Writing one byte. -/
def Memory.setByte (m : Memory) (a : Nat) (b : Byte) : Memory := ⟨storeCell m.cells a b⟩

/-- `n` bytes from `a` up. -/
def Memory.readBytes (m : Memory) : Nat → Nat → List Byte
  | _, 0 => []
  | a, n + 1 => m.byte a :: m.readBytes (a + 1) n

/-- Writing bytes from `a` up. -/
def Memory.writeBytes (m : Memory) : Nat → List Byte → Memory
  | _, [] => m
  | a, b :: bs => (m.setByte a b).writeBytes (a + 1) bs

/-- Little-endian: the byte at the lowest address holds bits 7:0 (R73). -/
def Memory.read16 (m : Memory) (a : Nat) : Halfword := m.byte (a + 1) ++ m.byte a

/-- A 32-bit little-endian read (R73). -/
def Memory.read32 (m : Memory) (a : Nat) : Word :=
  m.byte (a + 3) ++ m.byte (a + 2) ++ m.byte (a + 1) ++ m.byte a

/-- The bytes of a halfword, lowest first (R73). -/
def bytesOf16 (v : Halfword) : List Byte := [v.extractLsb' 0 8, v.extractLsb' 8 8]

/-- The bytes of a word, lowest first (R73). -/
def bytesOf32 (v : Word) : List Byte :=
  [v.extractLsb' 0 8, v.extractLsb' 8 8, v.extractLsb' 16 8, v.extractLsb' 24 8]

def Memory.write16 (m : Memory) (a : Nat) (v : Halfword) : Memory := m.writeBytes a (bytesOf16 v)
def Memory.write32 (m : Memory) (a : Nat) (v : Word) : Memory := m.writeBytes a (bytesOf32 v)

/-- One past the last address: physical addresses have 32 bits (R70). -/
def addressSpace : Nat := 4294967296

/-- The `n` bytes from `a` lie in the address space. -/
def inSpace (a n : Nat) : Bool := decide (a + n ≤ addressSpace)

/-- `MemRead` as bytes (R12). -/
def memRead (a n : Nat) : Op (List Byte) :=
  if inSpace a n then read (fun s => s.mem.readBytes a n) else fault .noSuchAddress

/-- `MemWrite` as bytes (R12). -/
def memWrite (a : Nat) (bs : List Byte) : Op Unit :=
  if inSpace a bs.length then update (State.mapMem (fun m => m.writeBytes a bs)) else fault .noSuchAddress

def memRead8 (a : Nat) : Op Byte :=
  if inSpace a 1 then read (fun s => s.mem.byte a) else fault .noSuchAddress

def memRead16 (a : Nat) : Op Halfword :=
  if inSpace a 2 then read (fun s => s.mem.read16 a) else fault .noSuchAddress

def memRead32 (a : Nat) : Op Word :=
  if inSpace a 4 then read (fun s => s.mem.read32 a) else fault .noSuchAddress

def memWrite8 (a : Nat) (v : Byte) : Op Unit :=
  if inSpace a 1 then update (State.mapMem (fun m => m.setByte a v)) else fault .noSuchAddress

def memWrite16 (a : Nat) (v : Halfword) : Op Unit :=
  if inSpace a 2 then update (State.mapMem (fun m => m.write16 a v)) else fault .noSuchAddress

def memWrite32 (a : Nat) (v : Word) : Op Unit :=
  if inSpace a 4 then update (State.mapMem (fun m => m.write32 a v)) else fault .noSuchAddress

/-! ## Alignment (R7, R74, D11) -/

/-- Whether a descriptor may stand at an address, and the address be handed to the device (R74, R110, R111). -/
def Config.aligned (c : Config) (a : Nat) : Bool := a % c.descAlign == 0

/-! ## Locks (R84 to R86, R317) -/

/-- Whether an operation that holds these locks may take `l`: neither `l` nor a lock inside it in the order `dev`, `tx`,
`rx`, `cmd` is held. -/
def Held.mayTake (ls : Held) : Lock → Bool
  | .dev => !ls.dev && !ls.tx && !ls.rx && !ls.cmd
  | .tx => !ls.tx && !ls.rx && !ls.cmd
  | .rx => !ls.rx && !ls.cmd
  | .cmd => !ls.cmd

/-- Whether `l` is held. -/
def Held.has (ls : Held) : Lock → Bool
  | .dev => ls.dev
  | .tx => ls.tx
  | .rx => ls.rx
  | .cmd => ls.cmd

/-- The locks with one changed. -/
def Held.put (ls : Held) (l : Lock) (held : Bool) : Held :=
  match l with
  | .dev => { ls with dev := held }
  | .tx => { ls with tx := held }
  | .rx => { ls with rx := held }
  | .cmd => { ls with cmd := held }

/-- The locks of both. -/
def Held.union (a b : Held) : Held := ⟨a.dev || b.dev, a.tx || b.tx, a.rx || b.rx, a.cmd || b.cmd⟩

/-- The running operation's locks with one changed. -/
def Locks.put (ls : Locks) (l : Lock) (held : Bool) : Locks := { ls with mine := ls.mine.put l held }

/-- The locks as an operation of another context finds them that runs inside the running one. -/
def Locks.inside (ls : Locks) : Locks := ⟨Held.none, ls.mine.union ls.others⟩

/-- `lock(L)` (R14, R85): a lock that another operation under way holds is waited for. -/
def lock (l : Lock) : Op Unit := do
  let ls ← read (fun s => s.locks)
  if !ls.mine.mayTake l then fault .lockDiscipline
  else if ls.others.has l then blocked
  else update (State.mapLocks (fun x => x.put l true))

/-- `unlock(L)` (R14). -/
def unlock (l : Lock) : Op Unit := update (State.mapLocks (fun x => x.put l false))

/-! ## Events (R13, R87) -/

/-- Append to `S.events`. -/
def record (e : Event) : Op Unit := update (State.mapEvents (fun es => es ++ [e]))

/-- An event to the upper layer: emitted only while the emitting agent holds no lock (R87, R318). -/
def emit (e : Event) : Op Unit := do
  let mine ← read (fun s => s.locks.mine)
  if mine = Held.none then record e else fault .lockDiscipline

/-! ## Error entry and return (spec/60_exceptions.md R272, R282, R284)

The block has no trap: what stands in its place is the sticky hardware-error flag (R282: "Nothing else is saved: no
register is stacked, no mode changes, no mask changes, control returns to the requester"). -/

/-- Error entry: `hardwareError <- true`. -/
def errorEntry : Op Unit := updateDev (fun d => { d with hardwareError := true })

/-- The clearing of the flag, by RESET and START only (R26, R284). -/
def errorReturn : Op Unit := updateDev (fun d => { d with hardwareError := false })

/-- The write by which an operation of R272 hands a descriptor to the hardware (R132), and whether it is made: "Once
`hardwareError` is set, no operation writes ... a descriptor handoff until RESET has cleared it" (R320). Those operations hand
over transmit descriptors only, through PLACE; the re-arming of receive descriptors follows R163 and R242 (log entry 29). The
flag is read by one atomic access (D59). -/
def handOver (write : Op Unit) : Op Bool := do
  let broken ← read (fun s => s.dev.hardwareError)
  if broken then pure false
  else do
    write
    pure true

/-- `assert(c)` (R13). -/
def assert (c : Bool) : Op Unit := if c then pure () else fault .assertionViolated

/-! ## Reference count (R24, R88) -/

/-- `refCount <- refCount + 1`. -/
def retain : Op Unit := updateDev (fun d => { d with refCount := d.refCount + 1 })

/-- `refCount <- refCount - 1`, guarded: a count of 0 is not decremented (R11). -/
def release : Op Unit := updateDev (fun d => if 0 < d.refCount then { d with refCount := d.refCount - 1 } else d)

/-! ## Allocation ports (R77, R78, U8, U14) -/

/-- The two regions share no byte. -/
def Region.disjoint (a b : Region) : Bool := decide (a.base + a.size ≤ b.base) || decide (b.base + b.size ≤ a.base)

/-- What the model may assume of an answer of the shared-memory allocator (U8). -/
def regionAllowed (live : List Region) (r : Region) : Bool :=
  decide (0 < r.base) && inSpace r.base r.size && live.all (fun l => l.disjoint r)

/-- Enter a region the allocator delivered; a region it may not deliver is a fault (U8). -/
def addRegion (r : Region) : Op Unit := do
  let allowed ← read (fun s => regionAllowed s.ports.liveRegions r)
  if allowed then updatePorts (fun p => { p with liveRegions := p.liveRegions ++ [r] }) else fault .badAllocation

/-- A descriptor is to stand at `a`: an allocator's answer that makes it misaligned is a fault (R7, R110, R111). -/
def requireAligned (a : Nat) : Op Unit := do
  let ok ← read (fun s => Config.aligned s.cfg a)
  if ok then pure () else fault .badAllocation

/-- Return the region at a base address to the allocator. -/
def freeRegion (base : Nat) : Op Unit :=
  updatePorts (fun p => { p with liveRegions := p.liveRegions.filter (fun r => r.base != base) })

/-- Ask the shared-memory allocator for `size` bytes: its next answer, or failure when it has none left. -/
def allocShared (size : Nat) : Op (Option Nat) := do
  let replies ← read (fun s => s.ports.sharedReplies)
  match replies with
  | [] => pure none
  | none :: rest => do
    updatePorts (fun p => { p with sharedReplies := rest })
    pure none
  | some base :: rest => do
    updatePorts (fun p => { p with sharedReplies := rest })
    addRegion ⟨base, size⟩
    pure (some base)

/-- Ask the lookaside allocator for a shadow record: its next answer, or failure when it has none left. -/
def allocShadow : Op Bool := do
  let replies ← read (fun s => s.ports.lookasideReplies)
  match replies with
  | [] => pure false
  | ok :: rest => do
    updatePorts (fun p => { p with lookasideReplies := rest })
    pure ok

/-- `count` regions of `size` bytes, or none as soon as one fails. -/
def allocSharedMany : Nat → Nat → Op (Option (List Nat))
  | 0, _ => pure (some [])
  | n + 1, size => do
    let r ← allocShared size
    match r with
    | none => pure none
    | some base => do
      let rest ← allocSharedMany n size
      pure (rest.map (fun bases => base :: bases))

/-- `count` shadow records, or false as soon as one fails. -/
def allocShadows : Nat → Op Bool
  | 0 => pure true
  | n + 1 => do
    let ok ← allocShadow
    if ok then allocShadows n else pure false

/-- The smallest natural not in the list (R130, D60). -/
def freshId (used : List Nat) : Nat :=
  ((List.range (used.length + 1)).find? (fun d => !used.contains d)).getD 0

/-- A set of naturals as a strictly rising list: the list with `b` (R39). -/
def insertSorted (b : Nat) : List Nat → List Nat
  | [] => [b]
  | x :: xs => if b < x then b :: x :: xs else if b = x then x :: xs else x :: insertSorted b xs

/-! ## The finite map of receive shadow records (R42, R130) -/

/-- `rxShadow[d]`, if `d` exists. -/
def RxRing.shadow? (r : RxRing) (d : Nat) : Option RxShadow := (r.shadows.find? (fun e => e.1 == d)).map (·.2)

/-- Put a record under an id, ids rising. -/
def putShadow (d : Nat) (x : RxShadow) : List (Nat × RxShadow) → List (Nat × RxShadow)
  | [] => [(d, x)]
  | (k, y) :: rest =>
    if d < k then (d, x) :: (k, y) :: rest
    else if d = k then (d, x) :: rest
    else (k, y) :: putShadow d x rest

/-- Change the record of an existing id. -/
def RxRing.mapShadow (d : Nat) (f : RxShadow → RxShadow) (r : RxRing) : RxRing :=
  { r with shadows := r.shadows.map (fun e => if e.1 = d then (e.1, f e.2) else e) }

/-- Remove an id. -/
def RxRing.dropShadow (d : Nat) (r : RxRing) : RxRing :=
  { r with shadows := r.shadows.filter (fun e => e.1 != d) }

/-! ## The transmit shadow records (R38) -/

/-- A free slot's shadow record (R134). -/
def TxShadow.clear : TxShadow := ⟨false, false, false, none, none, 0⟩

/-- `txShadow[i]`. -/
def TxRing.shadowAt (t : TxRing) (i : Nat) : TxShadow := t.shadow.getD i TxShadow.clear

/-- Change `txShadow[i]`. -/
def TxRing.mapShadow (i : Nat) (f : TxShadow → TxShadow) (t : TxRing) : TxRing :=
  { t with shadow := t.shadow.set i (f (t.shadowAt i)) }

/-! ## Ending a request -/

/-- What a stop is between steps: with no operation under way, nothing can end a wait. -/
def Stop.toFault : Stop → Fault
  | .fault f => f
  | .wait => .lockDiscipline

/-- A request's outcome: its status is recorded, a fault stops the machine (R13, R270). -/
def answer (m : Op Status) (s : State) : Host.Outcome State Fault Refusal :=
  match m s with
  | .ok (st, t) => .next (t.withResult (some st))
  | .error e => .fault e.toFault

/-- As `answer`, for TEARDOWN, which returns its status later (R241). -/
def answerLater (m : Op (Option Status)) (s : State) : Host.Outcome State Fault Refusal :=
  match m s with
  | .ok (st, t) => .next (t.withResult st)
  | .error e => .fault e.toFault

/-- A device step's outcome: no status. -/
def outcome (m : Op Unit) (s : State) : Host.Outcome State Fault Refusal :=
  match m s with
  | .ok (_, t) => .next t
  | .error e => .fault e.toFault

end Sys2Proof.Machine
end

