-- ==== Sys2Proof/Machine/Flags.lean ====
section
/-!
DEFINITION. The fields of the device registers (spec/30_encoding.md R107 to R109), the interrupt line
(spec/60_exceptions.md R275, R276), the registers as an address map (R106) and their reads and writes, the port resets
(spec/43_command_coordinator.md R199, R200) included, since they are executed inside the register write (R35).
-/
namespace Sys2Proof.Machine

/-! ## STATUS (R31, R107) -/

/-- `CUS`, bits 1:0. -/
def statusCus (w : Word) : BitVec 2 := w.extractLsb' 0 2
/-- `RUS`, bits 3:2. -/
def statusRus (w : Word) : BitVec 2 := w.extractLsb' 2 2

/-- Code 0: `Idle`, for both units. -/
def unitIdle : BitVec 2 := 0
/-- Code 1: `Suspended`, for both units. -/
def unitSuspended : BitVec 2 := 1
/-- Code 2: `Active` for the CU, `Ready` for the RU. -/
def unitActive : BitVec 2 := 2

/-- The word with `CUS` replaced. -/
def withCus (v : BitVec 2) (w : Word) : Word := (w &&& 0xFFFFFFFC#32) ||| v.setWidth 32
/-- The word with `RUS` replaced. -/
def withRus (v : BitVec 2) (w : Word) : Word := (w &&& 0xFFFFFFF3#32) ||| (v.setWidth 32 <<< 2)

/-- `CX`: the CU completed a descriptor. -/
def causeCX : Word := 0x100
/-- `FR`: the RU completed a frame. -/
def causeFR : Word := 0x200
/-- `CNA`: the CU left `Active`. -/
def causeCNA : Word := 0x400
/-- `RNR`: the RU left `Ready`. -/
def causeRNR : Word := 0x800
/-- The four cause bits, `STATUS & 0x00000F00`. -/
def causeMask : Word := 0xF00

/-- The cause bits of a word. -/
def causesOf (w : Word) : Word := w &&& causeMask

/-- `M` of INTMASK: the line is masked (R34, R108). -/
def maskBit (w : Word) : Bool := w.getLsbD 0

/-- "The interrupt line is asserted exactly when `(STATUS & 0xF00) != 0` and `INTMASK.M = 0`" (R276). -/
def State.lineAsserted (s : State) : Bool := (causesOf s.regs.status != 0) && !maskBit s.regs.intmask

/-- Raise causes. -/
def raiseCauses (c : Word) (r : Registers) : Registers := { r with status := r.status ||| c }

/-! ## PHYSTAT (R36, R109) -/

/-- The word of a record. -/
def PhyRecord.toWord (r : PhyRecord) : Word :=
  (BitVec.ofBool r.present).setWidth 32 ||| ((BitVec.ofBool r.linkUp).setWidth 32 <<< 1) |||
  ((BitVec.ofBool r.negotiationComplete).setWidth 32 <<< 2) ||| (r.duplex.setWidth 32 <<< 3) |||
  (r.speed.setWidth 32 <<< 4)

/-- The record of a word. -/
def phyRecordOf (w : Word) : PhyRecord :=
  ⟨w.getLsbD 0, w.getLsbD 1, w.getLsbD 2, w.extractLsb' 3 1, w.extractLsb' 4 4⟩

/-! ## COMMAND (R32, R104) -/

/-- `COMMAND.code`, bits 7:0. -/
def commandCode (w : Word) : Byte := w.extractLsb' 0 8

/-- Code of CU_START. -/
def codeCuStart : Byte := 1
/-- Code of CU_RESUME. -/
def codeCuResume : Byte := 2
/-- Code of RU_START. -/
def codeRuStart : Byte := 3

/-- The codes the host may write (R104, R190). -/
def legalCode (c : Byte) : Bool := c == codeCuStart || c == codeCuResume || c == codeRuStart

/-- A write of `new` over a pending `old` that loses a command (R198, U5): anything but a resume over a resume. -/
def overruns (old new : Byte) : Bool := old != 0 && !(old == codeCuResume && new == codeCuResume)

/-! ## Port resets (R199, R200) -/

/-- `PORT <- SELECTIVE_RESET`: units idle, command dropped, `ruPhase` cleared, everything else kept. -/
def selectiveReset : Op Unit := do
  updateRegs (fun r => { r with status := withRus unitIdle (withCus unitIdle r.status), command := 0 })
  updateUnits (fun u => { u with ruPhase := .none })

/-- `PORT <- FULL_RESET`: that, and `POINTER`, the causes, the mask and the cursors to their power-on values. -/
def fullReset : Op Unit := do
  selectiveReset
  updateRegs (fun r =>
    { r with pointer := 0, status := r.status &&& ~~~causeMask, intmask := r.intmask ||| 1 })
  updateUnits (fun u => { u with cuCursor := 0, ruCursor := none })

/-! ## The register map (R106) -/

/-- The device registers by name. -/
inductive Register where
  | status
  | command
  | pointer
  | intmask
  | port
  | phystat (a : PhyAddress)
  deriving DecidableEq, Repr

/-- Byte offset in register space. -/
def Register.offset : Register → Nat
  | .status => 0x00
  | .command => 0x04
  | .pointer => 0x08
  | .intmask => 0x0C
  | .port => 0x10
  | .phystat a => 0x80 + 4 * a.val

/-- The register at an offset, if there is one. -/
def registerAt (offset : Nat) : Option Register :=
  if offset = 0x00 then some .status
  else if offset = 0x04 then some .command
  else if offset = 0x08 then some .pointer
  else if offset = 0x0C then some .intmask
  else if offset = 0x10 then some .port
  else if h : 0x80 ≤ offset ∧ offset < 0x100 ∧ offset % 4 = 0 then
    some (.phystat ⟨(offset - 0x80) / 4, by omega⟩)
  else none

/-- `RegRead(r)`: no side effect (R76); `PORT` reads 0 (R35). -/
def regRead (r : Register) : Op Word :=
  match r with
  | .status => read (fun s => s.regs.status)
  | .command => read (fun s => s.regs.command)
  | .pointer => read (fun s => s.regs.pointer)
  | .intmask => read (fun s => s.regs.intmask)
  | .port => read (fun _ => 0)
  | .phystat a => read (fun s => s.regs.phystat[a])

/-- A write of `COMMAND`: makes a command pending (R32, R76); a reserved code (U2) and an overrun (U5) are faults. -/
def writeCommand (v : Word) : Op Unit := do
  let old ← regRead .command
  if !(legalCode (commandCode v) || commandCode v == 0) then fault .reservedCommand
  else if overruns (commandCode old) (commandCode v) then fault .commandOverrun
  else updateRegs (fun r => { r with command := v &&& 0xFF })

/-- A write of `PORT`: the reset is executed inside the write (R35, R105); any other value is a fault (U3). -/
def writePort (v : Word) : Op Unit :=
  if v = 1 then selectiveReset
  else if v = 2 then fullReset
  else fault .reservedPortCode

/-- `RegWrite(r, v)`. `STATUS`: cause bits are write-1-to-clear, everything else ignores the write (R31, R277).
`INTMASK`: bit 0 only. `PHYSTAT` is read-only: a write is ignored, as `STATUS` ignores one of its read-only bits (log
entry 9). -/
def regWrite (r : Register) (v : Word) : Op Unit :=
  match r with
  | .status => updateRegs (fun g => { g with status := g.status &&& ~~~(v &&& causeMask) })
  | .command => writeCommand v
  | .pointer => updateRegs (fun g => { g with pointer := v })
  | .intmask => updateRegs (fun g => { g with intmask := v &&& 1 })
  | .port => writePort v
  | .phystat _ => pure ()

/-- A write by offset: where no register is, a fault. -/
def regWriteAt (offset : Nat) (v : Word) : Op Unit :=
  match registerAt offset with
  | some r => regWrite r v
  | none => fault .noSuchRegister

end Sys2Proof.Machine
end

