-- ==== Sys2Proof/Machine/Operands.lean ====
section
/-!
DEFINITION. The descriptor fields as operands: `Phys` of the objects (spec/20_memory.md R79), the transmit descriptor
(spec/30_encoding.md R110) and the receive descriptor (R111), one `MemRead` or `MemWrite` of a field's width per
access (R12). Reserved bits are written 0 and ignored when read (R112, U9).
-/
namespace Sys2Proof.Machine

/-! ## Physical addresses (R79, R240 step 1) -/

/-- `Phys(txDesc[i])`: the TD array is contiguous. -/
def State.tdAddr (s : State) (i : Nat) : Nat := s.tx.base + i * s.cfg.tdSize

/-- `Phys(localBuf[b])`. -/
def State.bufAddr (s : State) (b : Nat) : Nat := s.tx.bufs.getD b 0

/-- `rxShadow[d].hwAddress`, if `d` exists and has its region. -/
def State.rdAddr? (s : State) (d : Nat) : Option Nat := (s.rx.shadow? d).bind (·.hwAddress)

/-- The slot whose TD is at an address. TEARDOWN.finish leaves `base` and the shadow records in place, so a slot of the
array it has returned still counts as one here (log entry 24). -/
def State.slotAt? (s : State) (a : Nat) : Option Nat :=
  (List.range s.tx.shadow.length).find? (fun i => s.tdAddr i == a)

/-- The receive descriptor at an address. -/
def State.rdAt? (s : State) (a : Nat) : Option Nat :=
  (s.rx.shadows.find? (fun e => e.2.hwAddress == some a)).map (·.1)

/-- The posted receive descriptor at an address. -/
def State.postedAt? (s : State) (a : Nat) : Option Nat :=
  (s.rx.shadows.find? (fun e => e.2.hwAddress == some a && e.2.state == .posted)).map (·.1)

/-! ## Transmit descriptors (R110) -/

/-- Status halfword with `C`. -/
def tdStatusWord (c : Bool) : Halfword := if c then 0x8000 else 0
/-- Command halfword with `S`. -/
def tdCommandWord (sBit : Bool) : Halfword := if sBit then 0x4000 else 0

/-- `txDesc[i].C`. -/
def State.tdC (s : State) (i : Nat) : Bool := (s.mem.read16 (s.tdAddr i)).getLsbD 15
/-- `txDesc[i].S`. -/
def State.tdS (s : State) (i : Nat) : Bool := (s.mem.read16 (s.tdAddr i + 2)).getLsbD 14
/-- `txDesc[i].link`. -/
def State.tdLink (s : State) (i : Nat) : Word := s.mem.read32 (s.tdAddr i + 4)
/-- `txDesc[i].fragCount`. -/
def State.tdFragCount (s : State) (i : Nat) : Byte := s.mem.byte (s.tdAddr i + 8)
/-- `txDesc[i].frag[k].addr`. -/
def State.tdFragAddr (s : State) (i k : Nat) : Word := s.mem.read32 (s.tdAddr i + 12 + 8 * k)
/-- `txDesc[i].frag[k].len`. -/
def State.tdFragLen (s : State) (i k : Nat) : Word := s.mem.read32 (s.tdAddr i + 16 + 8 * k)

def readTdC (i : Nat) : Op Bool := do
  let a ← read (fun s => s.tdAddr i)
  let h ← memRead16 a
  pure (h.getLsbD 15)

def writeTdC (i : Nat) (c : Bool) : Op Unit := do
  let a ← read (fun s => s.tdAddr i)
  memWrite16 a (tdStatusWord c)

def readTdS (i : Nat) : Op Bool := do
  let a ← read (fun s => s.tdAddr i)
  let h ← memRead16 (a + 2)
  pure (h.getLsbD 14)

def writeTdS (i : Nat) (b : Bool) : Op Unit := do
  let a ← read (fun s => s.tdAddr i)
  memWrite16 (a + 2) (tdCommandWord b)

def readTdLink (i : Nat) : Op Word := do
  let a ← read (fun s => s.tdAddr i)
  memRead32 (a + 4)

def writeTdLink (i : Nat) (v : Word) : Op Unit := do
  let a ← read (fun s => s.tdAddr i)
  memWrite32 (a + 4) v

def readTdFragCount (i : Nat) : Op Byte := do
  let a ← read (fun s => s.tdAddr i)
  memRead8 (a + 8)

def writeTdFragCount (i : Nat) (n : Byte) : Op Unit := do
  let a ← read (fun s => s.tdAddr i)
  memWrite8 (a + 8) n

/-- The reserved field of 24 bits behind `fragCount`, stored as 0 (R110, U9). -/
def writeTdReserved (i : Nat) : Op Unit := do
  let a ← read (fun s => s.tdAddr i)
  memWrite (a + 9) [0, 0, 0]

def readTdFragAddr (i k : Nat) : Op Word := do
  let a ← read (fun s => s.tdAddr i)
  memRead32 (a + 12 + 8 * k)

def writeTdFragAddr (i k : Nat) (v : Word) : Op Unit := do
  let a ← read (fun s => s.tdAddr i)
  memWrite32 (a + 12 + 8 * k) v

def readTdFragLen (i k : Nat) : Op Word := do
  let a ← read (fun s => s.tdAddr i)
  memRead32 (a + 16 + 8 * k)

def writeTdFragLen (i k : Nat) (v : Word) : Op Unit := do
  let a ← read (fun s => s.tdAddr i)
  memWrite32 (a + 16 + 8 * k) v

/-! ## Receive descriptors (R111) -/

/-- Status halfword with `C` and `OK`. -/
def rdStatusWord (c okBit : Bool) : Halfword := (if c then 0x8000 else 0) ||| (if okBit then 0x2000 else 0)
/-- Command halfword with `EL`. -/
def rdCommandWord (el : Bool) : Halfword := if el then 0x8000 else 0
/-- Count halfword with `count` and `V`. -/
def rdCountWord (count : Nat) (v : Bool) : Halfword :=
  (BitVec.ofNat 14 count).setWidth 16 ||| (if v then 0x8000 else 0)
/-- Capacity halfword. -/
def rdCapacityWord (capacity : Nat) : Halfword := (BitVec.ofNat 14 capacity).setWidth 16

/-- A field of the RD at an address, off the status halfword. -/
def Memory.rdC (m : Memory) (a : Nat) : Bool := (m.read16 a).getLsbD 15
def Memory.rdOK (m : Memory) (a : Nat) : Bool := (m.read16 a).getLsbD 13
def Memory.rdEL (m : Memory) (a : Nat) : Bool := (m.read16 (a + 2)).getLsbD 15
def Memory.rdLink (m : Memory) (a : Nat) : Word := m.read32 (a + 4)
def Memory.rdPayloadPtr (m : Memory) (a : Nat) : Word := m.read32 (a + 8)
def Memory.rdCount (m : Memory) (a : Nat) : Nat := ((m.read16 (a + 12)).extractLsb' 0 14).toNat
def Memory.rdV (m : Memory) (a : Nat) : Bool := (m.read16 (a + 12)).getLsbD 15
def Memory.rdCapacity (m : Memory) (a : Nat) : Nat := ((m.read16 (a + 14)).extractLsb' 0 14).toNat

/-- Where the RD of `d` is; a descriptor without an address is met by no rule. -/
def rdAddrOf (d : Nat) : Op Nat := do
  let a ← read (fun s => s.rdAddr? d)
  match a with
  | some x => pure x
  | none => fault .assertionViolated

def readRdC (d : Nat) : Op Bool := do
  let a ← rdAddrOf d
  let h ← memRead16 a
  pure (h.getLsbD 15)

def readRdOK (d : Nat) : Op Bool := do
  let a ← rdAddrOf d
  let h ← memRead16 a
  pure (h.getLsbD 13)

/-- The status halfword, one write (R163, R176). -/
def writeRdStatus (d : Nat) (c okBit : Bool) : Op Unit := do
  let a ← rdAddrOf d
  memWrite16 a (rdStatusWord c okBit)

def readRdEL (d : Nat) : Op Bool := do
  let a ← rdAddrOf d
  let h ← memRead16 (a + 2)
  pure (h.getLsbD 15)

def writeRdEL (d : Nat) (el : Bool) : Op Unit := do
  let a ← rdAddrOf d
  memWrite16 (a + 2) (rdCommandWord el)

def readRdLink (d : Nat) : Op Word := do
  let a ← rdAddrOf d
  memRead32 (a + 4)

def writeRdLink (d : Nat) (v : Word) : Op Unit := do
  let a ← rdAddrOf d
  memWrite32 (a + 4) v

def readRdPayloadPtr (d : Nat) : Op Word := do
  let a ← rdAddrOf d
  memRead32 (a + 8)

def writeRdPayloadPtr (d : Nat) (v : Word) : Op Unit := do
  let a ← rdAddrOf d
  memWrite32 (a + 8) v

def readRdCount (d : Nat) : Op Nat := do
  let a ← rdAddrOf d
  let h ← memRead16 (a + 12)
  pure (h.extractLsb' 0 14).toNat

def readRdV (d : Nat) : Op Bool := do
  let a ← rdAddrOf d
  let h ← memRead16 (a + 12)
  pure (h.getLsbD 15)

/-- The count halfword, one write (R163, R177). -/
def writeRdCount (d : Nat) (count : Nat) (v : Bool) : Op Unit := do
  let a ← rdAddrOf d
  memWrite16 (a + 12) (rdCountWord count v)

def readRdCapacity (d : Nat) : Op Nat := do
  let a ← rdAddrOf d
  let h ← memRead16 (a + 14)
  pure (h.extractLsb' 0 14).toNat

def writeRdCapacity (d : Nat) (capacity : Nat) : Op Unit := do
  let a ← rdAddrOf d
  memWrite16 (a + 14) (rdCapacityWord capacity)

/-- A physical address as the 32-bit value a register or field holds. -/
def addrWord (a : Nat) : Word := BitVec.ofNat 32 a

/-- The owner of a descriptor is hardware exactly when its completion bit is 0 (R131). -/
def State.tdOwnedByHardware (s : State) (i : Nat) : Bool := !s.tdC i

end Sys2Proof.Machine
end

