-- ==== Sys2Proof/Machine/Units.lean ====
section
/-!
DEFINITION. The device agents: the Acceptor and the three commands it accepts (spec/43_command_coordinator.md R194 to
R197), the command unit (spec/41_transmit_ring.md R146, R147), the receive unit (spec/42_receive_ring.md R175 to R179),
the PHY agent (spec/44_link_phy.md R223). Every device step is atomic: it makes its accesses with nothing between them.
A step that is not enabled changes nothing (R147, R179).
-/
namespace Sys2Proof.Machine

/-! ## Accepting a command -/

/-- The command register reads clear: the "accepted" signal (R194). -/
def clearCommand : Op Unit := updateRegs (fun r => { r with command := 0 })

/-- The transmit slot a unit takes from an address handed to it, in `POINTER` or in a `link`: a misaligned address names
none (R74, D11). -/
def State.slotGiven? (s : State) (a : Nat) : Option Nat := if Config.aligned s.cfg a then s.slotAt? a else none

/-- The receive descriptor the Acceptor takes from `POINTER`: a misaligned address names none (R74, D11). -/
def State.rdGiven? (s : State) (a : Nat) : Option Nat := if Config.aligned s.cfg a then s.rdAt? a else none

/-- The posted receive descriptor the RU takes from a `link`: a misaligned address names none (R74, D11, U4). -/
def State.postedGiven? (s : State) (a : Nat) : Option Nat := if Config.aligned s.cfg a then s.postedAt? a else none

/-- Accept `CU_START` (R195). -/
def acceptCuStart : Op Unit := do
  let slot ← read (fun s => s.slotGiven? s.regs.pointer.toNat)
  match slot with
  | none => fault .badStartPointer
  | some i => do
    updateUnits (fun u => { u with cuCursor := i })
    updateRegs (fun r => { r with status := withCus unitActive r.status })
    clearCommand

/-- Accept `CU_RESUME` (R196): idempotent; it moves a suspended CU on only if `S` of its descriptor is now 0. -/
def acceptCuResume : Op Unit := do
  let cus ← read (fun s => statusCus s.regs.status)
  if cus = unitSuspended then do
    let i ← read (fun s => s.units.cuCursor)
    let stop ← readTdS i
    if stop then clearCommand
    else do
      let l ← readTdLink i
      let slot ← read (fun s => s.slotGiven? l.toNat)
      match slot with
      | none => fault .danglingLink
      | some j => do
        updateUnits (fun u => { u with cuCursor := j })
        updateRegs (fun r => { r with status := withCus unitActive r.status })
        clearCommand
  else clearCommand

/-- Accept `RU_START` (R197). -/
def acceptRuStart : Op Unit := do
  let d ← read (fun s => s.rdGiven? s.regs.pointer.toNat)
  match d with
  | none => fault .badStartPointer
  | some d => do
    updateUnits (fun u => { u with ruCursor := some d, ruPhase := .none })
    updateRegs (fun r => { r with status := withRus unitActive r.status })
    clearCommand

/-- `dev.ACCEPT` (R194): enabled when `COMMAND.code != 0`; a reserved code is a fault (U2). -/
def accept : Op Unit := do
  let c ← read (fun s => commandCode s.regs.command)
  if c = 0 then pure ()
  else if c = codeCuStart then acceptCuStart
  else if c = codeCuResume then acceptCuResume
  else if c = codeRuStart then acceptRuStart
  else fault .reservedCommand

/-! ## The command unit -/

/-- The concatenation of fragments `ks` of slot `i` (R80). -/
def gatherFragments (i : Nat) : List Nat → Op (List Byte)
  | [] => pure []
  | k :: ks => do
    let a ← readTdFragAddr i k
    let l ← readTdFragLen i k
    let bytes ← memRead a.toNat l.toNat
    let rest ← gatherFragments i ks
    pure (bytes ++ rest)

/-- The effect of CU_EXECUTE on slot `i` (R146): `C` is the last field written, then `S` and `link` are read. -/
def cuExecuteSlot (i : Nat) : Op Unit := do
  let n ← readTdFragCount i
  let frame ← gatherFragments i (List.range n.toNat)
  record (.wireTx frame)
  writeTdC i true
  updateRegs (raiseCauses causeCX)
  let stop ← readTdS i
  if stop then
    updateRegs (fun r => raiseCauses causeCNA { r with status := withCus unitSuspended r.status })
  else do
    let l ← readTdLink i
    let slot ← read (fun s => s.slotGiven? l.toNat)
    match slot with
    | none => fault .danglingLink
    | some j => updateUnits (fun u => { u with cuCursor := j })

/-- `dev.CU_EXECUTE` (R146, R147): enabled when the CU is active and the descriptor at its cursor is the hardware's. -/
def cuExecute : Op Unit := do
  let i ← read (fun s => s.units.cuCursor)
  let active ← read (fun s => decide (statusCus s.regs.status = unitActive) && decide (i < s.tx.shadow.length))
  if active then do
    let c ← readTdC i
    if c then pure () else cuExecuteSlot i
  else pure ()

/-! ## The receive unit -/

/-- RU_ADVANCE (R178): the tail of whichever of the two steps comes second. -/
def ruAdvance (d : Nat) : Op Unit := do
  updateUnits (fun u => { u with ruPhase := .none })
  updateRegs (raiseCauses causeFR)
  let el ← readRdEL d
  if el then do
    updateRegs (fun r => raiseCauses causeRNR { r with status := withRus unitIdle r.status })
    updateUnits (fun u => { u with ruCursor := none })
  else do
    let l ← readRdLink d
    let next ← read (fun s => s.postedGiven? l.toNat)
    match next with
    | none => fault .danglingLink
    | some e => updateUnits (fun u => { u with ruCursor := some e })

/-- The descriptor the RU may act on (R175): the unit is ready and its cursor names an existing descriptor. -/
def ruTarget (s : State) : Option Nat :=
  if statusRus s.regs.status = unitActive then
    match s.units.ruCursor with
    | some d => if (s.rdAddr? d).isSome then some d else none
    | none => none
  else none

/-- The RU's phase allows the step that leaves `blocked`: it is `None` with the descriptor hardware-owned, or the other
half is done (R175 to R177). -/
def ruMay (d : Nat) (blocked : RuPhase) : Op Bool := do
  let phase ← read (fun s => s.units.ruPhase)
  if phase = .none then do
    let c ← readRdC d
    pure (!c)
  else pure (phase != blocked)

/-- `dev.RU_STATUS(ok)` (R176). -/
def ruStatus (okBit : Bool) : Op Unit := do
  let target ← read ruTarget
  match target with
  | none => pure ()
  | some d => do
    let may ← ruMay d .statusDone
    if may then do
      writeRdStatus d true okBit
      let phase ← read (fun s => s.units.ruPhase)
      if phase = .none then updateUnits (fun u => { u with ruPhase := .statusDone })
      else ruAdvance d
    else pure ()

/-- `dev.RU_COUNT(bytes)` (R177); a frame of length 0 or over the capacity is no frame or is lost (R175, R179). -/
def ruCount (bytes : List Byte) : Op Unit := do
  let target ← read ruTarget
  match target with
  | none => pure ()
  | some d => do
    let may ← ruMay d .countDone
    let capacity ← readRdCapacity d
    if may && decide (1 ≤ bytes.length) && decide (bytes.length ≤ capacity) then do
      let p ← readRdPayloadPtr d
      memWrite p.toNat bytes
      writeRdCount d bytes.length true
      let phase ← read (fun s => s.units.ruPhase)
      if phase = .none then updateUnits (fun u => { u with ruPhase := .countDone })
      else ruAdvance d
    else pure ()

/-! ## The PHY agent -/

/-- `dev.PHY(a, …)` (R223). -/
def phyChange (a : PhyAddress) (r : PhyRecord) : Op Unit :=
  updateRegs (fun g => { g with phystat := g.phystat.set a.val r.toWord })

/-- One step of a device agent. -/
def deviceStep : DeviceStep → Op Unit
  | .accept => accept
  | .cuExecute => cuExecute
  | .ruStatus okBit => ruStatus okBit
  | .ruCount bytes => ruCount bytes
  | .phy a r => phyChange a r

/-! ## What other agents do inside a host-side operation (R82, R86, R87, R281, R285 d) -/

/-- How a step of another agent is taken inside a host-side operation (Machine/Reentry.lean). -/
abbrev Handler := Stimulus → Op Unit

/-- What an agent does that finds what it needs held by the operation it is inside: nothing yet; it begins when the
operation under way has ended (log entry 26). -/
def State.postpone (e : Stimulus) (s : State) : State := s.mapPorts (fun p => { p with schedule := e :: p.schedule })

/-- One step of another agent, taken whole, with the locks of the operation under way held by others. -/
def intrude (h : Handler) (e : Stimulus) : Op Unit := fun s =>
  match h e (s.mapLocks Locks.inside) with
  | .ok (_, t) => .ok ((), t.mapLocks (fun _ => s.locks))
  | .error .wait => .ok ((), s.postpone e)
  | .error (.fault f) => .error (.fault f)

/-- Steps of other agents, in order. -/
def intrudeAll (h : Handler) : List Stimulus → Op Unit
  | [] => pure ()
  | e :: es => do
    intrude h e
    intrudeAll h es

/-- A point between two accesses of a host-side operation: what the schedule holds for it is done. -/
def point (h : Handler) : Op Unit := do
  let held ← read (fun s => s.ports.interleaved)
  match held with
  | [] => pure ()
  | es :: rest => do
    updatePorts (fun p => { p with interleaved := rest })
    intrudeAll h es

/-- One access of a host-side agent to a register or to shared memory. -/
def host {α : Type} (h : Handler) (m : Op α) : Op α := do
  point h
  m

/-- `Sync(f)` (spec/20_memory.md R94): one step, never inside an INTERRUPT. -/
def sync {α : Type} (h : Handler) (m : Op α) : Op α := do
  point h
  let serving ← read (fun s => s.ports.isrActive)
  if serving then blocked else m

/-- An upward event and what the upper layer, or any other agent, does inside its callback. -/
def callback (h : Handler) (e : Event) : Op Unit := do
  emit e
  point h

/-- Callbacks in order; "other agents may act between them" (R143). -/
def callbacks (h : Handler) : List Event → Op Unit
  | [] => pure ()
  | e :: es => do
    point h
    callback h e
    callbacks h es

/-- Upward events that wait in the ports, oldest first: `next` answers the first and the ports without it. At most `fuel` of
them are made (all there are, so the bound never ends it). Other contexts may act before and after each (R143, R165); an
operation of the same kind among them makes first what waits here, which keeps the order (R89, R90; log entry 31). -/
def callbacksDue (h : Handler) (next : Ports → Option (Event × Ports)) : Nat → Op Unit
  | 0 => pure ()
  | fuel + 1 => do
    point h
    let due ← read (fun s => next s.ports)
    match due with
    | none => pure ()
    | some (e, p) => do
      updatePorts (fun _ => p)
      callback h e
      callbacksDue h next fuel

end Sys2Proof.Machine
end

