-- ==== Sys2Proof/Machine/Coordinator.lean ====
section
/-!
DEFINITION. The command/status coordinator (spec/43_command_coordinator.md): WAIT_ACCEPT and ISSUE_COMMAND, their forms
inside other operations and their request forms, and the meanings of the three command codes and the two port codes.
-/
namespace Sys2Proof.Machine

/-- WAIT_ACCEPT_LOCKED(budget) (R191): at most `budget` reads of `COMMAND`, a yield between two of them; when they run
out, the sticky flag is set (error entry). Other agents may act between the last read and that (R281): a command taken there is
taken too late. A budget of 0 reads nothing and fails; no rule asks for one. -/
def waitAcceptLocked (h : Handler) : Nat → Op Bool
  | 0 => do
    host h errorEntry
    pure false
  | n + 1 => do
    let w ← host h (regRead .command)
    if commandCode w = 0 then pure true
    else if n = 0 then do
      host h errorEntry
      pure false
    else do
      point h
      waitAcceptLocked h n

/-- ISSUE_COMMAND from its wait on (R190), lock `cmd` held. Neither register is written where the sticky error has been set by
then (R320); while the lock is held no other context can set it (R191). -/
def writeCommandLocked (h : Handler) (code : Byte) (mustWaitFirst : Bool) (pointer : Word) : Op Status := do
  let budget ← read (fun s => s.cfg.acceptPollBudget)
  let accepted ← if mustWaitFirst then waitAcceptLocked h budget else pure true
  let broken ← read (fun s => s.dev.hardwareError)
  if !accepted || broken then pure .hardError
  else do
    if code ≠ codeCuResume then host h (regWrite .pointer pointer) else pure ()
    host h (regWrite .command (code.setWidth 32))
    updateTx (fun t => { t with resumeWaitNeeded := code != codeCuResume })
    pure .ok

/-- ISSUE_COMMAND as an operation that holds lock `cmd` calls it (R190): its short-circuit, then the rest. -/
def issueLocked (h : Handler) (code : Byte) (mustWaitFirst : Bool) (pointer : Word) : Op Status := do
  let broken ← read (fun s => s.dev.hardwareError)
  if broken then pure .hardError
  else writeCommandLocked h code mustWaitFirst pointer

/-- ISSUE_COMMAND as a request (R190): the refusals, its short-circuit on `hardwareError`, then the rest under lock `cmd`. Where
another context has set the flag between the two, no register is written (R320). -/
def issueRequest (h : Handler) (mustWaitFirst : Bool) (code : BitVec 7) (pointer : Word) : Op Status := do
  let c : Byte := code.setWidth 8
  let running ← read (fun s => decide (s.dev.lifecycle = .running))
  if !legalCode c then pure .invalidRequest
  else if c = codeCuResume ∧ pointer ≠ 0 then pure .invalidRequest
  else if !running then pure .invalidRequest
  else do
    point h
    let broken ← read (fun s => s.dev.hardwareError)
    if broken then pure .hardError
    else do
      point h
      lock .cmd
      let r ← writeCommandLocked h c mustWaitFirst pointer
      unlock .cmd
      pure r

/-- WAIT_ACCEPT as a request (R191). -/
def waitRequest (h : Handler) (budget : Word) : Op Status := do
  let running ← read (fun s => decide (s.dev.lifecycle = .running))
  if budget = 0 ∨ running = false then pure .invalidRequest
  else do
    point h
    lock .cmd
    let b ← waitAcceptLocked h budget.toNat
    unlock .cmd
    pure (if b then .ok else .hardError)

/-! ## Meanings -/

/-- CU_START, as the Acceptor takes it from `COMMAND` (R194, R195). -/
def execCuStart (s : State) : Host.Outcome State Fault Refusal := outcome acceptCuStart s

/-- CU_RESUME, as the Acceptor takes it from `COMMAND` (R194, R196). -/
def execCuResume (s : State) : Host.Outcome State Fault Refusal := outcome acceptCuResume s

/-- RU_START, as the Acceptor takes it from `COMMAND` (R194, R197). -/
def execRuStart (s : State) : Host.Outcome State Fault Refusal := outcome acceptRuStart s

/-- SELECTIVE_RESET, inside the write of `PORT` (R199). -/
def execSelectiveReset (s : State) : Host.Outcome State Fault Refusal := outcome selectiveReset s

/-- FULL_RESET, inside the write of `PORT` (R200). -/
def execFullReset (s : State) : Host.Outcome State Fault Refusal := outcome fullReset s

end Sys2Proof.Machine
end

