-- ==== Sys2Proof/Machine/Transmit.lean ====
section
/-!
DEFINITION. The transmit side: POOL_INIT_TX (spec/40_descriptor_pool.md R134), PLACE, COALESCE, SUBMIT, RECLAIM, DRAIN
and CANCEL (spec/41_transmit_ring.md R140 to R145). Descriptor writes follow the order of R313.
-/
namespace Sys2Proof.Machine

/-! ## POOL_INIT_TX (R134) -/

/-- The descriptor part, slots `is` in order. -/
def initDescriptors (h : Handler) : List Nat → Op Unit
  | [] => pure ()
  | i :: is => do
    host h (writeTdC i true)
    host h (writeTdS i false)
    let next ← read (fun s => s.tdAddr (s.cfg.next i))
    host h (writeTdLink i (addrWord next))
    host h (writeTdFragCount i 0)
    initDescriptors h is

/-- "reinitializes the ring from scratch"; lock `tx` held. -/
def poolInitTx (h : Handler) : Op Unit := do
  let n ← read (fun s => s.cfg.numTcb)
  initDescriptors h (List.range n)
  let bufs ← read (fun s => s.cfg.numLocalBuf)
  updateTx (fun t =>
    { t with shadow := List.replicate n TxShadow.clear, localBufFree := List.range bufs,
             head := 0, tail := 0, busyCount := 0, waitQueue := [] })

/-- The packets the ring holds, oldest first: those of the `busyCount` slots from the head, then the queue (R241,
R242). -/
def State.heldPackets (s : State) : List Packet :=
  ((List.range s.tx.busyCount).filterMap
    (fun k => (s.tx.shadowAt ((s.tx.head + k) % s.cfg.numTcb)).packet)) ++ s.tx.waitQueue

/-- The packets that RESET and TEARDOWN fail, the ring rebuilt (R241, R242); lock `tx` held. -/
def abortHeld (h : Handler) : Op (List Packet) := do
  let aborted ← read State.heldPackets
  poolInitTx h
  pure aborted

/-! ## COALESCE (R142) -/

/-- Copy fragments one after the other to `dst` up. -/
def copyFragments (h : Handler) : Nat → List Fragment → Op Unit
  | _, [] => pure ()
  | dst, f :: fs => do
    let bytes ← host h (memRead f.addr.toNat f.len.toNat)
    host h (memWrite dst bytes)
    copyFragments h (dst + f.len.toNat) fs

/-- `n` single zero bytes from `dst` up. -/
def zeroPad (h : Handler) : Nat → Nat → Op Unit
  | _, 0 => pure ()
  | dst, n + 1 => do
    host h (memWrite dst [0])
    zeroPad h (dst + 1) n

/-- Copy the packet into local buffer `b` and pad it to the minimum frame size. -/
def coalesceInto (h : Handler) (b : Nat) (p : Packet) : Op Unit := do
  let dst ← read (fun s => s.bufAddr b)
  let minimum ← read (fun s => s.cfg.minFrameSize)
  copyFragments h dst p.frags
  zeroPad h (dst + p.totalLen) (minimum - p.totalLen)

/-- "the packet is smaller than a minimum frame size or has more physical fragments than the hardware scatter-gather
limit" (R141, R142). -/
def Config.mustCoalesce (c : Config) (p : Packet) : Bool :=
  decide (p.totalLen < c.minFrameSize) || decide (c.maxFragments < p.frags.length)

/-! ## PLACE (R141) -/

/-- The fragment pairs of the zero-copy path. -/
def writeFragments (h : Handler) (t : Nat) : Nat → List Fragment → Op Unit
  | _, [] => pure ()
  | k, f :: fs => do
    host h (writeTdFragAddr t k f.addr)
    host h (writeTdFragLen t k f.len)
    writeFragments h t (k + 1) fs

/-- Give the slot back: software owns it again, its shadow is clear (R141). It writes `C` only, as ROLLBACK's pseudocode: with
`NumTcb = 1` the slot is its own predecessor, and the `S` that PLACE set on it stays set, where R141's Statuses clause has
`txDesc[q].S` as before the call (log entry 34, DESIGN CHOICE). -/
def rollback (h : Handler) (t : Nat) : Op Unit := do
  host h (writeTdC t true)
  updateTx (fun x =>
    let sh := x.shadowAt t
    let freed := match sh.usesLocalBuf, sh.localBuf with
      | true, some b => insertSorted b x.localBufFree
      | _, _ => x.localBufFree
    { x.mapShadow t (fun _ => TxShadow.clear) with localBufFree := freed })

/-- The command part of PLACE (R141, R313 steps 4 to 6), lock `cmd` held: true when the command was written. The status
of the resume is not looked at, as R141 does not (log entry 25). -/
def placeCommand (h : Handler) (t : Nat) : Op Bool := do
  let idle ← read (fun s => s.tx.transmitIdle)
  if idle then do
    let a ← read (fun s => s.tdAddr t)
    let r ← issueLocked h codeCuStart true (addrWord a)
    if r = .hardError then pure false
    else do
      updateTx (fun x => { x with transmitIdle := false })
      pure true
  else do
    let mustWait ← read (fun s => s.tx.resumeWaitNeeded)
    let budget ← read (fun s => s.cfg.acceptPollBudget)
    let accepted ← if mustWait then waitAcceptLocked h budget else pure true
    if !accepted then pure false
    else do
      let q ← read (fun s => s.cfg.prev t)
      host h (writeTdS q false)
      let _ ← issueLocked h codeCuResume false 0
      pure true

/-- The same from the taking of lock `cmd` to its release. -/
def placeIssue (h : Handler) (t : Nat) : Op Bool := do
  point h
  lock .cmd
  let issued ← placeCommand h t
  unlock .cmd
  pure issued

/-- Fill slot `t` with its payload fields: true, or false when a local buffer is needed and none is free. -/
def placeFill (h : Handler) (t : Nat) (p : Packet) : Op Bool := do
  let coalescing ← read (fun s => Config.mustCoalesce s.cfg p)
  if coalescing then do
    let free ← read (fun s => s.tx.localBufFree)
    match free with
    | [] => pure false
    | b :: rest => do
      updateTx (fun x => { x with localBufFree := rest })
      coalesceInto h b p
      updateTx (fun x => x.mapShadow t (fun sh => { sh with usesLocalBuf := true, localBuf := some b }))
      host h (writeTdFragCount t 1)
      let buf ← read (fun s => s.bufAddr b)
      let minimum ← read (fun s => s.cfg.minFrameSize)
      host h (writeTdFragAddr t 0 (addrWord buf))
      host h (writeTdFragLen t 0 (addrWord (max p.totalLen minimum)))
      pure true
  else do
    host h (writeTdFragCount t (BitVec.ofNat 8 p.frags.length))
    writeFragments h t 0 p.frags
    pure true

/-- PLACE (R141); lock `tx` held, a slot free. That `hardwareError` is false its callers have checked; where another
context has set the flag since, the slot is not handed over (R320), and the roll-back is R282's. A flag set after the handoff
makes the start path answer HardError by ISSUE_COMMAND's own check, and the resume path goes on (log entry 25). -/
def place (h : Handler) (p : Packet) : Op Status := do
  let t ← read (fun s => s.tx.tail)
  let filled ← placeFill h t p
  if !filled then pure .resourcesExhausted
  else do
    updateTx (fun x => x.mapShadow t (fun sh => { sh with packet := some p, retryCount := 0 }))
    host h (writeTdS t true)
    let handed ← host h (handOver (writeTdC t false))
    let issued ← if handed then placeIssue h t else pure false
    if !issued then do
      rollback h t
      pure .hardError
    else do
      updateTx (fun x => x.mapShadow t (fun sh => { sh with inUse := true }))
      update (fun s => s.mapTx (fun x => { x with tail := s.cfg.next t, busyCount := x.busyCount + 1 }))
      pure .sent

/-! ## SUBMIT (R140) -/

/-- The precondition on the environment's packet (R140, U7); SUBMIT refuses one that breaks it, as U7 allows
(log entry 10). -/
def Config.packetAllowed (c : Config) (p : Packet) : Bool :=
  decide (p.totalLen ≤ c.maxFrameSize) &&
  p.totalLen == (p.frags.map (fun f => f.len.toNat)).sum &&
  (Config.mustCoalesce c p || p.frags.all (fun f => f.len != 0))

/-- The packet a handle names in the environment's table (R102). -/
def State.packetOf? (s : State) (handle : Word) : Option Packet := s.ports.packets.find? (fun p => p.handle == handle)

/-- Append to the wait queue. -/
def enqueue (p : Packet) : Op Status := do
  updateTx (fun t => { t with waitQueue := t.waitQueue ++ [p] })
  pure .queued

/-- SUBMIT from the link gate on, lock `tx` held. As R140 it tests deviceState no more: a packet that TEARDOWN has come before
is kept in `Halting` all the same, and completed by TEARDOWN's second transition (R292, log entry 33). -/
def submitLocked (h : Handler) (p : Packet) : Op Status := do
  let s ← read id
  if s.link.phase ≠ .done then enqueue p
  else if s.link.media = .disconnected then
    (if s.cfg.noLinkSendPolicy = .failSends then pure .linkDown else enqueue p)
  else if s.tx.waitQueue ≠ [] ∨ s.tx.busyCount = s.cfg.numTcb then enqueue p
  else place h p

/-- SUBMIT past its check of `deviceState`. Other contexts may act between its checks and lock `tx`: one that sets `hardwareError`
there is looked for again by PLACE's handoff only (R320, log entry 25), one that takes the device out of `Running` is not (log
entry 33). -/
def submitAdmitted (h : Handler) (handle : Word) : Op Status := do
  let s ← read id
  match s.packetOf? handle with
  | none => pure .invalidRequest
  | some p =>
    if !Config.packetAllowed s.cfg p then pure .invalidRequest
    else do
      point h
      let broken ← read (fun x => x.dev.hardwareError)
      if broken then pure .hardError
      else do
        point h
        lock .tx
        let r ← submitLocked h p
        unlock .tx
        pure r

/-- SUBMIT. While it is under way TEARDOWN's second transition waits, so that what it keeps is completed (log entry 33). -/
def submit (h : Handler) (handle : Word) : Op Status := do
  let s ← read id
  if s.dev.lifecycle ≠ .running then
    pure (if s.dev.lifecycle = .withdrawn then .nonRecoverable else .invalidRequest)
  else do
    updatePorts (fun x => { x with submits := x.submits + 1 })
    let r ← submitAdmitted h handle
    updatePorts (fun x => { x with submits := x.submits - 1 })
    pure r

/-! ## DRAIN (R144) -/

/-- The condition of DRAIN's loop. -/
def State.mayDrain (s : State) : Bool :=
  !s.tx.waitQueue.isEmpty && decide (s.tx.busyCount < s.cfg.numTcb) && !s.dev.hardwareError &&
  decide (s.link.phase = .done) && decide (s.link.media = .connected)

/-- Remove the head of the wait queue. -/
def popWaitQueue : Op Unit := updateTx (fun t => { t with waitQueue := t.waitQueue.tail })

/-- The loop of DRAIN, at most `fuel` packets (the queue's length, so the bound never ends it): the packets whose
placement failed. -/
def drainLoop (h : Handler) : Nat → Op (List Packet)
  | 0 => pure []
  | fuel + 1 => do
    point h
    let s ← read id
    if s.mayDrain then
      match s.tx.waitQueue with
      | [] => pure []
      | p :: _ => do
        let r ← place h p
        if r = .sent then do
          popWaitQueue
          drainLoop h fuel
        else if r = .resourcesExhausted then pure []
        else do
          popWaitQueue
          pure [p]
    else pure []

/-- DRAIN. -/
def drain (h : Handler) : Op Status := do
  let running ← read (fun s => decide (s.dev.lifecycle = .running))
  if !running then pure .invalidRequest
  else do
    point h
    lock .tx
    let n ← read (fun s => s.tx.waitQueue.length)
    let failed ← drainLoop h n
    unlock .tx
    callbacks h (failed.map (fun p => .completeSend p .hardError))
    pure .ok

/-! ## RECLAIM (R143) -/

/-- Retire slot `i`, the head: its packet, if it holds one. -/
def retire (i : Nat) : Op (List Packet) := do
  let sh ← read (fun s => s.tx.shadowAt i)
  let freed ← read (fun s => match sh.usesLocalBuf, sh.localBuf with
    | true, some b => insertSorted b s.tx.localBufFree
    | _, _ => s.tx.localBufFree)
  update (fun s => s.mapTx (fun t =>
    { t.mapShadow i (fun _ => TxShadow.clear) with
      localBufFree := freed, head := s.cfg.next i, busyCount := t.busyCount - 1 }))
  pure sh.packet.toList

/-- The walk from the head, at most `fuel` slots (`busyCount`, so the bound never ends it). -/
def reclaimLoop (h : Handler) : Nat → Op (List Packet)
  | 0 => pure []
  | fuel + 1 => do
    let i ← read (fun s => s.tx.head)
    let busy ← read (fun s => decide (0 < s.tx.busyCount) && (s.tx.shadowAt i).inUse)
    if busy then do
      let c ← host h (readTdC i)
      if c then do
        let done ← retire i
        let rest ← reclaimLoop h fuel
        pure (done ++ rest)
      else pure []
    else pure []

/-- The oldest retired packet that is not completed yet, as its event. -/
def Ports.nextCompletion (p : Ports) : Option (Event × Ports) :=
  match p.completions with
  | [] => none
  | x :: rest => some (.completeSend x .success, { p with completions := rest })

/-- RECLAIM; it ends by draining the wait queue. What it retires waits, in order, behind what another RECLAIM has retired and
not completed yet, so that completions keep the order of submission (R89, R148; log entry 31). -/
def reclaim (h : Handler) : Op Status := do
  let running ← read (fun s => decide (s.dev.lifecycle = .running))
  if !running then pure .invalidRequest
  else do
    point h
    lock .tx
    let n ← read (fun s => s.tx.busyCount)
    let done ← reclaimLoop h n
    updatePorts (fun p => { p with completions := p.completions ++ done })
    let due ← read (fun s => s.ports.completions.length)
    unlock .tx
    callbacksDue h Ports.nextCompletion due
    point h
    let _ ← drain h
    pure .ok

/-! ## CANCEL (R145) -/

/-- CANCEL. -/
def cancel (h : Handler) (tag : Word) : Op Status := do
  let l ← read (fun s => s.dev.lifecycle)
  if l ≠ .running ∧ l ≠ .withdrawn then pure .invalidRequest
  else do
    point h
    lock .tx
    let matched ← read (fun s => s.tx.waitQueue.filter (fun p => p.tag == tag))
    updateTx (fun t => { t with waitQueue := t.waitQueue.filter (fun p => p.tag != tag) })
    unlock .tx
    callbacks h (matched.map (fun p => .completeSend p .cancelled))
    pure .ok

end Sys2Proof.Machine
end

