-- ==== Sys2Proof/Machine/Receive.lean ====
section
/-!
DEFINITION. The receive side: POOL_ALLOC_RX and POOL_FREE_RX (spec/40_descriptor_pool.md R135, R136), HARVEST, RECYCLE,
ENSURE_STARTED, FLUSH, UPDATE_THRESHOLDS, GROW, GROW_COMPLETE, RX_RETURN and SHRINK (spec/42_receive_ring.md R162 to
R170). Descriptor writes follow the order of R314.
-/
namespace Sys2Proof.Machine

/-! ## The pool -/

/-- POOL_ALLOC_RX with id `d` and region `base` (R135); lock `rx` held. The shadow record of `d` may exist already
(R168). -/
def poolAllocRx (h : Handler) (d base : Nat) : Op Unit := do
  let c ← read (fun s => s.cfg)
  let sh : RxShadow := ⟨.allocationPending, some base, some (base + c.rxAlignShift), c.rxBufferCapacity, 0⟩
  updateRx (fun r => { r with shadows := putShadow d sh r.shadows })
  host h (writeRdStatus d true false)
  host h (writeRdEL d false)
  host h (writeRdLink d 0)
  host h (writeRdPayloadPtr d (addrWord (base + c.rxAlignShift + rdSize)))
  host h (writeRdCount d 0 false)
  host h (writeRdCapacity d c.rxBufferCapacity)

/-- POOL_FREE_RX(d) (R136): the region and the shadow record go back, `d` no longer exists. -/
def poolFreeRx (d : Nat) : Op Unit := do
  let sh ← read (fun s => s.rx.shadow? d)
  match sh.bind (·.allocBase) with
  | some base => freeRegion base
  | none => pure ()
  updateRx (fun r => r.dropShadow d)

/-! ## RECYCLE (R163) -/

/-- The two writes to the previous tail: first the link, then the gate (R163, R314). -/
def openGate (h : Handler) (q : Nat) (address : Nat) : Op Unit := do
  host h (writeRdLink q (addrWord address))
  host h (writeRdEL q false)

/-- RECYCLE_LOCKED(d): re-arm and append; lock `rx` held, `d` in neither list. It tests no flag: `d` is untouched afterwards and
the hardware's, in the error state too (R160, R173; log entry 29). -/
def recycleLocked (h : Handler) (d : Nat) : Op Unit := do
  host h (writeRdCount d 0 false)
  host h (writeRdEL d true)
  host h (writeRdLink d 0)
  host h (writeRdStatus d false false)
  let last ← read (fun s => s.rx.readyList.getLast?)
  let address ← rdAddrOf d
  match last with
  | some q => openGate h q address
  | none => pure ()
  updateRx (fun r =>
    { r.mapShadow d (fun sh => { sh with state := .posted, actualBytes := 0 }) with
      readyList := r.readyList ++ [d], readyCount := r.readyCount + 1 })

/-- `d` exists and is handed to the upper layer. -/
def State.isHanded (s : State) (d : Nat) : Bool :=
  match s.rx.shadow? d with
  | some sh => decide (sh.state = .handedToUpperLayer)
  | none => false

/-- DETACH_PENDING(d) (R169), "state(d) = HandedToUpperLayer": where another context has returned `d` between the
operation's check and its lock, the rule meets a state its own text excludes (log entry 15). -/
def detachPending (d : Nat) : Op Unit := do
  let handed ← read (fun s => s.isHanded d)
  assert handed
  updateRx (fun r =>
    { r with pendingList := r.pendingList.filter (fun x => x != d), outstandingReceives := r.outstandingReceives - 1 })

/-- POWER_CHECK (R169): whether to signal. -/
def powerCheck : Op Bool := do
  let due ← read (fun s => s.dev.powerTransitionPending && s.rx.outstandingReceives == 0)
  if due then do
    updateDev (fun x => { x with powerTransitionPending := false })
    pure true
  else pure false

/-- The signal, outside every lock. -/
def powerSignal (h : Handler) (due : Bool) : Op Unit :=
  if due then callbacks h [.powerTransitionComplete] else pure ()

/-- RECYCLE, the request form. -/
def recycle (h : Handler) (d : Nat) : Op Status := do
  let handed ← read (fun s => s.isHanded d)
  if !handed then pure .invalidRequest
  else do
    point h
    lock .rx
    detachPending d
    recycleLocked h d
    let due ← powerCheck
    unlock .rx
    powerSignal h due
    pure .ok

/-! ## SHRINK and RX_RETURN (R169, R170) -/

/-- SHRINK_ELIGIBLE: strictly more than the threshold, and above the floor. -/
def State.shrinkEligible (s : State) : Bool :=
  decide (s.cfg.shrinkThreshold < s.rx.shrinkCounter) && decide (s.cfg.rxMinWorkingSet < s.rx.currentCount)

/-- SHRINK_LOCKED(d). -/
def shrinkLocked (d : Nat) : Op Unit := do
  poolFreeRx d
  updateRx (fun r => { r with currentCount := r.currentCount - 1 })

/-- RX_RETURN. -/
def rxReturn (h : Handler) (d : Nat) : Op Status := do
  let handed ← read (fun s => s.isHanded d)
  if !handed then pure .invalidRequest
  else do
    point h
    lock .rx
    detachPending d
    let eligible ← read State.shrinkEligible
    if eligible then shrinkLocked d else recycleLocked h d
    let due ← powerCheck
    unlock .rx
    powerSignal h due
    pure .ok

/-- SHRINK, the request form. -/
def shrink (h : Handler) (d : Nat) : Op Status := do
  let handed ← read (fun s => s.isHanded d)
  if !handed then pure .invalidRequest
  else do
    point h
    lock .rx
    let eligible ← read State.shrinkEligible
    if !eligible then do
      unlock .rx
      pure .invalidRequest
    else do
      detachPending d
      shrinkLocked d
      let due ← powerCheck
      unlock .rx
      powerSignal h due
      pure .ok

/-! ## GROW (R167, R168) -/

/-- GROW_LOCKED; lock `rx` held. -/
def growLocked : Op Status := do
  let s ← read id
  if s.cfg.rxMaxCount ≤ s.rx.currentCount ∨ s.rx.allocState ≠ .idle then pure .ok
  else do
    let got ← allocShadow
    if !got then pure .resourcesExhausted
    else do
      let d := freshId (s.rx.shadows.map (·.1))
      updateRx (fun r =>
        { r with
          shadows := putShadow d ⟨.allocationPending, none, none, s.cfg.rxBufferCapacity, 0⟩ r.shadows,
          allocState := .allocationInFlight d, lowCount := 0,
          shrinkCounter := if s.cfg.shrinkResetOnGrow then 0 else r.shrinkCounter })
      retain
      pure .ok

/-- GROW, the request form. -/
def grow (h : Handler) : Op Status := do
  let running ← read (fun s => decide (s.dev.lifecycle = .running))
  if !running then pure .invalidRequest
  else do
    point h
    lock .rx
    let r ← growLocked
    unlock .rx
    pure r

/-- A region the allocator delivers for a receive descriptor: one it may not deliver is a fault (U8), and so is one in
which the descriptor would be misaligned (R7, R111). -/
def takeRegion (base : Nat) : Op Unit := do
  let c ← read (fun s => s.cfg)
  addRegion ⟨base, c.rxRegionSize⟩
  requireAligned (base + c.rxAlignShift)

/-- GROW_COMPLETE (R168). A second completion of the same allocation that comes between its check and its lock meets a
state the rule's text excludes (R287, log entry 15). -/
def growComplete (h : Handler) (success : Bool) (allocBase : Nat) : Op Status := do
  let idle ← read (fun s => decide (s.rx.allocState = .idle))
  if idle then pure .invalidRequest
  else do
    point h
    lock .rx
    let s ← read id
    match s.rx.allocState with
    | .idle => fault .assertionViolated
    | .allocationInFlight d => do
      if success then takeRegion allocBase else pure ()
      if success && decide (s.dev.lifecycle = .running) && decide (s.rx.currentCount < s.cfg.rxMaxCount) then do
        poolAllocRx h d allocBase
        updateRx (fun r => { r with currentCount := r.currentCount + 1 })
        recycleLocked h d
      else do
        if success then freeRegion allocBase else pure ()
        updateRx (fun r => r.dropShadow d)
      updateRx (fun r => { r with allocState := .idle })
      unlock .rx
      point h
      release
      pure .ok

/-! ## UPDATE_THRESHOLDS (R166) -/

/-- One HARVEST is one interval: under-supplied or over-supplied. -/
def updateThresholds : Op Unit := do
  let s ← read id
  if s.rx.readyCount < s.cfg.rxLowWater then do
    updateRx (fun r => { r with shrinkCounter := 0, lowCount := r.lowCount + 1 })
    if s.cfg.growPersistence ≤ s.rx.lowCount + 1 then do
      let _ ← growLocked
      pure ()
    else pure ()
  else
    updateRx (fun r =>
      { r with lowCount := 0,
               shrinkCounter := if s.cfg.rxMinWorkingSet < r.currentCount then r.shrinkCounter + 1
                                else r.shrinkCounter })

/-! ## HARVEST (R162) and FLUSH (R165) -/

/-- The frames of a batch. -/
def gatherFrames (h : Handler) : List (Nat × Bool) → Op (List IndicatedFrame)
  | [] => pure []
  | (d, low) :: rest => do
    let p ← host h (readRdPayloadPtr d)
    let n ← read (fun s => ((s.rx.shadow? d).map (·.actualBytes)).getD 0)
    let bytes ← host h (memRead p.toNat n)
    let frames ← gatherFrames h rest
    pure (⟨d, bytes, low⟩ :: frames)

/-- Recycle the low-resources frames of a batch, in order. -/
def recycleLow (h : Handler) : List (Nat × Bool) → Op Unit
  | [] => pure ()
  | (d, low) :: rest => do
    if low then recycleLocked h d else pure ()
    recycleLow h rest

/-- The oldest gathered batch that is not indicated yet, as its event. -/
def Ports.nextIndication (p : Ports) : Option (Event × Ports) :=
  match p.indications with
  | [] => none
  | frames :: rest => some (.indicateReceived frames frames.length, { p with indications := rest })

/-- FLUSH(batch): the indication is made with the receive lock released. The batch waits behind what another HARVEST has
gathered and not indicated yet, so that frames are delivered in the order their descriptors complete (R90, R171; log entry
31). -/
def flush (h : Handler) (batch : List (Nat × Bool)) : Op Unit := do
  let frames ← gatherFrames h batch
  updatePorts (fun p => { p with indications := p.indications ++ [frames] })
  let due ← read (fun s => s.ports.indications.length)
  unlock .rx
  callbacksDue h Ports.nextIndication due
  lock .rx
  recycleLow h batch

/-- A posted descriptor is completed when both marks are set (R161); the second is read only if the first is. -/
def readCompleted (h : Handler) (d : Nat) : Op Bool := do
  let c ← host h (readRdC d)
  if c then host h (readRdV d) else pure false

/-- Take the head off the ready list. -/
def popReady : Op Unit :=
  updateRx (fun r => { r with readyList := r.readyList.tail, readyCount := r.readyCount - 1 })

/-- Dispose of the detached descriptor `d`: dropped, or handed up normally, or in low-resources mode. What joins the
batch is answered. -/
def dispose (h : Handler) (d : Nat) : Op (List (Nat × Bool)) := do
  let n ← host h (readRdCount d)
  updateRx (fun r => r.mapShadow d (fun sh => { sh with actualBytes := n }))
  let good ← host h (readRdOK d)
  let filtered ← host h (read (fun s => s.dev.packetFilter == 0))
  let s ← read id
  if !good || filtered || decide (s.dev.power ≠ .fullyPowered) then do
    recycleLocked h d
    pure []
  else if s.cfg.rxMinReady < s.rx.readyCount then do
    updateRx (fun r =>
      { r.mapShadow d (fun sh => { sh with state := .handedToUpperLayer }) with
        pendingList := r.pendingList ++ [d], outstandingReceives := r.outstandingReceives + 1 })
    pure [(d, false)]
  else do
    updateRx (fun r => r.mapShadow d (fun sh => { sh with state := .lowResource }))
    pure [(d, true)]

/-- Flush a batch that is full; the batch that goes on. -/
def flushFull (h : Handler) (batch : List (Nat × Bool)) : Op (List (Nat × Bool)) := do
  let cap ← read (fun s => s.cfg.indicateBatchMax)
  if batch.length = cap then do
    flush h batch
    pure []
  else pure batch

/-- HARVEST's loop: at most `fuel` detaches (`harvestIterationMax`); the batch left over. -/
def harvestLoop (h : Handler) : Nat → List (Nat × Bool) → Op (List (Nat × Bool))
  | 0, batch => pure batch
  | fuel + 1, batch => do
    let ready ← read (fun s => s.rx.readyList)
    match ready with
    | [] => pure batch
    | d :: _ => do
      let completed ← readCompleted h d
      if completed then do
        popReady
        let more ← dispose h d
        let batch' ← flushFull h (batch ++ more)
        harvestLoop h fuel batch'
      else pure batch

/-- HARVEST. -/
def harvest (h : Handler) : Op Status := do
  let running ← read (fun s => decide (s.dev.lifecycle = .running))
  if !running then pure .invalidRequest
  else do
    point h
    lock .rx
    let n ← read (fun s => s.cfg.harvestIterationMax)
    let batch ← harvestLoop h n []
    if batch ≠ [] then flush h batch else pure ()
    updateThresholds
    unlock .rx
    pure .ok

/-! ## ENSURE_STARTED (R164) -/

/-- The first untouched descriptor of a list (R161, R164). -/
def firstUntouched (h : Handler) : List Nat → Op (Option Nat)
  | [] => pure none
  | d :: ds => do
    let c ← host h (readRdC d)
    if c then firstUntouched h ds
    else do
      let v ← host h (readRdV d)
      if v then firstUntouched h ds else pure (some d)

/-- Issue the start at `d`, or the safe no-op; lock `rx` held on entry, released on exit. -/
def startAt (h : Handler) (found : Option Nat) : Op Status :=
  match found with
  | none => do
    unlock .rx
    pure .ok
  | some d => do
    let a ← rdAddrOf d
    point h
    lock .cmd
    let r ← issueLocked h codeRuStart true (addrWord a)
    unlock .cmd
    unlock .rx
    pure r

/-- ENSURE_STARTED past its two refusals. -/
def ensureStartedChecked (h : Handler) : Op Status := do
  let w ← host h (regRead .status)
  if statusRus w = unitActive then pure .ok
  else do
    point h
    lock .rx
    let ready ← read (fun s => s.rx.readyList)
    let found ← firstUntouched h ready
    if found = none ∧ ready ≠ [] then do
      unlock .rx
      point h
      let _ ← harvest h
      point h
      lock .rx
      let ready' ← read (fun s => s.rx.readyList)
      let found' ← firstUntouched h ready'
      startAt h found'
    else startAt h found

/-- ENSURE_STARTED. -/
def ensureStarted (h : Handler) : Op Status := do
  let running ← read (fun s => decide (s.dev.lifecycle = .running))
  if !running then pure .invalidRequest
  else do
    point h
    let broken ← read (fun s => s.dev.hardwareError)
    if broken then pure .hardError
    else ensureStartedChecked h

end Sys2Proof.Machine
end

