-- ==== Sys2Proof/Machine/LinkPhy.lean ====
section
/-!
DEFINITION. The link machine up to the tick: LINK_START, the steps SCAN_STEP, WAIT_STEP, FALLBACK and CONFIGURE, and the
property and filter requests that detection defers (spec/44_link_phy.md R210 to R221).
-/
namespace Sys2Proof.Machine

/-- `linkState in {ScanningForLink, WaitingForNegotiation, Configuring}`: detection is running. -/
def LinkPhase.inProgress : LinkPhase → Bool
  | .scanningForLink => true
  | .waitingForNegotiation => true
  | .configuring => true
  | .notStarted => false
  | .done => false

/-- `PhyProbe(a)`: one read of `PHYSTAT[a]` (R36, R109). -/
def phyProbe (h : Handler) (a : PhyAddress) : Op PhyRecord := do
  let w ← host h (regRead (.phystat a))
  pure (phyRecordOf w)

/-- LINK_START's initial state (R211). -/
def Link.begin (c : Config) (l : Link) : Link :=
  let l0 := { l with candidateAddressIndex := 0, foundAddress := none, waitCounter := 0, waitingForNegotiation := false,
                     timer := .armed }
  match c.phyAddressOverride, c.forcedConnector with
  | some a, _ => { l0 with selected := .addr a, phase := .configuring }
  | none, some k => { l0 with selected := .connector k, phase := .configuring }
  | none, none => { l0 with phase := .scanningForLink }

/-- LINK_START (R211). -/
def linkStart (h : Handler) : Op Status := do
  let running ← read (fun s => decide (s.dev.lifecycle = .running))
  if !running then pure .invalidRequest
  else do
    point h
    lock .dev
    let busy ← read (fun s => s.link.phase.inProgress)
    if busy then do
      unlock .dev
      pure .ok
    else do
      update (fun s => s.mapLink (Link.begin s.cfg))
      retain
      unlock .dev
      pure .ok

/-- FALLBACK (R215). -/
def State.fallback (s : State) : Selection :=
  match s.link.foundAddress, s.cfg.defaultPhyAddress with
  | some a, _ => .addr a
  | none, some a => .addr a
  | none, none => .alternateWiring

/-- Choose and go to `Configuring`. -/
def choose (x : Selection) : Op Unit :=
  updateLink (fun l => { l with selected := x, phase := .configuring })

/-- The flag of the wait is cleared (R214). -/
def endWait : Op Unit := updateLink (fun l => { l with waitingForNegotiation := false })

/-- SCAN_STEP, repeated while it continues scanning (R212, R213), over the candidates from the index on: true when the
tick must re-arm, false when the machine is in `Configuring`. -/
def scan (h : Handler) : List PhyAddress → Op Bool
  | [] => do
    let x ← read State.fallback
    choose x
    pure false
  | a :: rest => do
    let r ← phyProbe h a
    if !r.present then do
      updateLink (fun l => { l with candidateAddressIndex := l.candidateAddressIndex + 1 })
      scan h rest
    else if r.linkUp then do
      choose (.addr a)
      pure false
    else do
      let attempts ← read (fun s => s.cfg.negotiationAttemptsMax)
      updateLink (fun l =>
        { l with foundAddress := some (l.foundAddress.getD a), waitCounter := attempts, waitingForNegotiation := true,
                 phase := .waitingForNegotiation })
      pure true

/-- WAIT_STEP (R214): as `scan` answers. -/
def waitStep (h : Handler) : Op Bool := do
  let candidate ← read (fun s => s.cfg.phyCandidates[s.link.candidateAddressIndex]?)
  match candidate with
  | none => fault .assertionViolated
  | some a => do
    let r ← phyProbe h a
    if r.negotiationComplete then do
      choose (.addr a)
      endWait
      pure false
    else do
      updateLink (fun l => { l with waitCounter := l.waitCounter - 1 })
      let left ← read (fun s => s.link.waitCounter)
      if left = 0 then do
        let x ← read State.fallback
        choose x
        endWait
        pure false
      else pure true

/-- The part of one tick before `Configuring` (R212). A timer armed in `NotStarted` or `Done` meets no rule. -/
def linkAdvance (h : Handler) : Op Bool := do
  let s ← read id
  match s.link.phase with
  | .scanningForLink => scan h (s.cfg.phyCandidates.drop s.link.candidateAddressIndex)
  | .waitingForNegotiation => waitStep h
  | .configuring => pure false
  | .notStarted => fault .assertionViolated
  | .done => fault .assertionViolated

/-- The defaults, with a media state (R216). -/
def setDefaults (m : MediaState) : Op Unit :=
  update (fun s => s.mapLink (fun l =>
    { l with speed := s.cfg.defaultSpeed, duplex := s.cfg.defaultDuplex, media := m }))

/-- CONFIGURE (R216). -/
def configure (h : Handler) : Op Unit := do
  let x ← read (fun s => s.link.selected)
  match x with
  | .addr a => do
    let r ← phyProbe h a
    if r.present && r.linkUp then
      host h (updateLink (fun l => { l with speed := r.speed, duplex := r.duplex, media := .connected }))
    else host h (setDefaults .disconnected)
  | .connector _ => setDefaults .connected
  | .alternateWiring => setDefaults .connected
  | .none => fault .assertionViolated

/-- VALUE(prop) (R218, R219), read one variable after the other. -/
def valueOf (h : Handler) : Property → Op PropertyValue
  | .linkSpeed => read (fun s => .speed s.link.speed)
  | .mediaState => do
    let broken ← read (fun s => s.dev.hardwareError)
    let withdrawn ← host h (read (fun s => decide (s.dev.lifecycle = .withdrawn)))
    let media ← host h (read (fun s => s.link.media))
    pure (.media (if broken || withdrawn then .disconnected else media))

/-- A property read: deferred while detection runs, else completed at once (R218, R219). -/
def getProperty (h : Handler) (q : Word) (prop : Property) : Op Status := do
  let l ← read (fun s => s.dev.lifecycle)
  if l ≠ .running ∧ l ≠ .withdrawn then pure .invalidRequest
  else do
    point h
    lock .dev
    let busy ← read (fun s => s.link.phase.inProgress)
    if busy then do
      updateLink (fun k => { k with pendingPropertyReads := k.pendingPropertyReads ++ [(q, prop)] })
      unlock .dev
      pure .pending
    else do
      let v ← valueOf h prop
      unlock .dev
      callbacks h [.completeRequest q v]
      pure .ok

/-- GET_LINK_SPEED (R218). -/
def getLinkSpeed (h : Handler) (q : Word) : Op Status := getProperty h q .linkSpeed

/-- GET_MEDIA_STATE (R219). -/
def getMediaState (h : Handler) (q : Word) : Op Status := getProperty h q .mediaState

/-- SET_FILTER (R220). -/
def setFilter (h : Handler) (mask : Word) : Op Status := do
  let running ← read (fun s => decide (s.dev.lifecycle = .running))
  if !running then pure .invalidRequest
  else do
    point h
    lock .dev
    let busy ← read (fun s => s.link.phase.inProgress)
    if busy then do
      updateLink (fun k => { k with pendingFilter := some mask })
      unlock .dev
      pure .pending
    else do
      updateDev (fun x => { x with packetFilter := mask })
      unlock .dev
      pure .ok

/-- The list a handle names in the environment's table (R102, R221). -/
def State.mcastListOf? (s : State) (handle : Word) : Option (List Nat) :=
  (s.ports.mcastLists.find? (fun e => e.1 == handle)).map (·.2)

/-- SET_MCAST (R221); a handle the table does not have is refused (log entry 10). -/
def setMcast (h : Handler) (handle : Word) : Op Status := do
  let running ← read (fun s => decide (s.dev.lifecycle = .running))
  let found ← read (fun s => s.mcastListOf? handle)
  if !running then pure .invalidRequest
  else match found with
    | none => pure .invalidRequest
    | some list => do
      point h
      lock .dev
      let busy ← read (fun s => s.link.phase.inProgress)
      if busy then do
        updateLink (fun k => { k with pendingMcast := some list })
        unlock .dev
        pure .pending
      else do
        updateDev (fun x => { x with mcastList := list })
        unlock .dev
        pure .ok

end Sys2Proof.Machine
end

