-- ==== Sys2Proof/Machine/Control.lean ====
section
/-!
DEFINITION. Device-level control (spec/45_device_control.md R240 to R248): START, TEARDOWN in its two transitions, RESET
with its escalation, HEALTH_CHECK, INTERRUPT, the mask requests, SET_POWER; and the link tick with the release of what
detection deferred (spec/44_link_phy.md R212, R217), which runs RESET.
-/
namespace Sys2Proof.Machine

/-- `Sync(RegWrite(INTMASK, v))` (R245, R246, R319). -/
def setMask (h : Handler) (v : Word) : Op Unit := sync h (regWrite .intmask v)

/-- `Timer.arm(healthTimer)`. Other contexts may act between the test that precedes it and it, TEARDOWN among them (log
entry 30). -/
def armHealthTimer (h : Handler) : Op Unit := do
  point h
  updateDev (fun d => { d with healthTimer := .armed })

/-! ## START (R240) -/

/-- A descriptor is to stand at each of these addresses. -/
def requireAlignedAll : List Nat → Op Unit
  | [] => pure ()
  | a :: as => do
    requireAligned a
    requireAlignedAll as

/-- Step 1: what the allocators deliver (TD array, local buffers, receive regions), or none. Descriptors must come to
stand at multiples of `descAlign` (R7, R110, R111). -/
def startAllocate : Op (Option (Nat × List Nat × List Nat)) := do
  let c ← read (fun s => s.cfg)
  let td ← allocShared (c.numTcb * c.tdSize)
  match td with
  | none => pure none
  | some base => do
    requireAlignedAll ((List.range c.numTcb).map (fun i => base + i * c.tdSize))
    let bufs ← allocSharedMany c.numLocalBuf c.maxFrameSize
    match bufs with
    | none => pure none
    | some bufs => do
      let regions ← allocSharedMany c.rxInitialCount c.rxRegionSize
      match regions with
      | none => pure none
      | some regions => do
        requireAlignedAll (regions.map (fun r => r + c.rxAlignShift))
        let shadows ← allocShadows c.rxInitialCount
        pure (if shadows then some (base, bufs, regions) else none)

/-- The fragment fields of slot `i`, set to 0 (R54). -/
def clearFragments (h : Handler) (i : Nat) : List Nat → Op Unit
  | [] => pure ()
  | k :: ks => do
    host h (writeTdFragAddr i k 0)
    host h (writeTdFragLen i k 0)
    clearFragments h i ks

/-- The fields of the slots that POOL_INIT_TX does not write: the reserved field (U9) and the fragments (R54). -/
def clearSlots (h : Handler) : List Nat → Op Unit
  | [] => pure ()
  | i :: is => do
    host h (writeTdReserved i)
    let n ← read (fun s => s.cfg.maxFragments)
    clearFragments h i (List.range n)
    clearSlots h is

/-- Step 3: every software variable at its value of R54, and of the descriptors the fields that step 4 does not set. -/
def startVariables (h : Handler) (base : Nat) (bufs : List Nat) : Op Unit := do
  update (fun s =>
    { s with tx := { TxRing.reset with base := base, bufs := bufs }, rx := RxRing.reset, link := Link.reset s.cfg,
             dev := Device.reset, events := [] })
  let n ← read (fun s => s.cfg.numTcb)
  clearSlots h (List.range n)

/-- Step 5: receive descriptors `k`, `k + 1`, … over the regions. -/
def startReceive (h : Handler) : Nat → List Nat → Op Unit
  | _, [] => pure ()
  | k, base :: rest => do
    poolAllocRx h k base
    updateRx (fun r => { r with currentCount := r.currentCount + 1 })
    recycleLocked h k
    startReceive h (k + 1) rest

/-- Steps 2 to 6. `startActive` holds meanwhile: another START waits until this one has made the device `Running` (log
entry 27). -/
def startInitialise (h : Handler) (base : Nat) (bufs regions : List Nat) : Op Unit := do
  updatePorts (fun p => { p with startActive := true })
  host h (regWrite .port 2)
  startVariables h base bufs
  point h
  lock .tx
  poolInitTx h
  unlock .tx
  point h
  updateTx (fun t => { t with transmitIdle := true, resumeWaitNeeded := true })
  point h
  lock .rx
  startReceive h 0 regions
  unlock .rx
  point h
  updateDev (fun d => { d with lifecycle := .running })
  updatePorts (fun p => { p with startActive := false })

/-- START. -/
def start (h : Handler) : Op Status := do
  let s ← read id
  if s.ports.startActive then blocked
  else if s.dev.lifecycle ≠ .uninitialised then pure .invalidRequest
  else do
    let got ← startAllocate
    match got with
    | none => do
      updatePorts (fun p => { p with liveRegions := s.ports.liveRegions })
      pure .resourcesExhausted
    | some (base, bufs, regions) => do
      startInitialise h base bufs regions
      point h
      let _ ← linkStart h
      point h
      let r ← ensureStarted h
      setMask h 0
      armHealthTimer h
      pure r

/-! ## The link timer (R24, R49, R212, R241) -/

/-- Disarm the link timer; whether it was armed. -/
def takeLinkTimer : Op Bool := do
  let armed ← read (fun s => decide (s.link.timer = .armed))
  updateLink (fun k => { k with timer := .idle })
  pure armed

/-- `Timer.cancel(linkTimer)` and what goes with it: "its step will never run", so the reference LINK_START took for it is
released (R24, R241). A timer whose step another context has begun is not armed, and that step releases the reference. -/
def cancelLinkTimer : Op Unit := do
  let armed ← takeLinkTimer
  if armed then release else pure ()

/-! ## RESET (R242) and RESET_FAILED (R248) -/

/-- RESET_FAILED: the count of consecutive failures, and withdrawal when it reaches the bound. Both timers are cancelled there
("timers cancelled", D42; "no timer is armed", R248), the link timer, which its pseudocode does not name, as TEARDOWN cancels it.
What another context arms later, or has unmasked since RESET began, stays so in `Withdrawn` (log entry 32, DESIGN CHOICE). -/
def resetFailed (h : Handler) : Op Status := do
  lock .dev
  updateDev (fun d => { d with consecutiveResetFailures := d.consecutiveResetFailures + 1 })
  let s ← read id
  if s.dev.consecutiveResetFailures < s.cfg.maxResetAttempts then do
    unlock .dev
    pure .hardError
  else do
    updateDev (fun d => { d with nonRecoverable := true, lifecycle := .withdrawn })
    unlock .dev
    point h
    updateDev (fun d => { d with healthTimer := .idle })
    host h cancelLinkTimer
    pure .nonRecoverable

/-- Re-arm posted descriptors, in order: `EL` and `link` unchanged (R242). RESET has cleared the sticky error before; like
RECYCLE the re-arming does not test it again (log entry 29). -/
def rearmPosted (h : Handler) : List Nat → Op Unit
  | [] => pure ()
  | d :: ds => do
    host h (writeRdCount d 0 false)
    host h (writeRdStatus d false false)
    rearmPosted h ds

/-- RESET from the mask write to the last unlock: the packets it aborts. Locks `dev`, `tx`, `rx` in that order; `dev` is
held on entry. -/
def resetRings (h : Handler) : Op (List Packet) := do
  setMask h 1
  point h
  lock .tx
  point h
  lock .rx
  host h (regWrite .port 2)
  point h
  errorReturn
  let aborted ← abortHeld h
  point h
  lock .cmd
  updateTx (fun t => { t with transmitIdle := true, resumeWaitNeeded := true })
  unlock .cmd
  let ready ← read (fun s => s.rx.readyList)
  rearmPosted h ready
  unlock .rx
  unlock .tx
  unlock .dev
  pure aborted

/-- The restart of the receive unit and its verification: "the device must answer, else the reset failed". -/
def resetRestart (h : Handler) : Op Status := do
  let r ← ensureStarted h
  if r = .ok then do
    point h
    let budget ← read (fun s => s.cfg.acceptPollBudget)
    lock .cmd
    let answered ← waitAcceptLocked h budget
    unlock .cmd
    pure (if answered then .ok else .hardError)
  else pure r

/-- RESET. -/
def reset (h : Handler) : Op Status := do
  let l ← read (fun s => s.dev.lifecycle)
  if l = .withdrawn then pure .nonRecoverable
  else if l ≠ .running then pure .invalidRequest
  else do
    point h
    lock .dev
    let busy ← read (fun s => s.link.phase.inProgress)
    if busy then do
      updateLink (fun k => { k with pendingReset := true })
      unlock .dev
      pure .pending
    else do
      let aborted ← resetRings h
      callbacks h (aborted.map (fun p => .completeSend p .cancelled))
      point h
      let r ← resetRestart h
      point h
      if r = .hardError then resetFailed h
      else do
        lock .dev
        updateDev (fun d => { d with consecutiveResetFailures := 0 })
        unlock .dev
        setMask h 0
        point h
        let _ ← linkStart h
        pure .ok

/-! ## TEARDOWN (R241) -/

/-- Whether a TEARDOWN is admitted: in `Running` and `Withdrawn` (R283), and only one ("torn down exactly once", R138;
"a second TEARDOWN" is refused, R241): neither while another is beginning nor after one has finished. -/
def State.mayTearDown (s : State) : Bool :=
  (decide (s.dev.lifecycle = .running) || decide (s.dev.lifecycle = .withdrawn)) &&
  decide (s.ports.teardown = .notUnderWay)

/-- TEARDOWN.begin, steps 1 to 5; the requester then waits. -/
def teardown (h : Handler) : Op (Option Status) := do
  let admitted ← read State.mayTearDown
  if !admitted then pure (some .invalidRequest)
  else do
    updatePorts (fun p => { p with teardown := .beginning })
    point h
    lock .dev
    updateDev (fun d => { d with lifecycle := .halting })
    unlock .dev
    point h
    setMask h 1
    point h
    updateDev (fun d => { d with healthTimer := .idle })
    point h
    let linkArmed ← read (fun s => decide (s.link.timer = .armed))
    if linkArmed then
      host h cancelLinkTimer
    else pure ()
    host h (regWrite .port 1)
    point h
    lock .dev
    point h
    lock .tx
    let aborted ← abortHeld h
    let reads ← read (fun s => s.link.pendingPropertyReads)
    updateLink (fun k =>
      { k with pendingPropertyReads := [], pendingFilter := none, pendingMcast := none, pendingReset := false })
    unlock .tx
    unlock .dev
    callbacks h (aborted.map (fun p => .completeSend p .cancelled))
    callbacks h (reads.map (fun e => .completeRequest e.1 .cancelled))
    updatePorts (fun p => { p with teardown := .notUnderWay })
    pure none

/-- Steps 1 to 5 have been made and the wait of step 6 is over, for a SUBMIT that began before them as well (log entry 33). -/
def State.teardownMayFinish (s : State) : Bool :=
  decide (s.ports.teardown = .notUnderWay) && decide (s.dev.lifecycle = .halting) && s.dev.refCount == 0 &&
  s.rx.outstandingReceives == 0 && s.ports.submits == 0

/-- Free the posted descriptors (step 8). -/
def freePosted : List Nat → Op Unit
  | [] => pure ()
  | d :: ds => do
    poolFreeRx d
    updateRx (fun r => { r with currentCount := r.currentCount - 1 })
    freePosted ds

/-- Fail the packets that SUBMITs under way at step 5 have left in the ring since, as step 5 does ("held packets completed
`Cancelled`", D45; R292, log entry 33). There are none where no SUBMIT was overtaken, and then nothing is done. -/
def abortLate (h : Handler) : Op Unit := do
  let late ← read (fun s => !s.heldPackets.isEmpty)
  if late then do
    point h
    lock .dev
    point h
    lock .tx
    let aborted ← abortHeld h
    unlock .tx
    unlock .dev
    callbacks h (aborted.map (fun p => .completeSend p .cancelled))
  else pure ()

/-- TEARDOWN.finish, steps 7 to 9. Where the TD array stood, `tx.base` and the shadow records go on saying after it (log entry
24). -/
def teardownFree : Op Unit := do
  let s ← read id
  assert (s.tx.busyCount == 0 && s.rx.outstandingReceives == 0 && s.dev.refCount == 0 && s.rx.pendingList.isEmpty &&
    decide (s.rx.allocState = .idle))
  lock .rx
  freePosted s.rx.readyList
  updateRx (fun r => { r with readyList := [], readyCount := 0 })
  unlock .rx
  let kept : Region → Bool := fun r => r.base != s.tx.base && !s.tx.bufs.contains r.base
  updatePorts (fun p => { p with liveRegions := p.liveRegions.filter kept, teardown := .finished })
  updateDev (fun d => { d with lifecycle := .halted })
  update (State.withResult (some .ok))

/-- TEARDOWN.finish; not enabled, it changes nothing. -/
def teardownFinish (h : Handler) : Op Unit := do
  let may ← read State.teardownMayFinish
  if may then do
    abortLate h
    let still ← read State.teardownMayFinish
    if still then teardownFree else pure ()
  else pure ()

/-! ## HEALTH_CHECK (R243) -/

/-- The hang test on the head slot, lock `tx` held. -/
def hangCheck (h : Handler) : Op Bool := do
  let s ← read id
  if 0 < s.tx.busyCount then do
    let c ← host h (readTdC s.tx.head)
    if c then pure false
    else do
      updateTx (fun t => t.mapShadow s.tx.head (fun sh => { sh with retryCount := sh.retryCount + 1 }))
      read (fun s' => decide (s'.cfg.hangThreshold < (s'.tx.shadowAt s.tx.head).retryCount))
  else pure false

/-- The link re-probe, lock `dev` held: whether the link came up. -/
def reprobe (h : Handler) : Op Bool := do
  let x ← read (fun s => s.link.selected)
  match x with
  | .addr a => do
    let r ← phyProbe h a
    let old ← read (fun s => s.link.media)
    if r.present && r.linkUp then do
      host h (updateLink (fun l => { l with speed := r.speed, duplex := r.duplex, media := .connected }))
      pure (decide (old = .disconnected))
    else do
      host h (updateLink (fun l => { l with media := .disconnected }))
      pure false
  | .connector _ => pure false
  | .alternateWiring => pure false
  | .none => pure false

/-- HEALTH_CHECK between its gates and the re-arming of the timer. -/
def healthBody (h : Handler) : Op Status := do
  let broken ← read (fun s => s.dev.hardwareError)
  point h
  if broken then reset h
  else do
    lock .tx
    let hung ← hangCheck h
    unlock .tx
    point h
    if hung then reset h
    else do
      lock .dev
      let up ← reprobe h
      unlock .dev
      point h
      if up then do
        let _ ← drain h
        point h
      else pure ()
      let _ ← ensureStarted h
      pure .ok

/-- HEALTH_CHECK. -/
def healthCheck (h : Handler) : Op Status := do
  let t ← read (fun s => s.dev.healthTimer)
  if t ≠ .armed then pure .invalidRequest
  else do
    point h
    updateDev (fun d => { d with healthTimer := .idle })
    point h
    let running ← read (fun s => decide (s.dev.lifecycle = .running))
    if !running then pure .ok
    else do
      point h
      let detected ← read (fun s => decide (s.link.phase = .done))
      if !detected then do
        armHealthTimer h
        pure .ok
      else do
        point h
        let r ← healthBody h
        point h
        let still ← read (fun s => decide (s.dev.lifecycle = .running))
        if still then armHealthTimer h else pure ()
        pure r

/-! ## INTERRUPT (R244, R277, R279) -/

/-- INTERRUPT past its gate: the line is read; asserted, exactly the causes read are acknowledged and the three operations
run in order. -/
def serve (h : Handler) : Op Status := do
  let st ← host h (regRead .status)
  let m ← host h (regRead .intmask)
  if maskBit m ∨ causesOf st = 0 then pure .notMine
  else do
    host h (regWrite .status (causesOf st))
    point h
    let _ ← reclaim h
    point h
    let _ ← harvest h
    point h
    let _ ← ensureStarted h
    pure .ok

/-- INTERRUPT. `isrActive` holds while it runs: a second one waits for its end ("INTERRUPT never overlaps itself", R279),
and so does `Sync` (R94). -/
def interrupt (h : Handler) : Op Status := do
  let serving ← read (fun s => s.ports.isrActive)
  let running ← read (fun s => decide (s.dev.lifecycle = .running))
  if serving then blocked
  else if !running then pure .notMine
  else do
    updatePorts (fun p => { p with isrActive := true })
    let r ← serve h
    updatePorts (fun p => { p with isrActive := false })
    pure r

/-! ## INT_ENABLE, INT_DISABLE (R245, R246), SET_POWER (R247) -/

/-- The mask requests. -/
def maskRequest (h : Handler) (v : Word) : Op Status := do
  let running ← read (fun s => decide (s.dev.lifecycle = .running))
  if !running then pure .invalidRequest
  else do
    point h
    setMask h v
    pure .ok

/-- SET_POWER. -/
def setPower (h : Handler) (target : PowerState) : Op Status := do
  let running ← read (fun s => decide (s.dev.lifecycle = .running))
  if !running then pure .invalidRequest
  else do
    point h
    lock .dev
    point h
    lock .rx
    updateDev (fun d => { d with power := target })
    match target with
    | .fullyPowered => do
      updateDev (fun d => { d with powerTransitionPending := false })
      unlock .rx
      unlock .dev
      pure .ok
    | .lowPower => do
      let held ← read (fun s => decide (0 < s.rx.outstandingReceives))
      if held then do
        updateDev (fun d => { d with powerTransitionPending := true })
        unlock .rx
        unlock .dev
        pure .pending
      else do
        unlock .rx
        unlock .dev
        callbacks h [.powerTransitionComplete]
        pure .ok

/-! ## LINK_TICK (R212) and RELEASE_DEFERRED (R217) -/

/-- Complete deferred property reads in order, each with the value it has then. -/
def completeReads (h : Handler) : List (Word × Property) → Op Unit
  | [] => pure ()
  | (q, prop) :: rest => do
    point h
    let v ← valueOf h prop
    callbacks h [.completeRequest q v]
    completeReads h rest

/-- Apply the deferred filter and multicast list. -/
def State.applyDeferred (s : State) : State :=
  (s.mapDev (fun d =>
    { d with packetFilter := s.link.pendingFilter.getD d.packetFilter,
             mcastList := s.link.pendingMcast.getD d.mcastList })).mapLink (fun k =>
    { k with pendingPropertyReads := [], pendingFilter := none, pendingMcast := none, pendingReset := false })

/-- RELEASE_DEFERRED. -/
def releaseDeferred (h : Handler) : Op Unit := do
  release
  point h
  lock .dev
  let k ← read (fun s => s.link)
  update State.applyDeferred
  unlock .dev
  completeReads h k.pendingPropertyReads
  point h
  if k.pendingReset then do
    let _ ← reset h
    pure ()
  else do
    let _ ← drain h
    pure ()

/-- LINK_TICK once it has taken its timer. -/
def linkStep (h : Handler) : Op Status := do
  point h
  lock .dev
  let again ← linkAdvance h
  if again then do
    updateLink (fun l => { l with timer := .armed })
    unlock .dev
    pure .ok
  else do
    configure h
    updateLink (fun l => { l with phase := .done })
    unlock .dev
    point h
    releaseDeferred h
    pure .ok

/-- LINK_TICK. Other contexts may act between its test of the timer and its taking it (R281); a timer that is cancelled there is
not armed, and "its step will never run" (R241), so that each reference is released once (R11, R24; log entry 30). -/
def linkTick (h : Handler) : Op Status := do
  let t ← read (fun s => s.link.timer)
  if t ≠ .armed then pure .invalidRequest
  else do
    let taken ← host h takeLinkTimer
    if taken then linkStep h else pure .invalidRequest

end Sys2Proof.Machine
end

