-- ==== Sys2Proof/Machine/Reentry.lean ====
section
/-!
DEFINITION. What other agents do inside a host-side operation, at the points between its accesses: device steps, and
requests and direct accesses of other contexts, the upper layer's from a callback among them ("may re-enter the core",
spec/20_memory.md R87; "any interleaving allowed by the locks may happen", spec/60_exceptions.md R281; R285 d). Each request
runs whole, "as an ordinary request", as far as the locks, R94 and R279 allow.
-/
namespace Sys2Proof.Machine

/-- A request's operation, with the handler for requests inside it; its status, none while it is to be returned later.
The command and port codes are no requests: as instructions they are the device's steps. -/
def perform (h : Handler) : Instr → Op (Option Status)
  | .start => some <$> start h
  | .teardown => teardown h
  | .reset => some <$> reset h
  | .healthCheck => some <$> healthCheck h
  | .interrupt => some <$> interrupt h
  | .intEnable => some <$> maskRequest h 0
  | .intDisable => some <$> maskRequest h 1
  | .setPower target => some <$> setPower h target
  | .submit handle => some <$> submit h handle
  | .reclaim => some <$> reclaim h
  | .cancel tag => some <$> cancel h tag
  | .drain => some <$> drain h
  | .harvest => some <$> harvest h
  | .recycle d => some <$> recycle h d.toNat
  | .ensureStarted => some <$> ensureStarted h
  | .grow => some <$> grow h
  | .growComplete success base => some <$> growComplete h success base.toNat
  | .rxReturn d => some <$> rxReturn h d.toNat
  | .shrink d => some <$> shrink h d.toNat
  | .issueCommand wait code pointer => some <$> issueRequest h wait code pointer
  | .waitAccept budget => some <$> waitRequest h budget
  | .linkStart => some <$> linkStart h
  | .linkTick => some <$> linkTick h
  | .getLinkSpeed q => some <$> getLinkSpeed h q
  | .getMediaState q => some <$> getMediaState h q
  | .setFilter mask => some <$> setFilter h mask
  | .setMcast l => some <$> setMcast h l
  | .cuStart => (fun _ => none) <$> acceptCuStart
  | .cuResume => (fun _ => none) <$> acceptCuResume
  | .ruStart => (fun _ => none) <$> acceptRuStart
  | .selectiveReset => (fun _ => none) <$> selectiveReset
  | .fullReset => (fun _ => none) <$> fullReset

/-- Record the status of a request run inside another. -/
def recordResult : Option Status → Op Unit
  | none => pure ()
  | some st => updatePorts (fun p => { p with callbackResults := p.callbackResults ++ [st] })

/-- A request word presented inside another request (R112). -/
def request (h : Handler) (w : RequestWord) : Op Unit :=
  match decodeRequest w with
  | .error _ => recordResult (some .invalidRequest)
  | .ok i => do
    let r ← perform h i
    recordResult r

/-- One step of an agent. A direct register write is made when it is presented: R34, R276, R287 and R319 have `INTMASK`
written from non-interrupt contexts through `Sync` only and give no outcome for another write of it, which the model makes
at once, inside an INTERRUPT as well (log entry 28, DESIGN CHOICE). A caller's write of shared memory is made at the addresses it names, whoever owns the bytes: R132
and R137 bind the host-side agents of the block, and the spec gives no outcome for a caller that writes a descriptor, a
buffer handed to the hardware or a receive buffer it does not hold (log entry 23, DESIGN CHOICE). -/
def occur (h : Handler) : Stimulus → Op Unit
  | .request w => request h w
  | .device d => deviceStep d
  | .registerWrite offset v => regWriteAt offset v
  | .teardownFinish => teardownFinish h
  | .memoryWrite a bytes => memWrite a bytes
  | .providePacket p => updatePorts (fun x => { x with packets := p :: x.packets })
  | .provideMcastList handle addresses =>
    updatePorts (fun x => { x with mcastLists := (handle, addresses) :: x.mcastLists })
  | .allocatorReply r => updatePorts (fun x => { x with sharedReplies := x.sharedReplies ++ [r] })
  | .lookasideReply b => updatePorts (fun x => { x with lookasideReplies := x.lookasideReplies ++ [b] })

/-- The handler of steps inside operations inside operations, to the given depth. Every level is entered from an entry of
`interleaved` that it has taken off the list, so the list's length is depth enough. -/
def reenter : Nat → Handler
  | 0 => fun _ => blocked
  | n + 1 => occur (reenter n)

/-- The handler for the steps inside an operation run from this state. -/
def handlerOf (s : State) : Handler := reenter s.ports.interleaved.length

end Sys2Proof.Machine
end

