-- ==== Sys2Proof/Machine/Requests.lean ====
section
/-!
DEFINITION. The meanings of the operation requests, one definition each (spec/30_encoding.md R103): the operation of the
rule named there, with the steps of other agents that `ports.interleaved` holds for its points.
-/
namespace Sys2Proof.Machine

/-! ## Device control (spec/45_device_control.md) -/

/-- START (R240). -/
def execStart (s : State) : Host.Outcome State Fault Refusal := answer (start (handlerOf s)) s

/-- TEARDOWN (R241): its first transition. -/
def execTeardown (s : State) : Host.Outcome State Fault Refusal := answerLater (teardown (handlerOf s)) s

/-- RESET (R242). -/
def execReset (s : State) : Host.Outcome State Fault Refusal := answer (reset (handlerOf s)) s

/-- HEALTH_CHECK (R243). -/
def execHealthCheck (s : State) : Host.Outcome State Fault Refusal := answer (healthCheck (handlerOf s)) s

/-- INTERRUPT (R244). -/
def execInterrupt (s : State) : Host.Outcome State Fault Refusal := answer (interrupt (handlerOf s)) s

/-- INT_ENABLE (R245). -/
def execIntEnable (s : State) : Host.Outcome State Fault Refusal := answer (maskRequest (handlerOf s) 0) s

/-- INT_DISABLE (R246). -/
def execIntDisable (s : State) : Host.Outcome State Fault Refusal := answer (maskRequest (handlerOf s) 1) s

/-- SET_POWER (R247). -/
def execSetPower (target : PowerState) (s : State) : Host.Outcome State Fault Refusal :=
  answer (setPower (handlerOf s) target) s

/-! ## Transmit ring (spec/41_transmit_ring.md) -/

/-- SUBMIT (R140). -/
def execSubmit (handle : Word) (s : State) : Host.Outcome State Fault Refusal := answer (submit (handlerOf s) handle) s

/-- RECLAIM (R143). -/
def execReclaim (s : State) : Host.Outcome State Fault Refusal := answer (reclaim (handlerOf s)) s

/-- CANCEL (R145). -/
def execCancel (tag : Word) (s : State) : Host.Outcome State Fault Refusal := answer (cancel (handlerOf s) tag) s

/-- DRAIN (R144). -/
def execDrain (s : State) : Host.Outcome State Fault Refusal := answer (drain (handlerOf s)) s

/-! ## Receive ring (spec/42_receive_ring.md) -/

/-- HARVEST (R162). -/
def execHarvest (s : State) : Host.Outcome State Fault Refusal := answer (harvest (handlerOf s)) s

/-- RECYCLE (R163). -/
def execRecycle (d : Word) (s : State) : Host.Outcome State Fault Refusal := answer (recycle (handlerOf s) d.toNat) s

/-- ENSURE_STARTED (R164). -/
def execEnsureStarted (s : State) : Host.Outcome State Fault Refusal := answer (ensureStarted (handlerOf s)) s

/-- GROW (R167). -/
def execGrow (s : State) : Host.Outcome State Fault Refusal := answer (grow (handlerOf s)) s

/-- GROW_COMPLETE (R168). -/
def execGrowComplete (success : Bool) (allocBase : Word) (s : State) : Host.Outcome State Fault Refusal :=
  answer (growComplete (handlerOf s) success allocBase.toNat) s

/-- RX_RETURN (R169). -/
def execRxReturn (d : Word) (s : State) : Host.Outcome State Fault Refusal := answer (rxReturn (handlerOf s) d.toNat) s

/-- SHRINK (R170). -/
def execShrink (d : Word) (s : State) : Host.Outcome State Fault Refusal := answer (shrink (handlerOf s) d.toNat) s

/-! ## Coordinator (spec/43_command_coordinator.md) -/

/-- ISSUE_COMMAND (R190). -/
def execIssueCommand (mustWaitFirst : Bool) (code : BitVec 7) (pointer : Word) (s : State) :
    Host.Outcome State Fault Refusal := answer (issueRequest (handlerOf s) mustWaitFirst code pointer) s

/-- WAIT_ACCEPT (R191). -/
def execWaitAccept (budget : Word) (s : State) : Host.Outcome State Fault Refusal :=
  answer (waitRequest (handlerOf s) budget) s

/-! ## Link (spec/44_link_phy.md) -/

/-- LINK_START (R211). -/
def execLinkStart (s : State) : Host.Outcome State Fault Refusal := answer (linkStart (handlerOf s)) s

/-- LINK_TICK (R212). -/
def execLinkTick (s : State) : Host.Outcome State Fault Refusal := answer (linkTick (handlerOf s)) s

/-- GET_LINK_SPEED (R218). -/
def execGetLinkSpeed (request : Word) (s : State) : Host.Outcome State Fault Refusal :=
  answer (getLinkSpeed (handlerOf s) request) s

/-- GET_MEDIA_STATE (R219). -/
def execGetMediaState (request : Word) (s : State) : Host.Outcome State Fault Refusal :=
  answer (getMediaState (handlerOf s) request) s

/-- SET_FILTER (R220). -/
def execSetFilter (mask : Word) (s : State) : Host.Outcome State Fault Refusal :=
  answer (setFilter (handlerOf s) mask) s

/-- SET_MCAST (R221). -/
def execSetMcast (list : Word) (s : State) : Host.Outcome State Fault Refusal := answer (setMcast (handlerOf s) list) s

end Sys2Proof.Machine
end

