-- ==== Sys2Proof/Machine/Dispatch.lean ====
section
/-! DEFINITION. exec: one arm per constructor of Instr, each one direct call of its meaning. -/

namespace Sys2Proof.Machine

def exec (i : Instr) (s : State) : Host.Outcome State Fault Refusal :=
  match i with
  | .start => Sys2Proof.Machine.execStart s
  | .teardown => Sys2Proof.Machine.execTeardown s
  | .reset => Sys2Proof.Machine.execReset s
  | .healthCheck => Sys2Proof.Machine.execHealthCheck s
  | .interrupt => Sys2Proof.Machine.execInterrupt s
  | .intEnable => Sys2Proof.Machine.execIntEnable s
  | .intDisable => Sys2Proof.Machine.execIntDisable s
  | .setPower target => Sys2Proof.Machine.execSetPower target s
  | .submit handle => Sys2Proof.Machine.execSubmit handle s
  | .reclaim => Sys2Proof.Machine.execReclaim s
  | .cancel tag => Sys2Proof.Machine.execCancel tag s
  | .drain => Sys2Proof.Machine.execDrain s
  | .harvest => Sys2Proof.Machine.execHarvest s
  | .recycle d => Sys2Proof.Machine.execRecycle d s
  | .ensureStarted => Sys2Proof.Machine.execEnsureStarted s
  | .grow => Sys2Proof.Machine.execGrow s
  | .growComplete success allocBase => Sys2Proof.Machine.execGrowComplete success allocBase s
  | .rxReturn d => Sys2Proof.Machine.execRxReturn d s
  | .shrink d => Sys2Proof.Machine.execShrink d s
  | .issueCommand mustWaitFirst code pointer => Sys2Proof.Machine.execIssueCommand mustWaitFirst code pointer s
  | .waitAccept budget => Sys2Proof.Machine.execWaitAccept budget s
  | .linkStart => Sys2Proof.Machine.execLinkStart s
  | .linkTick => Sys2Proof.Machine.execLinkTick s
  | .getLinkSpeed request => Sys2Proof.Machine.execGetLinkSpeed request s
  | .getMediaState request => Sys2Proof.Machine.execGetMediaState request s
  | .setFilter mask => Sys2Proof.Machine.execSetFilter mask s
  | .setMcast list => Sys2Proof.Machine.execSetMcast list s
  | .cuStart => Sys2Proof.Machine.execCuStart s
  | .cuResume => Sys2Proof.Machine.execCuResume s
  | .ruStart => Sys2Proof.Machine.execRuStart s
  | .selectiveReset => Sys2Proof.Machine.execSelectiveReset s
  | .fullReset => Sys2Proof.Machine.execFullReset s

end Sys2Proof.Machine
end

