-- ==== Sys2Proof/Machine/Stimulus.lean ====
section
/-!
DEFINITION. What the agent whose turn it is presents: where an instruction is fetched (the request port, `COMMAND`,
`PORT`; spec/30_encoding.md R100), what an undecodable word does (R112), and the steps that are no instruction.
-/
namespace Sys2Proof.Machine

/-- The word the next step presents to the decoder, if it presents one: a request, the pending command the Acceptor
takes, or a port code written to `PORT`. -/
def fetch (s : State) : Option Presented :=
  match s.ports.schedule with
  | .request w :: _ => some (.request w)
  | .device .accept :: _ => if commandCode s.regs.command = 0 then none else some (.command s.regs.command)
  | .registerWrite offset v :: _ => if offset = Register.offset .port then some (.port v) else none
  | _ => none

/-- The state with the head of the schedule taken. -/
def State.advance (s : State) : State := s.mapPorts (fun p => { p with schedule := p.schedule.tail })

/-- An undecodable word: a request returns `InvalidRequest` and changes no state; a reserved command or port code is a
fault (R112, U2, U3). -/
def undecodable (p : Presented) (s : State) : Host.Outcome State Fault Refusal :=
  match p with
  | .request _ => .next (s.withResult (some .invalidRequest))
  | .command _ => .fault .reservedCommand
  | .port _ => .fault .reservedPortCode

/-- A step that presents no instruction to `exec`. -/
def stimulate (e : Stimulus) (s : State) : Host.Outcome State Fault Refusal := outcome (occur (handlerOf s) e) s

/-- Place a word of `nbits` bits where the next step fetches: a request at the request port, a command in `COMMAND` with
the Acceptor's step next (log entry 2). -/
def placeWord (nbits w : Nat) (s : State) : State :=
  let bits := w % 2 ^ nbits
  if nbits ≤ 32 then
    (s.mapRegs (fun r => { r with command := BitVec.ofNat 32 bits })).mapPorts
      (fun p => { p with schedule := .device .accept :: p.schedule })
  else s.mapPorts (fun p => { p with schedule := .request (BitVec.ofNat 64 bits) :: p.schedule })

end Sys2Proof.Machine
end

