-- ==== Sys2Proof/Machine/Step.lean ====
section
/-!
DEFINITION. One step of the machine: the agent at the head of the schedule takes its step (spec/10_state.md R20,
spec/60_exceptions.md R281). With nothing scheduled the block does nothing by itself (spec/70_reset_and_hazards.md R310).
-/
namespace Sys2Proof.Machine

/-- The step function. Three outcomes: a next state, a fault, a refusal. -/
def step (s : State) : Host.Outcome State Fault Refusal :=
  match fetch s with
  | some p =>
    match decode p with
    | .ok i => exec i s.advance
    | .error _ => undecodable p s.advance
  | none =>
    match s.ports.schedule with
    | [] => .next s
    | e :: _ => stimulate e s.advance

/-- The state with an instruction's bits where `step` fetches its next instruction. -/
def State.withFetchWord (s : State) (nbits w : Nat) : State := placeWord nbits w s

end Sys2Proof.Machine
end

