-- ==== Sys2Proof/Safety.lean ====
section
/-!
DEFINITION. What counts as a safe step and a safe run: no fault ("a faulted state is never final", spec/00_scope.md R13,
spec/60_exceptions.md R293), no refusal. And the terms the statements use: how the machine stands between steps, how its
descriptors lie in memory, what a step must keep.
-/
namespace Sys2Proof.Machine

/-- The step answers a next state. -/
def Proceeds (s : State) : Prop := ∃ t, step s = .next t

/-- Every one of the next `n` steps answers a next state. -/
def SafeFor : Nat → State → Prop
  | 0, _ => True
  | n + 1, s => ∃ t, step s = .next t ∧ SafeFor n t

/-! ## Between steps -/

/-- No host-side agent holds a lock, no interrupt service, START, SUBMIT or first transition of TEARDOWN is under way, and no
upward event is still to be made: how the machine stands between steps. -/
def State.settled (s : State) : Bool :=
  decide (s.locks = Locks.free) && !s.ports.isrActive && !s.ports.startActive &&
  decide (s.ports.teardown ≠ .beginning) && s.ports.completions.isEmpty && s.ports.indications.isEmpty &&
  s.ports.submits == 0

/-- Settled, and the schedule holds no step of another agent inside the operation. -/
def State.quiet (s : State) : Bool := s.settled && s.ports.interleaved.isEmpty

/-- A step of a device agent. -/
def Stimulus.ofDevice : Stimulus → Bool
  | .device _ => true
  | .request _ => false
  | .registerWrite _ _ => false
  | .teardownFinish => false
  | .memoryWrite _ _ => false
  | .providePacket _ => false
  | .provideMcastList _ _ => false
  | .allocatorReply _ => false
  | .lookasideReply _ => false

/-- Inside the operation only device agents step. -/
def State.deviceStepsOnly (s : State) : Bool := s.ports.interleaved.all (fun es => es.all Stimulus.ofDevice)

/-! ## How descriptors lie in memory -/

/-- The TD array is one region of `NumTcb * TD_SIZE` bytes of the address space, with one shadow record per slot. -/
def State.txLaidOut (s : State) : Bool :=
  inSpace s.tx.base (s.cfg.numTcb * s.cfg.tdSize) && decide (s.tx.shadow.length = s.cfg.numTcb)

/-- Two receive descriptor headers that share no byte; a descriptor without an address has no header. -/
def separateHeaders : Option Nat → Option Nat → Bool
  | some a, some b => decide (a + rdSize ≤ b) || decide (b + rdSize ≤ a)
  | _, _ => true

/-- The receive headers lie in the address space, no two share a byte, and every posted descriptor has one. -/
def State.rxLaidOut (s : State) : Bool :=
  decide (s.rx.shadows.Pairwise (fun e f => separateHeaders e.2.hwAddress f.2.hwAddress = true)) &&
  s.rx.shadows.all (fun e => match e.2.hwAddress with
    | some a => inSpace a rdSize
    | none => true) &&
  s.rx.readyList.all (fun d => (s.rdAddr? d).isSome)

/-- Both completion marks of the posted descriptor `d` are set (R161). -/
def State.rxCompleted (s : State) (d : Nat) : Bool :=
  match s.rdAddr? d with
  | some a => s.mem.rdC a && s.mem.rdV a
  | none => false

/-- Neither completion mark of the posted descriptor `d` is set (R161). -/
def State.rxUntouched (s : State) (d : Nat) : Bool :=
  match s.rdAddr? d with
  | some a => !s.mem.rdC a && !s.mem.rdV a
  | none => false

/-- HARVEST takes nothing: the ready list is empty or its head is not completed. -/
def State.nothingToHarvest (s : State) : Bool :=
  match s.rx.readyList with
  | [] => true
  | d :: _ => (s.rdAddr? d).isSome && !s.rxCompleted d

/-- The interval counters after an interval that is not under-supplied (R166). -/
def RxRing.overSupplied (c : Config) (r : RxRing) : RxRing :=
  { r with lowCount := 0,
           shrinkCounter := if c.rxMinWorkingSet < r.currentCount then r.shrinkCounter + 1 else r.shrinkCounter }

/-- In `t` the header at `a` is as RECYCLE leaves it, the last of `rest` leads to it, and no other byte of memory differs
from `s` (R163). -/
def RecycledAt (s t : State) (a : Nat) (rest : List Nat) : Prop :=
  t.mem.rdC a = false ∧ t.mem.rdOK a = false ∧ t.mem.rdV a = false ∧ t.mem.rdCount a = 0 ∧ t.mem.rdEL a = true ∧
  t.mem.rdLink a = 0 ∧
  (∀ q b, rest.getLast? = some q → s.rdAddr? q = some b → t.mem.rdLink b = addrWord a ∧ t.mem.rdEL b = false) ∧
  (∀ x, (x < a ∨ a + 14 ≤ x ∨ (a + 8 ≤ x ∧ x < a + 12)) →
    (∀ q b, rest.getLast? = some q → s.rdAddr? q = some b → x < b + 2 ∨ b + 8 ≤ x) → t.mem.byte x = s.mem.byte x)

/-! ## START -/

/-- The regions START asks for, in its order: the TD array, the local buffers, the receive regions (R240 step 1). -/
def startRegions (c : Config) (base : Nat) (bufs regions : List Nat) : List Region :=
  ⟨base, c.numTcb * c.tdSize⟩ ::
    (bufs.map (fun b => Region.mk b c.maxFrameSize) ++ regions.map (fun r => Region.mk r c.rxRegionSize))

/-- The receive descriptor at `a` as START leaves it, with the descriptor it leads to, if any: re-armed, with its payload
pointer and capacity, `EL` on the last only (R135, R163, R54). -/
def PostedAt (c : Config) (m : Memory) (a : Nat) (next : Option Nat) : Prop :=
  m.rdC a = false ∧ m.rdOK a = false ∧ m.rdV a = false ∧ m.rdCount a = 0 ∧
  m.rdPayloadPtr a = addrWord (a + rdSize) ∧ m.rdCapacity a = c.rxBufferCapacity ∧
  match next with
  | some b => m.rdEL a = false ∧ m.rdLink a = addrWord b
  | none => m.rdEL a = true ∧ m.rdLink a = 0

/-! ## Link detection -/

/-- The link results for a selection, read off the registers (R216). -/
def Link.configured (c : Config) (g : Registers) (x : Selection) (l : Link) : Link :=
  match x with
  | .addr a =>
    if (phyRecordOf g.phystat[a]).present && (phyRecordOf g.phystat[a]).linkUp
    then { l with selected := x, speed := (phyRecordOf g.phystat[a]).speed,
                  duplex := (phyRecordOf g.phystat[a]).duplex, media := .connected }
    else { l with selected := x, speed := c.defaultSpeed, duplex := c.defaultDuplex, media := .disconnected }
  | .connector _ => { l with selected := x, speed := c.defaultSpeed, duplex := c.defaultDuplex, media := .connected }
  | .alternateWiring => { l with selected := x, speed := c.defaultSpeed, duplex := c.defaultDuplex, media := .connected }
  | .none => l

/-- The state after the link tick that reaches `Done` with the selection `x`, the link being `l` before CONFIGURE: the
results stand, the reference is released, the deferred filter and multicast list are applied (R212, R216, R217). -/
def State.detected (s : State) (x : Selection) (l : Link) : State :=
  { s with
    link := { Link.configured s.cfg s.regs x l with
      phase := .done, timer := .idle, pendingPropertyReads := [], pendingFilter := none, pendingMcast := none,
      pendingReset := false },
    dev := { s.dev with
      refCount := s.dev.refCount - 1, packetFilter := s.link.pendingFilter.getD s.dev.packetFilter,
      mcastList := s.link.pendingMcast.getD s.dev.mcastList },
    result := some .ok }

/-! ## What every step keeps -/

/-- Reserved bits are 0 and no reserved code stands in a register (R107, R108, R109, R193). -/
def Registers.Legal (r : Registers) : Prop :=
  r.status &&& 0xFFFFF0F0 = 0 ∧ statusCus r.status ≠ 3 ∧
  (statusRus r.status = unitIdle ∨ statusRus r.status = unitActive) ∧
  r.command.toNat ≤ 3 ∧ r.intmask.toNat ≤ 1 ∧ ∀ a : PhyAddress, r.phystat[a] &&& 0xFFFFFF00 = 0

/-- The cursors and the count of the transmit ring agree, and `inUse` is set exactly for the `busyCount` slots from the
head on (R51). -/
def State.TxRingLaw (s : State) : Prop :=
  s.tx.head < s.cfg.numTcb ∧ s.tx.busyCount ≤ s.cfg.numTcb ∧
  s.tx.tail = (s.tx.head + s.tx.busyCount) % s.cfg.numTcb ∧
  (s.dev.lifecycle = .uninitialised ∨ s.tx.shadow.length = s.cfg.numTcb) ∧
  ∀ i < s.cfg.numTcb,
    ((s.tx.shadowAt i).inUse = true ↔ ∃ j < s.tx.busyCount, i = (s.tx.head + j) % s.cfg.numTcb)

/-- The two receive lists are the descriptors of their states, no descriptor is in both or twice in one, the counters are
their lengths, `currentCount` is the number of descriptors that exist without one in flight, and the descriptor of an
allocation in flight exists and is pending (R23, R28, R43, R53). -/
def RxRing.Ownership (r : RxRing) : Prop :=
  (r.shadows.map (·.1)).Pairwise (· < ·) ∧ r.readyList.Nodup ∧ r.pendingList.Nodup ∧
  (∀ d, d ∈ r.readyList ↔ ∃ sh, r.shadow? d = some sh ∧ sh.state = .posted) ∧
  (∀ d, d ∈ r.pendingList ↔ ∃ sh, r.shadow? d = some sh ∧ sh.state = .handedToUpperLayer) ∧
  r.readyCount = r.readyList.length ∧ r.outstandingReceives = r.pendingList.length ∧
  r.currentCount = (r.shadows.filter (fun e => e.2.state != .allocationPending)).length ∧
  (∀ d, r.allocState = .allocationInFlight d → ∃ sh, r.shadow? d = some sh ∧ sh.state = .allocationPending)

/-- The device has left service for good (R47, R248). -/
def Lifecycle.outOfService : Lifecycle → Bool
  | .withdrawn => true
  | .halting => true
  | .halted => true
  | .uninitialised => false
  | .running => false

end Sys2Proof.Machine
end

