-- ==== Sys2Proof/Certificates/Slice0/Obligations.lean ====
section
/-!
DEFINITION. The statements for the provers. Unless a statement says otherwise, every part of the state it does not name is
equal before and after: most conclusions are whole next states.
-/
open Sys2Proof Sys2Proof.Machine

/-! ## Encoding -/

/-- Decoding the encoding of a well-formed instruction gives it back, with every operand at every value (R101 to R105). -/
def Obligations.DecodeOfEncodeIsTheInstruction : Prop :=
  ∀ i : Instr, i.wf = true → decode (encode i) = .ok i

/-- A word has at most one meaning and no bit of it is dropped: whatever decodes is the encoding of what it decodes to. -/
def Obligations.EncodeOfDecodeIsTheWord : Prop :=
  ∀ (p : Presented) (i : Instr), decode p = .ok i → i.wf = true ∧ encode i = p

/-- The worked encodings of R116. -/
def Obligations.DecodesTheWorkedWords : Prop :=
  decode (.request 0x1000000000000005) = .ok (.submit 5) ∧
  decode (.request 0x1200000000000007) = .ok (.cancel 7) ∧
  decode (.request 0x0801000000000000) = .ok (.setPower .lowPower) ∧
  decode (.request 0x2401000000200000) = .ok (.growComplete true 0x200000) ∧
  decode (.request 0x3081000000001000) = .ok (.issueCommand true 1 0x1000) ∧
  decode (.request 0x3002000000000000) = .ok (.issueCommand false 2 0) ∧
  decode (.request 0x2000000000000000) = .ok .harvest ∧
  decode (.request 0x4100000000000000) = .ok .linkTick ∧
  decode (.command 3) = .ok .ruStart ∧
  decode (.port 2) = .ok .fullReset

/-! ## The step -/

/-- The step runs the instruction its word decodes to: a request at the request port, a pending command when the Acceptor
steps, a value written to `PORT`. Around exec it only takes the entry off the schedule (the model's own port, log entry 3). -/
def Obligations.StepRunsTheDecodedInstruction : Prop :=
  ∀ (s : State) (rest : List Stimulus) (i : Instr),
    (∀ w, s.ports.schedule = .request w :: rest → decode (.request w) = .ok i →
      step s = exec i { s with ports := { s.ports with schedule := rest } }) ∧
    (s.ports.schedule = .device .accept :: rest → commandCode s.regs.command ≠ 0 →
      decode (.command s.regs.command) = .ok i →
      step s = exec i { s with ports := { s.ports with schedule := rest } }) ∧
    (∀ v, s.ports.schedule = .registerWrite 0x10 v :: rest → decode (.port v) = .ok i →
      step s = exec i { s with ports := { s.ports with schedule := rest } })

/-- "is refused: the block returns `InvalidRequest` and changes no state" (R112): an undecodable request word. A reserved
command code in `COMMAND` and a reserved value written to `PORT` stop the machine (R112, U2, U3). -/
def Obligations.UndecodableWordsRefuseOrFault : Prop :=
  ∀ (s : State) (rest : List Stimulus) (w : RequestWord) (v : Word),
    (∀ e, s.ports.schedule = .request w :: rest → decode (.request w) = .error e →
      step s = .next { s with ports := { s.ports with schedule := rest }, result := some .invalidRequest }) ∧
    (s.ports.schedule = .registerWrite 0x04 v :: rest → 4 ≤ (commandCode v).toNat →
      step s = .fault .reservedCommand) ∧
    (s.ports.schedule = .device .accept :: rest → 4 ≤ (commandCode s.regs.command).toNat →
      step s = .fault .reservedCommand) ∧
    (s.ports.schedule = .registerWrite 0x10 v :: rest → v ≠ 1 → v ≠ 2 → step s = .fault .reservedPortCode)

/-! ## What every step keeps -/

/-- Every step keeps memory in its canonical form (the model's representation, log entry 8). -/
def Obligations.StepKeepsMemoryCanonical : Prop :=
  ∀ s t : State, s.mem.wf = true → step s = .next t → t.mem.wf = true

/-- Every step keeps the registers legal: reserved bits 0, `CUS` and `RUS` never 3, `RUS` never `Suspended`, the pending
command legal. -/
def Obligations.StepKeepsRegistersLegal : Prop :=
  ∀ s t : State, s.regs.Legal → step s = .next t → t.regs.Legal

/-- Every step keeps the ownership of receive descriptors and their counts (R23, R28, R43, R53), and with it the capacity
invariant `readyCount ≤ currentCount ≤ rxMaxCount` (R23, R52, R174); the upper bound rests on the parameters being in their
ranges (R7). -/
def Obligations.StepKeepsReceiveOwnership : Prop :=
  ∀ s t : State, s.settled = true → s.rx.Ownership → step s = .next t →
    t.rx.Ownership ∧ t.rx.readyCount ≤ t.rx.currentCount ∧
    (s.cfg.wf = true → s.rx.currentCount ≤ s.cfg.rxMaxCount → t.rx.currentCount ≤ t.cfg.rxMaxCount)

/-- Every step keeps the cursors, the count and the used slots of the transmit ring in agreement (R51, R149), and no step
changes the configuration (R7). -/
def Obligations.StepKeepsTransmitRingLaw : Prop :=
  ∀ s t : State, s.TxRingLaw → step s = .next t → t.TxRingLaw ∧ t.cfg = s.cfg

/-- Every step ends with no lock held, neither an interrupt service, a START nor a TEARDOWN's first transition under way, and
every completion and indication made that it owes, and with every SUBMIT ended, whatever other contexts do inside it. -/
def Obligations.StepReleasesEveryLock : Prop :=
  ∀ s t : State, s.settled = true → step s = .next t → t.settled = true

/-- A device that has left service never comes back: no step leads from `Withdrawn`, `Halting` or `Halted` to `Running`
or `Uninitialised` (R47, R240, R248). -/
def Obligations.NoWayBackIntoService : Prop :=
  ∀ s t : State, s.dev.lifecycle.outOfService = true → step s = .next t → t.dev.lifecycle.outOfService = true

/-- "cleared only by RESET and START" (R26): every other instruction leaves a set hardware-error flag set, whatever the
device agents do inside it. HEALTH_CHECK and LINK_TICK run RESET (R217, R243). And "no operation writes `COMMAND`, `POINTER`"
then (R320): `POINTER` stays, but for the port reset that clears it (R200), and `COMMAND` stays or its code is cleared, by the
Acceptor or a port reset (R194, R199). -/
def Obligations.HardwareErrorIsSticky : Prop :=
  ∀ (i : Instr) (s t : State), s.deviceStepsOnly = true → s.dev.hardwareError = true →
    i ≠ .reset → i ≠ .start → i ≠ .healthCheck → i ≠ .linkTick →
    exec i s = .next t → t.dev.hardwareError = true ∧ (i ≠ .fullReset → t.regs.pointer = s.regs.pointer) ∧
      (t.regs.command = s.regs.command ∨ commandCode t.regs.command = 0)

/-- The interrupt mask is written by the mask requests, START, RESET, TEARDOWN, HEALTH_CHECK and LINK_TICK (which run
RESET) and FULL_RESET only (R276, R319): every other instruction leaves `INTMASK` alone. -/
def Obligations.OnlyTheNamedInstructionsWriteTheMask : Prop :=
  ∀ (i : Instr) (s t : State), s.deviceStepsOnly = true →
    i ≠ .intEnable → i ≠ .intDisable → i ≠ .start → i ≠ .reset → i ≠ .teardown → i ≠ .healthCheck → i ≠ .linkTick →
    i ≠ .fullReset → exec i s = .next t → t.regs.intmask = s.regs.intmask

/-- The state after power-on satisfies what every step keeps. The example configuration, the rings before START and the
zeros of `PHYSTAT` in it are the model's choices (log entries 1, 7 and 11). -/
def Obligations.ResetSatisfiesTheInvariants : Prop :=
  State.reset.mem.wf = true ∧ State.reset.regs.Legal ∧ State.reset.rx.Ownership ∧ State.reset.TxRingLaw ∧
  State.reset.settled = true ∧ State.reset.cfg.wf = true ∧ State.reset.rx.currentCount ≤ State.reset.cfg.rxMaxCount

/-- Power-on (R310, R54): the registers, `deviceState`, the timers; and "The only request accepted is START". -/
def Obligations.PowerOnAcceptsOnlyStart : Prop :=
  (State.reset.regs.status = 0 ∧ State.reset.regs.command = 0 ∧ State.reset.regs.pointer = 0 ∧
    State.reset.regs.intmask = 1 ∧ State.reset.dev.lifecycle = .uninitialised ∧
    State.reset.link.timer = .idle ∧ State.reset.dev.healthTimer = .idle ∧ State.reset.lineAsserted = false) ∧
  ∀ (i : Instr) (w : RequestWord), encode i = .request w → i ≠ .start →
    exec i State.reset =
      .next { State.reset with result := some (if i = .interrupt then .notMine else .invalidRequest) }

/-! ## Device control -/

/-- START (R240), with allocators that deliver regions they may deliver: every transmit descriptor is the software's, empty
and linked to the next; every receive descriptor is posted over its region and linked to the next, only the last with `EL`
(R54, R134, R135); the receive unit is started at the first descriptor, link detection is begun, the interrupt is unmasked and the health timer armed. The answers of
the allocators stand in ports (the model's own, log entry 6). -/
def Obligations.StartBringsTheDeviceUp : Prop :=
  ∀ (s : State) (base : Nat) (bufs regions : List Nat) (more : List (Option Nat)) (shadows : List Bool),
    s.quiet = true → s.dev.lifecycle = .uninitialised → s.cfg.wf = true → s.mem.wf = true →
    bufs.length = s.cfg.numLocalBuf → regions.length = s.cfg.rxInitialCount →
    s.ports.sharedReplies = (base :: (bufs ++ regions)).map some ++ more →
    s.ports.lookasideReplies = List.replicate s.cfg.rxInitialCount true ++ shadows →
    (s.ports.liveRegions ++ startRegions s.cfg base bufs regions).Pairwise (fun a b => a.disjoint b = true) →
    (∀ r ∈ startRegions s.cfg base bufs regions, 0 < r.base ∧ inSpace r.base r.size = true) →
    (∀ i < s.cfg.numTcb, Config.aligned s.cfg (base + i * s.cfg.tdSize) = true) →
    (∀ r ∈ regions, Config.aligned s.cfg (r + s.cfg.rxAlignShift) = true) →
    ∃ t, exec .start s = .next t ∧ t.result = some .ok ∧
      t.dev = { Device.reset with lifecycle := .running, refCount := 1, healthTimer := .armed } ∧
      t.link = Link.begin s.cfg (Link.reset s.cfg) ∧
      t.tx = { base := base, bufs := bufs, head := 0, tail := 0, busyCount := 0,
               shadow := List.replicate s.cfg.numTcb TxShadow.clear, localBufFree := List.range s.cfg.numLocalBuf,
               waitQueue := [], transmitIdle := true, resumeWaitNeeded := true } ∧
      (∀ i < s.cfg.numTcb, t.tdC i = true ∧ t.tdS i = false ∧
        t.tdLink i = addrWord (base + s.cfg.next i * s.cfg.tdSize) ∧ t.tdFragCount i = 0 ∧
        ∀ k < s.cfg.maxFragments, t.tdFragAddr i k = 0 ∧ t.tdFragLen i k = 0) ∧
      (∀ k r, regions[k]? = some r →
        t.rx.shadow? k = some ⟨.posted, some r, some (r + s.cfg.rxAlignShift), s.cfg.rxBufferCapacity, 0⟩ ∧
        PostedAt s.cfg t.mem (r + s.cfg.rxAlignShift) (regions[k + 1]?.map (fun q => q + s.cfg.rxAlignShift))) ∧
      (∀ k, s.cfg.rxInitialCount ≤ k → t.rx.shadow? k = none) ∧
      t.rx.readyList = List.range s.cfg.rxInitialCount ∧ t.rx.readyCount = s.cfg.rxInitialCount ∧
      t.rx.currentCount = s.cfg.rxInitialCount ∧ t.rx.pendingList = [] ∧ t.rx.outstandingReceives = 0 ∧
      t.rx.allocState = .idle ∧ t.rx.lowCount = 0 ∧ t.rx.shrinkCounter = 0 ∧
      statusCus t.regs.status = unitIdle ∧ statusRus t.regs.status = unitIdle ∧ causesOf t.regs.status = 0 ∧
      t.regs.command = 3 ∧ t.regs.pointer = addrWord (regions.headD 0 + s.cfg.rxAlignShift) ∧ t.regs.intmask = 0 ∧
      t.regs.phystat = s.regs.phystat ∧ t.units = ⟨0, none, .none⟩ ∧ t.events = [] ∧
      (∀ x, (∀ r ∈ startRegions s.cfg base bufs regions, x < r.base ∨ r.base + r.size ≤ x) →
        t.mem.byte x = s.mem.byte x) ∧
      t.ports = { s.ports with
        sharedReplies := more, lookasideReplies := shadows,
        liveRegions := s.ports.liveRegions ++ startRegions s.cfg base bufs regions } ∧
      t.cfg = s.cfg ∧ t.locks = s.locks

/-- TEARDOWN, its first transition (R241): every held packet and every deferred read is completed with `Cancelled`, the
interrupt masked, the units idle, the timers cancelled; the receive side keeps its descriptors; the status comes later.
Outside `Running` and `Withdrawn`, and after a TEARDOWN has finished ("torn down exactly once", R138, log entry 14), it is
refused and changes nothing. -/
def Obligations.TeardownBeginsHalting : Prop :=
  ∀ s : State, s.quiet = true →
    (((s.dev.lifecycle ≠ .running ∧ s.dev.lifecycle ≠ .withdrawn) ∨ s.ports.teardown = .finished) →
      exec .teardown s = .next { s with result := some .invalidRequest }) ∧
    ((s.dev.lifecycle = .running ∨ s.dev.lifecycle = .withdrawn) → s.ports.teardown = .notUnderWay →
      s.txLaidOut = true →
    ∃ t, exec .teardown s = .next t ∧ t.result = none ∧
      t.dev = { s.dev with lifecycle := .halting, healthTimer := .idle,
                           refCount := if s.link.timer = .armed then s.dev.refCount - 1 else s.dev.refCount } ∧
      t.link = { s.link with timer := .idle, pendingPropertyReads := [], pendingFilter := none, pendingMcast := none,
                             pendingReset := false } ∧
      t.regs = { s.regs with intmask := 1, command := 0,
                             status := withRus unitIdle (withCus unitIdle s.regs.status) } ∧
      t.units = { s.units with ruPhase := .none } ∧
      t.tx = { s.tx with head := 0, tail := 0, busyCount := 0, waitQueue := [],
                         shadow := List.replicate s.cfg.numTcb TxShadow.clear,
                         localBufFree := List.range s.cfg.numLocalBuf } ∧
      t.events = s.events ++ s.heldPackets.map (fun p => .completeSend p .cancelled) ++
        s.link.pendingPropertyReads.map (fun e => .completeRequest e.1 .cancelled) ∧
      t.rx = s.rx ∧ t.ports = s.ports ∧ t.cfg = s.cfg ∧ t.locks = s.locks ∧
      ∀ x, (x < s.tx.base ∨ s.tx.base + s.cfg.numTcb * s.cfg.tdSize ≤ x) → t.mem.byte x = s.mem.byte x)

/-- TEARDOWN, its second transition (R241): it waits for the end of the first and for `refCount = 0` and
`outstandingReceives = 0`, then frees the posted descriptors and ends with `Halted` and `Ok`; it happens once (R138, log
entry 14). While the first is under way, or a SUBMIT is, it is not enabled. Packets that a SUBMIT overtaken by TEARDOWN has
left in the ring are first completed with `Cancelled` and the ring rebuilt, as in the first transition (the model's choice, log
entry 33). -/
def Obligations.TeardownFinishesWhenDrained : Prop :=
  ∀ (s : State) (rest : List Stimulus), s.locks = Locks.free → s.ports.schedule = .teardownFinish :: rest →
    ((s.dev.lifecycle ≠ .halting ∨ s.ports.teardown ≠ .notUnderWay ∨ s.dev.refCount ≠ 0 ∨
        s.rx.outstandingReceives ≠ 0 ∨ s.ports.submits ≠ 0) →
      step s = .next { s with ports := { s.ports with schedule := rest } }) ∧
    (s.dev.lifecycle = .halting → s.ports.teardown = .notUnderWay → s.dev.refCount = 0 → s.rx.outstandingReceives = 0 →
      s.ports.submits = 0 → s.ports.interleaved = [] → s.heldPackets ≠ [] → s.txLaidOut = true →
      ∃ u, step s = step u ∧
        u.tx = { s.tx with head := 0, tail := 0, busyCount := 0, waitQueue := [],
                           shadow := List.replicate s.cfg.numTcb TxShadow.clear,
                           localBufFree := List.range s.cfg.numLocalBuf } ∧
        u.events = s.events ++ s.heldPackets.map (fun p => .completeSend p .cancelled) ∧
        (∀ x, (x < s.tx.base ∨ s.tx.base + s.cfg.numTcb * s.cfg.tdSize ≤ x) → u.mem.byte x = s.mem.byte x) ∧
        u = { s with tx := u.tx, mem := u.mem, events := u.events }) ∧
    (s.dev.lifecycle = .halting → s.ports.teardown = .notUnderWay → s.dev.refCount = 0 → s.rx.outstandingReceives = 0 →
      s.ports.submits = 0 → s.tx.busyCount = 0 → s.tx.waitQueue = [] → s.rx.pendingList = [] → s.rx.allocState = .idle →
      ∃ t, step s = .next t ∧ t.result = some .ok ∧ t.dev = { s.dev with lifecycle := .halted } ∧
        t.rx.readyList = [] ∧ t.rx.readyCount = 0 ∧
        t.rx.currentCount = s.rx.currentCount - s.rx.readyList.length ∧
        (∀ d ∈ s.rx.readyList, t.rx.shadow? d = none) ∧
        (∀ d, d ∉ s.rx.readyList → t.rx.shadow? d = s.rx.shadow? d) ∧
        (∀ r, r ∈ t.ports.liveRegions ↔ r ∈ s.ports.liveRegions ∧ r.base ≠ s.tx.base ∧ r.base ∉ s.tx.bufs ∧
          ∀ d ∈ s.rx.readyList, (s.rx.shadow? d).bind (·.allocBase) ≠ some r.base) ∧
        t.ports = { s.ports with
          schedule := rest, liveRegions := t.ports.liveRegions, teardown := .finished } ∧
        t.rx.pendingList = [] ∧ t.rx.outstandingReceives = 0 ∧ t.rx.allocState = .idle ∧
        t.rx.lowCount = s.rx.lowCount ∧ t.rx.shrinkCounter = s.rx.shrinkCounter ∧
        t.regs = s.regs ∧ t.units = s.units ∧ t.tx = s.tx ∧ t.link = s.link ∧ t.mem = s.mem ∧ t.events = s.events ∧
        t.locks = s.locks ∧ t.cfg = s.cfg)

/-- RESET (R242) on a device that answers: the Acceptor takes the restart at the first poll of the verification and no
other agent steps in between. Every held packet is completed with `Cancelled`, the transmit ring is rebuilt: every descriptor
is the software's, empty and linked to the next (R134); the
posted receive descriptors are re-armed and the receive unit is ready at the head, the flag and the failure count are
cleared, link detection begins again. Where the Acceptor steps is said in the model's own port (log entry 4). -/
def Obligations.ResetRecoversTheDevice : Prop :=
  ∀ (s : State) (d a : Nat) (rest : List Nat),
    s.settled = true →
    s.ports.interleaved =
      List.replicate (18 + 4 * s.cfg.numTcb + 2 * s.rx.readyList.length + 2 * s.heldPackets.length) [] ++
        [[.device .accept]] →
    s.dev.lifecycle = .running → s.link.phase.inProgress = false → s.txLaidOut = true → s.rxLaidOut = true →
    s.mem.wf = true → 1 ≤ s.cfg.acceptPollBudget →
    s.rx.readyList = d :: rest → s.rdAddr? d = some a → Config.aligned s.cfg a = true →
    (∀ x ∈ s.rx.readyList, ∀ b, s.rdAddr? x = some b →
      b + rdSize ≤ s.tx.base ∨ s.tx.base + s.cfg.numTcb * s.cfg.tdSize ≤ b) →
    ∃ t, exec .reset s = .next t ∧ t.result = some .ok ∧
      (∀ i < s.cfg.numTcb, t.tdC i = true ∧ t.tdS i = false ∧ t.tdLink i = addrWord (s.tdAddr (s.cfg.next i)) ∧
        t.tdFragCount i = 0) ∧
      t.dev = { s.dev with hardwareError := false, consecutiveResetFailures := 0, refCount := s.dev.refCount + 1 } ∧
      t.link = Link.begin s.cfg s.link ∧
      t.tx = { s.tx with head := 0, tail := 0, busyCount := 0, waitQueue := [], transmitIdle := true,
                         resumeWaitNeeded := true, shadow := List.replicate s.cfg.numTcb TxShadow.clear,
                         localBufFree := List.range s.cfg.numLocalBuf } ∧
      t.rx = s.rx ∧
      statusCus t.regs.status = unitIdle ∧ statusRus t.regs.status = unitActive ∧ causesOf t.regs.status = 0 ∧
      t.regs.command = 0 ∧ t.regs.pointer = addrWord a ∧ t.regs.intmask = 0 ∧ t.regs.phystat = s.regs.phystat ∧
      t.units = ⟨0, some d, .none⟩ ∧
      t.events = s.events ++ s.heldPackets.map (fun p => .completeSend p .cancelled) ∧
      (∀ x ∈ s.rx.readyList, ∀ b, s.rdAddr? x = some b →
        t.mem.rdC b = false ∧ t.mem.rdOK b = false ∧ t.mem.rdV b = false ∧ t.mem.rdCount b = 0) ∧
      (∀ y, (y < s.tx.base ∨ s.tx.base + s.cfg.numTcb * s.cfg.tdSize ≤ y) →
        (∀ x ∈ s.rx.readyList, ∀ b, s.rdAddr? x = some b → (y < b ∨ b + 2 ≤ y) ∧ (y < b + 12 ∨ b + 14 ≤ y)) →
        t.mem.byte y = s.mem.byte y) ∧
      t.ports = { s.ports with interleaved := [] } ∧ t.cfg = s.cfg ∧ t.locks = s.locks

/-- RESET in the states that do not run it at once (R242, R283): deferred while link detection runs, refused in
`Withdrawn` and wherever the device is not `Running`. -/
def Obligations.ResetDefersAndRefuses : Prop :=
  ∀ s : State, s.quiet = true →
    (s.dev.lifecycle = .running → s.link.phase.inProgress = true →
      exec .reset s = .next { s with link := { s.link with pendingReset := true }, result := some .pending }) ∧
    (s.dev.lifecycle = .withdrawn → exec .reset s = .next { s with result := some .nonRecoverable }) ∧
    (s.dev.lifecycle ≠ .running → s.dev.lifecycle ≠ .withdrawn →
      exec .reset s = .next { s with result := some .invalidRequest })

/-- RESET_FAILED (R248): a failed reset is counted; at the bound the device is withdrawn and both timers are cancelled (D42), the
link timer with the reference of its step (R24). It holds in states with the mask clear as well: that the mask stays as it is in
`Withdrawn`, where R248's prose has the interrupt masked, and that the link timer, which R248's pseudocode does not name, is
cancelled as TEARDOWN cancels it, are the model's choice (log entry 32). -/
def Obligations.FailedResetsEscalate : Prop :=
  ∀ (h : Handler) (s : State), s.locks = Locks.free → s.ports.interleaved = [] →
    (s.dev.consecutiveResetFailures + 1 < s.cfg.maxResetAttempts →
      resetFailed h s = .ok (.hardError,
        { s with dev := { s.dev with consecutiveResetFailures := s.dev.consecutiveResetFailures + 1 } })) ∧
    (s.cfg.maxResetAttempts ≤ s.dev.consecutiveResetFailures + 1 →
      resetFailed h s = .ok (.nonRecoverable,
        { s with
          dev := { s.dev with consecutiveResetFailures := s.dev.consecutiveResetFailures + 1, nonRecoverable := true,
                              lifecycle := .withdrawn, healthTimer := .idle,
                              refCount := if s.link.timer = .armed then s.dev.refCount - 1 else s.dev.refCount },
          link := { s.link with timer := .idle } }))

/-- HEALTH_CHECK (R243): while link detection runs only the timer is armed again; with the error flag set it is a RESET;
with nothing wrong, nothing queued and the receive unit ready, the selected transceiver is read and the link results
follow it; a head slot that is not completed is counted once per check, and one that is counted past the threshold is
answered by a RESET. -/
def Obligations.HealthCheckProbesCountsAndResets : Prop :=
  ∀ (s : State), s.quiet = true → s.dev.lifecycle = .running → s.dev.healthTimer = .armed →
    (s.link.phase ≠ .done → exec .healthCheck s = .next { s with result := some .ok }) ∧
    (∀ t, s.link.phase = .done → s.dev.hardwareError = true →
      exec .reset { s with dev := { s.dev with healthTimer := .idle } } = .next t →
      exec .healthCheck s = .next
        (if t.dev.lifecycle = .running then { t with dev := { t.dev with healthTimer := .armed } } else t)) ∧
    (∀ a : PhyAddress, s.link.phase = .done → s.dev.hardwareError = false → s.tx.busyCount = 0 →
      s.tx.waitQueue = [] → s.link.selected = .addr a → statusRus s.regs.status = unitActive →
      exec .healthCheck s = .next { s with
        link := (if (phyRecordOf s.regs.phystat[a]).present && (phyRecordOf s.regs.phystat[a]).linkUp
                then { s.link with speed := (phyRecordOf s.regs.phystat[a]).speed,
                                   duplex := (phyRecordOf s.regs.phystat[a]).duplex, media := .connected }
                else { s.link with media := .disconnected }),
        result := some .ok }) ∧
    (s.link.phase = .done → s.dev.hardwareError = false → 0 < s.tx.busyCount → s.tx.head < s.cfg.numTcb →
      s.txLaidOut = true → s.tdC s.tx.head = false →
      (s.tx.shadowAt s.tx.head).retryCount + 1 ≤ s.cfg.hangThreshold →
      s.link.selected = .alternateWiring → statusRus s.regs.status = unitActive →
      exec .healthCheck s = .next { s with
        tx := { s.tx with
          shadow := s.tx.shadow.set s.tx.head
            { s.tx.shadowAt s.tx.head with retryCount := (s.tx.shadowAt s.tx.head).retryCount + 1 } },
        result := some .ok }) ∧
    (∀ t, s.link.phase = .done → s.dev.hardwareError = false → 0 < s.tx.busyCount → s.tx.head < s.cfg.numTcb →
      s.txLaidOut = true → s.tdC s.tx.head = false →
      s.cfg.hangThreshold < (s.tx.shadowAt s.tx.head).retryCount + 1 →
      exec .reset { s with
        dev := { s.dev with healthTimer := .idle },
        tx := { s.tx with
          shadow := s.tx.shadow.set s.tx.head
            { s.tx.shadowAt s.tx.head with retryCount := (s.tx.shadowAt s.tx.head).retryCount + 1 } } } = .next t →
      exec .healthCheck s = .next
        (if t.dev.lifecycle = .running then { t with dev := { t.dev with healthTimer := .armed } } else t))

/-- INTERRUPT on an asserted line (R244, R277): exactly the causes are acknowledged, and with no slot in use, nothing
queued and nothing to harvest only the interval counters move; otherwise nothing at all is touched. -/
def Obligations.InterruptAcknowledgesTheCauses : Prop :=
  ∀ s : State, s.quiet = true →
    ((s.dev.lifecycle ≠ .running ∨ s.lineAsserted = false) →
      exec .interrupt s = .next { s with result := some .notMine }) ∧
    (s.dev.lifecycle = .running → s.lineAsserted = true → s.tx.busyCount = 0 → s.tx.waitQueue = [] →
      s.rxLaidOut = true → s.nothingToHarvest = true → s.cfg.rxLowWater ≤ s.rx.readyCount →
      statusRus s.regs.status = unitActive →
      exec .interrupt s = .next { s with
        regs := { s.regs with status := s.regs.status &&& ~~~causeMask },
        rx := s.rx.overSupplied s.cfg, result := some .ok })

/-- INT_ENABLE and INT_DISABLE (R245, R246). -/
def Obligations.MaskRequestsWriteTheMask : Prop :=
  ∀ s : State, s.quiet = true →
    (s.dev.lifecycle = .running →
      exec .intEnable s = .next { s with regs := { s.regs with intmask := 0 }, result := some .ok } ∧
      exec .intDisable s = .next { s with regs := { s.regs with intmask := 1 }, result := some .ok }) ∧
    (s.dev.lifecycle ≠ .running →
      exec .intEnable s = .next { s with result := some .invalidRequest } ∧
      exec .intDisable s = .next { s with result := some .invalidRequest })

/-- SET_POWER (R247): up at once; down at once when the upper layer holds no buffer, else pending. -/
def Obligations.SetPowerWaitsForHeldBuffers : Prop :=
  ∀ s : State, s.quiet = true → s.dev.lifecycle = .running →
    exec (.setPower .fullyPowered) s = .next { s with
      dev := { s.dev with power := .fullyPowered, powerTransitionPending := false }, result := some .ok } ∧
    (0 < s.rx.outstandingReceives → exec (.setPower .lowPower) s = .next { s with
      dev := { s.dev with power := .lowPower, powerTransitionPending := true }, result := some .pending }) ∧
    (s.rx.outstandingReceives = 0 → exec (.setPower .lowPower) s = .next { s with
      dev := { s.dev with power := .lowPower }, events := s.events ++ [.powerTransitionComplete],
      result := some .ok })

/-- The `deviceState` gate in `Halted` (R283): with no timer armed, no allocation in flight and no descriptor handed up,
every request is refused and changes nothing. -/
def Obligations.HaltedRefusesEveryRequest : Prop :=
  ∀ (i : Instr) (w : RequestWord) (s : State), encode i = .request w → s.quiet = true → s.dev.lifecycle = .halted →
    s.link.timer = .idle → s.dev.healthTimer = .idle → s.rx.allocState = .idle → (∀ d, s.isHanded d = false) →
    exec i s = .next { s with result := some (if i = .interrupt then .notMine else .invalidRequest) }

/-! ## Transmit ring -/

/-- SUBMIT on an idle transmitter (R140, R141): the tail slot is filled and handed over, the start is written, and no byte
outside the slot's descriptor changes. -/
def Obligations.SubmitStartsAnIdleTransmitter : Prop :=
  ∀ (s : State) (handle : Word) (p : Packet),
    s.quiet = true → s.dev.lifecycle = .running → s.packetOf? handle = some p → Config.packetAllowed s.cfg p = true →
    s.dev.hardwareError = false → s.link.phase = .done → s.link.media = .connected → s.tx.waitQueue = [] →
    s.tx.busyCount < s.cfg.numTcb → Config.mustCoalesce s.cfg p = false → s.tx.transmitIdle = true →
    commandCode s.regs.command = 0 → 1 ≤ s.cfg.acceptPollBudget → s.cfg.maxFragments ≤ 255 →
    s.mem.wf = true → s.txLaidOut = true → s.tx.tail < s.cfg.numTcb →
    ∃ t, exec (.submit handle) s = .next t ∧ t.result = some .sent ∧
      t.regs = { s.regs with pointer := addrWord (s.tdAddr s.tx.tail), command := 1 } ∧
      t.tx = { s.tx with
        shadow := s.tx.shadow.set s.tx.tail
          { s.tx.shadowAt s.tx.tail with inUse := true, packet := some p, retryCount := 0 },
        tail := s.cfg.next s.tx.tail, busyCount := s.tx.busyCount + 1, transmitIdle := false,
        resumeWaitNeeded := true } ∧
      t.tdC s.tx.tail = false ∧ t.tdS s.tx.tail = true ∧ (t.tdFragCount s.tx.tail).toNat = p.frags.length ∧
      (∀ k f, p.frags[k]? = some f → t.tdFragAddr s.tx.tail k = f.addr ∧ t.tdFragLen s.tx.tail k = f.len) ∧
      t.tdLink s.tx.tail = s.tdLink s.tx.tail ∧
      (∀ x, (x < s.tdAddr s.tx.tail ∨ s.tdAddr s.tx.tail + 12 + 8 * p.frags.length ≤ x) →
        t.mem.byte x = s.mem.byte x) ∧
      t.units = s.units ∧ t.rx = s.rx ∧ t.link = s.link ∧ t.dev = s.dev ∧ t.events = s.events ∧ t.ports = s.ports ∧
      t.cfg = s.cfg ∧ t.locks = s.locks

/-- SUBMIT behind an active chain (R141, R313): the tail slot is filled and handed over, `S` of the previous slot is
cleared, a resume is written; with `NumTcb = 1` that is the same slot, whose `S` ends 0. -/
def Obligations.SubmitAppendsAndResumes : Prop :=
  ∀ (s : State) (handle : Word) (p : Packet),
    s.quiet = true → s.dev.lifecycle = .running → s.packetOf? handle = some p → Config.packetAllowed s.cfg p = true →
    s.dev.hardwareError = false → s.link.phase = .done → s.link.media = .connected → s.tx.waitQueue = [] →
    s.tx.busyCount < s.cfg.numTcb → Config.mustCoalesce s.cfg p = false → s.tx.transmitIdle = false →
    (commandCode s.regs.command = 0 ∨
      (s.tx.resumeWaitNeeded = false ∧ commandCode s.regs.command = codeCuResume)) →
    1 ≤ s.cfg.acceptPollBudget → s.cfg.maxFragments ≤ 255 →
    s.mem.wf = true → s.txLaidOut = true → s.tx.tail < s.cfg.numTcb →
    ∃ t, exec (.submit handle) s = .next t ∧ t.result = some .sent ∧
      t.regs = { s.regs with command := 2 } ∧
      t.tx = { s.tx with
        shadow := s.tx.shadow.set s.tx.tail
          { s.tx.shadowAt s.tx.tail with inUse := true, packet := some p, retryCount := 0 },
        tail := s.cfg.next s.tx.tail, busyCount := s.tx.busyCount + 1, resumeWaitNeeded := false } ∧
      t.tdC s.tx.tail = false ∧ t.tdS (s.cfg.prev s.tx.tail) = false ∧
      (s.cfg.prev s.tx.tail ≠ s.tx.tail → t.tdS s.tx.tail = true) ∧
      (t.tdFragCount s.tx.tail).toNat = p.frags.length ∧
      (∀ k f, p.frags[k]? = some f → t.tdFragAddr s.tx.tail k = f.addr ∧ t.tdFragLen s.tx.tail k = f.len) ∧
      t.tdLink s.tx.tail = s.tdLink s.tx.tail ∧
      (∀ x, (x < s.tdAddr s.tx.tail ∨ s.tdAddr s.tx.tail + 12 + 8 * p.frags.length ≤ x) →
        (x < s.tdAddr (s.cfg.prev s.tx.tail) + 2 ∨ s.tdAddr (s.cfg.prev s.tx.tail) + 4 ≤ x) →
        t.mem.byte x = s.mem.byte x) ∧
      t.units = s.units ∧ t.rx = s.rx ∧ t.link = s.link ∧ t.dev = s.dev ∧ t.events = s.events ∧ t.ports = s.ports ∧
      t.cfg = s.cfg ∧ t.locks = s.locks

/-- Error entry (R141, R191, R282): a placement whose wait for the command register runs out sets the sticky flag, gives
the slot back to software, and with it the local buffer it took, and writes no register; the packet is not kept. -/
def Obligations.SubmitTimeoutRollsTheSlotBack : Prop :=
  ∀ (s : State) (handle : Word) (p : Packet),
    s.quiet = true → s.dev.lifecycle = .running → s.packetOf? handle = some p → Config.packetAllowed s.cfg p = true →
    s.dev.hardwareError = false → s.link.phase = .done → s.link.media = .connected → s.tx.waitQueue = [] →
    s.tx.busyCount < s.cfg.numTcb →
    (s.tx.transmitIdle = true ∨ s.tx.resumeWaitNeeded = true) → commandCode s.regs.command ≠ 0 →
    1 ≤ s.cfg.maxFragments → s.cfg.maxFragments ≤ 255 → s.mem.wf = true → s.txLaidOut = true →
    s.tx.tail < s.cfg.numTcb → s.tx.shadowAt s.tx.tail = TxShadow.clear →
    (Config.mustCoalesce s.cfg p = false →
      ∃ t, exec (.submit handle) s = .next t ∧ t.result = some .hardError ∧
        t.dev = { s.dev with hardwareError := true } ∧ t.tdC s.tx.tail = true ∧
        (∀ x, (x < s.tdAddr s.tx.tail ∨ s.tdAddr s.tx.tail + 12 + 8 * p.frags.length ≤ x) →
          t.mem.byte x = s.mem.byte x) ∧
        t = { s with dev := t.dev, mem := t.mem, result := t.result }) ∧
    (∀ (b n : Nat) (more : List Nat), Config.mustCoalesce s.cfg p = true → s.tx.localBufFree = b :: more →
      s.tx.localBufFree.Pairwise (· < ·) → n = max p.totalLen s.cfg.minFrameSize → inSpace (s.bufAddr b) n = true →
      (∀ f ∈ p.frags, inSpace f.addr.toNat f.len.toNat = true) →
      ∃ t, exec (.submit handle) s = .next t ∧ t.result = some .hardError ∧
        t.dev = { s.dev with hardwareError := true } ∧ t.tdC s.tx.tail = true ∧
        (∀ x, (x < s.bufAddr b ∨ s.bufAddr b + n ≤ x) →
          (x < s.tdAddr s.tx.tail ∨ s.tdAddr s.tx.tail + 20 ≤ x) → t.mem.byte x = s.mem.byte x) ∧
        t = { s with dev := t.dev, mem := t.mem, result := t.result })

/-- SUBMIT's gates in their order (R140, R280): the device state, the sticky flag, link detection, the link-down policy,
the queue and the full ring. -/
def Obligations.SubmitQueuesAndRefuses : Prop :=
  ∀ (s : State) (handle : Word) (p : Packet), s.quiet = true → s.packetOf? handle = some p →
    Config.packetAllowed s.cfg p = true →
    (s.dev.lifecycle = .withdrawn → exec (.submit handle) s = .next { s with result := some .nonRecoverable }) ∧
    (s.dev.lifecycle ≠ .running → s.dev.lifecycle ≠ .withdrawn →
      exec (.submit handle) s = .next { s with result := some .invalidRequest }) ∧
    (s.dev.lifecycle = .running → s.dev.hardwareError = true →
      exec (.submit handle) s = .next { s with result := some .hardError }) ∧
    (s.dev.lifecycle = .running → s.dev.hardwareError = false → s.link.phase = .done → s.link.media = .disconnected →
      s.cfg.noLinkSendPolicy = .failSends → exec (.submit handle) s = .next { s with result := some .linkDown }) ∧
    (s.dev.lifecycle = .running → s.dev.hardwareError = false →
      (s.link.phase ≠ .done ∨ (s.link.media = .disconnected ∧ s.cfg.noLinkSendPolicy = .queueSends) ∨
        (s.link.media = .connected ∧ (s.tx.waitQueue ≠ [] ∨ s.tx.busyCount = s.cfg.numTcb))) →
      exec (.submit handle) s =
        .next { s with tx := { s.tx with waitQueue := s.tx.waitQueue ++ [p] }, result := some .queued })

/-- SUBMIT of a packet that needs a local buffer (R140, R141, R142): the buffer holds the fragments' bytes in order and
zeros up to the minimum frame size, and the slot's one fragment is the buffer; with no buffer free nothing changes. -/
def Obligations.SubmitCoalescesThroughALocalBuffer : Prop :=
  ∀ (s : State) (handle : Word) (p : Packet),
    s.quiet = true → s.dev.lifecycle = .running → s.packetOf? handle = some p → Config.packetAllowed s.cfg p = true →
    s.dev.hardwareError = false → s.link.phase = .done → s.link.media = .connected → s.tx.waitQueue = [] →
    s.tx.busyCount < s.cfg.numTcb → Config.mustCoalesce s.cfg p = true →
    (s.tx.localBufFree = [] → exec (.submit handle) s = .next { s with result := some .resourcesExhausted }) ∧
    (∀ (b n : Nat) (more : List Nat), s.tx.localBufFree = b :: more → n = max p.totalLen s.cfg.minFrameSize →
      s.tx.transmitIdle = true → commandCode s.regs.command = 0 → 1 ≤ s.cfg.acceptPollBudget →
      1 ≤ s.cfg.maxFragments → s.mem.wf = true → s.txLaidOut = true → s.tx.tail < s.cfg.numTcb →
      inSpace (s.bufAddr b) n = true →
      (s.bufAddr b + n ≤ s.tx.base ∨ s.tx.base + s.cfg.numTcb * s.cfg.tdSize ≤ s.bufAddr b) →
      (∀ f ∈ p.frags, inSpace f.addr.toNat f.len.toNat = true ∧
        (f.addr.toNat + f.len.toNat ≤ s.bufAddr b ∨ s.bufAddr b + n ≤ f.addr.toNat)) →
      ∃ t, exec (.submit handle) s = .next t ∧ t.result = some .sent ∧
        t.regs = { s.regs with pointer := addrWord (s.tdAddr s.tx.tail), command := 1 } ∧
        t.tx = { s.tx with
          shadow := s.tx.shadow.set s.tx.tail
            { s.tx.shadowAt s.tx.tail with
              inUse := true, usesLocalBuf := true, localBuf := some b, packet := some p, retryCount := 0 },
          localBufFree := more, tail := s.cfg.next s.tx.tail, busyCount := s.tx.busyCount + 1,
          transmitIdle := false, resumeWaitNeeded := true } ∧
        t.tdC s.tx.tail = false ∧ t.tdS s.tx.tail = true ∧ t.tdFragCount s.tx.tail = 1 ∧
        t.tdFragAddr s.tx.tail 0 = addrWord (s.bufAddr b) ∧ t.tdFragLen s.tx.tail 0 = addrWord n ∧
        t.tdLink s.tx.tail = s.tdLink s.tx.tail ∧
        t.mem.readBytes (s.bufAddr b) n = p.frags.flatMap (fun f => s.mem.readBytes f.addr.toNat f.len.toNat) ++
          List.replicate (s.cfg.minFrameSize - p.totalLen) 0 ∧
        (∀ x, (x < s.bufAddr b ∨ s.bufAddr b + n ≤ x) →
          (x < s.tdAddr s.tx.tail ∨ s.tdAddr s.tx.tail + 20 ≤ x) → t.mem.byte x = s.mem.byte x) ∧
        t.units = s.units ∧ t.rx = s.rx ∧ t.link = s.link ∧ t.dev = s.dev ∧ t.events = s.events ∧
        t.ports = s.ports ∧ t.cfg = s.cfg ∧ t.locks = s.locks)

/-- RECLAIM (R143): the completed slots from the head on are retired in order, each packet is completed with `Success`,
and the walk stops at the first slot that is not complete. -/
def Obligations.ReclaimRetiresCompletedSlots : Prop :=
  ∀ (s : State) (k : Nat), s.quiet = true → s.dev.lifecycle = .running → s.tx.waitQueue = [] → s.txLaidOut = true →
    s.tx.head < s.cfg.numTcb → k ≤ s.tx.busyCount → s.tx.busyCount ≤ s.cfg.numTcb →
    (∀ j < k, (s.tx.shadowAt ((s.tx.head + j) % s.cfg.numTcb)).inUse = true ∧
      s.tdC ((s.tx.head + j) % s.cfg.numTcb) = true) →
    (k = s.tx.busyCount ∨ s.tdC ((s.tx.head + k) % s.cfg.numTcb) = false) →
    ∃ t, exec .reclaim s = .next t ∧ t.result = some .ok ∧
      t.tx.head = (s.tx.head + k) % s.cfg.numTcb ∧ t.tx.busyCount = s.tx.busyCount - k ∧ t.tx.tail = s.tx.tail ∧
      (∀ j < k, t.tx.shadowAt ((s.tx.head + j) % s.cfg.numTcb) = TxShadow.clear) ∧
      (∀ i, (∀ j < k, i ≠ (s.tx.head + j) % s.cfg.numTcb) → t.tx.shadowAt i = s.tx.shadowAt i) ∧
      (∀ b, b ∈ t.tx.localBufFree ↔ b ∈ s.tx.localBufFree ∨
        ∃ j < k, (s.tx.shadowAt ((s.tx.head + j) % s.cfg.numTcb)).usesLocalBuf = true ∧
          (s.tx.shadowAt ((s.tx.head + j) % s.cfg.numTcb)).localBuf = some b) ∧
      t.tx.waitQueue = [] ∧ t.tx.base = s.tx.base ∧ t.tx.bufs = s.tx.bufs ∧
      t.tx.transmitIdle = s.tx.transmitIdle ∧ t.tx.resumeWaitNeeded = s.tx.resumeWaitNeeded ∧
      t.events = s.events ++ ((List.range k).filterMap
        (fun j => (s.tx.shadowAt ((s.tx.head + j) % s.cfg.numTcb)).packet)).map (fun p => .completeSend p .success) ∧
      t.mem = s.mem ∧ t.regs = s.regs ∧ t.units = s.units ∧ t.rx = s.rx ∧ t.link = s.link ∧ t.dev = s.dev ∧
      t.ports = s.ports ∧ t.cfg = s.cfg ∧ t.locks = s.locks

/-- CANCEL (R145): the matching packets leave the wait queue and are completed with `Cancelled`, both in order. -/
def Obligations.CancelCompletesMatchingPackets : Prop :=
  ∀ (s : State) (tag : Word), s.quiet = true →
    ((s.dev.lifecycle = .running ∨ s.dev.lifecycle = .withdrawn) →
      exec (.cancel tag) s = .next { s with
        tx := { s.tx with waitQueue := s.tx.waitQueue.filter (fun p => p.tag != tag) },
        events := s.events ++ (s.tx.waitQueue.filter (fun p => p.tag == tag)).map (fun p => .completeSend p .cancelled),
        result := some .ok }) ∧
    (s.dev.lifecycle ≠ .running → s.dev.lifecycle ≠ .withdrawn →
      exec (.cancel tag) s = .next { s with result := some .invalidRequest })

/-- DRAIN (R144): the head of the wait queue is placed in the tail slot by the start path and leaves the queue; the rest
waits for a free slot. -/
def Obligations.DrainPlacesTheOldestPacket : Prop :=
  ∀ (s : State) (p : Packet) (rest : List Packet),
    s.quiet = true → s.dev.lifecycle = .running → s.tx.waitQueue = p :: rest →
    (rest = [] ∨ s.tx.busyCount + 1 = s.cfg.numTcb) → s.tx.busyCount < s.cfg.numTcb →
    s.dev.hardwareError = false → s.link.phase = .done → s.link.media = .connected →
    Config.mustCoalesce s.cfg p = false → s.tx.transmitIdle = true →
    commandCode s.regs.command = 0 → 1 ≤ s.cfg.acceptPollBudget → s.cfg.maxFragments ≤ 255 →
    s.mem.wf = true → s.txLaidOut = true → s.tx.tail < s.cfg.numTcb →
    ∃ t, exec .drain s = .next t ∧ t.result = some .ok ∧
      t.regs = { s.regs with pointer := addrWord (s.tdAddr s.tx.tail), command := 1 } ∧
      t.tx = { s.tx with
        shadow := s.tx.shadow.set s.tx.tail
          { s.tx.shadowAt s.tx.tail with inUse := true, packet := some p, retryCount := 0 },
        tail := s.cfg.next s.tx.tail, busyCount := s.tx.busyCount + 1, transmitIdle := false,
        resumeWaitNeeded := true, waitQueue := rest } ∧
      t.tdC s.tx.tail = false ∧ t.tdS s.tx.tail = true ∧ (t.tdFragCount s.tx.tail).toNat = p.frags.length ∧
      t.tdLink s.tx.tail = s.tdLink s.tx.tail ∧
      (∀ k f, p.frags[k]? = some f → t.tdFragAddr s.tx.tail k = f.addr ∧ t.tdFragLen s.tx.tail k = f.len) ∧
      (∀ x, (x < s.tdAddr s.tx.tail ∨ s.tdAddr s.tx.tail + 12 + 8 * p.frags.length ≤ x) →
        t.mem.byte x = s.mem.byte x) ∧
      t.units = s.units ∧ t.rx = s.rx ∧ t.link = s.link ∧ t.dev = s.dev ∧ t.events = s.events ∧ t.ports = s.ports ∧
      t.cfg = s.cfg ∧ t.locks = s.locks

/-- POOL_INIT_TX (R134): every slot is software-owned and empty and links to the next, the last to the first. -/
def Obligations.PoolInitRebuildsTheRing : Prop :=
  ∀ (h : Handler) (s : State), s.ports.interleaved = [] → s.mem.wf = true →
    inSpace s.tx.base (s.cfg.numTcb * s.cfg.tdSize) = true →
    ∃ t, poolInitTx h s = .ok ((), t) ∧
      (∀ i < s.cfg.numTcb, t.tdC i = true ∧ t.tdS i = false ∧
        t.tdLink i = addrWord (s.tdAddr (s.cfg.next i)) ∧ t.tdFragCount i = 0) ∧
      t.tx = { s.tx with head := 0, tail := 0, busyCount := 0, waitQueue := [],
                         shadow := List.replicate s.cfg.numTcb TxShadow.clear,
                         localBufFree := List.range s.cfg.numLocalBuf } ∧
      (∀ x, (x < s.tx.base ∨ s.tx.base + s.cfg.numTcb * s.cfg.tdSize ≤ x) → t.mem.byte x = s.mem.byte x) ∧
      t = { s with tx := t.tx, mem := t.mem }

/-- CU_EXECUTE (R146): the frame goes on the wire, the slot is handed back, and the unit suspends where `S` is set, else
follows the link; a link that is misaligned or names no slot is a fault (R74, log entry 16). -/
def Obligations.CommandUnitTransmitsTheSlot : Prop :=
  ∀ (s : State) (i : Nat), s.mem.wf = true → s.txLaidOut = true → s.units.cuCursor = i → i < s.cfg.numTcb →
    statusCus s.regs.status = unitActive → s.tdC i = false → (s.tdFragCount i).toNat ≤ s.cfg.maxFragments →
    (∀ k < (s.tdFragCount i).toNat, inSpace (s.tdFragAddr i k).toNat (s.tdFragLen i k).toNat = true) →
    (s.tdS i = false → (Config.aligned s.cfg (s.tdLink i).toNat = false ∨ s.slotAt? (s.tdLink i).toNat = none) →
      deviceStep .cuExecute s = .error (.fault .danglingLink)) ∧
    ((s.tdS i = true ∨ (Config.aligned s.cfg (s.tdLink i).toNat = true ∧ ∃ j, s.slotAt? (s.tdLink i).toNat = some j)) →
    ∃ t, deviceStep .cuExecute s = .ok ((), t) ∧
      t.events = s.events ++ [.wireTx ((List.range (s.tdFragCount i).toNat).flatMap
        (fun k => s.mem.readBytes (s.tdFragAddr i k).toNat (s.tdFragLen i k).toNat))] ∧
      t.tdC i = true ∧
      (s.tdS i = true → t.units = s.units ∧ t.regs = { s.regs with
        status := withCus unitSuspended (s.regs.status ||| causeCX) ||| causeCNA }) ∧
      (s.tdS i = false → (∀ j, s.slotAt? (s.tdLink i).toNat = some j → t.units = { s.units with cuCursor := j }) ∧
        t.regs = { s.regs with status := s.regs.status ||| causeCX }) ∧
      (∀ x, (x < s.tdAddr i ∨ s.tdAddr i + 2 ≤ x) → t.mem.byte x = s.mem.byte x) ∧
      t = { s with events := t.events, regs := t.regs, units := t.units, mem := t.mem })

/-! ## Receive ring -/

/-- HARVEST of one good frame above the threshold (R162, R165): the descriptor leaves the ready list for the pending list
and its bytes are indicated; no byte of memory changes. -/
def Obligations.HarvestDeliversAFrame : Prop :=
  ∀ (s : State) (d a : Nat) (rest : List Nat),
    s.quiet = true → s.dev.lifecycle = .running → s.rxLaidOut = true → s.rx.readyList = d :: rest →
    s.rdAddr? d = some a → s.rxCompleted d = true → s.mem.rdOK a = true → s.dev.packetFilter ≠ 0 →
    s.dev.power = .fullyPowered → s.cfg.rxMinReady < s.rx.readyCount - 1 →
    (∀ e, rest.head? = some e → s.rxCompleted e = false) →
    inSpace (s.mem.rdPayloadPtr a).toNat (s.mem.rdCount a) = true → s.cfg.rxLowWater ≤ s.rx.readyCount - 1 →
    1 ≤ s.cfg.harvestIterationMax →
    exec .harvest s = .next { s with
      rx := RxRing.overSupplied s.cfg { s.rx.mapShadow d (fun sh =>
          { sh with state := .handedToUpperLayer, actualBytes := s.mem.rdCount a }) with
        readyList := rest, readyCount := s.rx.readyCount - 1, pendingList := s.rx.pendingList ++ [d],
        outstandingReceives := s.rx.outstandingReceives + 1 },
      events := s.events ++ [.indicateReceived
        [⟨d, s.mem.readBytes (s.mem.rdPayloadPtr a).toNat (s.mem.rdCount a), false⟩] 1],
      result := some .ok }

/-- HARVEST of one frame it does not hand up (R162): dropped when its status is bad, no filter is set or the power is
low; indicated as a low-resources delivery when the list is at the threshold. Either way the descriptor is recycled to
the tail behind the others, or is the only one, whether or not the sticky error is set (log entry 29). -/
def Obligations.HarvestRecyclesWhatIsNotKept : Prop :=
  ∀ (s : State) (d a : Nat) (rest : List Nat),
    s.quiet = true → s.dev.lifecycle = .running → s.mem.wf = true → s.rxLaidOut = true → s.rx.readyList = d :: rest →
    d ∉ rest → s.rdAddr? d = some a → s.rxCompleted d = true →
    (∀ e, rest.head? = some e → s.rxCompleted e = false) →
    inSpace (s.mem.rdPayloadPtr a).toNat (s.mem.rdCount a) = true → s.cfg.rxLowWater ≤ s.rx.readyCount →
    1 ≤ s.rx.readyCount → 1 ≤ s.cfg.harvestIterationMax → 1 ≤ s.cfg.indicateBatchMax →
    (s.mem.rdOK a = false ∨ s.dev.packetFilter = 0 ∨ s.dev.power ≠ .fullyPowered ∨
      s.rx.readyCount - 1 ≤ s.cfg.rxMinReady) →
    ∃ t, exec .harvest s = .next t ∧ t.result = some .ok ∧ RecycledAt s t a rest ∧
      t.rx = RxRing.overSupplied s.cfg { s.rx.mapShadow d (fun sh => { sh with state := .posted, actualBytes := 0 }) with
        readyList := rest ++ [d] } ∧
      t.events = (if s.mem.rdOK a = false ∨ s.dev.packetFilter = 0 ∨ s.dev.power ≠ .fullyPowered then s.events
        else s.events ++ [.indicateReceived
          [⟨d, s.mem.readBytes (s.mem.rdPayloadPtr a).toNat (s.mem.rdCount a), true⟩] 1]) ∧
      t.regs = s.regs ∧ t.units = s.units ∧ t.tx = s.tx ∧ t.link = s.link ∧ t.dev = s.dev ∧ t.ports = s.ports ∧
      t.cfg = s.cfg ∧ t.locks = s.locks

/-- RECYCLE, and RX_RETURN where the pool may not shrink (R163, R169): the returned descriptor is re-armed and linked
behind the tail, whether or not the sticky error is set (log entry 29); the last buffer of a pending power transition
completes it. -/
def Obligations.ReturnedDescriptorIsRecycled : Prop :=
  ∀ (s : State) (d : Word) (a : Nat) (i : Instr), i = .recycle d ∨ (i = .rxReturn d ∧ s.shrinkEligible = false) →
    s.quiet = true → s.mem.wf = true → s.rxLaidOut = true → s.isHanded d.toNat = true →
    s.rdAddr? d.toNat = some a → d.toNat ∉ s.rx.readyList →
    ∃ t, exec i s = .next t ∧ t.result = some .ok ∧ RecycledAt s t a s.rx.readyList ∧
      t.rx = { s.rx.mapShadow d.toNat (fun sh => { sh with state := .posted, actualBytes := 0 }) with
        readyList := s.rx.readyList ++ [d.toNat], readyCount := s.rx.readyCount + 1,
        pendingList := s.rx.pendingList.filter (fun x => x != d.toNat),
        outstandingReceives := s.rx.outstandingReceives - 1 } ∧
      (if s.dev.powerTransitionPending = true ∧ s.rx.outstandingReceives - 1 = 0
        then t.dev = { s.dev with powerTransitionPending := false } ∧
          t.events = s.events ++ [.powerTransitionComplete]
        else t.dev = s.dev ∧ t.events = s.events) ∧
      t.regs = s.regs ∧ t.units = s.units ∧ t.tx = s.tx ∧ t.link = s.link ∧ t.ports = s.ports ∧ t.cfg = s.cfg ∧
      t.locks = s.locks

/-- SHRINK and RX_RETURN where the pool may shrink (R169, R170): the descriptor ceases to exist and its region goes back;
no byte of memory changes; the last buffer of a pending power transition completes it. A return of a descriptor that is not handed to the upper layer, and SHRINK while the pool may
not shrink, are refused and change nothing (R163, R169, R170). -/
def Obligations.ReturnedDescriptorIsFreedOrRefused : Prop :=
  ∀ (s : State) (d : Word), s.quiet = true →
    (∀ (base : Nat) (i : Instr), i = .shrink d ∨ i = .rxReturn d → s.isHanded d.toNat = true →
      s.shrinkEligible = true → (s.rx.shadow? d.toNat).bind (·.allocBase) = some base →
      ∃ t, exec i s = .next t ∧
        (if s.dev.powerTransitionPending = true ∧ s.rx.outstandingReceives - 1 = 0
          then t.dev = { s.dev with powerTransitionPending := false } ∧
            t.events = s.events ++ [.powerTransitionComplete]
          else t.dev = s.dev ∧ t.events = s.events) ∧
        t = { s with
          rx := { s.rx.dropShadow d.toNat with
            pendingList := s.rx.pendingList.filter (fun x => x != d.toNat),
            outstandingReceives := s.rx.outstandingReceives - 1, currentCount := s.rx.currentCount - 1 },
          ports := { s.ports with liveRegions := s.ports.liveRegions.filter (fun r => r.base != base) },
          dev := t.dev, events := t.events, result := some .ok }) ∧
    (s.isHanded d.toNat = false →
      exec (.recycle d) s = .next { s with result := some .invalidRequest } ∧
      exec (.rxReturn d) s = .next { s with result := some .invalidRequest } ∧
      exec (.shrink d) s = .next { s with result := some .invalidRequest }) ∧
    (s.shrinkEligible = false → exec (.shrink d) s = .next { s with result := some .invalidRequest })

/-- ENSURE_STARTED (R164): the start goes to the first untouched descriptor, past the completed ones; with the unit ready
or the list empty nothing is written. -/
def Obligations.EnsureStartedStartsAtTheFirstUntouched : Prop :=
  ∀ (s : State), s.quiet = true → s.dev.lifecycle = .running → s.dev.hardwareError = false →
    (statusRus s.regs.status = unitActive → exec .ensureStarted s = .next { s with result := some .ok }) ∧
    (s.rx.readyList = [] → exec .ensureStarted s = .next { s with result := some .ok }) ∧
    (∀ (pre post : List Nat) (d a : Nat), statusRus s.regs.status ≠ unitActive → s.rxLaidOut = true →
      s.rx.readyList = pre ++ d :: post → (∀ x ∈ pre, s.rxUntouched x = false) → s.rxUntouched d = true →
      s.rdAddr? d = some a → commandCode s.regs.command = 0 → 1 ≤ s.cfg.acceptPollBudget →
      exec .ensureStarted s = .next { s with
        regs := { s.regs with pointer := addrWord a, command := 3 },
        tx := { s.tx with resumeWaitNeeded := true }, result := some .ok })

/-- GROW (R167): the smallest unused id is reserved and one allocation is in flight; at the cap, with one in flight or
with no shadow record nothing changes. GROW_COMPLETE with a failure, or with a region that is no longer wanted, gives
the id up and the region back; a region in which the descriptor would be misaligned is a fault (R7, log entry 16); without
an allocation in flight it is refused (R168). An exhausted lookaside port counts as a failure (the model's choice, log
entry 6). -/
def Obligations.GrowReservesOneDescriptor : Prop :=
  ∀ (s : State), s.quiet = true →
    (∀ (d : Nat) (more : List Bool), s.dev.lifecycle = .running → s.rx.currentCount < s.cfg.rxMaxCount →
      s.rx.allocState = .idle → s.ports.lookasideReplies = true :: more → s.rx.shadow? d = none →
      (∀ e < d, s.rx.shadow? e ≠ none) →
      exec .grow s = .next { s with
        rx := { s.rx with
          shadows := putShadow d ⟨.allocationPending, none, none, s.cfg.rxBufferCapacity, 0⟩ s.rx.shadows,
          allocState := .allocationInFlight d, lowCount := 0,
          shrinkCounter := if s.cfg.shrinkResetOnGrow then 0 else s.rx.shrinkCounter },
        dev := { s.dev with refCount := s.dev.refCount + 1 },
        ports := { s.ports with lookasideReplies := more }, result := some .ok }) ∧
    (s.dev.lifecycle = .running → (s.cfg.rxMaxCount ≤ s.rx.currentCount ∨ s.rx.allocState ≠ .idle) →
      exec .grow s = .next { s with result := some .ok }) ∧
    (s.dev.lifecycle = .running → s.rx.currentCount < s.cfg.rxMaxCount → s.rx.allocState = .idle →
      s.ports.lookasideReplies = [] → exec .grow s = .next { s with result := some .resourcesExhausted }) ∧
    (∀ more : List Bool, s.dev.lifecycle = .running → s.rx.currentCount < s.cfg.rxMaxCount → s.rx.allocState = .idle →
      s.ports.lookasideReplies = false :: more →
      exec .grow s = .next { s with
        ports := { s.ports with lookasideReplies := more }, result := some .resourcesExhausted }) ∧
    (∀ d, s.rx.allocState = .allocationInFlight d → exec (.growComplete false 0) s = .next { s with
      rx := { s.rx.dropShadow d with allocState := .idle },
      dev := { s.dev with refCount := s.dev.refCount - 1 }, result := some .ok }) ∧
    (∀ (d : Nat) (base : Word), s.rx.allocState = .allocationInFlight d →
      (s.dev.lifecycle ≠ .running ∨ s.cfg.rxMaxCount ≤ s.rx.currentCount) →
      regionAllowed s.ports.liveRegions ⟨base.toNat, s.cfg.rxRegionSize⟩ = true →
      Config.aligned s.cfg (base.toNat + s.cfg.rxAlignShift) = true →
      exec (.growComplete true base) s = .next { s with
        rx := { s.rx.dropShadow d with allocState := .idle },
        dev := { s.dev with refCount := s.dev.refCount - 1 },
        ports := { s.ports with liveRegions := s.ports.liveRegions.filter (fun r => r.base != base.toNat) },
        result := some .ok }) ∧
    (∀ (d : Nat) (base : Word), s.rx.allocState = .allocationInFlight d →
      Config.aligned s.cfg (base.toNat + s.cfg.rxAlignShift) = false →
      exec (.growComplete true base) s = .fault .badAllocation) ∧
    (∀ ok base, s.rx.allocState = .idle →
      exec (.growComplete ok base) s = .next { s with result := some .invalidRequest })

/-- GROW_COMPLETE with a region (R168): the descriptor is filled (R135), counted and recycled to the tail, whether or not the
sticky error is set (log entry 29). -/
def Obligations.GrowCompleteAppendsTheDescriptor : Prop :=
  ∀ (s : State) (d : Nat) (base : Word) (a : Nat),
    s.quiet = true → s.dev.lifecycle = .running → s.mem.wf = true → s.rxLaidOut = true →
    s.rx.allocState = .allocationInFlight d → s.rx.currentCount < s.cfg.rxMaxCount →
    regionAllowed s.ports.liveRegions ⟨base.toNat, s.cfg.rxRegionSize⟩ = true → d ∉ s.rx.readyList →
    s.cfg.rxBufferCapacity ≤ 16383 → a = base.toNat + s.cfg.rxAlignShift → Config.aligned s.cfg a = true →
    (∀ q, s.rx.readyList.getLast? = some q → separateHeaders (some a) (s.rdAddr? q) = true) →
    ∃ t, exec (.growComplete true base) s = .next t ∧ t.result = some .ok ∧
      t.rx.readyList = s.rx.readyList ++ [d] ∧ t.rx.readyCount = s.rx.readyCount + 1 ∧
      t.rx.currentCount = s.rx.currentCount + 1 ∧ t.rx.allocState = .idle ∧
      t.rx.shadow? d = some ⟨.posted, some base.toNat, some a, s.cfg.rxBufferCapacity, 0⟩ ∧
      (∀ e, e ≠ d → t.rx.shadow? e = s.rx.shadow? e) ∧ t.rx.pendingList = s.rx.pendingList ∧
      t.rx.outstandingReceives = s.rx.outstandingReceives ∧ t.rx.lowCount = s.rx.lowCount ∧
      t.rx.shrinkCounter = s.rx.shrinkCounter ∧
      t.mem.rdC a = false ∧ t.mem.rdOK a = false ∧ t.mem.rdV a = false ∧ t.mem.rdCount a = 0 ∧
      t.mem.rdEL a = true ∧ t.mem.rdLink a = 0 ∧ t.mem.rdPayloadPtr a = addrWord (a + rdSize) ∧
      t.mem.rdCapacity a = s.cfg.rxBufferCapacity ∧
      (∀ q b, s.rx.readyList.getLast? = some q → s.rdAddr? q = some b →
        t.mem.rdLink b = addrWord a ∧ t.mem.rdEL b = false) ∧
      (∀ x, (x < a ∨ a + rdSize ≤ x) →
        (∀ q b, s.rx.readyList.getLast? = some q → s.rdAddr? q = some b → x < b + 2 ∨ b + 8 ≤ x) →
        t.mem.byte x = s.mem.byte x) ∧
      t.dev = { s.dev with refCount := s.dev.refCount - 1 } ∧
      t.ports = { s.ports with liveRegions := s.ports.liveRegions ++ [⟨base.toNat, s.cfg.rxRegionSize⟩] } ∧
      t.regs = s.regs ∧ t.units = s.units ∧ t.tx = s.tx ∧ t.link = s.link ∧ t.events = s.events ∧ t.cfg = s.cfg ∧
      t.locks = s.locks

/-- RU_STATUS (R176, R178): the status halfword is written; the second of the two steps raises `FR` and moves on, or
stops the unit at the end of the list; a link that is misaligned or names no posted descriptor is a fault (U4, R74, log
entry 16). -/
def Obligations.ReceiveUnitWritesTheStatus : Prop :=
  ∀ (s : State) (d a : Nat) (okBit : Bool),
    s.mem.wf = true → statusRus s.regs.status = unitActive → s.units.ruCursor = some d → s.rdAddr? d = some a →
    inSpace a rdSize = true →
    (s.units.ruPhase = .none → s.mem.rdC a = false →
      deviceStep (.ruStatus okBit) s = .ok ((), { s with
        mem := s.mem.write16 a (rdStatusWord true okBit), units := { s.units with ruPhase := .statusDone } })) ∧
    (s.units.ruPhase = .countDone → s.mem.rdEL a = true →
      deviceStep (.ruStatus okBit) s = .ok ((), { s with
        mem := s.mem.write16 a (rdStatusWord true okBit),
        units := { s.units with ruPhase := .none, ruCursor := none },
        regs := { s.regs with status := withRus unitIdle (s.regs.status ||| causeFR) ||| causeRNR } })) ∧
    (s.units.ruPhase = .countDone → s.mem.rdEL a = false →
      (Config.aligned s.cfg (s.mem.rdLink a).toNat = false ∨ s.postedAt? (s.mem.rdLink a).toNat = none) →
      deviceStep (.ruStatus okBit) s = .error (.fault .danglingLink)) ∧
    (∀ e, s.units.ruPhase = .countDone → s.mem.rdEL a = false → Config.aligned s.cfg (s.mem.rdLink a).toNat = true →
      s.postedAt? (s.mem.rdLink a).toNat = some e →
      deviceStep (.ruStatus okBit) s = .ok ((), { s with
        mem := s.mem.write16 a (rdStatusWord true okBit),
        units := { s.units with ruPhase := .none, ruCursor := some e },
        regs := { s.regs with status := s.regs.status ||| causeFR } }))

/-- RU_COUNT (R177, R178): the payload, then the count halfword with `V`; the second of the two steps raises `FR` and moves
on, or stops the unit at the end of the list. -/
def Obligations.ReceiveUnitWritesThePayloadAndCount : Prop :=
  ∀ (s : State) (d a : Nat) (bytes : List Byte),
    s.mem.wf = true → statusRus s.regs.status = unitActive → s.units.ruCursor = some d → s.rdAddr? d = some a →
    inSpace a rdSize = true → 1 ≤ bytes.length → bytes.length ≤ s.mem.rdCapacity a →
    inSpace (s.mem.rdPayloadPtr a).toNat bytes.length = true →
    ((s.mem.rdPayloadPtr a).toNat + bytes.length ≤ a ∨ a + rdSize ≤ (s.mem.rdPayloadPtr a).toNat) →
    ((s.units.ruPhase = .none ∧ s.mem.rdC a = false) ∨
      (s.units.ruPhase = .statusDone ∧ (s.mem.rdEL a = true ∨
        (Config.aligned s.cfg (s.mem.rdLink a).toNat = true ∧ ∃ e, s.postedAt? (s.mem.rdLink a).toNat = some e)))) →
    ∃ t, deviceStep (.ruCount bytes) s = .ok ((), t) ∧
      t.mem.readBytes (s.mem.rdPayloadPtr a).toNat bytes.length = bytes ∧ t.mem.rdCount a = bytes.length ∧
      t.mem.rdV a = true ∧ t.mem.rdC a = s.mem.rdC a ∧
      (∀ x, (x < (s.mem.rdPayloadPtr a).toNat ∨ (s.mem.rdPayloadPtr a).toNat + bytes.length ≤ x) →
        (x < a + 12 ∨ a + 14 ≤ x) → t.mem.byte x = s.mem.byte x) ∧
      (s.units.ruPhase = .none → t.units = { s.units with ruPhase := .countDone } ∧ t.regs = s.regs) ∧
      (s.units.ruPhase = .statusDone → s.mem.rdEL a = true →
        t.units = { s.units with ruPhase := .none, ruCursor := none } ∧
        t.regs = { s.regs with status := withRus unitIdle (s.regs.status ||| causeFR) ||| causeRNR }) ∧
      (∀ e, s.units.ruPhase = .statusDone → s.mem.rdEL a = false → s.postedAt? (s.mem.rdLink a).toNat = some e →
        t.units = { s.units with ruPhase := .none, ruCursor := some e } ∧
        t.regs = { s.regs with status := s.regs.status ||| causeFR }) ∧
      t = { s with mem := t.mem, units := t.units, regs := t.regs }

/-- "is lost: no state changes and no event is emitted" (R179): the unit is not ready, the descriptor at its cursor is not
the hardware's, or the frame exceeds the capacity. -/
def Obligations.FramesWithNoDescriptorAreLost : Prop :=
  ∀ (s : State) (bytes : List Byte) (okBit : Bool),
    (statusRus s.regs.status ≠ unitActive →
      deviceStep (.ruCount bytes) s = .ok ((), s) ∧ deviceStep (.ruStatus okBit) s = .ok ((), s)) ∧
    (∀ d a, s.units.ruCursor = some d → s.rdAddr? d = some a → inSpace a rdSize = true →
      (s.units.ruPhase = .none → s.mem.rdC a = true →
        deviceStep (.ruCount bytes) s = .ok ((), s) ∧ deviceStep (.ruStatus okBit) s = .ok ((), s)) ∧
      (s.mem.rdCapacity a < bytes.length → deviceStep (.ruCount bytes) s = .ok ((), s)))

/-! ## Coordinator -/

/-- ISSUE_COMMAND (R190): `POINTER` for a start, then `COMMAND`; `Ok` means written. -/
def Obligations.IssueCommandWritesTheCommand : Prop :=
  ∀ (s : State) (wait : Bool) (pointer : Word), s.quiet = true → s.dev.lifecycle = .running →
    s.dev.hardwareError = false → commandCode s.regs.command = 0 → (wait = true → 1 ≤ s.cfg.acceptPollBudget) →
    exec (.issueCommand wait 1 pointer) s = .next { s with
      regs := { s.regs with pointer := pointer, command := 1 }, tx := { s.tx with resumeWaitNeeded := true },
      result := some .ok } ∧
    exec (.issueCommand wait 3 pointer) s = .next { s with
      regs := { s.regs with pointer := pointer, command := 3 }, tx := { s.tx with resumeWaitNeeded := true },
      result := some .ok } ∧
    exec (.issueCommand wait 2 0) s = .next { s with
      regs := { s.regs with command := 2 }, tx := { s.tx with resumeWaitNeeded := false }, result := some .ok }

/-- ISSUE_COMMAND's refusals, its timeout and the overrun (R190, R191, R198, U5). -/
def Obligations.IssueCommandRefusesAndTimesOut : Prop :=
  ∀ (s : State) (wait : Bool) (code : BitVec 7) (pointer : Word), s.quiet = true →
    ((s.dev.lifecycle ≠ .running ∨ code = 0 ∨ 3 < code.toNat ∨ (code = 2 ∧ pointer ≠ 0)) →
      exec (.issueCommand wait code pointer) s = .next { s with result := some .invalidRequest }) ∧
    (s.dev.lifecycle = .running → (code = 1 ∨ code = 3 ∨ (code = 2 ∧ pointer = 0)) → s.dev.hardwareError = true →
      exec (.issueCommand wait code pointer) s = .next { s with result := some .hardError }) ∧
    (s.dev.lifecycle = .running → (code = 1 ∨ code = 3 ∨ (code = 2 ∧ pointer = 0)) → s.dev.hardwareError = false →
      wait = true → commandCode s.regs.command ≠ 0 →
      exec (.issueCommand wait code pointer) s =
        .next { s with dev := { s.dev with hardwareError := true }, result := some .hardError }) ∧
    (s.dev.lifecycle = .running → (code = 1 ∨ code = 3) → s.dev.hardwareError = false → wait = false →
      commandCode s.regs.command ≠ 0 →
      exec (.issueCommand wait code pointer) s = .fault .commandOverrun)

/-- WAIT_ACCEPT (R191, R201): `Ok` as soon as the register is clear, with the flag as it was; with a command that nobody
takes the budget runs out and the sticky flag is set. Before poll `k` there are `2 * k` points at which the Acceptor may take
the command, and one more between the last poll and the flag: taken at one of the first `2 * budget`, the answer is `Ok` and
nothing else has changed; taken at the one after, it is taken too late and the flag is set all the same; later it is not
taken. Where the Acceptor steps is said in the model's own port (log entry 4). -/
def Obligations.WaitAcceptEndsWithinItsBudget : Prop :=
  ∀ (s : State) (budget : Word),
    (s.quiet = true → (budget = 0 ∨ s.dev.lifecycle ≠ .running) →
      exec (.waitAccept budget) s = .next { s with result := some .invalidRequest }) ∧
    (s.quiet = true → budget ≠ 0 → s.dev.lifecycle = .running → commandCode s.regs.command = 0 →
      exec (.waitAccept budget) s = .next { s with result := some .ok }) ∧
    (s.quiet = true → budget ≠ 0 → s.dev.lifecycle = .running → commandCode s.regs.command ≠ 0 →
      exec (.waitAccept budget) s =
        .next { s with dev := { s.dev with hardwareError := true }, result := some .hardError }) ∧
    (∀ (n : Nat) (u : State), s.settled = true → budget ≠ 0 → s.dev.lifecycle = .running →
      commandCode s.regs.command ≠ 0 → s.ports.interleaved = List.replicate n [] ++ [[.device .accept]] →
      deviceStep .accept { s with ports := { s.ports with interleaved := [] } } = .ok ((), u) →
      (n < 2 * budget.toNat → exec (.waitAccept budget) s = .next { u with result := some .ok }) ∧
      (n = 2 * budget.toNat → exec (.waitAccept budget) s = .next { u with
        dev := { u.dev with hardwareError := true }, result := some .hardError }) ∧
      (2 * budget.toNat < n → exec (.waitAccept budget) s = .next { s with
        dev := { s.dev with hardwareError := true },
        ports := { s.ports with interleaved := s.ports.interleaved.drop (2 * budget.toNat + 1) },
        result := some .hardError }))

/-- Accepting CU_START (R195); a `POINTER` that is misaligned or names no transmit descriptor is a fault (R74, U4, log entry
16). -/
def Obligations.CuStartActivatesAtThePointer : Prop :=
  ∀ s : State,
    (∀ i, Config.aligned s.cfg s.regs.pointer.toNat = true → s.slotAt? s.regs.pointer.toNat = some i →
      exec .cuStart s = .next { s with
        units := { s.units with cuCursor := i },
        regs := { s.regs with status := withCus unitActive s.regs.status, command := 0 } }) ∧
    ((Config.aligned s.cfg s.regs.pointer.toNat = false ∨ s.slotAt? s.regs.pointer.toNat = none) →
      exec .cuStart s = .fault .badStartPointer)

/-- Accepting CU_RESUME (R196), and its idempotence: accepting it twice has the effect of accepting it once. A link that is
misaligned or names no slot is a fault (R74, log entry 16). -/
def Obligations.CuResumeIsIdempotent : Prop :=
  ∀ s : State, s.txLaidOut = true → s.units.cuCursor < s.cfg.numTcb →
    (statusCus s.regs.status ≠ unitSuspended →
      exec .cuResume s = .next { s with regs := { s.regs with command := 0 } }) ∧
    (statusCus s.regs.status = unitSuspended → s.tdS s.units.cuCursor = true →
      exec .cuResume s = .next { s with regs := { s.regs with command := 0 } }) ∧
    (statusCus s.regs.status = unitSuspended → s.tdS s.units.cuCursor = false →
      (Config.aligned s.cfg (s.tdLink s.units.cuCursor).toNat = false ∨
        s.slotAt? (s.tdLink s.units.cuCursor).toNat = none) →
      exec .cuResume s = .fault .danglingLink) ∧
    (∀ j, statusCus s.regs.status = unitSuspended → s.tdS s.units.cuCursor = false →
      Config.aligned s.cfg (s.tdLink s.units.cuCursor).toNat = true → s.slotAt? (s.tdLink s.units.cuCursor).toNat = some j →
      exec .cuResume s = .next { s with
        units := { s.units with cuCursor := j },
        regs := { s.regs with status := withCus unitActive s.regs.status, command := 0 } }) ∧
    (∀ t, exec .cuResume s = .next t → exec .cuResume t = .next t)

/-- Accepting RU_START (R197); a `POINTER` that is misaligned or names no receive descriptor is a fault (R74, U4, log entry
16). -/
def Obligations.RuStartReadiesAtThePointer : Prop :=
  ∀ s : State,
    (∀ d, Config.aligned s.cfg s.regs.pointer.toNat = true → s.rdAt? s.regs.pointer.toNat = some d →
      exec .ruStart s = .next { s with
        units := { s.units with ruCursor := some d, ruPhase := .none },
        regs := { s.regs with status := withRus unitActive s.regs.status, command := 0 } }) ∧
    ((Config.aligned s.cfg s.regs.pointer.toNat = false ∨ s.rdAt? s.regs.pointer.toNat = none) →
      exec .ruStart s = .fault .badStartPointer)

/-- SELECTIVE_RESET (R199): both units idle, the pending command dropped; `POINTER`, the cause bits, `INTMASK`, the
cursors and shared memory preserved. -/
def Obligations.SelectiveResetIdlesTheUnits : Prop :=
  ∀ s : State, ∃ v : Word,
    exec .selectiveReset s = .next { s with
      regs := { s.regs with status := v, command := 0 }, units := { s.units with ruPhase := .none } } ∧
    statusCus v = unitIdle ∧ statusRus v = unitIdle ∧ causesOf v = causesOf s.regs.status

/-- FULL_RESET (R200): that, and `POINTER`, the causes, the mask and the cursors at their power-on values; shared memory
and `PHYSTAT` are not touched. -/
def Obligations.FullResetRestoresTheRegisters : Prop :=
  ∀ s : State, s.regs.Legal → ∃ v : Word,
    exec .fullReset s = .next { s with
      regs := { s.regs with status := v, command := 0, pointer := 0, intmask := 1 },
      units := { cuCursor := 0, ruCursor := none, ruPhase := .none } } ∧
    statusCus v = unitIdle ∧ statusRus v = unitIdle ∧ causesOf v = 0

/-! ## Link -/

/-- LINK_START (R211): the initial state, the overrides, the reference and the timer; nothing while detection runs. -/
def Obligations.LinkStartBeginsDetection : Prop :=
  ∀ s : State, s.quiet = true → s.dev.lifecycle = .running →
    (s.link.phase.inProgress = true → exec .linkStart s = .next { s with result := some .ok }) ∧
    (s.link.phase.inProgress = false → ∃ t, exec .linkStart s = .next t ∧
      t = { s with link := t.link, dev := { s.dev with refCount := s.dev.refCount + 1 }, result := some .ok } ∧
      t.link = { s.link with candidateAddressIndex := 0, foundAddress := none, waitCounter := 0,
                             waitingForNegotiation := false, timer := .armed, phase := t.link.phase,
                             selected := t.link.selected } ∧
      (∀ a, s.cfg.phyAddressOverride = some a → t.link.phase = .configuring ∧ t.link.selected = .addr a) ∧
      (∀ c, s.cfg.phyAddressOverride = none → s.cfg.forcedConnector = some c →
        t.link.phase = .configuring ∧ t.link.selected = .connector c) ∧
      (s.cfg.phyAddressOverride = none → s.cfg.forcedConnector = none →
        t.link.phase = .scanningForLink ∧ t.link.selected = s.link.selected))

/-- LINK_TICK that finds a link (R212, R213, R216, R217): absent candidates are passed over, the first present one with
link is taken, and what detection deferred is released. -/
def Obligations.LinkTickTakesTheFirstLink : Prop :=
  ∀ (s : State) (pre post : List PhyAddress) (a : PhyAddress),
    s.quiet = true → s.dev.lifecycle = .running → s.link.timer = .armed → s.link.phase = .scanningForLink →
    s.cfg.phyCandidates.drop s.link.candidateAddressIndex = pre ++ a :: post →
    (∀ x ∈ pre, (phyRecordOf s.regs.phystat[x]).present = false) →
    (phyRecordOf s.regs.phystat[a]).present = true → (phyRecordOf s.regs.phystat[a]).linkUp = true →
    s.tx.waitQueue = [] → s.link.pendingReset = false →
    exec .linkTick s = .next { s with
      link := { s.link with
        phase := .done, selected := .addr a, timer := .idle,
        candidateAddressIndex := s.link.candidateAddressIndex + pre.length,
        speed := (phyRecordOf s.regs.phystat[a]).speed, duplex := (phyRecordOf s.regs.phystat[a]).duplex,
        media := .connected, pendingPropertyReads := [], pendingFilter := none, pendingMcast := none },
      dev := { s.dev with
        refCount := s.dev.refCount - 1, packetFilter := s.link.pendingFilter.getD s.dev.packetFilter,
        mcastList := s.link.pendingMcast.getD s.dev.mcastList },
      events := s.events ++ s.link.pendingPropertyReads.map (fun e => .completeRequest e.1
        (match e.2 with
          | .linkSpeed => .speed (phyRecordOf s.regs.phystat[a]).speed
          | .mediaState => .media (if s.dev.hardwareError then .disconnected else .connected))),
      result := some .ok }

/-- LINK_TICK without a link (R212 to R216), with no reset, read or packet waiting: a present candidate without link is
waited for; each tick of the wait counts down; at negotiation complete the candidate is configured; at the end of the wait,
or with no candidate present, the machine falls back to the found address, else the default address, else the alternate
wiring; in `Configuring`, where an override has put it (R211), what is selected is configured. A deferred reset (R217, R322): the
tick does all it does without one, and then RESET runs in place of the drain, its status returned to nobody. -/
def Obligations.LinkTickWaitsAndFallsBack : Prop :=
  ∀ s : State, s.quiet = true → s.link.timer = .armed →
    (s.link.pendingReset = false → s.link.pendingPropertyReads = [] → s.tx.waitQueue = [] →
      (∀ (pre post : List PhyAddress) (a : PhyAddress), s.link.phase = .scanningForLink →
        s.cfg.phyCandidates.drop s.link.candidateAddressIndex = pre ++ a :: post →
        (∀ x ∈ pre, (phyRecordOf s.regs.phystat[x]).present = false) →
        (phyRecordOf s.regs.phystat[a]).present = true → (phyRecordOf s.regs.phystat[a]).linkUp = false →
        exec .linkTick s = .next { s with
          link := { s.link with
            candidateAddressIndex := s.link.candidateAddressIndex + pre.length,
            foundAddress := some (s.link.foundAddress.getD a), waitCounter := s.cfg.negotiationAttemptsMax,
            waitingForNegotiation := true, phase := .waitingForNegotiation },
          result := some .ok }) ∧
      (s.link.phase = .scanningForLink →
        (∀ x ∈ s.cfg.phyCandidates.drop s.link.candidateAddressIndex, (phyRecordOf s.regs.phystat[x]).present = false) →
        exec .linkTick s = .next (s.detected
          (match s.link.foundAddress, s.cfg.defaultPhyAddress with
            | some b, _ => .addr b
            | none, some b => .addr b
            | none, none => .alternateWiring)
          { s.link with candidateAddressIndex :=
              s.link.candidateAddressIndex + (s.cfg.phyCandidates.length - s.link.candidateAddressIndex) })) ∧
      (∀ a : PhyAddress, s.link.phase = .waitingForNegotiation →
        s.cfg.phyCandidates[s.link.candidateAddressIndex]? = some a →
        ((phyRecordOf s.regs.phystat[a]).negotiationComplete = true →
          exec .linkTick s = .next (s.detected (.addr a) { s.link with waitingForNegotiation := false })) ∧
        ((phyRecordOf s.regs.phystat[a]).negotiationComplete = false → 2 ≤ s.link.waitCounter →
          exec .linkTick s = .next { s with
            link := { s.link with waitCounter := s.link.waitCounter - 1 }, result := some .ok }) ∧
        ((phyRecordOf s.regs.phystat[a]).negotiationComplete = false → s.link.waitCounter = 1 →
          exec .linkTick s = .next (s.detected
            (match s.link.foundAddress, s.cfg.defaultPhyAddress with
              | some b, _ => .addr b
              | none, some b => .addr b
              | none, none => .alternateWiring)
            { s.link with waitCounter := 0, waitingForNegotiation := false }))) ∧
      (s.link.phase = .configuring → s.link.selected ≠ .none →
        exec .linkTick s = .next (s.detected s.link.selected s.link))) ∧
    (∀ u t, s.link.pendingReset = true →
      exec .linkTick { s with link := { s.link with pendingReset := false }, tx := { s.tx with waitQueue := [] } } =
        .next u →
      u.link.phase = .done → exec .reset { u with tx := s.tx } = .next t →
      exec .linkTick s = .next { t with result := some .ok })

/-- GET_LINK_SPEED and GET_MEDIA_STATE (R218, R219): deferred while detection runs, else completed with the value then;
an error or a withdrawn device reads as disconnected. -/
def Obligations.PropertyReadsCompleteOrDefer : Prop :=
  ∀ (s : State) (q : Word), s.quiet = true → (s.dev.lifecycle = .running ∨ s.dev.lifecycle = .withdrawn) →
    (s.link.phase.inProgress = false →
      exec (.getLinkSpeed q) s = .next { s with
        events := s.events ++ [.completeRequest q (.speed s.link.speed)], result := some .ok } ∧
      exec (.getMediaState q) s = .next { s with
        events := s.events ++ [.completeRequest q (.media
          (if s.dev.hardwareError = true ∨ s.dev.lifecycle = .withdrawn then .disconnected else s.link.media))],
        result := some .ok }) ∧
    (s.link.phase.inProgress = true →
      exec (.getLinkSpeed q) s = .next { s with
        link := { s.link with pendingPropertyReads := s.link.pendingPropertyReads ++ [(q, .linkSpeed)] },
        result := some .pending } ∧
      exec (.getMediaState q) s = .next { s with
        link := { s.link with pendingPropertyReads := s.link.pendingPropertyReads ++ [(q, .mediaState)] },
        result := some .pending })

/-- SET_FILTER and SET_MCAST (R220, R221): stored at once, or deferred while detection runs, a later one replacing an
earlier. That SET_MCAST is refused for a handle the table does not have is the model's choice (log entry 10). -/
def Obligations.FilterRequestsStoreOrDefer : Prop :=
  ∀ (s : State) (mask handle : Word), s.quiet = true → s.dev.lifecycle = .running →
    (s.link.phase.inProgress = false →
      exec (.setFilter mask) s = .next { s with dev := { s.dev with packetFilter := mask }, result := some .ok }) ∧
    (s.link.phase.inProgress = true →
      exec (.setFilter mask) s =
        .next { s with link := { s.link with pendingFilter := some mask }, result := some .pending }) ∧
    (∀ addresses, s.mcastListOf? handle = some addresses →
      (s.link.phase.inProgress = false → exec (.setMcast handle) s =
        .next { s with dev := { s.dev with mcastList := addresses }, result := some .ok }) ∧
      (s.link.phase.inProgress = true → exec (.setMcast handle) s =
        .next { s with link := { s.link with pendingMcast := some addresses }, result := some .pending })) ∧
    (s.mcastListOf? handle = none → exec (.setMcast handle) s = .next { s with result := some .invalidRequest })

/-- The PHY agent (R223, R109): the record it sets is what a probe of that address reads, and nothing else changes. -/
def Obligations.PhyChangeIsWhatAProbeReads : Prop :=
  ∀ (h : Handler) (s : State) (a : PhyAddress) (r : PhyRecord), s.ports.interleaved = [] →
    ∃ t, deviceStep (.phy a r) s = .ok ((), t) ∧ phyProbe h a t = .ok (r, t) ∧
      (∀ b : PhyAddress, b ≠ a → t.regs.phystat[b] = s.regs.phystat[b]) ∧
      t = { s with regs := { s.regs with phystat := t.regs.phystat } }
end

