-- ==== Sys2Proof/Laws/Encoding.lean ====
section
/-!
SUPPORT. The fields of a word built from its fields (spec/30_encoding.md R101).
-/
namespace Sys2Proof

/-- A bit of a request word, by field. -/
theorem getLsbD_requestOf (op sub : Byte) (arg : Word) (i : Nat) :
    (requestOf op sub arg).getLsbD i =
      if i < 32 then arg.getLsbD i else if i < 48 then false else if i < 56 then sub.getLsbD (i - 48)
      else op.getLsbD (i - 56) := by
  show BitVec.getLsbD (op ++ sub ++ (0 : Halfword) ++ arg : BitVec (8 + 8 + 16 + 32)) i = _
  rw [BitVec.getLsbD_append, BitVec.getLsbD_append, BitVec.getLsbD_append]
  by_cases h1 : i < 32
  · simp [h1]
  · by_cases h2 : i < 48
    · have : i - 32 < 16 := by omega
      simp [h1, h2, this]
    · have h3 : ¬ i - 32 < 16 := by omega
      have h4 : i - 32 - 16 = i - 48 := by omega
      by_cases h5 : i < 56
      · have h6 : i - 48 < 8 := by omega
        simp [h1, h2, h3, h4, h5, h6]
      · have h6 : ¬ i - 48 < 8 := by omega
        have h7 : i - 48 - 8 = i - 56 := by omega
        simp [h1, h2, h3, h4, h5, h6, h7]

@[simp] theorem requestOp_requestOf (op sub : Byte) (arg : Word) : requestOp (requestOf op sub arg) = op := by
  apply BitVec.eq_of_getLsbD_eq
  intro i hi
  rw [requestOp, BitVec.getLsbD_extractLsb', getLsbD_requestOf]
  have h1 : ¬ 56 + i < 32 := by omega
  have h2 : ¬ 56 + i < 48 := by omega
  simp [hi, h1, h2]

@[simp] theorem requestSub_requestOf (op sub : Byte) (arg : Word) : requestSub (requestOf op sub arg) = sub := by
  apply BitVec.eq_of_getLsbD_eq
  intro i hi
  rw [requestSub, BitVec.getLsbD_extractLsb', getLsbD_requestOf]
  have h1 : ¬ 48 + i < 32 := by omega
  have h2 : 48 + i < 56 := by omega
  simp [hi, h1, h2]

@[simp] theorem requestZero_requestOf (op sub : Byte) (arg : Word) : requestZero (requestOf op sub arg) = 0 := by
  apply BitVec.eq_of_getLsbD_eq
  intro i hi
  rw [requestZero, BitVec.getLsbD_extractLsb', getLsbD_requestOf]
  have h2 : 32 + i < 48 := by omega
  simp [h2]

@[simp] theorem requestArg_requestOf (op sub : Byte) (arg : Word) : requestArg (requestOf op sub arg) = arg := by
  apply BitVec.eq_of_getLsbD_eq
  intro i hi
  rw [requestArg, BitVec.getLsbD_extractLsb', getLsbD_requestOf]
  simp [hi]

/-- A request word is built from its four fields. -/
theorem requestOf_fields (w : RequestWord) (h : requestZero w = 0) :
    requestOf (requestOp w) (requestSub w) (requestArg w) = w := by
  apply BitVec.eq_of_getLsbD_eq
  intro i hi
  rw [getLsbD_requestOf]
  by_cases h1 : i < 32
  · simp [h1, requestArg]
  · by_cases h2 : i < 48
    · have hz := congrArg (fun z => z.getLsbD (i - 32)) h
      have h3 : i - 32 < 16 := by omega
      have h4 : 32 + (i - 32) = i := by omega
      simp only [requestZero, BitVec.getLsbD_extractLsb', h3, h4] at hz
      simpa [h1, h2] using hz.symm
    · by_cases h3 : i < 56
      · have h4 : i - 48 < 8 := by omega
        have h5 : 48 + (i - 48) = i := by omega
        simp [h1, h2, h3, requestSub, h4, h5]
      · have h4 : i - 56 < 8 := by omega
        have h5 : 56 + (i - 56) = i := by omega
        simp [h1, h2, h3, requestOp, h4, h5]

end Sys2Proof
end

