-- ==== Sys2Proof/Laws/State.lean ====
section
/-!
SUPPORT. What each named update of the state does to each part of the state: one lemma per part per update.
-/
namespace Sys2Proof.Machine

variable (s : State)

/-! ## `mapRegs` -/

@[simp] theorem State.mapRegs_cfg (f : Registers → Registers) : (s.mapRegs f).cfg = s.cfg := rfl
@[simp] theorem State.mapRegs_regs (f : Registers → Registers) : (s.mapRegs f).regs = f s.regs := rfl
@[simp] theorem State.mapRegs_units (f : Registers → Registers) : (s.mapRegs f).units = s.units := rfl
@[simp] theorem State.mapRegs_tx (f : Registers → Registers) : (s.mapRegs f).tx = s.tx := rfl
@[simp] theorem State.mapRegs_rx (f : Registers → Registers) : (s.mapRegs f).rx = s.rx := rfl
@[simp] theorem State.mapRegs_link (f : Registers → Registers) : (s.mapRegs f).link = s.link := rfl
@[simp] theorem State.mapRegs_dev (f : Registers → Registers) : (s.mapRegs f).dev = s.dev := rfl
@[simp] theorem State.mapRegs_mem (f : Registers → Registers) : (s.mapRegs f).mem = s.mem := rfl
@[simp] theorem State.mapRegs_locks (f : Registers → Registers) : (s.mapRegs f).locks = s.locks := rfl
@[simp] theorem State.mapRegs_events (f : Registers → Registers) : (s.mapRegs f).events = s.events := rfl
@[simp] theorem State.mapRegs_result (f : Registers → Registers) : (s.mapRegs f).result = s.result := rfl
@[simp] theorem State.mapRegs_ports (f : Registers → Registers) : (s.mapRegs f).ports = s.ports := rfl

/-! ## `mapUnits` -/

@[simp] theorem State.mapUnits_cfg (f : Units → Units) : (s.mapUnits f).cfg = s.cfg := rfl
@[simp] theorem State.mapUnits_regs (f : Units → Units) : (s.mapUnits f).regs = s.regs := rfl
@[simp] theorem State.mapUnits_units (f : Units → Units) : (s.mapUnits f).units = f s.units := rfl
@[simp] theorem State.mapUnits_tx (f : Units → Units) : (s.mapUnits f).tx = s.tx := rfl
@[simp] theorem State.mapUnits_rx (f : Units → Units) : (s.mapUnits f).rx = s.rx := rfl
@[simp] theorem State.mapUnits_link (f : Units → Units) : (s.mapUnits f).link = s.link := rfl
@[simp] theorem State.mapUnits_dev (f : Units → Units) : (s.mapUnits f).dev = s.dev := rfl
@[simp] theorem State.mapUnits_mem (f : Units → Units) : (s.mapUnits f).mem = s.mem := rfl
@[simp] theorem State.mapUnits_locks (f : Units → Units) : (s.mapUnits f).locks = s.locks := rfl
@[simp] theorem State.mapUnits_events (f : Units → Units) : (s.mapUnits f).events = s.events := rfl
@[simp] theorem State.mapUnits_result (f : Units → Units) : (s.mapUnits f).result = s.result := rfl
@[simp] theorem State.mapUnits_ports (f : Units → Units) : (s.mapUnits f).ports = s.ports := rfl

/-! ## `mapTx` -/

@[simp] theorem State.mapTx_cfg (f : TxRing → TxRing) : (s.mapTx f).cfg = s.cfg := rfl
@[simp] theorem State.mapTx_regs (f : TxRing → TxRing) : (s.mapTx f).regs = s.regs := rfl
@[simp] theorem State.mapTx_units (f : TxRing → TxRing) : (s.mapTx f).units = s.units := rfl
@[simp] theorem State.mapTx_tx (f : TxRing → TxRing) : (s.mapTx f).tx = f s.tx := rfl
@[simp] theorem State.mapTx_rx (f : TxRing → TxRing) : (s.mapTx f).rx = s.rx := rfl
@[simp] theorem State.mapTx_link (f : TxRing → TxRing) : (s.mapTx f).link = s.link := rfl
@[simp] theorem State.mapTx_dev (f : TxRing → TxRing) : (s.mapTx f).dev = s.dev := rfl
@[simp] theorem State.mapTx_mem (f : TxRing → TxRing) : (s.mapTx f).mem = s.mem := rfl
@[simp] theorem State.mapTx_locks (f : TxRing → TxRing) : (s.mapTx f).locks = s.locks := rfl
@[simp] theorem State.mapTx_events (f : TxRing → TxRing) : (s.mapTx f).events = s.events := rfl
@[simp] theorem State.mapTx_result (f : TxRing → TxRing) : (s.mapTx f).result = s.result := rfl
@[simp] theorem State.mapTx_ports (f : TxRing → TxRing) : (s.mapTx f).ports = s.ports := rfl

/-! ## `mapRx` -/

@[simp] theorem State.mapRx_cfg (f : RxRing → RxRing) : (s.mapRx f).cfg = s.cfg := rfl
@[simp] theorem State.mapRx_regs (f : RxRing → RxRing) : (s.mapRx f).regs = s.regs := rfl
@[simp] theorem State.mapRx_units (f : RxRing → RxRing) : (s.mapRx f).units = s.units := rfl
@[simp] theorem State.mapRx_tx (f : RxRing → RxRing) : (s.mapRx f).tx = s.tx := rfl
@[simp] theorem State.mapRx_rx (f : RxRing → RxRing) : (s.mapRx f).rx = f s.rx := rfl
@[simp] theorem State.mapRx_link (f : RxRing → RxRing) : (s.mapRx f).link = s.link := rfl
@[simp] theorem State.mapRx_dev (f : RxRing → RxRing) : (s.mapRx f).dev = s.dev := rfl
@[simp] theorem State.mapRx_mem (f : RxRing → RxRing) : (s.mapRx f).mem = s.mem := rfl
@[simp] theorem State.mapRx_locks (f : RxRing → RxRing) : (s.mapRx f).locks = s.locks := rfl
@[simp] theorem State.mapRx_events (f : RxRing → RxRing) : (s.mapRx f).events = s.events := rfl
@[simp] theorem State.mapRx_result (f : RxRing → RxRing) : (s.mapRx f).result = s.result := rfl
@[simp] theorem State.mapRx_ports (f : RxRing → RxRing) : (s.mapRx f).ports = s.ports := rfl

/-! ## `mapLink` -/

@[simp] theorem State.mapLink_cfg (f : Link → Link) : (s.mapLink f).cfg = s.cfg := rfl
@[simp] theorem State.mapLink_regs (f : Link → Link) : (s.mapLink f).regs = s.regs := rfl
@[simp] theorem State.mapLink_units (f : Link → Link) : (s.mapLink f).units = s.units := rfl
@[simp] theorem State.mapLink_tx (f : Link → Link) : (s.mapLink f).tx = s.tx := rfl
@[simp] theorem State.mapLink_rx (f : Link → Link) : (s.mapLink f).rx = s.rx := rfl
@[simp] theorem State.mapLink_link (f : Link → Link) : (s.mapLink f).link = f s.link := rfl
@[simp] theorem State.mapLink_dev (f : Link → Link) : (s.mapLink f).dev = s.dev := rfl
@[simp] theorem State.mapLink_mem (f : Link → Link) : (s.mapLink f).mem = s.mem := rfl
@[simp] theorem State.mapLink_locks (f : Link → Link) : (s.mapLink f).locks = s.locks := rfl
@[simp] theorem State.mapLink_events (f : Link → Link) : (s.mapLink f).events = s.events := rfl
@[simp] theorem State.mapLink_result (f : Link → Link) : (s.mapLink f).result = s.result := rfl
@[simp] theorem State.mapLink_ports (f : Link → Link) : (s.mapLink f).ports = s.ports := rfl

/-! ## `mapDev` -/

@[simp] theorem State.mapDev_cfg (f : Device → Device) : (s.mapDev f).cfg = s.cfg := rfl
@[simp] theorem State.mapDev_regs (f : Device → Device) : (s.mapDev f).regs = s.regs := rfl
@[simp] theorem State.mapDev_units (f : Device → Device) : (s.mapDev f).units = s.units := rfl
@[simp] theorem State.mapDev_tx (f : Device → Device) : (s.mapDev f).tx = s.tx := rfl
@[simp] theorem State.mapDev_rx (f : Device → Device) : (s.mapDev f).rx = s.rx := rfl
@[simp] theorem State.mapDev_link (f : Device → Device) : (s.mapDev f).link = s.link := rfl
@[simp] theorem State.mapDev_dev (f : Device → Device) : (s.mapDev f).dev = f s.dev := rfl
@[simp] theorem State.mapDev_mem (f : Device → Device) : (s.mapDev f).mem = s.mem := rfl
@[simp] theorem State.mapDev_locks (f : Device → Device) : (s.mapDev f).locks = s.locks := rfl
@[simp] theorem State.mapDev_events (f : Device → Device) : (s.mapDev f).events = s.events := rfl
@[simp] theorem State.mapDev_result (f : Device → Device) : (s.mapDev f).result = s.result := rfl
@[simp] theorem State.mapDev_ports (f : Device → Device) : (s.mapDev f).ports = s.ports := rfl

/-! ## `mapMem` -/

@[simp] theorem State.mapMem_cfg (f : Memory → Memory) : (s.mapMem f).cfg = s.cfg := rfl
@[simp] theorem State.mapMem_regs (f : Memory → Memory) : (s.mapMem f).regs = s.regs := rfl
@[simp] theorem State.mapMem_units (f : Memory → Memory) : (s.mapMem f).units = s.units := rfl
@[simp] theorem State.mapMem_tx (f : Memory → Memory) : (s.mapMem f).tx = s.tx := rfl
@[simp] theorem State.mapMem_rx (f : Memory → Memory) : (s.mapMem f).rx = s.rx := rfl
@[simp] theorem State.mapMem_link (f : Memory → Memory) : (s.mapMem f).link = s.link := rfl
@[simp] theorem State.mapMem_dev (f : Memory → Memory) : (s.mapMem f).dev = s.dev := rfl
@[simp] theorem State.mapMem_mem (f : Memory → Memory) : (s.mapMem f).mem = f s.mem := rfl
@[simp] theorem State.mapMem_locks (f : Memory → Memory) : (s.mapMem f).locks = s.locks := rfl
@[simp] theorem State.mapMem_events (f : Memory → Memory) : (s.mapMem f).events = s.events := rfl
@[simp] theorem State.mapMem_result (f : Memory → Memory) : (s.mapMem f).result = s.result := rfl
@[simp] theorem State.mapMem_ports (f : Memory → Memory) : (s.mapMem f).ports = s.ports := rfl

/-! ## `mapLocks` -/

@[simp] theorem State.mapLocks_cfg (f : Locks → Locks) : (s.mapLocks f).cfg = s.cfg := rfl
@[simp] theorem State.mapLocks_regs (f : Locks → Locks) : (s.mapLocks f).regs = s.regs := rfl
@[simp] theorem State.mapLocks_units (f : Locks → Locks) : (s.mapLocks f).units = s.units := rfl
@[simp] theorem State.mapLocks_tx (f : Locks → Locks) : (s.mapLocks f).tx = s.tx := rfl
@[simp] theorem State.mapLocks_rx (f : Locks → Locks) : (s.mapLocks f).rx = s.rx := rfl
@[simp] theorem State.mapLocks_link (f : Locks → Locks) : (s.mapLocks f).link = s.link := rfl
@[simp] theorem State.mapLocks_dev (f : Locks → Locks) : (s.mapLocks f).dev = s.dev := rfl
@[simp] theorem State.mapLocks_mem (f : Locks → Locks) : (s.mapLocks f).mem = s.mem := rfl
@[simp] theorem State.mapLocks_locks (f : Locks → Locks) : (s.mapLocks f).locks = f s.locks := rfl
@[simp] theorem State.mapLocks_events (f : Locks → Locks) : (s.mapLocks f).events = s.events := rfl
@[simp] theorem State.mapLocks_result (f : Locks → Locks) : (s.mapLocks f).result = s.result := rfl
@[simp] theorem State.mapLocks_ports (f : Locks → Locks) : (s.mapLocks f).ports = s.ports := rfl

/-! ## `mapEvents` -/

@[simp] theorem State.mapEvents_cfg (f : List Event → List Event) : (s.mapEvents f).cfg = s.cfg := rfl
@[simp] theorem State.mapEvents_regs (f : List Event → List Event) : (s.mapEvents f).regs = s.regs := rfl
@[simp] theorem State.mapEvents_units (f : List Event → List Event) : (s.mapEvents f).units = s.units := rfl
@[simp] theorem State.mapEvents_tx (f : List Event → List Event) : (s.mapEvents f).tx = s.tx := rfl
@[simp] theorem State.mapEvents_rx (f : List Event → List Event) : (s.mapEvents f).rx = s.rx := rfl
@[simp] theorem State.mapEvents_link (f : List Event → List Event) : (s.mapEvents f).link = s.link := rfl
@[simp] theorem State.mapEvents_dev (f : List Event → List Event) : (s.mapEvents f).dev = s.dev := rfl
@[simp] theorem State.mapEvents_mem (f : List Event → List Event) : (s.mapEvents f).mem = s.mem := rfl
@[simp] theorem State.mapEvents_locks (f : List Event → List Event) : (s.mapEvents f).locks = s.locks := rfl
@[simp] theorem State.mapEvents_events (f : List Event → List Event) : (s.mapEvents f).events = f s.events := rfl
@[simp] theorem State.mapEvents_result (f : List Event → List Event) : (s.mapEvents f).result = s.result := rfl
@[simp] theorem State.mapEvents_ports (f : List Event → List Event) : (s.mapEvents f).ports = s.ports := rfl

/-! ## `mapPorts` -/

@[simp] theorem State.mapPorts_cfg (f : Ports → Ports) : (s.mapPorts f).cfg = s.cfg := rfl
@[simp] theorem State.mapPorts_regs (f : Ports → Ports) : (s.mapPorts f).regs = s.regs := rfl
@[simp] theorem State.mapPorts_units (f : Ports → Ports) : (s.mapPorts f).units = s.units := rfl
@[simp] theorem State.mapPorts_tx (f : Ports → Ports) : (s.mapPorts f).tx = s.tx := rfl
@[simp] theorem State.mapPorts_rx (f : Ports → Ports) : (s.mapPorts f).rx = s.rx := rfl
@[simp] theorem State.mapPorts_link (f : Ports → Ports) : (s.mapPorts f).link = s.link := rfl
@[simp] theorem State.mapPorts_dev (f : Ports → Ports) : (s.mapPorts f).dev = s.dev := rfl
@[simp] theorem State.mapPorts_mem (f : Ports → Ports) : (s.mapPorts f).mem = s.mem := rfl
@[simp] theorem State.mapPorts_locks (f : Ports → Ports) : (s.mapPorts f).locks = s.locks := rfl
@[simp] theorem State.mapPorts_events (f : Ports → Ports) : (s.mapPorts f).events = s.events := rfl
@[simp] theorem State.mapPorts_result (f : Ports → Ports) : (s.mapPorts f).result = s.result := rfl
@[simp] theorem State.mapPorts_ports (f : Ports → Ports) : (s.mapPorts f).ports = f s.ports := rfl

/-! ## `withResult` -/

@[simp] theorem State.withResult_cfg (r : Option Status) : (s.withResult r).cfg = s.cfg := rfl
@[simp] theorem State.withResult_regs (r : Option Status) : (s.withResult r).regs = s.regs := rfl
@[simp] theorem State.withResult_units (r : Option Status) : (s.withResult r).units = s.units := rfl
@[simp] theorem State.withResult_tx (r : Option Status) : (s.withResult r).tx = s.tx := rfl
@[simp] theorem State.withResult_rx (r : Option Status) : (s.withResult r).rx = s.rx := rfl
@[simp] theorem State.withResult_link (r : Option Status) : (s.withResult r).link = s.link := rfl
@[simp] theorem State.withResult_dev (r : Option Status) : (s.withResult r).dev = s.dev := rfl
@[simp] theorem State.withResult_mem (r : Option Status) : (s.withResult r).mem = s.mem := rfl
@[simp] theorem State.withResult_locks (r : Option Status) : (s.withResult r).locks = s.locks := rfl
@[simp] theorem State.withResult_events (r : Option Status) : (s.withResult r).events = s.events := rfl
@[simp] theorem State.withResult_result (r : Option Status) : (s.withResult r).result = r := rfl
@[simp] theorem State.withResult_ports (r : Option Status) : (s.withResult r).ports = s.ports := rfl

/-! ## `advance` -/

@[simp] theorem State.advance_cfg : s.advance.cfg = s.cfg := rfl
@[simp] theorem State.advance_regs : s.advance.regs = s.regs := rfl
@[simp] theorem State.advance_units : s.advance.units = s.units := rfl
@[simp] theorem State.advance_tx : s.advance.tx = s.tx := rfl
@[simp] theorem State.advance_rx : s.advance.rx = s.rx := rfl
@[simp] theorem State.advance_link : s.advance.link = s.link := rfl
@[simp] theorem State.advance_dev : s.advance.dev = s.dev := rfl
@[simp] theorem State.advance_mem : s.advance.mem = s.mem := rfl
@[simp] theorem State.advance_locks : s.advance.locks = s.locks := rfl
@[simp] theorem State.advance_events : s.advance.events = s.events := rfl
@[simp] theorem State.advance_result : s.advance.result = s.result := rfl
@[simp] theorem State.advance_ports :
    s.advance.ports = { s.ports with schedule := s.ports.schedule.tail } := rfl

/-! ## Updates of one part twice, and of a part by itself -/

@[simp] theorem State.mapRegs_mapRegs (f g : Registers → Registers) :
    (s.mapRegs f).mapRegs g = s.mapRegs (fun x => g (f x)) := rfl
@[simp] theorem State.mapUnits_mapUnits (f g : Units → Units) :
    (s.mapUnits f).mapUnits g = s.mapUnits (fun x => g (f x)) := rfl
@[simp] theorem State.mapTx_mapTx (f g : TxRing → TxRing) :
    (s.mapTx f).mapTx g = s.mapTx (fun x => g (f x)) := rfl
@[simp] theorem State.mapRx_mapRx (f g : RxRing → RxRing) :
    (s.mapRx f).mapRx g = s.mapRx (fun x => g (f x)) := rfl
@[simp] theorem State.mapLink_mapLink (f g : Link → Link) :
    (s.mapLink f).mapLink g = s.mapLink (fun x => g (f x)) := rfl
@[simp] theorem State.mapDev_mapDev (f g : Device → Device) :
    (s.mapDev f).mapDev g = s.mapDev (fun x => g (f x)) := rfl
@[simp] theorem State.mapMem_mapMem (f g : Memory → Memory) :
    (s.mapMem f).mapMem g = s.mapMem (fun x => g (f x)) := rfl
@[simp] theorem State.mapLocks_mapLocks (f g : Locks → Locks) :
    (s.mapLocks f).mapLocks g = s.mapLocks (fun x => g (f x)) := rfl
@[simp] theorem State.mapEvents_mapEvents (f g : List Event → List Event) :
    (s.mapEvents f).mapEvents g = s.mapEvents (fun x => g (f x)) := rfl
@[simp] theorem State.mapPorts_mapPorts (f g : Ports → Ports) :
    (s.mapPorts f).mapPorts g = s.mapPorts (fun x => g (f x)) := rfl
@[simp] theorem State.mapRegs_self : s.mapRegs (fun x => x) = s := rfl
@[simp] theorem State.mapUnits_self : s.mapUnits (fun x => x) = s := rfl
@[simp] theorem State.mapTx_self : s.mapTx (fun x => x) = s := rfl
@[simp] theorem State.mapRx_self : s.mapRx (fun x => x) = s := rfl
@[simp] theorem State.mapLink_self : s.mapLink (fun x => x) = s := rfl
@[simp] theorem State.mapDev_self : s.mapDev (fun x => x) = s := rfl
@[simp] theorem State.mapMem_self : s.mapMem (fun x => x) = s := rfl
@[simp] theorem State.mapLocks_self : s.mapLocks (fun x => x) = s := rfl
@[simp] theorem State.mapEvents_self : s.mapEvents (fun x => x) = s := rfl
@[simp] theorem State.mapPorts_self : s.mapPorts (fun x => x) = s := rfl

end Sys2Proof.Machine
end

