-- ==== Sys2Proof/Laws/Run.lean ====
section
/-!
SUPPORT. How an operation runs: the equations of `Op`'s combinators, of the named updates and of the points where other
agents may step, and the rules of `Keeps`, by which an invariant is carried through an operation.
-/
namespace Sys2Proof.Machine

variable {α β : Type}

/-! ## Combinators -/

@[simp] theorem Op.pure_apply (a : α) (s : State) : (pure a : Op α) s = .ok (a, s) := rfl

@[simp] theorem Op.bind_apply (m : Op α) (f : α → Op β) (s : State) :
    (m >>= f) s = match m s with
      | .ok (a, t) => f a t
      | .error e => .error e := by
  show Except.bind (m s) (fun p => f p.1 p.2) = _
  cases m s <;> rfl

@[simp] theorem Op.map_apply (g : α → β) (m : Op α) (s : State) :
    (g <$> m) s = match m s with
      | .ok (a, t) => .ok (g a, t)
      | .error e => .error e := by
  show Except.bind (m s) (fun p => Except.ok (g p.1, p.2)) = _
  cases m s <;> rfl

@[simp] theorem Op.ite_apply (c : Prop) [Decidable c] (m n : Op α) (s : State) :
    (if c then m else n) s = if c then m s else n s := by
  split <;> rfl

@[simp] theorem fault_apply (f : Fault) (s : State) : (fault f : Op α) s = .error (.fault f) := rfl
@[simp] theorem blocked_apply (s : State) : (blocked : Op α) s = .error .wait := rfl
@[simp] theorem read_apply (f : State → α) (s : State) : read f s = .ok (f s, s) := rfl
@[simp] theorem update_apply (f : State → State) (s : State) : update f s = .ok ((), f s) := rfl

/-- What an operation that answered did first. -/
theorem Op.bind_eq_ok {m : Op α} {f : α → Op β} {s u : State} {b : β} :
    (m >>= f) s = .ok (b, u) ↔ ∃ a t, m s = .ok (a, t) ∧ f a t = .ok (b, u) := by
  rw [Op.bind_apply]
  constructor
  · intro h
    cases hm : m s with
    | error e => simp [hm] at h
    | ok p => exact ⟨p.1, p.2, rfl, by simpa [hm] using h⟩
  · rintro ⟨a, t, h1, h2⟩
    simp [h1, h2]

theorem Op.map_eq_ok {g : α → β} {m : Op α} {s u : State} {b : β} :
    (g <$> m) s = .ok (b, u) ↔ ∃ a, m s = .ok (a, u) ∧ g a = b := by
  rw [Op.map_apply]
  constructor
  · intro h
    cases hm : m s with
    | error e => simp [hm] at h
    | ok p =>
      simp only [hm, Except.ok.injEq, Prod.mk.injEq] at h
      exact ⟨p.1, by simp [← h.2], h.1⟩
  · rintro ⟨a, h1, h2⟩
    simp [h1, h2]

/-! ## Named updates -/

@[simp] theorem updateRegs_apply (f : Registers → Registers) (s : State) :
    updateRegs f s = .ok ((), s.mapRegs f) := rfl
@[simp] theorem updateUnits_apply (f : Units → Units) (s : State) : updateUnits f s = .ok ((), s.mapUnits f) := rfl
@[simp] theorem updateTx_apply (f : TxRing → TxRing) (s : State) : updateTx f s = .ok ((), s.mapTx f) := rfl
@[simp] theorem updateRx_apply (f : RxRing → RxRing) (s : State) : updateRx f s = .ok ((), s.mapRx f) := rfl
@[simp] theorem updateLink_apply (f : Link → Link) (s : State) : updateLink f s = .ok ((), s.mapLink f) := rfl
@[simp] theorem updateDev_apply (f : Device → Device) (s : State) : updateDev f s = .ok ((), s.mapDev f) := rfl
@[simp] theorem updatePorts_apply (f : Ports → Ports) (s : State) : updatePorts f s = .ok ((), s.mapPorts f) := rfl

/-! ## Points where other agents may step -/

variable {hd : Handler}

/-- What one step of another agent can do to a running operation: it is taken whole and gives the running operation its
locks back, or it waits and is presented again later; a fault in it is a fault of the step. -/
theorem intrude_ok {e : Stimulus} {s t : State} (h : intrude hd e s = .ok ((), t)) :
    (∃ u, hd e (s.mapLocks Locks.inside) = .ok ((), u) ∧ t = u.mapLocks (fun _ => s.locks)) ∨
    (hd e (s.mapLocks Locks.inside) = .error .wait ∧ t = s.postpone e) := by
  unfold intrude at h
  split at h
  · rename_i u hu
    exact .inl ⟨u, hu, by simpa using h.symm⟩
  · rename_i hw
    exact .inr ⟨hw, by simpa using h.symm⟩
  · cases h

/-- With nothing scheduled, a point does nothing. -/
theorem point_nil {s : State} (h : s.ports.interleaved = []) : point hd s = .ok ((), s) := by
  simp [point, h]

/-- With no step scheduled at this point, only the entry of the schedule is taken. -/
theorem point_cons_nil {s : State} {rest : List (List Stimulus)} (h : s.ports.interleaved = [] :: rest) :
    point hd s = .ok ((), s.mapPorts (fun p => { p with interleaved := rest })) := by
  simp [point, h, intrudeAll]

/-- With nothing scheduled, an access is only itself. -/
theorem host_nil {m : Op α} {s : State} (h : s.ports.interleaved = []) : host hd m s = m s := by
  simp [host, point_nil h]

/-- With nothing scheduled and no INTERRUPT under way, a `Sync` is only its function. -/
theorem sync_nil {m : Op α} {s : State} (h : s.ports.interleaved = []) (hi : s.ports.isrActive = false) :
    sync hd m s = m s := by
  simp [sync, point_nil h, hi]

/-- A point only shortens, from the front, a list of the ports that the handler's steps only shorten and that does not stand in
the two schedules. -/
theorem point_suffix (g : Ports → List α) (hi : ∀ p x, g { p with interleaved := x } = g p)
    (hs : ∀ p x, g { p with schedule := x } = g p)
    (hh : ∀ e s t, hd e s = .ok ((), t) → g t.ports <:+ g s.ports) {s t : State} (h : point hd s = .ok ((), t)) :
    g t.ports <:+ g s.ports := by
  have all : ∀ es (s t : State), intrudeAll hd es s = .ok ((), t) → g t.ports <:+ g s.ports := by
    intro es
    induction es with
    | nil =>
      intro s t h
      simp only [intrudeAll, Op.pure_apply, Except.ok.injEq, Prod.mk.injEq, true_and] at h
      exact h ▸ List.suffix_refl _
    | cons e es ih =>
      intro s t h
      obtain ⟨_, u, h1, h2⟩ := Op.bind_eq_ok.1 h
      refine (ih u t h2).trans ?_
      rcases intrude_ok h1 with ⟨v, hv, rfl⟩ | ⟨_, rfl⟩
      · have hv' := hh e _ v hv
        exact hv'
      · exact (hs s.ports _) ▸ List.suffix_refl _
  cases hl : s.ports.interleaved with
  | nil => rw [point_nil hl] at h; cases h; exact List.suffix_refl _
  | cons es rest =>
    simp only [point, Op.bind_apply, read_apply, hl, updatePorts_apply] at h
    exact (hi s.ports rest) ▸ all es _ t h

/-! ## Carrying an invariant through an operation -/

/-- Whenever the operation answers from a state with `P`, it leaves a state with `P`. -/
def Keeps (P : State → Prop) (m : Op α) : Prop := ∀ s a t, P s → m s = .ok (a, t) → P t

variable {P : State → Prop}

theorem Keeps.pure (a : α) : Keeps P (pure a) := by
  intro s b t hs h
  simp only [Op.pure_apply, Except.ok.injEq, Prod.mk.injEq] at h
  exact h.2 ▸ hs

theorem Keeps.bind {m : Op α} {f : α → Op β} (hm : Keeps P m) (hf : ∀ a, Keeps P (f a)) : Keeps P (m >>= f) := by
  intro s b u hs h
  obtain ⟨a, t, h1, h2⟩ := Op.bind_eq_ok.1 h
  exact hf a t b u (hm s a t hs h1) h2

theorem Keeps.map {m : Op α} (g : α → β) (hm : Keeps P m) : Keeps P (g <$> m) := by
  intro s b u hs h
  obtain ⟨a, h1, _⟩ := Op.map_eq_ok.1 h
  exact hm s a u hs h1

theorem Keeps.fault (f : Fault) : Keeps P (fault f : Op α) := by
  intro s a t _ h
  simp at h

theorem Keeps.read (f : State → α) : Keeps P (read f) := by
  intro s a t hs h
  simp only [read_apply, Except.ok.injEq, Prod.mk.injEq] at h
  exact h.2 ▸ hs

theorem Keeps.update {f : State → State} (hf : ∀ s, P s → P (f s)) : Keeps P (update f) := by
  intro s a t hs h
  simp only [update_apply, Except.ok.injEq, Prod.mk.injEq] at h
  exact h.2 ▸ hf s hs

theorem Keeps.ite {c : Prop} [Decidable c] {m n : Op α} (hm : Keeps P m) (hn : Keeps P n) :
    Keeps P (if c then m else n) := by
  split
  · exact hm
  · exact hn

theorem Keeps.blocked : Keeps P (blocked : Op α) := by
  intro s a t _ h
  simp at h

/-- A step of another agent inside an operation keeps what the handler keeps, if the invariant looks neither at the locks
nor at the ports. -/
theorem Keeps.intrude (hp : ∀ s f, P s → P (s.mapPorts f)) (hl : ∀ s f, P s → P (s.mapLocks f))
    (hh : ∀ e, Keeps P (hd e)) (e : Stimulus) : Keeps P (intrude hd e) := by
  intro s a t hs h
  rcases intrude_ok h with ⟨u, hu, rfl⟩ | ⟨_, rfl⟩
  · exact hl _ _ (hh e _ _ _ (hl _ _ hs) hu)
  · exact hp _ _ hs

theorem Keeps.intrudeAll (hi : ∀ e, Keeps P (Machine.intrude hd e)) : ∀ es, Keeps P (intrudeAll hd es)
  | [] => Keeps.pure ()
  | e :: es => Keeps.bind (hi e) (fun _ => Keeps.intrudeAll hi es)

/-- A point keeps what every step of another agent keeps. -/
theorem Keeps.point (hp : ∀ s f, P s → P (s.mapPorts f)) (hi : ∀ e, Keeps P (Machine.intrude hd e)) :
    Keeps P (point hd) := by
  refine Keeps.bind (Keeps.read _) (fun held => ?_)
  cases held with
  | nil => exact Keeps.pure ()
  | cons es rest => exact Keeps.bind (Keeps.update (fun s hs => hp s _ hs)) (fun _ => Keeps.intrudeAll hi es)

theorem Keeps.host {m : Op α} (hp : Keeps P (Machine.point hd)) (hm : Keeps P m) : Keeps P (host hd m) :=
  Keeps.bind hp (fun _ => hm)

theorem Keeps.sync {m : Op α} (hp : Keeps P (Machine.point hd)) (hm : Keeps P m) : Keeps P (sync hd m) :=
  Keeps.bind hp (fun _ => Keeps.bind (Keeps.read _) (fun _ => Keeps.ite Keeps.blocked hm))

theorem Keeps.callback {e : Event} (he : Keeps P (emit e)) (hp : Keeps P (Machine.point hd)) : Keeps P (callback hd e) :=
  Keeps.bind he (fun _ => hp)

theorem Keeps.callbacks (he : ∀ e, Keeps P (emit e)) (hp : Keeps P (Machine.point hd)) :
    ∀ es, Keeps P (callbacks hd es)
  | [] => Keeps.pure ()
  | e :: es => Keeps.bind hp (fun _ => Keeps.bind (Keeps.callback (he e) hp) (fun _ => Keeps.callbacks he hp es))

theorem Keeps.callbacksDue {next : Ports → Option (Event × Ports)} (hpo : ∀ s f, P s → P (s.mapPorts f))
    (he : ∀ e, Keeps P (emit e)) (hp : Keeps P (Machine.point hd)) : ∀ n, Keeps P (callbacksDue hd next n)
  | 0 => Keeps.pure ()
  | n + 1 => Keeps.bind hp (fun _ => Keeps.bind (Keeps.read _) (fun due => by
      cases due with
      | none => exact Keeps.pure ()
      | some d =>
        exact Keeps.bind (Keeps.update (fun s hs => hpo s _ hs))
          (fun _ => Keeps.bind (Keeps.callback (he _) hp) (fun _ => Keeps.callbacksDue hpo he hp n))))

/-- The handler keeps, to every depth, what every step of an agent keeps whose inner steps keep it. -/
theorem Keeps.reenter (ho : ∀ h : Handler, (∀ e, Keeps P (h e)) → ∀ e, Keeps P (occur h e)) :
    ∀ n e, Keeps P (reenter n e)
  | 0, _ => Keeps.blocked
  | n + 1, e => ho _ (Keeps.reenter ho n) e

/-! ## Outcomes of requests and device steps -/

/-- A request that answers ends with its status recorded. -/
theorem answer_eq_next {m : Op Status} {s t : State} :
    answer m s = .next t ↔ ∃ st u, m s = .ok (st, u) ∧ t = u.withResult (some st) := by
  unfold answer
  cases h : m s with
  | error e => simp
  | ok p => constructor
            · intro h1; exact ⟨p.1, p.2, rfl, by simpa using h1.symm⟩
            · rintro ⟨st, u, h1, h2⟩; cases h1; simp [h2]

theorem answerLater_eq_next {m : Op (Option Status)} {s t : State} :
    answerLater m s = .next t ↔ ∃ st u, m s = .ok (st, u) ∧ t = u.withResult st := by
  unfold answerLater
  cases h : m s with
  | error e => simp
  | ok p => constructor
            · intro h1; exact ⟨p.1, p.2, rfl, by simpa using h1.symm⟩
            · rintro ⟨st, u, h1, h2⟩; cases h1; simp [h2]

theorem outcome_eq_next {m : Op Unit} {s t : State} : outcome m s = .next t ↔ m s = .ok ((), t) := by
  unfold outcome
  cases h : m s with
  | error e => simp
  | ok p => simp [Prod.ext_iff]

end Sys2Proof.Machine
end

