-- ==== Sys2Proof/Laws/Memory.lean ====
section
/-!
SUPPORT. The laws of shared memory: every write keeps the canonical form, a read after a write gives the value written,
and a write leaves every other byte alone.
-/
namespace Sys2Proof.Machine

/-! ## One byte -/

theorem loadCell_storeCell_ne (cells : List Host.Cell) (a x : Nat) (b : Byte) (h : x ≠ a) :
    loadCell (storeCell cells a b) x = loadCell cells x := by
  induction cells with
  | nil =>
    simp only [storeCell]
    split <;> simp [loadCell, Ne.symm h]
  | cons c rest ih =>
    obtain ⟨k, v⟩ := c
    simp only [storeCell]
    split
    · split <;> simp [loadCell, Ne.symm h]
    · split
      · rename_i hk
        subst hk
        split <;> simp [loadCell, Ne.symm h]
      · simp only [loadCell, ih]

theorem cellsAbove_weaken {l m : Nat} (h : l ≤ m) {cells : List Host.Cell} (hc : cellsAbove (some m) cells = true) :
    cellsAbove (some l) cells = true := by
  cases cells with
  | nil => rfl
  | cons c rest =>
    obtain ⟨k, v⟩ := c
    simp only [cellsAbove, Bool.and_eq_true, decide_eq_true_eq] at hc ⊢
    exact ⟨⟨by omega, hc.1.2⟩, hc.2⟩

theorem loadCell_of_above {l x : Nat} (h : x ≤ l) {cells : List Host.Cell} (hc : cellsAbove (some l) cells = true) :
    loadCell cells x = unlistedByte := by
  induction cells generalizing l with
  | nil => rfl
  | cons c rest ih =>
    obtain ⟨k, v⟩ := c
    simp only [cellsAbove, Bool.and_eq_true, decide_eq_true_eq] at hc
    have : k ≠ x := by omega
    simp only [loadCell, if_neg this]
    exact ih (by omega) hc.2

/-- The tail of a canonical list stands above its head. -/
theorem cellsAbove_tail {low : Option Nat} {k : Nat} {v : Byte} {rest : List Host.Cell}
    (hc : cellsAbove low ((k, v) :: rest) = true) : cellsAbove (some k) rest = true := by
  simp only [cellsAbove, Bool.and_eq_true] at hc
  exact hc.2

theorem loadCell_storeCell_same (cells : List Host.Cell) (a : Nat) (b : Byte) {low : Option Nat}
    (hc : cellsAbove low cells = true) : loadCell (storeCell cells a b) a = b := by
  induction cells generalizing low with
  | nil =>
    simp only [storeCell]
    split
    · rename_i h; simp [loadCell, h]
    · simp [loadCell]
  | cons c rest ih =>
    obtain ⟨k, v⟩ := c
    have htail := cellsAbove_tail hc
    simp only [storeCell]
    split
    · rename_i hk
      split
      · rename_i hb
        have : k ≠ a := by omega
        simp only [loadCell, if_neg this]
        rw [hb]
        exact loadCell_of_above (by omega) htail
      · simp [loadCell]
    · split
      · rename_i hk
        subst hk
        split
        · rename_i hb
          rw [hb]
          exact loadCell_of_above (Nat.le_refl _) htail
        · simp [loadCell]
      · rename_i h1 h2
        have : k ≠ a := fun h => h2 h.symm
        simp only [loadCell, if_neg this]
        exact ih htail

theorem cellsAbove_storeCell (cells : List Host.Cell) (a : Nat) (b : Byte) {low : Option Nat}
    (hlow : ∀ l, low = some l → l < a) (hc : cellsAbove low cells = true) :
    cellsAbove low (storeCell cells a b) = true := by
  induction cells generalizing low with
  | nil =>
    simp only [storeCell]
    split
    · rfl
    · rename_i hb
      cases low with
      | none => simp [cellsAbove, hb]
      | some l => simp [cellsAbove, hb, hlow l rfl]
  | cons c rest ih =>
    obtain ⟨k, v⟩ := c
    have htail := cellsAbove_tail hc
    simp only [storeCell]
    split
    · rename_i hk
      split
      · exact hc
      · rename_i hb
        have hv : (v != unlistedByte) = true := by
          simp only [cellsAbove, Bool.and_eq_true] at hc
          exact hc.1.2
        cases low with
        | none => simp [cellsAbove, hb, hk, hv, htail]
        | some l => simp [cellsAbove, hb, hk, hv, htail, hlow l rfl]
    · split
      · rename_i hk
        subst hk
        split
        · cases low with
          | none =>
            cases rest with
            | nil => rfl
            | cons c' rest' =>
              obtain ⟨k', v'⟩ := c'
              simp only [cellsAbove, Bool.and_eq_true, decide_eq_true_eq] at htail ⊢
              exact ⟨⟨trivial, htail.1.2⟩, htail.2⟩
          | some l => exact cellsAbove_weaken (Nat.le_of_lt (hlow l rfl)) htail
        · rename_i hb
          cases low with
          | none => simp [cellsAbove, hb, htail]
          | some l => simp [cellsAbove, hb, htail, hlow l rfl]
      · rename_i h1 h2
        simp only [cellsAbove, Bool.and_eq_true] at hc ⊢
        exact ⟨hc.1, ih (by intro l hl; cases hl; omega) htail⟩

@[simp] theorem Memory.byte_setByte_same {m : Memory} (h : m.wf = true) (a : Nat) (b : Byte) :
    (m.setByte a b).byte a = b := loadCell_storeCell_same m.cells a b h

theorem Memory.byte_setByte_ne (m : Memory) {a x : Nat} (b : Byte) (h : x ≠ a) : (m.setByte a b).byte x = m.byte x :=
  loadCell_storeCell_ne m.cells a x b h

theorem Memory.wf_setByte {m : Memory} (h : m.wf = true) (a : Nat) (b : Byte) : (m.setByte a b).wf = true :=
  cellsAbove_storeCell m.cells a b (by intro l hl; cases hl) h

/-! ## Several bytes -/

theorem Memory.wf_writeBytes {m : Memory} (h : m.wf = true) (a : Nat) (bs : List Byte) :
    (m.writeBytes a bs).wf = true := by
  induction bs generalizing m a with
  | nil => exact h
  | cons b bs ih => exact ih (Memory.wf_setByte h a b) (a + 1)

/-- A write leaves every byte outside its range as it was. -/
theorem Memory.byte_writeBytes_outside (m : Memory) (a : Nat) (bs : List Byte) {x : Nat}
    (h : x < a ∨ a + bs.length ≤ x) : (m.writeBytes a bs).byte x = m.byte x := by
  induction bs generalizing m a with
  | nil => rfl
  | cons b bs ih =>
    simp only [List.length_cons] at h
    rw [Memory.writeBytes, ih (m.setByte a b) (a + 1) (by omega), Memory.byte_setByte_ne m b (by omega)]

/-- A write stores its bytes. -/
theorem Memory.byte_writeBytes_inside {m : Memory} (hm : m.wf = true) (a : Nat) (bs : List Byte) {i : Nat}
    (h : i < bs.length) : (m.writeBytes a bs).byte (a + i) = bs[i] := by
  induction bs generalizing m a i with
  | nil => simp at h
  | cons b bs ih =>
    cases i with
    | zero =>
      rw [Memory.writeBytes, Memory.byte_writeBytes_outside _ (a + 1) bs (by omega)]
      simp [Memory.byte_setByte_same hm]
    | succ i =>
      have hi : i < bs.length := by simpa using h
      have := ih (Memory.wf_setByte hm a b) (a + 1) hi
      simpa [Memory.writeBytes, Nat.add_assoc, Nat.add_comm 1 i] using this

@[simp] theorem Memory.length_readBytes (m : Memory) (a n : Nat) : (m.readBytes a n).length = n := by
  induction n generalizing a with
  | zero => rfl
  | succ n ih => simp [Memory.readBytes, ih]

theorem Memory.getElem_readBytes (m : Memory) (a n i : Nat) (h : i < (m.readBytes a n).length) :
    (m.readBytes a n)[i] = m.byte (a + i) := by
  induction n generalizing a i with
  | zero => simp at h
  | succ n ih =>
    cases i with
    | zero => simp [Memory.readBytes]
    | succ i =>
      simp only [Memory.readBytes, List.getElem_cons_succ]
      rw [ih (a + 1) i (by simpa [Memory.readBytes] using h)]
      congr 1
      omega

/-- Two memories that agree on a range read the same there. -/
theorem Memory.readBytes_congr {m m' : Memory} (a n : Nat) (h : ∀ x, a ≤ x → x < a + n → m'.byte x = m.byte x) :
    m'.readBytes a n = m.readBytes a n := by
  induction n generalizing a with
  | zero => rfl
  | succ n ih =>
    simp only [Memory.readBytes]
    rw [h a (by omega) (by omega), ih (a + 1) (fun x h1 h2 => h x (by omega) (by omega))]

/-- Reading back what was written. -/
theorem Memory.readBytes_writeBytes {m : Memory} (hm : m.wf = true) (a : Nat) (bs : List Byte) :
    (m.writeBytes a bs).readBytes a bs.length = bs := by
  apply List.ext_getElem
  · simp
  · intro i h1 h2
    rw [Memory.getElem_readBytes, Memory.byte_writeBytes_inside hm a bs h2]

/-! ## Halfwords and words (R73) -/

@[simp] theorem length_bytesOf16 (v : Halfword) : (bytesOf16 v).length = 2 := rfl
@[simp] theorem length_bytesOf32 (v : Word) : (bytesOf32 v).length = 4 := rfl

theorem Memory.wf_write16 {m : Memory} (h : m.wf = true) (a : Nat) (v : Halfword) : (m.write16 a v).wf = true :=
  Memory.wf_writeBytes h a _

theorem Memory.wf_write32 {m : Memory} (h : m.wf = true) (a : Nat) (v : Word) : (m.write32 a v).wf = true :=
  Memory.wf_writeBytes h a _

theorem Memory.byte_write16_outside (m : Memory) (a : Nat) (v : Halfword) {x : Nat} (h : x < a ∨ a + 2 ≤ x) :
    (m.write16 a v).byte x = m.byte x := Memory.byte_writeBytes_outside m a _ h

theorem Memory.byte_write32_outside (m : Memory) (a : Nat) (v : Word) {x : Nat} (h : x < a ∨ a + 4 ≤ x) :
    (m.write32 a v).byte x = m.byte x := Memory.byte_writeBytes_outside m a _ h

theorem Memory.read16_write16 {m : Memory} (hm : m.wf = true) (a : Nat) (v : Halfword) :
    (m.write16 a v).read16 a = v := by
  have h0 : (m.write16 a v).byte a = _ := Memory.byte_writeBytes_inside hm a (bytesOf16 v) (i := 0) (by simp)
  have h1 : (m.write16 a v).byte (a + 1) = _ := Memory.byte_writeBytes_inside hm a (bytesOf16 v) (i := 1) (by simp)
  rw [Memory.read16, h0, h1]
  simp only [bytesOf16, List.getElem_cons_zero, List.getElem_cons_succ]
  apply BitVec.eq_of_getLsbD_eq
  intro i hi
  rw [BitVec.getLsbD_append]
  by_cases h : i < 8
  · simp [h]
  · have hs : 8 + (i - 8) = i := by omega
    have h2 : i - 8 < 8 := by omega
    simp [h, h2, hs]

theorem Memory.read32_write32 {m : Memory} (hm : m.wf = true) (a : Nat) (v : Word) :
    (m.write32 a v).read32 a = v := by
  have h0 : (m.write32 a v).byte a = _ := Memory.byte_writeBytes_inside hm a (bytesOf32 v) (i := 0) (by simp)
  have h1 : (m.write32 a v).byte (a + 1) = _ := Memory.byte_writeBytes_inside hm a (bytesOf32 v) (i := 1) (by simp)
  have h2 : (m.write32 a v).byte (a + 2) = _ := Memory.byte_writeBytes_inside hm a (bytesOf32 v) (i := 2) (by simp)
  have h3 : (m.write32 a v).byte (a + 3) = _ := Memory.byte_writeBytes_inside hm a (bytesOf32 v) (i := 3) (by simp)
  rw [Memory.read32, h0, h1, h2, h3]
  simp only [bytesOf32, List.getElem_cons_zero, List.getElem_cons_succ]
  apply BitVec.eq_of_getLsbD_eq
  intro i hi
  rw [BitVec.getLsbD_append, BitVec.getLsbD_append, BitVec.getLsbD_append]
  by_cases ha : i < 8
  · simp [ha]
  · by_cases hb : i - 8 < 8
    · have hs : 8 + (i - 8) = i := by omega
      simp [ha, hb, hs]
    · by_cases hd : i - 8 - 8 < 8
      · have hs : 16 + (i - 8 - 8) = i := by omega
        simp [ha, hb, hd, hs]
      · have hs : 24 + (i - 8 - 8 - 8) = i := by omega
        have he : i - 8 - 8 - 8 < 8 := by omega
        simp [ha, hb, hd, he, hs]

/-- Two memories that agree on two bytes read the same halfword there. -/
theorem Memory.read16_congr {m m' : Memory} (a : Nat) (h : ∀ x, a ≤ x → x < a + 2 → m'.byte x = m.byte x) :
    m'.read16 a = m.read16 a := by
  rw [Memory.read16, Memory.read16, h a (by omega) (by omega), h (a + 1) (by omega) (by omega)]

/-- Two memories that agree on four bytes read the same word there. -/
theorem Memory.read32_congr {m m' : Memory} (a : Nat) (h : ∀ x, a ≤ x → x < a + 4 → m'.byte x = m.byte x) :
    m'.read32 a = m.read32 a := by
  rw [Memory.read32, Memory.read32, h a (by omega) (by omega), h (a + 1) (by omega) (by omega),
    h (a + 2) (by omega) (by omega), h (a + 3) (by omega) (by omega)]

/-! ## Memory as an operation -/

theorem memRead_eq {a n : Nat} (h : inSpace a n = true) (s : State) :
    memRead a n s = .ok (s.mem.readBytes a n, s) := by simp [memRead, h]
theorem memRead8_eq {a : Nat} (h : inSpace a 1 = true) (s : State) : memRead8 a s = .ok (s.mem.byte a, s) := by
  simp [memRead8, h]
theorem memRead16_eq {a : Nat} (h : inSpace a 2 = true) (s : State) : memRead16 a s = .ok (s.mem.read16 a, s) := by
  simp [memRead16, h]
theorem memRead32_eq {a : Nat} (h : inSpace a 4 = true) (s : State) : memRead32 a s = .ok (s.mem.read32 a, s) := by
  simp [memRead32, h]
theorem memWrite_eq {a : Nat} {bs : List Byte} (h : inSpace a bs.length = true) (s : State) :
    memWrite a bs s = .ok ((), s.mapMem (fun m => m.writeBytes a bs)) := by simp [memWrite, h]
theorem memWrite8_eq {a : Nat} {v : Byte} (h : inSpace a 1 = true) (s : State) :
    memWrite8 a v s = .ok ((), s.mapMem (fun m => m.setByte a v)) := by simp [memWrite8, h]
theorem memWrite16_eq {a : Nat} {v : Halfword} (h : inSpace a 2 = true) (s : State) :
    memWrite16 a v s = .ok ((), s.mapMem (fun m => m.write16 a v)) := by simp [memWrite16, h]
theorem memWrite32_eq {a : Nat} {v : Word} (h : inSpace a 4 = true) (s : State) :
    memWrite32 a v s = .ok ((), s.mapMem (fun m => m.write32 a v)) := by simp [memWrite32, h]

/-- A read that answers changes nothing. -/
theorem memRead_ok {a n : Nat} {s t : State} {bs : List Byte} (h : memRead a n s = .ok (bs, t)) :
    t = s ∧ bs = s.mem.readBytes a n := by
  simp only [memRead, Op.ite_apply] at h
  split at h
  · simp only [read_apply, Except.ok.injEq, Prod.mk.injEq] at h
    exact ⟨h.2.symm, h.1.symm⟩
  · simp at h

/-- A write that answers changes memory only. -/
theorem memWrite_ok {a : Nat} {bs : List Byte} {s t : State} (h : memWrite a bs s = .ok ((), t)) :
    t = s.mapMem (fun m => m.writeBytes a bs) := by
  simp only [memWrite, Op.ite_apply] at h
  split at h
  · simpa using h.symm
  · simp at h

/-- Every memory operation keeps the canonical form. -/
theorem memory_operations_keep_wf :
    (∀ a n, Keeps (fun s => s.mem.wf = true) (memRead a n)) ∧
    (∀ a, Keeps (fun s => s.mem.wf = true) (memRead8 a)) ∧
    (∀ a, Keeps (fun s => s.mem.wf = true) (memRead16 a)) ∧
    (∀ a, Keeps (fun s => s.mem.wf = true) (memRead32 a)) ∧
    (∀ a bs, Keeps (fun s => s.mem.wf = true) (memWrite a bs)) ∧
    (∀ a v, Keeps (fun s => s.mem.wf = true) (memWrite8 a v)) ∧
    (∀ a v, Keeps (fun s => s.mem.wf = true) (memWrite16 a v)) ∧
    (∀ a v, Keeps (fun s => s.mem.wf = true) (memWrite32 a v)) :=
  ⟨fun _ _ => Keeps.ite (Keeps.read _) (Keeps.fault _),
   fun _ => Keeps.ite (Keeps.read _) (Keeps.fault _),
   fun _ => Keeps.ite (Keeps.read _) (Keeps.fault _),
   fun _ => Keeps.ite (Keeps.read _) (Keeps.fault _),
   fun a bs => Keeps.ite (Keeps.update (fun _ hs => Memory.wf_writeBytes hs a bs)) (Keeps.fault _),
   fun a v => Keeps.ite (Keeps.update (fun _ hs => Memory.wf_setByte hs a v)) (Keeps.fault _),
   fun a v => Keeps.ite (Keeps.update (fun _ hs => Memory.wf_write16 hs a v)) (Keeps.fault _),
   fun a v => Keeps.ite (Keeps.update (fun _ hs => Memory.wf_write32 hs a v)) (Keeps.fault _)⟩

/-- Memory after power-on has the canonical form. -/
theorem reset_mem_wf : State.reset.mem.wf = true := rfl

end Sys2Proof.Machine
end

