-- ==== Sys2Proof/Laws/Ops.lean ====
section
/-!
SUPPORT. What each shared operation of Machine/Ops.lean, Flags.lean, Operands.lean and Units.lean does, said once: an
equation where it is total, else what follows from an answer.
-/
namespace Sys2Proof.Machine

/-! ## Locks and events -/

theorem lock_ok {l : Lock} {s t : State} :
    lock l s = .ok ((), t) ↔ s.locks.mine.mayTake l = true ∧ s.locks.others.has l = false ∧
      t = s.mapLocks (fun x => x.put l true) := by
  simp only [lock, Op.bind_apply, read_apply, Op.ite_apply, update_apply, fault_apply, blocked_apply]
  by_cases h : s.locks.mine.mayTake l = true
  · by_cases h2 : s.locks.others.has l = true
    · simp [h, h2]
    · simp [h, h2, eq_comm]
  · simp [h]

theorem lock_eq {l : Lock} {s : State} (h : s.locks.mine.mayTake l = true) (ho : s.locks.others.has l = false) :
    lock l s = .ok ((), s.mapLocks (fun x => x.put l true)) := lock_ok.2 ⟨h, ho, rfl⟩

@[simp] theorem unlock_apply (l : Lock) (s : State) : unlock l s = .ok ((), s.mapLocks (fun ls => ls.put l false)) := rfl

@[simp] theorem record_apply (e : Event) (s : State) : record e s = .ok ((), s.mapEvents (fun es => es ++ [e])) := rfl

theorem emit_ok {e : Event} {s t : State} :
    emit e s = .ok ((), t) ↔ s.locks.mine = Held.none ∧ t = s.mapEvents (fun es => es ++ [e]) := by
  simp only [emit, Op.bind_apply, read_apply, Op.ite_apply, record_apply, fault_apply]
  by_cases h : s.locks.mine = Held.none
  · simp [h, eq_comm]
  · simp [h]

theorem emit_eq {e : Event} {s : State} (h : s.locks.mine = Held.none) :
    emit e s = .ok ((), s.mapEvents (fun es => es ++ [e])) := emit_ok.2 ⟨h, rfl⟩

/-- Callbacks with nothing scheduled inside: the events, in order. -/
theorem callbacks_eq {hd : Handler} (es : List Event) {s : State} (hl : s.locks.mine = Held.none)
    (hr : s.ports.interleaved = []) : callbacks hd es s = .ok ((), s.mapEvents (fun xs => xs ++ es)) := by
  induction es generalizing s with
  | nil => simp [callbacks]
  | cons e es ih =>
    have hg : point hd (s.mapEvents (fun xs => xs ++ [e])) = .ok ((), s.mapEvents (fun xs => xs ++ [e])) :=
      point_nil (by simpa using hr)
    simp only [callbacks, callback, Op.bind_apply, point_nil hr, emit_eq hl, hg]
    rw [ih (by simpa using hl) (by simpa using hr)]
    simp [List.append_assoc]

/-! ## Errors, the reference count -/

/-- What a handoff can do: made and true, or, under the sticky error, not made and false. -/
theorem handOver_apply (w : Op Unit) (s : State) : handOver w s =
    if s.dev.hardwareError then .ok (false, s) else match w s with
      | .ok (_, t) => .ok (true, t)
      | .error e => .error e := by
  simp only [handOver, Op.bind_apply, read_apply, Op.ite_apply, Op.pure_apply]
  cases w s <;> rfl

@[simp] theorem errorEntry_apply (s : State) :
    errorEntry s = .ok ((), s.mapDev (fun d => { d with hardwareError := true })) := rfl
@[simp] theorem errorReturn_apply (s : State) :
    errorReturn s = .ok ((), s.mapDev (fun d => { d with hardwareError := false })) := rfl
@[simp] theorem retain_apply (s : State) :
    retain s = .ok ((), s.mapDev (fun d => { d with refCount := d.refCount + 1 })) := rfl
@[simp] theorem release_apply (s : State) :
    release s = .ok ((), s.mapDev (fun d => { d with refCount := d.refCount - 1 })) := by
  have h : ∀ d : Device, (if 0 < d.refCount then { d with refCount := d.refCount - 1 } else d) =
      { d with refCount := d.refCount - 1 } := by
    rintro ⟨_, _, _, _, _, _, _, _, n, _⟩
    cases n <;> rfl
  simp only [release, updateDev_apply, h]

theorem assert_ok {c : Bool} {s t : State} : assert c s = .ok ((), t) ↔ c = true ∧ t = s := by
  cases c <;> simp [assert, eq_comm]

/-! ## Allocation -/

theorem addRegion_ok {r : Region} {s t : State} :
    addRegion r s = .ok ((), t) ↔ regionAllowed s.ports.liveRegions r = true ∧
      t = s.mapPorts (fun p => { p with liveRegions := p.liveRegions ++ [r] }) := by
  simp only [addRegion, Op.bind_apply, read_apply, Op.ite_apply, updatePorts_apply, fault_apply]
  by_cases h : regionAllowed s.ports.liveRegions r = true
  · simp [h, eq_comm]
  · simp [h]

theorem requireAligned_ok {a : Nat} {s t : State} :
    requireAligned a s = .ok ((), t) ↔ Config.aligned s.cfg a = true ∧ t = s := by
  simp only [requireAligned, Op.bind_apply, read_apply, Op.ite_apply, Op.pure_apply, fault_apply]
  by_cases h : Config.aligned s.cfg a = true
  · simp [h, eq_comm]
  · simp [h]

@[simp] theorem freeRegion_apply (base : Nat) (s : State) : freeRegion base s = .ok ((), s.mapPorts (fun p =>
    { p with liveRegions := p.liveRegions.filter (fun r => r.base != base) })) := rfl

/-- The three answers of the shared-memory allocator. -/
theorem allocShared_ok {size : Nat} {r : Option Nat} {s t : State} (h : allocShared size s = .ok (r, t)) :
    (s.ports.sharedReplies = [] ∧ r = none ∧ t = s) ∨
    (∃ rest, s.ports.sharedReplies = none :: rest ∧ r = none ∧
      t = s.mapPorts (fun p => { p with sharedReplies := rest })) ∨
    (∃ base rest, s.ports.sharedReplies = some base :: rest ∧ r = some base ∧
      regionAllowed s.ports.liveRegions ⟨base, size⟩ = true ∧
      t = s.mapPorts (fun p =>
        { p with sharedReplies := rest, liveRegions := p.liveRegions ++ [⟨base, size⟩] })) := by
  rcases hr : s.ports.sharedReplies with _ | ⟨_ | base, rest⟩
  · simp only [allocShared, Op.bind_apply, read_apply, hr, Op.pure_apply, Except.ok.injEq, Prod.mk.injEq] at h
    exact .inl ⟨rfl, h.1.symm, h.2.symm⟩
  · simp only [allocShared, Op.bind_apply, read_apply, hr, updatePorts_apply, Op.pure_apply, Except.ok.injEq,
      Prod.mk.injEq] at h
    exact .inr (.inl ⟨rest, rfl, h.1.symm, h.2.symm⟩)
  · simp only [allocShared, Op.bind_apply, read_apply, hr, updatePorts_apply] at h
    cases ha : addRegion ⟨base, size⟩ (s.mapPorts (fun p => { p with sharedReplies := rest })) with
    | error e => simp [ha] at h
    | ok q =>
      obtain ⟨b, v⟩ := q
      simp only [ha, Op.pure_apply, Except.ok.injEq, Prod.mk.injEq] at h
      obtain ⟨h5, h6⟩ := addRegion_ok.1 ha
      refine .inr (.inr ⟨base, rest, rfl, h.1.symm, by simpa using h5, ?_⟩)
      rw [← h.2, h6]
      simp

/-- The three answers of the lookaside allocator. -/
theorem allocShadow_ok {b : Bool} {s t : State} (h : allocShadow s = .ok (b, t)) :
    (s.ports.lookasideReplies = [] ∧ b = false ∧ t = s) ∨
    (∃ rest, s.ports.lookasideReplies = b :: rest ∧
      t = s.mapPorts (fun p => { p with lookasideReplies := rest })) := by
  rcases hr : s.ports.lookasideReplies with _ | ⟨ok, rest⟩
  · simp only [allocShadow, Op.bind_apply, read_apply, hr, Op.pure_apply, Except.ok.injEq, Prod.mk.injEq] at h
    exact .inl ⟨rfl, h.1.symm, h.2.symm⟩
  · simp only [allocShadow, Op.bind_apply, read_apply, hr, updatePorts_apply, Op.pure_apply, Except.ok.injEq,
      Prod.mk.injEq] at h
    exact .inr ⟨rest, by rw [h.1], h.2.symm⟩

/-! ## The maps of shadow records -/

@[simp] theorem RxRing.shadow?_congr {r r' : RxRing} (h : r'.shadows = r.shadows) (d : Nat) :
    r'.shadow? d = r.shadow? d := by simp [RxRing.shadow?, h]

theorem shadows_find_map_same (d : Nat) (f : RxShadow → RxShadow) (l : List (Nat × RxShadow)) :
    ((l.map (fun e => if e.1 = d then (e.1, f e.2) else e)).find? (fun e => e.1 == d)).map (·.2) =
      ((l.find? (fun e => e.1 == d)).map (·.2)).map f := by
  induction l with
  | nil => rfl
  | cons e l ih =>
    by_cases h : e.1 = d
    · simp [h]
    · simp only [List.map_cons, if_neg h, List.find?_cons]
      rw [show (e.1 == d) = false by simpa using h]
      exact ih

theorem shadows_find_map_ne {d x : Nat} (hx : x ≠ d) (f : RxShadow → RxShadow) (l : List (Nat × RxShadow)) :
    ((l.map (fun e => if e.1 = d then (e.1, f e.2) else e)).find? (fun e => e.1 == x)).map (·.2) =
      (l.find? (fun e => e.1 == x)).map (·.2) := by
  induction l with
  | nil => rfl
  | cons e l ih =>
    by_cases h : e.1 = d
    · have hne : ¬ e.1 = x := fun h' => hx (h'.symm.trans h)
      simp only [List.map_cons, if_pos h, List.find?_cons]
      rw [show (e.1 == x) = false by simpa using hne]
      exact ih
    · by_cases h' : e.1 = x
      · simp [h', hx]
      · simp only [List.map_cons, if_neg h, List.find?_cons]
        rw [show (e.1 == x) = false by simpa using h']
        exact ih

theorem RxRing.shadow?_mapShadow_same (r : RxRing) (d : Nat) (f : RxShadow → RxShadow) :
    (r.mapShadow d f).shadow? d = (r.shadow? d).map f := shadows_find_map_same d f r.shadows

theorem RxRing.shadow?_mapShadow_ne (r : RxRing) {d x : Nat} (f : RxShadow → RxShadow) (h : x ≠ d) :
    (r.mapShadow d f).shadow? x = r.shadow? x := shadows_find_map_ne h f r.shadows

theorem putShadow_find_same (d : Nat) (x : RxShadow) (l : List (Nat × RxShadow)) :
    ((putShadow d x l).find? (fun e => e.1 == d)).map (·.2) = some x := by
  induction l with
  | nil => simp [putShadow]
  | cons e l ih =>
    obtain ⟨k, y⟩ := e
    simp only [putShadow]
    split
    · simp
    · split
      · simp
      · rename_i h
        have hk : ¬ k = d := fun h' => h h'.symm
        simp only [List.find?_cons]
        rw [show (k == d) = false by simpa using hk]
        exact ih

/-! ## Registers -/

@[simp] theorem regRead_status (s : State) : regRead .status s = .ok (s.regs.status, s) := rfl
@[simp] theorem regRead_command (s : State) : regRead .command s = .ok (s.regs.command, s) := rfl
@[simp] theorem regRead_pointer (s : State) : regRead .pointer s = .ok (s.regs.pointer, s) := rfl
@[simp] theorem regRead_intmask (s : State) : regRead .intmask s = .ok (s.regs.intmask, s) := rfl
@[simp] theorem regRead_port (s : State) : regRead .port s = .ok (0, s) := rfl
@[simp] theorem regRead_phystat (a : PhyAddress) (s : State) : regRead (.phystat a) s = .ok (s.regs.phystat[a], s) := rfl

@[simp] theorem regWrite_status (v : Word) (s : State) : regWrite .status v s =
    .ok ((), s.mapRegs (fun g => { g with status := g.status &&& ~~~(v &&& causeMask) })) := rfl
@[simp] theorem regWrite_pointer (v : Word) (s : State) : regWrite .pointer v s =
    .ok ((), s.mapRegs (fun g => { g with pointer := v })) := rfl
@[simp] theorem regWrite_intmask (v : Word) (s : State) : regWrite .intmask v s =
    .ok ((), s.mapRegs (fun g => { g with intmask := v &&& 1 })) := rfl
@[simp] theorem regWrite_phystat (a : PhyAddress) (v : Word) (s : State) :
    regWrite (.phystat a) v s = .ok ((), s) := rfl
@[simp] theorem regWrite_command (v : Word) (s : State) : regWrite .command v s = writeCommand v s := rfl
@[simp] theorem regWrite_port (v : Word) (s : State) : regWrite .port v s = writePort v s := rfl

/-- A command write that answers: a legal code or 0, no overrun, and the code stored. -/
theorem writeCommand_ok {v : Word} {s t : State} :
    writeCommand v s = .ok ((), t) ↔
      (legalCode (commandCode v) = true ∨ commandCode v = 0) ∧
      overruns (commandCode s.regs.command) (commandCode v) = false ∧
      t = s.mapRegs (fun r => { r with command := v &&& 0xFF }) := by
  simp only [writeCommand, Op.bind_apply, regRead_command, Op.ite_apply, fault_apply, updateRegs_apply]
  generalize commandCode v = c
  cases h1 : (legalCode c || c == 0) with
  | false =>
    have h : ¬ (legalCode c = true ∨ c = 0) := by simpa using h1
    rw [if_pos (by rfl)]
    exact ⟨fun h' => (by cases h'), fun h' => absurd h'.1 h⟩
  | true =>
    have h : legalCode c = true ∨ c = 0 := by simpa using h1
    rw [if_neg (by decide)]
    cases h2 : overruns (commandCode s.regs.command) c with
    | true => simp
    | false =>
      constructor
      · intro h'
        simp only [Bool.false_eq_true, if_false, Except.ok.injEq, Prod.mk.injEq, true_and] at h'
        exact ⟨h, rfl, h'.symm⟩
      · rintro ⟨_, _, h'⟩
        simp [h']

@[simp] theorem selectiveReset_apply (s : State) : selectiveReset s =
    .ok ((), (s.mapRegs (fun r =>
        { r with status := withRus unitIdle (withCus unitIdle r.status), command := 0 })).mapUnits
      (fun u => { u with ruPhase := .none })) := rfl

@[simp] theorem fullReset_apply (s : State) : fullReset s =
    .ok ((), (s.mapRegs (fun r =>
        { r with status := withRus unitIdle (withCus unitIdle r.status) &&& ~~~causeMask, command := 0, pointer := 0,
                 intmask := r.intmask ||| 1 })).mapUnits
      (fun _ => { cuCursor := 0, ruCursor := none, ruPhase := .none })) := rfl

@[simp] theorem writePort_one (s : State) : writePort 1 s = selectiveReset s := rfl
@[simp] theorem writePort_two (s : State) : writePort 2 s = fullReset s := rfl

/-- The register map reads back: the register at a register's offset is that register. -/
theorem registerAt_offset (r : Register) : registerAt r.offset = some r := by
  cases r with
  | phystat a =>
    have ha := a.isLt
    show registerAt (0x80 + 4 * a.val) = _
    unfold registerAt
    rw [if_neg (by omega), if_neg (by omega), if_neg (by omega), if_neg (by omega), if_neg (by omega),
      dif_pos (by omega)]
    simp only [Option.some.injEq, Register.phystat.injEq]
    ext
    simp
  | status => rfl
  | command => rfl
  | pointer => rfl
  | intmask => rfl
  | port => rfl

/-! ## Descriptor fields, where they lie in the address space -/

theorem rdAddrOf_eq {d a : Nat} {s : State} (h : s.rdAddr? d = some a) : rdAddrOf d s = .ok (a, s) := by
  simp [rdAddrOf, h]

theorem inSpace_sub {a n b k : Nat} (h : inSpace a n = true) (hk : b + k ≤ a + n) : inSpace b k = true := by
  simp only [inSpace, decide_eq_true_eq] at h ⊢
  omega

theorem readTdC_eq {i : Nat} {s : State} (h : inSpace (s.tdAddr i) 12 = true) : readTdC i s = .ok (s.tdC i, s) := by
  simp [readTdC, State.tdC, memRead16_eq (inSpace_sub h (b := s.tdAddr i) (k := 2) (by omega))]

theorem readTdS_eq {i : Nat} {s : State} (h : inSpace (s.tdAddr i) 12 = true) : readTdS i s = .ok (s.tdS i, s) := by
  simp [readTdS, State.tdS, memRead16_eq (inSpace_sub h (b := s.tdAddr i + 2) (k := 2) (by omega))]

theorem readTdLink_eq {i : Nat} {s : State} (h : inSpace (s.tdAddr i) 12 = true) :
    readTdLink i s = .ok (s.tdLink i, s) := by
  simp [readTdLink, State.tdLink, memRead32_eq (inSpace_sub h (b := s.tdAddr i + 4) (k := 4) (by omega))]

theorem readTdFragCount_eq {i : Nat} {s : State} (h : inSpace (s.tdAddr i) 12 = true) :
    readTdFragCount i s = .ok (s.tdFragCount i, s) := by
  simp [readTdFragCount, State.tdFragCount, memRead8_eq (inSpace_sub h (b := s.tdAddr i + 8) (k := 1) (by omega))]

theorem writeTdC_eq {i : Nat} {c : Bool} {s : State} (h : inSpace (s.tdAddr i) 12 = true) :
    writeTdC i c s = .ok ((), s.mapMem (fun m => m.write16 (s.tdAddr i) (tdStatusWord c))) := by
  simp [writeTdC, memWrite16_eq (inSpace_sub h (b := s.tdAddr i) (k := 2) (by omega))]

theorem writeTdS_eq {i : Nat} {b : Bool} {s : State} (h : inSpace (s.tdAddr i) 12 = true) :
    writeTdS i b s = .ok ((), s.mapMem (fun m => m.write16 (s.tdAddr i + 2) (tdCommandWord b))) := by
  simp [writeTdS, memWrite16_eq (inSpace_sub h (b := s.tdAddr i + 2) (k := 2) (by omega))]

theorem writeTdLink_eq {i : Nat} {v : Word} {s : State} (h : inSpace (s.tdAddr i) 12 = true) :
    writeTdLink i v s = .ok ((), s.mapMem (fun m => m.write32 (s.tdAddr i + 4) v)) := by
  simp [writeTdLink, memWrite32_eq (inSpace_sub h (b := s.tdAddr i + 4) (k := 4) (by omega))]

theorem writeTdFragCount_eq {i : Nat} {n : Byte} {s : State} (h : inSpace (s.tdAddr i) 12 = true) :
    writeTdFragCount i n s = .ok ((), s.mapMem (fun m => m.setByte (s.tdAddr i + 8) n)) := by
  simp [writeTdFragCount, memWrite8_eq (inSpace_sub h (b := s.tdAddr i + 8) (k := 1) (by omega))]

section ReceiveFields
variable {d a : Nat} {s : State} (ha : s.rdAddr? d = some a) (h : inSpace a 16 = true)
include ha h

theorem readRdC_eq : readRdC d s = .ok (s.mem.rdC a, s) := by
  simp [readRdC, Memory.rdC, rdAddrOf_eq ha, memRead16_eq (inSpace_sub h (b := a) (k := 2) (by omega))]

theorem readRdOK_eq : readRdOK d s = .ok (s.mem.rdOK a, s) := by
  simp [readRdOK, Memory.rdOK, rdAddrOf_eq ha, memRead16_eq (inSpace_sub h (b := a) (k := 2) (by omega))]

theorem readRdEL_eq : readRdEL d s = .ok (s.mem.rdEL a, s) := by
  simp [readRdEL, Memory.rdEL, rdAddrOf_eq ha, memRead16_eq (inSpace_sub h (b := a + 2) (k := 2) (by omega))]

theorem readRdLink_eq : readRdLink d s = .ok (s.mem.rdLink a, s) := by
  simp [readRdLink, Memory.rdLink, rdAddrOf_eq ha, memRead32_eq (inSpace_sub h (b := a + 4) (k := 4) (by omega))]

theorem readRdPayloadPtr_eq : readRdPayloadPtr d s = .ok (s.mem.rdPayloadPtr a, s) := by
  simp [readRdPayloadPtr, Memory.rdPayloadPtr, rdAddrOf_eq ha,
    memRead32_eq (inSpace_sub h (b := a + 8) (k := 4) (by omega))]

theorem readRdCount_eq : readRdCount d s = .ok (s.mem.rdCount a, s) := by
  simp [readRdCount, Memory.rdCount, rdAddrOf_eq ha, memRead16_eq (inSpace_sub h (b := a + 12) (k := 2) (by omega))]

theorem readRdV_eq : readRdV d s = .ok (s.mem.rdV a, s) := by
  simp [readRdV, Memory.rdV, rdAddrOf_eq ha, memRead16_eq (inSpace_sub h (b := a + 12) (k := 2) (by omega))]

theorem readRdCapacity_eq : readRdCapacity d s = .ok (s.mem.rdCapacity a, s) := by
  simp [readRdCapacity, Memory.rdCapacity, rdAddrOf_eq ha,
    memRead16_eq (inSpace_sub h (b := a + 14) (k := 2) (by omega))]

theorem writeRdStatus_eq (c o : Bool) :
    writeRdStatus d c o s = .ok ((), s.mapMem (fun m => m.write16 a (rdStatusWord c o))) := by
  simp [writeRdStatus, rdAddrOf_eq ha, memWrite16_eq (inSpace_sub h (b := a) (k := 2) (by omega))]

theorem writeRdEL_eq (e : Bool) :
    writeRdEL d e s = .ok ((), s.mapMem (fun m => m.write16 (a + 2) (rdCommandWord e))) := by
  simp [writeRdEL, rdAddrOf_eq ha, memWrite16_eq (inSpace_sub h (b := a + 2) (k := 2) (by omega))]

theorem writeRdLink_eq (v : Word) :
    writeRdLink d v s = .ok ((), s.mapMem (fun m => m.write32 (a + 4) v)) := by
  simp [writeRdLink, rdAddrOf_eq ha, memWrite32_eq (inSpace_sub h (b := a + 4) (k := 4) (by omega))]

theorem writeRdCount_eq (n : Nat) (v : Bool) :
    writeRdCount d n v s = .ok ((), s.mapMem (fun m => m.write16 (a + 12) (rdCountWord n v))) := by
  simp [writeRdCount, rdAddrOf_eq ha, memWrite16_eq (inSpace_sub h (b := a + 12) (k := 2) (by omega))]

end ReceiveFields

/-! ## Addresses given to the device (R74) -/

theorem State.slotGiven?_eq_some {s : State} {a i : Nat} :
    s.slotGiven? a = some i ↔ Config.aligned s.cfg a = true ∧ s.slotAt? a = some i := by
  unfold State.slotGiven?
  by_cases h : Config.aligned s.cfg a = true <;> simp [h]

theorem State.rdGiven?_eq_some {s : State} {a d : Nat} :
    s.rdGiven? a = some d ↔ Config.aligned s.cfg a = true ∧ s.rdAt? a = some d := by
  unfold State.rdGiven?
  by_cases h : Config.aligned s.cfg a = true <;> simp [h]

theorem State.postedGiven?_eq_some {s : State} {a d : Nat} :
    s.postedGiven? a = some d ↔ Config.aligned s.cfg a = true ∧ s.postedAt? a = some d := by
  unfold State.postedGiven?
  by_cases h : Config.aligned s.cfg a = true <;> simp [h]

/-! ## Accepting a command: what an answer says -/

theorem acceptCuStart_ok {s t : State} (h : acceptCuStart s = .ok ((), t)) :
    ∃ i, s.slotGiven? s.regs.pointer.toNat = some i ∧
      t = (s.mapUnits (fun u => { u with cuCursor := i })).mapRegs (fun r =>
        { r with status := withCus unitActive r.status, command := 0 }) := by
  simp only [acceptCuStart, Op.bind_apply, read_apply] at h
  cases hi : s.slotGiven? s.regs.pointer.toNat with
  | none => simp [hi] at h
  | some i =>
    simp only [hi, Op.bind_apply, updateUnits_apply, updateRegs_apply, clearCommand, Except.ok.injEq, Prod.mk.injEq,
      true_and] at h
    exact ⟨i, rfl, by rw [← h]; rfl⟩

theorem acceptRuStart_ok {s t : State} (h : acceptRuStart s = .ok ((), t)) :
    ∃ d, s.rdGiven? s.regs.pointer.toNat = some d ∧
      t = (s.mapUnits (fun u => { u with ruCursor := some d, ruPhase := .none })).mapRegs (fun r =>
        { r with status := withRus unitActive r.status, command := 0 }) := by
  simp only [acceptRuStart, Op.bind_apply, read_apply] at h
  cases hi : s.rdGiven? s.regs.pointer.toNat with
  | none => simp [hi] at h
  | some i =>
    simp only [hi, Op.bind_apply, updateUnits_apply, updateRegs_apply, clearCommand, Except.ok.injEq, Prod.mk.injEq,
      true_and] at h
    exact ⟨i, rfl, by rw [← h]; rfl⟩

/-! ## Waiting for acceptance -/

/-- With the command register clear, the first poll succeeds and changes nothing. -/
theorem waitAcceptLocked_clear {hd : Handler} {n : Nat} {s : State} (hi : s.ports.interleaved = [])
    (hc : commandCode s.regs.command = 0) : waitAcceptLocked hd (n + 1) s = .ok (true, s) := by
  simp [waitAcceptLocked, host_nil hi, hc]

/-- With a command pending and nothing scheduled inside, every poll of the budget fails and the flag is set. -/
theorem waitAcceptLocked_stuck {hd : Handler} (n : Nat) {s : State} (hi : s.ports.interleaved = [])
    (hc : commandCode s.regs.command ≠ 0) :
    waitAcceptLocked hd n s = .ok (false, s.mapDev (fun d => { d with hardwareError := true })) := by
  have hc' : ¬ commandCode s.regs.command = 0#8 := hc
  induction n with
  | zero => simp [waitAcceptLocked, host_nil hi]
  | succ n ih =>
    by_cases hn : n = 0
    · simp [waitAcceptLocked, host_nil hi, hc', hn]
    · simp [waitAcceptLocked, host_nil hi, hc', hn, point_nil hi, ih]

end Sys2Proof.Machine
end

