-- ==== Sys2Proof/Laws/PerInstr.lean ====
section
/-!
SUPPORT. Statements made per instruction, one lemma per constructor of `Instr`.
-/
namespace Sys2Proof.Laws.ZeroField

/-- "`zero` | reserved, must be 0": bits 47:32 of the word of a request are 0 (spec/30_encoding.md R101). -/
def Statement (i : Instr) : Prop := ∀ w, encode i = .request w → requestZero w = 0

theorem start : Statement (.start) := by
  intro w h; cases h; exact requestZero_requestOf _ _ _

theorem teardown : Statement (.teardown) := by
  intro w h; cases h; exact requestZero_requestOf _ _ _

theorem reset : Statement (.reset) := by
  intro w h; cases h; exact requestZero_requestOf _ _ _

theorem healthCheck : Statement (.healthCheck) := by
  intro w h; cases h; exact requestZero_requestOf _ _ _

theorem interrupt : Statement (.interrupt) := by
  intro w h; cases h; exact requestZero_requestOf _ _ _

theorem intEnable : Statement (.intEnable) := by
  intro w h; cases h; exact requestZero_requestOf _ _ _

theorem intDisable : Statement (.intDisable) := by
  intro w h; cases h; exact requestZero_requestOf _ _ _

theorem setPower (target : PowerState) : Statement (.setPower target) := by
  cases target <;> (intro w h; cases h; exact requestZero_requestOf _ _ _)

theorem submit (handle : Word) : Statement (.submit handle) := by
  intro w h; cases h; exact requestZero_requestOf _ _ _

theorem reclaim : Statement (.reclaim) := by
  intro w h; cases h; exact requestZero_requestOf _ _ _

theorem cancel (tag : Word) : Statement (.cancel tag) := by
  intro w h; cases h; exact requestZero_requestOf _ _ _

theorem drain : Statement (.drain) := by
  intro w h; cases h; exact requestZero_requestOf _ _ _

theorem harvest : Statement (.harvest) := by
  intro w h; cases h; exact requestZero_requestOf _ _ _

theorem recycle (d : Word) : Statement (.recycle d) := by
  intro w h; cases h; exact requestZero_requestOf _ _ _

theorem ensureStarted : Statement (.ensureStarted) := by
  intro w h; cases h; exact requestZero_requestOf _ _ _

theorem grow : Statement (.grow) := by
  intro w h; cases h; exact requestZero_requestOf _ _ _

theorem growComplete (success : Bool) (allocBase : Word) : Statement (.growComplete success allocBase) := by
  cases success <;> (intro w h; cases h; exact requestZero_requestOf _ _ _)

theorem rxReturn (d : Word) : Statement (.rxReturn d) := by
  intro w h; cases h; exact requestZero_requestOf _ _ _

theorem shrink (d : Word) : Statement (.shrink d) := by
  intro w h; cases h; exact requestZero_requestOf _ _ _

theorem issueCommand (wait : Bool) (code : BitVec 7) (pointer : Word) : Statement (.issueCommand wait code pointer) := by
  intro w h; cases h; exact requestZero_requestOf _ _ _

theorem waitAccept (budget : Word) : Statement (.waitAccept budget) := by
  intro w h; cases h; exact requestZero_requestOf _ _ _

theorem linkStart : Statement (.linkStart) := by
  intro w h; cases h; exact requestZero_requestOf _ _ _

theorem linkTick : Statement (.linkTick) := by
  intro w h; cases h; exact requestZero_requestOf _ _ _

theorem getLinkSpeed (q : Word) : Statement (.getLinkSpeed q) := by
  intro w h; cases h; exact requestZero_requestOf _ _ _

theorem getMediaState (q : Word) : Statement (.getMediaState q) := by
  intro w h; cases h; exact requestZero_requestOf _ _ _

theorem setFilter (mask : Word) : Statement (.setFilter mask) := by
  intro w h; cases h; exact requestZero_requestOf _ _ _

theorem setMcast (l : Word) : Statement (.setMcast l) := by
  intro w h; cases h; exact requestZero_requestOf _ _ _

theorem cuStart : Statement (.cuStart) := by
  intro w h; cases h

theorem cuResume : Statement (.cuResume) := by
  intro w h; cases h

theorem ruStart : Statement (.ruStart) := by
  intro w h; cases h

theorem selectiveReset : Statement (.selectiveReset) := by
  intro w h; cases h

theorem fullReset : Statement (.fullReset) := by
  intro w h; cases h

end Sys2Proof.Laws.ZeroField
end

