-- ==== Sys2Proof/Laws/Rings.lean ====
section
/-!
SUPPORT. What the shared operations of the rings, of the coordinator and of the link machine do when no other agent steps
inside them: one equation each.
-/
namespace Sys2Proof.Machine

/-! ## Addresses depend on the ring and the configuration only -/

@[simp] theorem State.tdAddr_mapMem (s : State) (f : Memory → Memory) (i : Nat) :
    (s.mapMem f).tdAddr i = s.tdAddr i := rfl
@[simp] theorem State.tdAddr_mapRegs (s : State) (f : Registers → Registers) (i : Nat) :
    (s.mapRegs f).tdAddr i = s.tdAddr i := rfl
@[simp] theorem State.tdAddr_mapLocks (s : State) (f : Locks → Locks) (i : Nat) :
    (s.mapLocks f).tdAddr i = s.tdAddr i := rfl
@[simp] theorem State.tdAddr_mapDev (s : State) (f : Device → Device) (i : Nat) :
    (s.mapDev f).tdAddr i = s.tdAddr i := rfl
@[simp] theorem State.tdAddr_mapPorts (s : State) (f : Ports → Ports) (i : Nat) :
    (s.mapPorts f).tdAddr i = s.tdAddr i := rfl
@[simp] theorem State.rdAddr?_mapMem (s : State) (f : Memory → Memory) (d : Nat) :
    (s.mapMem f).rdAddr? d = s.rdAddr? d := rfl
@[simp] theorem State.rdAddr?_mapRegs (s : State) (f : Registers → Registers) (d : Nat) :
    (s.mapRegs f).rdAddr? d = s.rdAddr? d := rfl
@[simp] theorem State.rdAddr?_mapLocks (s : State) (f : Locks → Locks) (d : Nat) :
    (s.mapLocks f).rdAddr? d = s.rdAddr? d := rfl
@[simp] theorem State.rdAddr?_mapDev (s : State) (f : Device → Device) (d : Nat) :
    (s.mapDev f).rdAddr? d = s.rdAddr? d := rfl
@[simp] theorem State.rdAddr?_mapPorts (s : State) (f : Ports → Ports) (d : Nat) :
    (s.mapPorts f).rdAddr? d = s.rdAddr? d := rfl

/-! ## Upward events that wait in the ports -/

/-- What `callbacksDue` needs to know of a queue: `g` reads it off the ports, `next` takes its head and nothing else. -/
structure DrainsQueue {α : Type} (next : Ports → Option (Event × Ports)) (g : Ports → List α) : Prop where
  empty : ∀ p, next p = none → g p = []
  shorter : ∀ p e q, next p = some (e, q) → (g q).length + 1 = (g p).length
  schedule : ∀ p x, g { p with schedule := x } = g p
  interleaved : ∀ p x, g { p with interleaved := x } = g p

theorem nextCompletion_drains : DrainsQueue Ports.nextCompletion (fun p => p.completions) where
  empty p h := by unfold Ports.nextCompletion at h; split at h <;> simp_all
  shorter p e q h := by
    unfold Ports.nextCompletion at h
    split at h
    · cases h
    · cases h; simp_all
  schedule _ _ := rfl
  interleaved _ _ := rfl

theorem nextIndication_drains : DrainsQueue Ports.nextIndication (fun p => p.indications) where
  empty p h := by unfold Ports.nextIndication at h; split at h <;> simp_all
  shorter p e q h := by
    unfold Ports.nextIndication at h
    split at h
    · cases h
    · cases h; simp_all
  schedule _ _ := rfl
  interleaved _ _ := rfl

/-- None is left, whatever other contexts do between the events, if none of their steps adds one. -/
theorem callbacksDue_empties {α : Type} {hd : Handler} {next : Ports → Option (Event × Ports)} {g : Ports → List α}
    (hg : DrainsQueue next g) (hh : ∀ e s t, hd e s = .ok ((), t) → g t.ports <:+ g s.ports) :
    ∀ (n : Nat) (s t : State), (g s.ports).length ≤ n → callbacksDue hd next n s = .ok ((), t) → g t.ports = []
  | 0, s, t, hn, h => by
    simp only [callbacksDue, Op.pure_apply, Except.ok.injEq, Prod.mk.injEq, true_and] at h
    exact h ▸ List.length_eq_zero_iff.1 (Nat.le_zero.1 hn)
  | n + 1, s, t, hn, h => by
    have shorten {s t : State} (h : point hd s = .ok ((), t)) := (point_suffix g hg.interleaved hg.schedule hh h).length_le
    obtain ⟨_, u, h1, h2⟩ := Op.bind_eq_ok.1 h
    have hu := shorten h1
    obtain ⟨due, u1, h3, h4⟩ := Op.bind_eq_ok.1 h2
    cases h3
    cases hc : next u.ports with
    | none =>
      simp only [hc, Op.pure_apply, Except.ok.injEq, Prod.mk.injEq, true_and] at h4
      exact h4 ▸ hg.empty _ hc
    | some d =>
      have hp := hg.shorter _ _ _ hc
      simp only [hc] at h4
      obtain ⟨_, u2, h5, h6⟩ := Op.bind_eq_ok.1 h4
      cases h5
      obtain ⟨_, v, h7, h8⟩ := Op.bind_eq_ok.1 h6
      obtain ⟨_, w, h9, h10⟩ := Op.bind_eq_ok.1 h7
      have hw := shorten h10
      rw [(emit_ok.1 h9).2] at hw
      refine callbacksDue_empties hg hh n v t ?_ h8
      simp only [State.mapEvents_ports, State.mapPorts_ports] at hw
      omega

/-- With nothing scheduled inside, RECLAIM's completions are made in order. -/
theorem completions_eq {hd : Handler} (n : Nat) {s : State} (hl : s.locks.mine = Held.none)
    (hi : s.ports.interleaved = []) (hn : s.ports.completions.length = n) :
    callbacksDue hd Ports.nextCompletion n s =
      .ok ((), (s.mapEvents (fun es => es ++ s.ports.completions.map (fun p => .completeSend p .success))).mapPorts
        (fun x => { x with completions := [] })) := by
  induction n generalizing s with
  | zero =>
    have hc := List.length_eq_zero_iff.1 hn
    simp only [callbacksDue, Op.pure_apply, hc, List.map_nil, List.append_nil]
    conv_lhs => rw [show s = s.mapPorts (fun x => { x with completions := s.ports.completions }) from rfl, hc]
    rfl
  | succ n ih =>
    obtain ⟨p, rest, hc, hr⟩ := List.length_eq_succ_iff.1 hn
    replace hc := hc.symm
    simp only [callbacksDue, Ports.nextCompletion, Op.bind_apply, point_nil hi, read_apply, hc, updatePorts_apply, callback]
    rw [emit_eq (by simpa using hl)]
    simp only
    rw [point_nil (by simpa using hi)]
    simp only
    rw [ih (by simpa using hl) (by simpa using hi) (by simpa using hr)]
    simp [State.mapEvents, State.mapPorts]

/-- With nothing scheduled inside, HARVEST's indications are made in order. -/
theorem indications_eq {hd : Handler} (n : Nat) {s : State} (hl : s.locks.mine = Held.none)
    (hi : s.ports.interleaved = []) (hn : s.ports.indications.length = n) :
    callbacksDue hd Ports.nextIndication n s =
      .ok ((), (s.mapEvents (fun es => es ++ s.ports.indications.map (fun f => .indicateReceived f f.length))).mapPorts
        (fun x => { x with indications := [] })) := by
  induction n generalizing s with
  | zero =>
    have hc := List.length_eq_zero_iff.1 hn
    simp only [callbacksDue, Op.pure_apply, hc, List.map_nil, List.append_nil]
    conv_lhs => rw [show s = s.mapPorts (fun x => { x with indications := s.ports.indications }) from rfl, hc]
    rfl
  | succ n ih =>
    obtain ⟨p, rest, hc, hr⟩ := List.length_eq_succ_iff.1 hn
    replace hc := hc.symm
    simp only [callbacksDue, Ports.nextIndication, Op.bind_apply, point_nil hi, read_apply, hc, updatePorts_apply, callback]
    rw [emit_eq (by simpa using hl)]
    simp only
    rw [point_nil (by simpa using hi)]
    simp only
    rw [ih (by simpa using hl) (by simpa using hi) (by simpa using hr)]
    simp [State.mapEvents, State.mapPorts]

/-! ## Transmit -/

@[simp] theorem popWaitQueue_apply (s : State) :
    popWaitQueue s = .ok ((), s.mapTx (fun t => { t with waitQueue := t.waitQueue.tail })) := rfl

@[simp] theorem enqueue_apply (p : Packet) (s : State) :
    enqueue p s = .ok (.queued, s.mapTx (fun t => { t with waitQueue := t.waitQueue ++ [p] })) := rfl

/-- Retiring a slot: its packet is answered, its shadow record cleared, the head advanced. -/
theorem retire_eq (i : Nat) (s : State) : retire i s = .ok ((s.tx.shadowAt i).packet.toList,
    s.mapTx (fun t => { t.mapShadow i (fun _ => TxShadow.clear) with
      localBufFree := (match (s.tx.shadowAt i).usesLocalBuf, (s.tx.shadowAt i).localBuf with
        | true, some b => insertSorted b s.tx.localBufFree
        | _, _ => s.tx.localBufFree),
      head := s.cfg.next i, busyCount := t.busyCount - 1 })) := rfl

/-! ## Receive -/

/-- The memory after the re-arming writes of RECYCLE on the descriptor at `a`, in their order, the handoff last (R314). -/
def rearmed (a : Nat) (m : Memory) : Memory :=
  (((m.write16 (a + 12) (rdCountWord 0 false)).write16 (a + 2) (rdCommandWord true)).write32 (a + 4) 0).write16 a
    (rdStatusWord false false)

/-- The memory after the two writes to the previous tail at `b`, which link it to `a` and open its gate (R314). -/
def gateOpened (b a : Nat) (m : Memory) : Memory :=
  (m.write32 (b + 4) (addrWord a)).write16 (b + 2) (rdCommandWord false)

theorem rearmed_wf {m : Memory} (h : m.wf = true) (a : Nat) : (rearmed a m).wf = true :=
  Memory.wf_write16 (Memory.wf_write32 (Memory.wf_write16 (Memory.wf_write16 h _ _) _ _) _ _) _ _

theorem gateOpened_wf {m : Memory} (h : m.wf = true) (b a : Nat) : (gateOpened b a m).wf = true :=
  Memory.wf_write16 (Memory.wf_write32 h _ _) _ _

theorem rearmed_outside (m : Memory) (a : Nat) {x : Nat} (h : x < a ∨ a + 14 ≤ x ∨ (a + 8 ≤ x ∧ x < a + 12)) :
    (rearmed a m).byte x = m.byte x := by
  rw [rearmed, Memory.byte_write16_outside _ a _ (by omega), Memory.byte_write32_outside _ (a + 4) _ (by omega),
    Memory.byte_write16_outside _ (a + 2) _ (by omega), Memory.byte_write16_outside _ (a + 12) _ (by omega)]

theorem gateOpened_outside (m : Memory) (b a : Nat) {x : Nat} (h : x < b + 2 ∨ b + 8 ≤ x) :
    (gateOpened b a m).byte x = m.byte x := by
  rw [gateOpened, Memory.byte_write16_outside _ (b + 2) _ (by omega), Memory.byte_write32_outside _ (b + 4) _ (by omega)]

/-- The list and counter updates of RECYCLE. -/
def appended (d : Nat) (r : RxRing) : RxRing :=
  { r.mapShadow d (fun sh => { sh with state := .posted, actualBytes := 0 }) with
    readyList := r.readyList ++ [d], readyCount := r.readyCount + 1 }

theorem recycleLocked_empty {hd : Handler} {d a : Nat} {s : State} (hi : s.ports.interleaved = []) (ha : s.rdAddr? d = some a)
    (hs : inSpace a 16 = true) (hl : s.rx.readyList = []) :
    recycleLocked hd d s = .ok ((), (s.mapMem (rearmed a)).mapRx (appended d)) := by
  have h1 : ∀ f, (s.mapMem f).ports.interleaved = [] := fun _ => hi
  have h2 : ∀ f, (s.mapMem f).rdAddr? d = some a := fun _ => ha
  simp only [recycleLocked, Op.bind_apply, host_nil hi, host_nil (h1 _), writeRdCount_eq ha hs, writeRdEL_eq (h2 _) hs,
    writeRdLink_eq (h2 _) hs, writeRdStatus_eq (h2 _) hs, State.mapMem_mapMem, read_apply, State.mapMem_rx, hl,
    List.getLast?_nil, rdAddrOf_eq (h2 _), updateRx_apply]
  rfl

theorem recycleLocked_append {hd : Handler} {d a q b : Nat} {pre : List Nat} {s : State} (hi : s.ports.interleaved = [])
    (ha : s.rdAddr? d = some a) (hs : inSpace a 16 = true) (hl : s.rx.readyList = pre ++ [q])
    (hb : s.rdAddr? q = some b) (hsb : inSpace b 16 = true) :
    recycleLocked hd d s =
      .ok ((), (s.mapMem (fun m => gateOpened b a (rearmed a m))).mapRx (appended d)) := by
  have h1 : ∀ f, (s.mapMem f).ports.interleaved = [] := fun _ => hi
  have h2 : ∀ f, (s.mapMem f).rdAddr? d = some a := fun _ => ha
  have h3 : ∀ f, (s.mapMem f).rdAddr? q = some b := fun _ => hb
  have h4 : (pre ++ [q]).getLast? = some q := by simp
  simp only [recycleLocked, openGate, Op.bind_apply, host_nil hi, host_nil (h1 _), writeRdCount_eq ha hs,
    writeRdEL_eq (h2 _) hs, writeRdLink_eq (h2 _) hs, writeRdStatus_eq (h2 _) hs, State.mapMem_mapMem, read_apply,
    State.mapMem_rx, hl, h4, rdAddrOf_eq (h2 _), writeRdLink_eq (h3 _) hsb, writeRdEL_eq (h3 _) hsb, updateRx_apply]
  rfl

theorem detachPending_ok {d : Nat} {s t : State} : detachPending d s = .ok ((), t) ↔ s.isHanded d = true ∧
    t = s.mapRx (fun r =>
      { r with pendingList := r.pendingList.filter (fun x => x != d),
               outstandingReceives := r.outstandingReceives - 1 }) := by
  by_cases h : s.isHanded d = true <;> simp [detachPending, assert, h, eq_comm]

@[simp] theorem popReady_apply (s : State) : popReady s = .ok ((), s.mapRx (fun r =>
    { r with readyList := r.readyList.tail, readyCount := r.readyCount - 1 })) := rfl

theorem powerCheck_eq (s : State) : powerCheck s =
    if s.dev.powerTransitionPending && s.rx.outstandingReceives == 0
    then .ok (true, s.mapDev (fun x => { x with powerTransitionPending := false })) else .ok (false, s) := by
  simp only [powerCheck, Op.bind_apply, read_apply, Op.ite_apply, updateDev_apply, Op.pure_apply]

/-- GROW_LOCKED with room, nothing in flight and a shadow record to be had. -/
theorem growLocked_reserves {s : State} {rest : List Bool} (hc : s.rx.currentCount < s.cfg.rxMaxCount)
    (ha : s.rx.allocState = .idle) (hr : s.ports.lookasideReplies = true :: rest) :
    growLocked s = .ok (.ok, ((s.mapPorts (fun p => { p with lookasideReplies := rest })).mapRx (fun r =>
      { r with
        shadows := putShadow (freshId (s.rx.shadows.map (·.1)))
          ⟨.allocationPending, none, none, s.cfg.rxBufferCapacity, 0⟩ r.shadows,
        allocState := .allocationInFlight (freshId (s.rx.shadows.map (·.1))), lowCount := 0,
        shrinkCounter := if s.cfg.shrinkResetOnGrow then 0 else r.shrinkCounter })).mapDev (fun d =>
      { d with refCount := d.refCount + 1 })) := by
  simp [growLocked, allocShadow, hr, ha, Nat.not_le.2 hc]

/-! ## Coordinator -/

/-- Writing a start after a first poll that finds the register clear. -/
theorem issueLocked_start {hd : Handler} {code : Byte} {pointer : Word} {s : State} (hi : s.ports.interleaved = [])
    (he : s.dev.hardwareError = false) (hb : 1 ≤ s.cfg.acceptPollBudget) (hc : commandCode s.regs.command = 0)
    (hk : code = codeCuStart ∨ code = codeRuStart) :
    issueLocked hd code true pointer s =
      .ok (.ok, (s.mapRegs (fun r => { r with pointer := pointer, command := code.setWidth 32 })).mapTx (fun t =>
        { t with resumeWaitNeeded := true })) := by
  obtain ⟨n, hn⟩ : ∃ n, s.cfg.acceptPollBudget = n + 1 := ⟨s.cfg.acceptPollBudget - 1, by omega⟩
  have h1 : ∀ f, (s.mapRegs f).ports.interleaved = [] := fun _ => hi
  have hw : writeCommand (code.setWidth 32) (s.mapRegs (fun r => { r with pointer := pointer })) =
      .ok ((), (s.mapRegs (fun r => { r with pointer := pointer })).mapRegs (fun r =>
        { r with command := code.setWidth 32 &&& 0xFF })) := by
    refine writeCommand_ok.2 ⟨?_, ?_, rfl⟩
    · rcases hk with h | h <;> subst h <;> exact .inl (by decide)
    · show overruns (commandCode s.regs.command) _ = false
      rw [hc]
      rfl
  have hne : code ≠ codeCuResume := by rcases hk with h | h <;> subst h <;> decide
  have hnb : (code != codeCuResume) = true := by simpa using hne
  have hand : (code.setWidth 32 &&& 0xFF : Word) = code.setWidth 32 := by rcases hk with h | h <;> subst h <;> decide
  simp only [issueLocked, writeCommandLocked, Op.bind_apply, read_apply, he, Bool.false_eq_true, if_false, hn, if_true,
    waitAcceptLocked_clear hi hc, Bool.not_true, Bool.or_false, hne, ne_eq, not_false_eq_true, Op.ite_apply, host_nil hi, regWrite_pointer,
    host_nil (h1 _), regWrite_command, hw, updateTx_apply, Op.pure_apply, hand, hnb]
  rfl

/-! ## Link and mask -/

@[simp] theorem choose_apply (x : Selection) (s : State) :
    choose x s = .ok ((), s.mapLink (fun l => { l with selected := x, phase := .configuring })) := rfl

@[simp] theorem endWait_apply (s : State) :
    endWait s = .ok ((), s.mapLink (fun l => { l with waitingForNegotiation := false })) := rfl

@[simp] theorem takeLinkTimer_apply (s : State) : takeLinkTimer s =
    .ok (decide (s.link.timer = .armed), s.mapLink (fun k => { k with timer := .idle })) := rfl

/-- Cancelling the link timer releases the reference of the step that will never run. -/
theorem cancelLinkTimer_eq (s : State) : cancelLinkTimer s =
    .ok ((), (s.mapLink (fun k => { k with timer := .idle })).mapDev (fun d =>
      { d with refCount := if s.link.timer = .armed then d.refCount - 1 else d.refCount })) := by
  by_cases h : s.link.timer = .armed
  · simp [cancelLinkTimer, h]
  · simp [cancelLinkTimer, h, State.mapDev, State.mapLink]

theorem phyProbe_eq {hd : Handler} {a : PhyAddress} {s : State} (hi : s.ports.interleaved = []) :
    phyProbe hd a s = .ok (phyRecordOf s.regs.phystat[a], s) := by
  simp [phyProbe, host_nil hi]

/-- With nothing scheduled inside, the value of a property is read off the state (R218, R219). -/
theorem valueOf_eq {hd : Handler} {prop : Property} {s : State} (hi : s.ports.interleaved = []) :
    valueOf hd prop s = .ok (match prop with
      | .linkSpeed => .speed s.link.speed
      | .mediaState => .media
        (if s.dev.hardwareError || decide (s.dev.lifecycle = .withdrawn) then .disconnected else s.link.media), s) := by
  cases prop <;> simp [valueOf, host_nil hi]

theorem setMask_eq {hd : Handler} {v : Word} {s : State} (hi : s.ports.interleaved = [])
    (hs : s.ports.isrActive = false) : setMask hd v s = .ok ((), s.mapRegs (fun g => { g with intmask := v &&& 1 })) := by
  simp [setMask, sync_nil hi hs]

/-- Where no SUBMIT was overtaken TEARDOWN's second transition has nothing to fail. -/
theorem abortLate_nothing {hd : Handler} {s : State} (hp : s.heldPackets = []) : abortLate hd s = .ok ((), s) := by
  simp [abortLate, hp]

/-- Not enabled, TEARDOWN's second transition does nothing. -/
theorem teardownFinish_waits {hd : Handler} {s : State} (hw : s.teardownMayFinish = false) :
    teardownFinish hd s = .ok ((), s) := by
  simp [teardownFinish, hw]

/-- Enabled and with nothing to fail, it is its steps 7 to 9. -/
theorem teardownFinish_drained {hd : Handler} {s : State} (hm : s.teardownMayFinish = true) (hp : s.heldPackets = []) :
    teardownFinish hd s = teardownFree s := by
  simp [teardownFinish, abortLate_nothing hp, hm]

/-- A PHY record and its word agree (R109). -/
theorem phyRecordOf_toWord (r : PhyRecord) : phyRecordOf r.toWord = r := by
  obtain ⟨p, l, n, d, sp⟩ := r
  have h1 : phyRecordOf (PhyRecord.toWord ⟨p, l, n, d, sp⟩) = ⟨p, l, n, d, sp⟩ := by
    revert d sp
    cases p <;> cases l <;> cases n <;> decide
  exact h1

end Sys2Proof.Machine
end

