-- ==== Sys2Proof/Tests/Slice0.lean ====
section
/-!
SUPPORT. Tests: the well-formedness checks refuse, the words of the spec decode (spec/30_encoding.md R116,
spec/95_test_vectors.md section 3), one step of each instruction on a small state (expected values from the vectors and
programs of spec/95_test_vectors.md, named in each docstring), and for each obligation with hypotheses a concrete state
that meets them.
-/
namespace Sys2Proof.Tests

open Sys2Proof.Machine

set_option Elab.async false
set_option synthInstance.maxSize 1000

/-! ## Well-formedness -/

theorem test_wf_cfgT : Config.wf Config.cfgT = true := by decide
theorem test_wf_failedGrowWithAddress : Instr.wf (.growComplete false 0x3000) = false := by decide
theorem test_wf_numTcb : Config.wf { Config.cfgT with numTcb := 0 } = false := by decide
theorem test_wf_maxFragments : Config.wf { Config.cfgT with maxFragments := 0 } = false := by decide
theorem test_wf_fragCountField : Config.wf { Config.cfgT with maxFragments := 256 } = false := by decide
theorem test_wf_frameSizes : Config.wf { Config.cfgT with minFrameSize := 1515 } = false := by decide
theorem test_wf_rxInitialCount :
    Config.wf { Config.cfgT with rxInitialCount := 0, rxMinWorkingSet := 0 } = false := by decide
theorem test_wf_rxMaxCount : Config.wf { Config.cfgT with rxMaxCount := 3 } = false := by decide
theorem test_wf_rxMinWorkingSet : Config.wf { Config.cfgT with rxMinWorkingSet := 0 } = false := by decide
theorem test_wf_workingSetAboveInitial : Config.wf { Config.cfgT with rxMinWorkingSet := 5 } = false := by decide
theorem test_wf_growPersistence : Config.wf { Config.cfgT with growPersistence := 0 } = false := by decide
theorem test_wf_rxBufferCapacity : Config.wf { Config.cfgT with rxBufferCapacity := 0 } = false := by decide
theorem test_wf_capacityField : Config.wf { Config.cfgT with rxBufferCapacity := 16384 } = false := by decide
theorem test_wf_descAlign : Config.wf { Config.cfgT with descAlign := 0 } = false := by decide
theorem test_wf_indicateBatchMax : Config.wf { Config.cfgT with indicateBatchMax := 0 } = false := by decide
theorem test_wf_harvestIterationMax : Config.wf { Config.cfgT with harvestIterationMax := 0 } = false := by decide
theorem test_wf_acceptPollBudget : Config.wf { Config.cfgT with acceptPollBudget := 0 } = false := by decide
theorem test_wf_maxResetAttempts : Config.wf { Config.cfgT with maxResetAttempts := 0 } = false := by decide
theorem test_wf_phyCandidates : Config.wf { Config.cfgT with phyCandidates := [1, 2, 1] } = false := by decide
theorem test_wf_negotiation : Config.wf { Config.cfgT with negotiationAttemptsMax := 0 } = false := by decide
theorem test_wf_linkTickPeriod : Config.wf { Config.cfgT with linkTickPeriodMs := 0 } = false := by decide
theorem test_wf_healthCheckPeriod : Config.wf { Config.cfgT with healthCheckPeriodMs := 0 } = false := by decide

/-! ## Decoding: every constructor's word, written out from the map (R103 to R105; vectors E1 to E11, E18) -/

theorem test_decode_deviceControl :
    decode (.request 0x0100000000000000) = .ok .start ∧ decode (.request 0x0200000000000000) = .ok .teardown ∧
    decode (.request 0x0300000000000000) = .ok .reset ∧ decode (.request 0x0400000000000000) = .ok .healthCheck ∧
    decode (.request 0x0500000000000000) = .ok .interrupt ∧ decode (.request 0x0600000000000000) = .ok .intEnable ∧
    decode (.request 0x0700000000000000) = .ok .intDisable ∧
    decode (.request 0x0800000000000000) = .ok (.setPower .fullyPowered) ∧
    decode (.request 0x0801000000000000) = .ok (.setPower .lowPower) := by
  and_intros <;> rfl

theorem test_decode_transmit :
    decode (.request 0x1000000000000005) = .ok (.submit 5) ∧ decode (.request 0x1100000000000000) = .ok .reclaim ∧
    decode (.request 0x1200000000000007) = .ok (.cancel 7) ∧ decode (.request 0x1300000000000000) = .ok .drain := by
  and_intros <;> rfl

theorem test_decode_receive :
    decode (.request 0x2000000000000000) = .ok .harvest ∧ decode (.request 0x2100000000000002) = .ok (.recycle 2) ∧
    decode (.request 0x2200000000000000) = .ok .ensureStarted ∧ decode (.request 0x2300000000000000) = .ok .grow ∧
    decode (.request 0x2401000000003000) = .ok (.growComplete true 0x3000) ∧
    decode (.request 0x2400000000000000) = .ok (.growComplete false 0) ∧
    decode (.request 0x2500000000000000) = .ok (.rxReturn 0) ∧ decode (.request 0x2600000000000004) = .ok (.shrink 4) := by
  and_intros <;> rfl

theorem test_decode_coordinator :
    decode (.request 0x3081000000001000) = .ok (.issueCommand true 1 0x1000) ∧
    decode (.request 0x3003000000002000) = .ok (.issueCommand false 3 0x2000) ∧
    decode (.request 0x3002000000000000) = .ok (.issueCommand false 2 0) ∧
    decode (.request 0x3083000000002000) = .ok (.issueCommand true 3 0x2000) ∧
    decode (.request 0x3100000000000003) = .ok (.waitAccept 3) := by
  and_intros <;> rfl

theorem test_decode_link :
    decode (.request 0x4000000000000000) = .ok .linkStart ∧ decode (.request 0x4100000000000000) = .ok .linkTick ∧
    decode (.request 0x4200000000000001) = .ok (.getLinkSpeed 1) ∧
    decode (.request 0x4300000000000002) = .ok (.getMediaState 2) ∧
    decode (.request 0x440000000000000B) = .ok (.setFilter 0xB) ∧
    decode (.request 0x4500000000000003) = .ok (.setMcast 3) := by
  and_intros <;> rfl

theorem test_decode_commands :
    decode (.command 0x01) = .ok .cuStart ∧ decode (.command 0x02) = .ok .cuResume ∧
    decode (.command 0x03) = .ok .ruStart := by
  and_intros <;> rfl

theorem test_decode_ports :
    decode (.port 1) = .ok .selectiveReset ∧ decode (.port 2) = .ok .fullReset := by
  and_intros <;> rfl

/-- E12: words that are no instruction. -/
theorem test_decode_illegal :
    decode (.request 0x0900000000000000) = .error (.unknownOp 0x09) ∧
    decode (.request 0x1000000100000005) = .error .zeroFieldSet ∧
    decode (.request 0x2000000000000001) = .error .argSet ∧
    decode (.request 0x0802000000000000) = .error .subReservedSet ∧
    decode (.request 0x2400000000003000) = .error .failedAllocationWithAddress ∧
    decode (.request 0x2001000000000000) = .error .subSet ∧
    decode (.command 4) = .error .reservedCommandCode ∧ decode (.port 3) = .error .reservedPortCode := by
  and_intros <;> rfl

/-- Little-endian bytes (R73): the word of `SUBMIT p5`, its `op` in the last byte. -/
theorem test_decode_bytes :
    decodeBytes .request [5, 0, 0, 0, 0, 0, 0, 0x10] = .ok (.submit 5, []) ∧
    decodeBytes .request [5, 0, 0] = .error .truncated ∧
    decodeTableWord 64 0x1000000000000005 = some (.submit 5) ∧ decodeTableWord 32 3 = some .ruStart := by
  and_intros <;> rfl

/-! ## A running device: the state RUN0 of spec/95_test_vectors.md section 1, with two packets in the table -/

/-- `p1` of program P1. -/
def packetA : Packet := ⟨1, [⟨0x9000, 100⟩], 100, 0⟩

/-- `p2` of program P1, with tag 7. -/
def packetB : Packet := ⟨2, [⟨0x9100, 42⟩], 42, 7⟩

/-- Descriptor images: TDs at 0x1000, RDs at 0x2000. -/
def upMemory : Memory :=
  let td := fun (m : Memory) (i : Nat) =>
    (m.write16 (0x1000 + 28 * i) 0x8000).write32 (0x1004 + 28 * i) (addrWord (0x1000 + 28 * ((i + 1) % 4)))
  let rd := fun (m : Memory) (k : Nat) =>
    (((m.write16 (0x2002 + 0x200 * k) (if k = 3 then 0x8000 else 0)).write32 (0x2004 + 0x200 * k)
      (if k = 3 then 0 else addrWord (0x2200 + 0x200 * k))).write32 (0x2008 + 0x200 * k)
      (addrWord (0x2010 + 0x200 * k))).write16 (0x200E + 0x200 * k) 256
  (List.range 4).foldl rd ((List.range 4).foldl td ⟨[]⟩)

/-- `PHYSTAT` with one address set. -/
def phyWith (a : PhyAddress) (w : Word) : Vector Word 32 := (Vector.replicate 32 0).set a.val w

/-- RUN0. -/
def up : State :=
  { State.reset with
    regs := { status := 0x8, command := 0, pointer := 0x2000, intmask := 0, phystat := phyWith 1 0x2F }
    units := ⟨0, some 0, .none⟩
    tx := { TxRing.reset with
      base := 0x1000, bufs := [0x4000, 0x4800], shadow := List.replicate 4 TxShadow.clear, localBufFree := [0, 1] }
    rx := { RxRing.reset with
      shadows := (List.range 4).map (fun k => (k, ⟨.posted, some (0x2000 + 0x200 * k), some (0x2000 + 0x200 * k), 256, 0⟩))
      readyList := [0, 1, 2, 3], readyCount := 4, currentCount := 4 }
    link := { Link.reset Config.cfgT with
      phase := .done, selected := .addr 1, speed := 2, duplex := 1, media := .connected }
    dev := { Device.reset with lifecycle := .running, packetFilter := 1, healthTimer := .armed }
    mem := upMemory
    ports := { Ports.reset with
      packets := [packetA, packetB], mcastLists := [(3, [0x01005E000001])], sharedReplies := []
      lookasideReplies := [true, true] } }

/-- The next state, if there is one. -/
def next? (o : Host.Outcome State Fault Refusal) : Option State :=
  match o with
  | .next t => some t
  | .fault _ => none
  | .refused _ => none

/-- The fault, if there is one. -/
def fault? (o : Host.Outcome State Fault Refusal) : Option Fault :=
  match o with
  | .next _ => none
  | .fault f => some f
  | .refused _ => none

/-- A next state that there is, is the one `next?` finds. -/
theorem next_of_next? {o : Host.Outcome State Fault Refusal} {d : State} (h : (next? o).isSome = true) :
    o = .next ((next? o).getD d) := by
  cases o <;> first | rfl | cases h

theorem exists_of_next? {o : Host.Outcome State Fault Refusal} (h : (next? o).isSome = true) : ∃ t, o = .next t := by
  cases o with
  | next t => exact ⟨t, rfl⟩
  | fault f => cases h
  | refused r => cases h

/-- The result of an instruction and one more thing about the state it leaves. -/
def ran {α : Type} (i : Instr) (s : State) (f : State → α) : Option (Option Status × α) :=
  (next? (exec i s)).map (fun t => (t.result, f t))

/-- One step of the stimulus `e`, and one thing about the state it leaves. -/
def stepped {α : Type} (e : Stimulus) (s : State) (f : State → α) : Option α :=
  (next? (step { s with ports := { s.ports with schedule := [e] } })).map f

/-! ## One step of each instruction -/

/-- V3: START from power-on. -/
theorem test_start :
    ran .start State.reset (fun t => (t.rx.readyList, t.regs.pointer, t.regs.command, t.regs.intmask, t.dev.refCount)) =
      some (some .ok, [0, 1, 2, 3], 0x2000, 3, 0, 1) := by decide +kernel

/-- V1: the allocator fails on the third receive region. -/
theorem test_start_exhausted :
    ran .start { State.reset with ports := { Ports.reset with
        sharedReplies := [some 0x1000, some 0x4000, some 0x4800, some 0x2000, some 0x2200, none] } }
      (fun t => (t.ports.liveRegions, t.dev.lifecycle, t.regs.command)) =
      some (some .resourcesExhausted, [], .uninitialised, 0) := by decide +kernel

/-- V12, first transition: a packet in the queue is completed with `Cancelled`. -/
theorem test_teardown :
    ran .teardown { up with tx := { up.tx with waitQueue := [packetB] } }
      (fun t => (t.dev.lifecycle, t.regs.intmask, t.events, t.tx.waitQueue)) =
      some (none, .halting, 1, [.completeSend packetB .cancelled], []) := by decide +kernel

/-- V11: RESET in `Withdrawn`. -/
theorem test_reset_withdrawn :
    ran .reset { up with dev := { up.dev with lifecycle := .withdrawn } } (fun t => t.dev.lifecycle) =
      some (some .nonRecoverable, .withdrawn) := by decide +kernel

/-- RESET with an Acceptor that never steps: the verification runs out and the failure is counted (R242, R248). -/
theorem test_reset_failed :
    ran .reset up (fun t => (t.dev.hardwareError, t.dev.consecutiveResetFailures, t.regs.intmask)) =
      some (some .hardError, true, 1, 1) := by decide +kernel

/-- V14: the link is lost. -/
theorem test_healthCheck :
    ran .healthCheck { up with regs := { up.regs with phystat := phyWith 1 0x01 } }
      (fun t => (t.link.media, t.link.speed, t.link.duplex, t.dev.healthTimer)) =
      some (some .ok, .disconnected, 2, 1, .armed) := by decide +kernel

/-- V4: a masked line is not ours. -/
theorem test_interrupt_masked :
    ran .interrupt { up with regs := { up.regs with status := 0x108, intmask := 1 } } (fun t => t.regs.status) =
      some (some .notMine, 0x108) := by decide +kernel

/-- P2 step 5: the acknowledge takes exactly the causes. -/
theorem test_interrupt :
    ran .interrupt { up with regs := { up.regs with status := 0x208 } } (fun t => (t.regs.status, t.ports.isrActive)) =
      some (some .ok, 0x008, false) := by decide +kernel

/-- V7. -/
theorem test_intEnable :
    ran .intEnable { up with regs := { up.regs with status := 0x208, intmask := 1 } } State.lineAsserted =
      some (some .ok, true) := by decide +kernel

/-- R246. -/
theorem test_intDisable : ran .intDisable up (fun t => t.regs.intmask) = some (some .ok, 1) := by decide +kernel

/-- V8. -/
theorem test_setPower :
    ran (.setPower .lowPower) up (fun t => (t.dev.power, t.dev.powerTransitionPending, t.events)) =
      some (some .ok, .lowPower, false, [.powerTransitionComplete]) := by decide +kernel

/-- P1 step 1 and E15: the descriptor's first sixteen bytes. -/
theorem test_submit :
    ran (.submit 1) up (fun t => (t.tx.tail, t.regs.pointer, t.regs.command, t.mem.readBytes 0x1000 20)) =
      some (some .sent, 1, 0x1000, 1,
        [0, 0, 0, 0x40, 0x1C, 0x10, 0, 0, 1, 0, 0, 0, 0, 0x90, 0, 0, 0x64, 0, 0, 0]) := by decide +kernel

/-- P1 step 3, on an idle transmitter: 42 bytes are padded to 60 in local buffer 0. -/
theorem test_submit_coalesced :
    ran (.submit 2) up (fun t => (t.tdFragAddr 0 0, t.tdFragLen 0 0, t.tx.localBufFree)) =
      some (some .sent, 0x4000, 60, [1]) := by decide +kernel

/-- Slot 0 completed: `C` of the image stands. -/
def oneDone : State :=
  { up with tx := { up.tx with
      busyCount := 1, tail := 1, transmitIdle := false
      shadow := up.tx.shadow.set 0 { TxShadow.clear with inUse := true, packet := some packetA } } }

/-- P1 step 7. -/
theorem test_reclaim :
    ran .reclaim oneDone (fun t => (t.tx.head, t.tx.busyCount, t.events)) =
      some (some .ok, 1, 0, [.completeSend packetA .success]) := by decide +kernel

/-- R145: the packet with the tag leaves, the other stays. -/
theorem test_cancel :
    ran (.cancel 7) { up with tx := { up.tx with waitQueue := [packetB, packetA] } }
      (fun t => (t.tx.waitQueue, t.events)) =
      some (some .ok, [packetA], [.completeSend packetB .cancelled]) := by decide +kernel

/-- P3 step 7: the queued packet is placed by the start path. -/
theorem test_drain :
    ran .drain { up with tx := { up.tx with waitQueue := [packetA] } }
      (fun t => (t.tx.waitQueue, t.tx.tail, t.regs.pointer, t.regs.command)) =
      some (some .ok, [], 1, 0x1000, 1) := by decide +kernel

/-- Descriptor `d` completed with a two-byte frame at its payload. -/
def received (d : Nat) (okBit : Bool) (s : State) : State :=
  { s with mem := ((s.mem.write16 (0x2000 + 0x200 * d) (rdStatusWord true okBit)).write16 (0x200C + 0x200 * d)
      (rdCountWord 2 true)).writeBytes (0x2010 + 0x200 * d) [0xAA, 0xBB] }

/-- P2 step 5, with one frame: handed up normally. -/
theorem test_harvest :
    ran .harvest (received 0 true up) (fun t => (t.rx.readyList, t.rx.pendingList, t.events)) =
      some (some .ok, [1, 2, 3], [0], [.indicateReceived [⟨0, [0xAA, 0xBB], false⟩] 1]) := by decide +kernel

/-- X3: a bad frame is dropped and its descriptor recycled to the tail. -/
theorem test_harvest_dropped :
    ran .harvest (received 0 false up)
      (fun t => (t.rx.readyList, t.mem.rdLink 0x2600, t.mem.rdEL 0x2600, t.mem.rdEL 0x2000, t.events)) =
      some (some .ok, [1, 2, 3, 0], 0x2000, false, true, []) := by decide +kernel

/-- Descriptor 0 handed to the upper layer. -/
def oneHanded : State :=
  { up with rx := { up.rx.mapShadow 0 (fun sh => { sh with state := .handedToUpperLayer, actualBytes := 2 }) with
      readyList := [1, 2, 3], readyCount := 3, pendingList := [0], outstandingReceives := 1 } }

/-- P2 step 8. -/
theorem test_recycle :
    ran (.recycle 0) oneHanded (fun t => (t.rx.readyList, t.rx.outstandingReceives, t.mem.rdLink 0x2600)) =
      some (some .ok, [1, 2, 3, 0], 0, 0x2000) := by decide +kernel

/-- X11. -/
theorem test_recycle_refused : ran (.recycle 1) up (fun t => t.rx.readyList) =
    some (some .invalidRequest, [0, 1, 2, 3]) := by decide +kernel

/-- R197, R164: the receive unit idle is started at the first untouched descriptor. -/
theorem test_ensureStarted :
    ran .ensureStarted (received 0 true { up with regs := { up.regs with status := 0 } })
      (fun t => (t.regs.pointer, t.regs.command, t.tx.resumeWaitNeeded)) =
      some (some .ok, 0x2200, 3, true) := by decide +kernel

/-- X12c. -/
theorem test_ensureStarted_broken :
    ran .ensureStarted { up with dev := { up.dev with hardwareError := true } } (fun t => t.regs.command) =
      some (some .hardError, 0) := by decide +kernel

/-- X13: id 4 is reserved. -/
theorem test_grow :
    ran .grow up (fun t => (t.rx.allocState, t.dev.refCount)) = some (some .ok, .allocationInFlight 4, 1) := by
  decide +kernel

/-- An allocation in flight for descriptor 4. -/
def growing : State :=
  { up with
    rx := { up.rx with
      shadows := putShadow 4 ⟨.allocationPending, none, none, 256, 0⟩ up.rx.shadows, allocState := .allocationInFlight 4 }
    dev := { up.dev with refCount := 1 } }

/-- X13b. -/
theorem test_growComplete :
    ran (.growComplete true 0x3000) growing
      (fun t => (t.rx.readyList, t.rx.currentCount, t.mem.rdLink 0x2600, t.mem.rdPayloadPtr 0x3000, t.dev.refCount)) =
      some (some .ok, [0, 1, 2, 3, 4], 5, 0x3000, 0x3010, 0) := by decide +kernel

/-- X15. -/
theorem test_growComplete_failed :
    ran (.growComplete false 0) growing (fun t => (t.rx.allocState, t.rx.shadow? 4, t.dev.refCount)) =
      some (some .ok, .idle, none, 0) := by decide +kernel

/-- The pool may shrink: five descriptors counted and three over-supplied intervals (X16b). -/
def shrinkable : State :=
  { oneHanded with rx := { oneHanded.rx with currentCount := 5, shrinkCounter := 3 } }

/-- X16b. -/
theorem test_rxReturn_freed :
    ran (.rxReturn 0) shrinkable (fun t => (t.rx.currentCount, t.rx.shadow? 0, t.rx.readyList)) =
      some (some .ok, 4, none, [1, 2, 3]) := by decide +kernel

/-- X16c: the threshold itself is not enough. -/
theorem test_rxReturn_recycled :
    ran (.rxReturn 0) { shrinkable with rx := { shrinkable.rx with shrinkCounter := 2 } }
      (fun t => (t.rx.currentCount, t.rx.readyList)) = some (some .ok, 5, [1, 2, 3, 0]) := by decide +kernel

/-- X16b, the request form. -/
theorem test_shrink : ran (.shrink 0) shrinkable (fun t => (t.rx.currentCount, t.rx.pendingList)) =
    some (some .ok, 4, []) := by decide +kernel

/-- X16c. -/
theorem test_shrink_refused :
    ran (.shrink 0) { shrinkable with rx := { shrinkable.rx with shrinkCounter := 2 } } (fun t => t.rx.pendingList) =
      some (some .invalidRequest, [0]) := by decide +kernel

/-- K2. -/
theorem test_issueCommand_timeout :
    ran (.issueCommand true 3 0x2000) { up with regs := { up.regs with command := 1, pointer := 0x1000 } }
      (fun t => (t.dev.hardwareError, t.regs.pointer, t.regs.command)) =
      some (some .hardError, true, 0x1000, 1) := by decide +kernel

/-- K1: the Acceptor steps at the second yield. Five points pass before it. -/
theorem test_issueCommand_waits :
    ran (.issueCommand true 1 0x1000)
      { up with regs := { up.regs with command := 3 }, ports := { up.ports with interleaved := List.replicate 5 [] ++ [[.device .accept]] } }
      (fun t => (t.regs.pointer, t.regs.command, t.units.ruCursor)) = some (some .ok, 0x1000, 1, some 0) := by
  decide +kernel

/-- K4. -/
theorem test_waitAccept : ran (.waitAccept 1) up (fun t => t.dev.hardwareError) = some (some .ok, false) := by
  decide +kernel

/-- K4. -/
theorem test_waitAccept_timeout :
    ran (.waitAccept 1) { up with regs := { up.regs with command := 2 } } (fun t => t.dev.hardwareError) =
      some (some .hardError, true) := by decide +kernel

/-- R211: detection begins at the first candidate. -/
theorem test_linkStart :
    ran .linkStart up (fun t => (t.link.phase, t.link.timer, t.dev.refCount)) =
      some (some .ok, .scanningForLink, .armed, 1) := by decide +kernel

/-- Link detection under way, as START leaves it, on a running device. -/
def scanning : State :=
  { up with
    link := { Link.reset Config.cfgT with phase := .scanningForLink, timer := .armed }
    dev := { up.dev with refCount := 1 } }

/-- L1. -/
theorem test_linkTick :
    ran .linkTick scanning (fun t => (t.link.phase, t.link.selected, t.link.speed, t.link.media, t.dev.refCount)) =
      some (some .ok, .done, .addr 1, 2, .connected, 0) := by decide +kernel

/-- L2. -/
theorem test_linkTick_waits :
    ran .linkTick { scanning with regs := { up.regs with phystat := phyWith 2 0x01 } }
      (fun t => (t.link.candidateAddressIndex, t.link.foundAddress, t.link.waitCounter, t.link.phase, t.link.timer)) =
      some (some .ok, 1, some 2, 3, .waitingForNegotiation, .armed) := by decide +kernel

/-- L13. -/
theorem test_getLinkSpeed : ran (.getLinkSpeed 1) up (fun t => t.events) =
    some (some .ok, [.completeRequest 1 (.speed 2)]) := by decide +kernel

/-- L14. -/
theorem test_getMediaState :
    ran (.getMediaState 1) { up with dev := { up.dev with hardwareError := true } } (fun t => t.events) =
      some (some .ok, [.completeRequest 1 (.media .disconnected)]) := by decide +kernel

/-- L12, a deferred filter. -/
theorem test_setFilter :
    ran (.setFilter 3) scanning (fun t => (t.dev.packetFilter, t.link.pendingFilter)) =
      some (some .pending, 1, some 3) := by decide +kernel

/-- R221. -/
theorem test_setMcast : ran (.setMcast 3) up (fun t => t.dev.mcastList) = some (some .ok, [0x01005E000001]) := by
  decide +kernel

/-- P1 step 2. -/
theorem test_cuStart :
    stepped (.device .accept) { up with regs := { up.regs with pointer := 0x101C, command := 1 } }
      (fun t => (t.regs.status, t.regs.command, t.units.cuCursor)) = some (0x00A, 0, 1) := by decide +kernel

/-- R196: a suspended unit whose `S` is 0 moves along the link. -/
theorem test_cuResume :
    stepped (.device .accept) { up with regs := { up.regs with status := 0x9, command := 2 } }
      (fun t => (t.regs.status, t.regs.command, t.units.cuCursor)) = some (0x00A, 0, 1) := by decide +kernel

/-- K6: a resume while idle. -/
theorem test_cuResume_idle :
    stepped (.device .accept) { up with regs := { up.regs with command := 2 } }
      (fun t => (t.regs.status, t.regs.command, t.units.cuCursor)) = some (0x008, 0, 0) := by decide +kernel

/-- R197. -/
theorem test_ruStart :
    stepped (.device .accept) { up with regs := { up.regs with status := 0, pointer := 0x2400, command := 3 } }
      (fun t => (t.regs.status, t.regs.command, t.units.ruCursor)) = some (0x008, 0, some 2) := by decide +kernel

/-- The start state of K9 and K10. -/
def halfDone : State :=
  { up with
    regs := { up.regs with status := 0x50A, command := 3, intmask := 0 }
    units := ⟨1, some 0, .statusDone⟩ }

/-- K9. -/
theorem test_selectiveReset :
    stepped (.registerWrite 0x10 1) halfDone (fun t => (t.regs, t.units)) =
      some ({ halfDone.regs with status := 0x500, command := 0 }, ⟨1, some 0, .none⟩) := by decide +kernel

/-- K10. -/
theorem test_fullReset :
    stepped (.registerWrite 0x10 2) halfDone (fun t => (t.regs, t.units)) =
      some ({ halfDone.regs with status := 0, command := 0, pointer := 0, intmask := 1 }, ⟨0, none, .none⟩) := by
  decide +kernel

/-! ## Device steps -/

/-- P1 step 6: a descriptor with `S` set is transmitted and suspends the unit. -/
theorem test_cuExecute :
    stepped (.device .cuExecute)
      { up with
        regs := { up.regs with status := 0xA }
        mem := (((((up.mem.write16 0x1000 0).write16 0x1002 0x4000).setByte 0x1008 1).write32 0x100C 0x9000).write32
          0x1010 3).writeBytes 0x9000 [1, 2, 3] }
      (fun t => (t.regs.status, t.tdC 0, t.events)) = some (0x509, true, [.wireTx [1, 2, 3]]) := by decide +kernel

/-- P2 steps 3 and 4: the two halves in the other order, then the advance. -/
theorem test_ruStatus_then_count :
    (stepped (.device (.ruStatus true)) up id).bind
      (fun s => stepped (.device (.ruCount [7, 8, 9])) s
        (fun t => (t.regs.status, t.units.ruCursor, t.mem.rdCount 0x2000, t.mem.readBytes 0x2010 3))) =
      some (0x208, some 1, 3, [7, 8, 9]) := by decide +kernel

/-- X17: the last descriptor of the list stops the unit. -/
theorem test_ru_end_of_list :
    stepped (.device (.ruStatus true)) { up with units := ⟨0, some 3, .countDone⟩ }
      (fun t => (t.regs.status, t.units.ruCursor)) = some (0xA00, none) := by decide +kernel

/-- R223. -/
theorem test_phy :
    stepped (.device (.phy 5 ⟨true, true, true, 1, 2⟩)) up (fun t => t.regs.phystat[5]) = some 0x2F := by decide +kernel

/-- V12: the second transition frees the posted descriptors. -/
theorem test_teardownFinish :
    stepped .teardownFinish { up with dev := { up.dev with lifecycle := .halting } }
      (fun t => (t.dev.lifecycle, t.rx.currentCount, t.rx.shadows.length, t.result)) =
      some (.halted, 0, 0, some .ok) := by decide +kernel

/-- R292: a packet that an overtaken SUBMIT has left is completed before the rings go (log entry 33). -/
theorem test_teardownFinish_completes_late :
    stepped .teardownFinish { up with
        dev := { up.dev with lifecycle := .halting }, tx := { up.tx with waitQueue := [packetA] } }
      (fun t => (t.dev.lifecycle, t.tx.waitQueue, t.events)) =
      some (.halted, [], [.completeSend packetA .cancelled]) := by decide +kernel

/-- The running device with the sticky error. -/
def broken : State := { up with dev := { up.dev with hardwareError := true } }

/-! ## Other agents inside an operation -/

/-- The state with the steps `es` of other agents at the point `n` (from 0) of the next operation. -/
def inside (n : Nat) (es : List Stimulus) (s : State) : State :=
  { s with ports := { s.ports with interleaved := List.replicate n [] ++ [es] } }

/-- R281: a filter of 0 set between two frames of one HARVEST, after the first was read, drops the second. -/
theorem test_setFilter_inside_harvest :
    ran .harvest (inside 6 [.request 0x4400000000000000] (received 1 true (received 0 true up)))
      (fun t => (t.rx.readyList, t.ports.callbackResults, t.events)) =
      some (some .ok, [2, 3, 1], [.ok], [.indicateReceived [⟨0, [0xAA, 0xBB], false⟩] 1]) := by decide +kernel

/-- R281: lock `cmd` is free between two packets of DRAIN. -/
theorem test_waitAccept_inside_drain :
    ran .drain (inside 1 [.request 0x3100000000000001] { up with tx := { up.tx with waitQueue := [packetA] } })
      (fun t => (t.ports.callbackResults, t.tx.busyCount)) = some (some .ok, [.ok], 1) := by decide +kernel

/-- A frame to deliver and the line asserted, while link detection runs. -/
def deliverable : State :=
  received 0 true { scanning with regs := { scanning.regs with status := 0x208 } }

/-- R285 d: RESET from the callback of INTERRUPT's indication is deferred; INT_DISABLE there reaches `Sync` and begins
after the service (R94). -/
theorem test_requests_inside_interrupt :
    ran .interrupt (inside 18 [.request 0x0300000000000000, .request 0x0700000000000000] deliverable)
      (fun t => (t.link.pendingReset, t.ports.callbackResults, t.ports.schedule, t.regs.intmask, t.events.length)) =
      some (some .ok, true, [.pending], [.request 0x0700000000000000], 0, 1) := by decide +kernel

/-- R86: a return that finds lock `rx` held begins after HARVEST. -/
theorem test_recycle_inside_harvest_waits :
    ran .harvest (inside 1 [.request 0x2100000000000000] oneHanded)
      (fun t => (t.ports.callbackResults, t.ports.schedule, t.rx.pendingList)) =
      some (some .ok, [], [.request 0x2100000000000000], [0]) := by decide +kernel

/-- R143: the command unit transmits slot 2 between two completions. -/
theorem test_cuExecute_between_completions :
    ran .reclaim
      (inside 5 [.device .cuExecute]
        { up with
          regs := { up.regs with status := 0xA }
          units := ⟨2, some 0, .none⟩
          tx := { up.tx with
            busyCount := 3, tail := 3, transmitIdle := false
            shadow := [{ TxShadow.clear with inUse := true, packet := some packetA },
              { TxShadow.clear with inUse := true, packet := some packetB },
              { TxShadow.clear with inUse := true }, TxShadow.clear] }
          mem := (up.mem.write16 0x1038 0).write16 0x103A 0x4000 })
      (fun t => (t.events, t.tx.head, t.tx.busyCount)) =
      some (some .ok, [.completeSend packetA .success, .wireTx [], .completeSend packetB .success], 2, 1) := by
  decide +kernel

/-- R89, R148: a RECLAIM of another context that comes before the second completion of a first makes that one before its own. -/
theorem test_reclaim_inside_reclaim_keeps_order :
    ran .reclaim
      (inside 5 [.device .cuExecute, .request 0x1100000000000000]
        { up with
          regs := { up.regs with status := 0xA }
          units := ⟨2, some 0, .none⟩
          tx := { up.tx with
            busyCount := 3, tail := 3, transmitIdle := false
            shadow := [{ TxShadow.clear with inUse := true, packet := some packetA },
              { TxShadow.clear with inUse := true, packet := some packetB },
              { TxShadow.clear with inUse := true, packet := some { packetA with handle := 9 } }, TxShadow.clear] }
          mem := (up.mem.write16 0x1038 0).write16 0x103A 0x4000 })
      (fun t => (t.events, t.tx.busyCount, t.ports.completions)) =
      some (some .ok, [.completeSend packetA .success, .wireTx [], .completeSend packetB .success,
        .completeSend { packetA with handle := 9 } .success], 0, []) := by
  decide +kernel

/-- R90, R171: a HARVEST of another context that comes before the indication of a first makes that one before its own. -/
theorem test_harvest_inside_harvest_keeps_order :
    ran .harvest
      (inside 9 [.memoryWrite 0x2200 [0x00, 0xA0], .memoryWrite 0x220C [0x02, 0x80], .request 0x2000000000000000]
        (received 0 true up))
      (fun t => (t.events.map (fun e => match e with
        | .indicateReceived frames _ => frames.map (fun f => (f.d, f.low))
        | _ => []), t.rx.readyList, t.ports.indications)) =
      some (some .ok, [[(0, false)], [(1, false)]], [2, 3], []) := by
  decide +kernel

/-- R140: after a TEARDOWN between its checks and its lock SUBMIT goes on to the link gate, and TEARDOWN's second transition
waits for it (log entry 33). -/
theorem test_teardown_inside_submit :
    ran (.submit 1) (inside 1 [.request 0x0200000000000000, .teardownFinish] scanning)
      (fun t => (t.dev.lifecycle, t.tx.waitQueue, t.events)) = some (some .queued, .halting, [packetA], []) := by
  decide +kernel

/-- R191, R281: the Acceptor takes the command between the last poll and the setting of the flag. -/
theorem test_accept_after_last_poll :
    ran (.waitAccept 1) (inside 2 [.device .accept] { up with regs := { up.regs with pointer := 0x2000, command := 3 } })
      (fun t => (t.regs.command, t.dev.hardwareError)) = some (some .hardError, 0, true) := by decide +kernel

/-- R320: a WAIT_ACCEPT that runs out between the check and the lock keeps ISSUE_COMMAND from writing. -/
theorem test_issueCommand_writes_nothing_under_error :
    ran (.issueCommand true 3 0x2000)
      (inside 1 [.request 0x3100000000000001, .device .accept]
        { up with regs := { up.regs with pointer := 0x2200, command := 3 } })
      (fun t => (t.ports.callbackResults, t.dev.hardwareError, t.regs.command, t.regs.pointer)) =
      some (some .hardError, [.hardError], true, 0, 0x2200) := by decide +kernel

/-- R320, R282: the same between SUBMIT's check and the handoff; the slot stays the software's. -/
theorem test_submit_hands_nothing_over_under_error :
    ran (.submit 1)
      (inside 1 [.request 0x3100000000000001, .device .accept]
        { oneDone with regs := { oneDone.regs with pointer := 0x2200, command := 3 } })
      (fun t => (t.dev.hardwareError, t.tdC 1, t.tx.busyCount, t.regs.command)) =
      some (some .hardError, true, true, 1, 0) := by decide +kernel

/-- R163, R173: a dropped frame's descriptor goes back to the list untouched under the sticky error too, so that the receive
unit can complete it again (R176). -/
theorem test_harvest_under_error :
    ran .harvest (received 0 false broken) (fun t => (t.rx.readyList, t.mem.rdC 0x2000, t.mem.rdV 0x2000)) =
      some (some .ok, [1, 2, 3, 0], false, false) ∧
    ((next? (exec .harvest (received 0 false broken))).bind (fun t =>
      stepped (.device (.ruStatus true)) { t with units := { t.units with ruCursor := some 0 } }
        (fun u => (u.mem.rdC 0x2000, u.mem.rdOK 0x2000, u.units.ruPhase)))) = some (true, true, .statusDone) := by
  decide +kernel

/-- R241, R138: the second transition does not come inside the first, and a second TEARDOWN there is refused. -/
theorem test_teardownFinish_inside_teardown :
    ran .teardown (inside 1 [.request 0x0200000000000000, .teardownFinish] oneDone)
      (fun t => (t.dev.lifecycle, t.ports.callbackResults, t.ports.teardown, t.rx.readyList, t.events)) =
      some (none, .halting, [.invalidRequest], .notUnderWay, [0, 1, 2, 3], [.completeSend packetA .cancelled]) := by
  decide +kernel

/-- R138: the rings are torn down once. -/
theorem test_teardown_once :
    ran .teardown { up with ports := { up.ports with teardown := .finished } } (fun t => t.dev.lifecycle) =
      some (some .invalidRequest, .running) := by decide +kernel

/-- R243, R281: TEARDOWN between HEALTH_CHECK's last test of `deviceState` and its arming of the timer. -/
theorem test_teardown_inside_healthCheck :
    ran .healthCheck
      (inside 3 [.request 0x0200000000000000]
        { scanning with dev := { scanning.dev with healthTimer := .armed } })
      (fun t => (t.dev.lifecycle, t.dev.healthTimer)) = some (some .ok, .halting, .armed) := by decide +kernel

/-- R241, R24: a LINK_TICK that reaches `Done` between TEARDOWN's test of the link timer and its cancelling: the reference is
released once. -/
theorem test_linkTick_inside_teardown :
    ran .teardown (inside 5 [.request 0x4100000000000000] { scanning with dev := { scanning.dev with refCount := 3 } })
      (fun t => (t.dev.refCount, t.link.timer, t.ports.callbackResults)) = some (none, 2, .idle, [.ok]) := by
  decide +kernel

/-- R241: after a TEARDOWN between LINK_TICK's test of the timer and its taking it, "its step will never run". -/
theorem test_teardown_inside_linkTick :
    ran .linkTick (inside 0 [.request 0x0200000000000000] { scanning with dev := { scanning.dev with refCount := 3 } })
      (fun t => (t.dev.refCount, t.link.phase, t.dev.lifecycle)) =
      some (some .invalidRequest, 2, .scanningForLink, .halting) := by
  decide +kernel

/-- A direct write of `INTMASK` inside an INTERRUPT (log entry 28). -/
theorem test_maskWrite_inside_interrupt :
    ran .interrupt (inside 3 [.registerWrite 0x0C 1] deliverable) (fun t => t.regs.intmask) = some (some .ok, 1) := by
  decide +kernel

/-! ## Alignment (R74) -/

theorem test_growComplete_misaligned : fault? (exec (.growComplete true 0x3001) growing) = some .badAllocation := by
  decide +kernel

theorem test_cuResume_misaligned_link :
    fault? (exec .cuResume { up with
      regs := { up.regs with status := 0x9, command := 2 }, mem := up.mem.write32 0x1004 0x101D }) =
      some .danglingLink := by decide +kernel

/-! ## The hypotheses of the obligations are met -/

theorem witness_DecodeOfEncodeIsTheInstruction : Instr.wf (.growComplete true 0x3000) = true := by decide

theorem witness_EncodeOfDecodeIsTheWord : decode (.request 0x3081000000001000) = .ok (.issueCommand true 1 0x1000) := rfl

/-- A state with one stimulus scheduled. -/
def scheduled (e : Stimulus) (s : State) : State := { s with ports := { s.ports with schedule := [e] } }

theorem witness_StepRuns_request :
    (scheduled (.request 0x1000000000000001) up).ports.schedule = .request 0x1000000000000001 :: [] ∧
    decode (.request 0x1000000000000001) = .ok (.submit 1) := ⟨rfl, rfl⟩

/-- The state with a start of the command unit pending and the Acceptor's step next. -/
def pendingStart : State := scheduled (.device .accept) { up with regs := { up.regs with pointer := 0x101C, command := 1 } }

theorem witness_StepRuns_command :
    pendingStart.ports.schedule = .device .accept :: [] ∧ commandCode pendingStart.regs.command ≠ 0 ∧
    decode (.command pendingStart.regs.command) = .ok .cuStart := by
  and_intros
  · rfl
  · decide
  · rfl

theorem witness_StepRuns_port :
    (scheduled (.registerWrite 0x10 2) up).ports.schedule = .registerWrite 0x10 2 :: [] ∧
    decode (.port 2) = .ok .fullReset := ⟨rfl, rfl⟩

theorem witness_UndecodableWords_request :
    (scheduled (.request 0x0900000000000000) up).ports.schedule = .request 0x0900000000000000 :: [] ∧
    decode (.request 0x0900000000000000) = .error (.unknownOp 0x09) := ⟨rfl, rfl⟩

/-- The first reserved code. -/
theorem witness_UndecodableWords_write :
    (scheduled (.registerWrite 0x04 4) up).ports.schedule = .registerWrite 0x04 4 :: [] ∧
    4 ≤ (commandCode 4).toNat := ⟨rfl, by decide⟩

/-- A reserved code pending. -/
def reservedPending : State := scheduled (.device .accept) { up with regs := { up.regs with command := 4 } }

theorem witness_UndecodableWords_accept :
    reservedPending.ports.schedule = .device .accept :: [] ∧ 4 ≤ (commandCode reservedPending.regs.command).toNat :=
  ⟨rfl, by decide⟩

theorem witness_UndecodableWords_port :
    (scheduled (.registerWrite 0x10 3) up).ports.schedule = .registerWrite 0x10 3 :: [] ∧ (3 : Word) ≠ 1 ∧
    (3 : Word) ≠ 2 := ⟨rfl, by decide, by decide⟩

theorem witness_StepKeepsMemoryCanonical :
    (scheduled (.request 0x1000000000000001) up).mem.wf = true ∧
    ∃ t, step (scheduled (.request 0x1000000000000001) up) = .next t :=
  ⟨by decide +kernel, exists_of_next? (by decide +kernel)⟩

theorem witness_StepKeepsRegistersLegal :
    pendingStart.regs.Legal ∧ ∃ t, step pendingStart = .next t :=
  ⟨by unfold Registers.Legal; decide +kernel, exists_of_next? (by decide +kernel)⟩

/-- One posted descriptor and nothing else. -/
def onePosted : State :=
  scheduled (.request 0x2000000000000000)
    { up with rx := { RxRing.reset with
        shadows := [(0, ⟨.posted, some 0x2000, some 0x2000, 256, 0⟩)], readyList := [0], readyCount := 1
        currentCount := 1 } }

/-- The premises of the upper bound. -/
theorem witness_StepKeepsReceiveOwnership_capacity :
    onePosted.cfg.wf = true ∧ onePosted.rx.currentCount ≤ onePosted.cfg.rxMaxCount := by decide

theorem witness_StepKeepsReceiveOwnership :
    onePosted.settled = true ∧ onePosted.rx.Ownership ∧ ∃ t, step onePosted = .next t := by
  refine ⟨by decide, ⟨by decide, by decide, by decide, fun d => ?_, fun d => ?_, rfl, rfl, rfl, fun d h => by cases h⟩,
    exists_of_next? (by decide +kernel)⟩
  · by_cases h : d = 0 <;> simp [h, onePosted, scheduled, RxRing.shadow?, RxRing.reset, Ne.symm]
  · by_cases h : d = 0 <;> simp [h, onePosted, scheduled, RxRing.shadow?, RxRing.reset]

theorem witness_StepKeepsTransmitRingLaw :
    State.TxRingLaw (scheduled (.request 0x1100000000000000) oneDone) ∧
    ∃ t, step (scheduled (.request 0x1100000000000000) oneDone) = .next t :=
  ⟨by unfold State.TxRingLaw; decide +kernel, exists_of_next? (by decide +kernel)⟩

theorem witness_StepReleasesEveryLock :
    (scheduled (.request 0x2000000000000000) up).settled = true ∧
    ∃ t, step (scheduled (.request 0x2000000000000000) up) = .next t :=
  ⟨by decide, exists_of_next? (by decide +kernel)⟩

/-- A device that is being torn down. -/
def halting : State := { up with dev := { up.dev with lifecycle := .halting } }

theorem witness_NoWayBackIntoService :
    (scheduled .teardownFinish halting).dev.lifecycle.outOfService = true ∧
    ∃ t, step (scheduled .teardownFinish halting) = .next t :=
  ⟨by decide, exists_of_next? (by decide +kernel)⟩

theorem witness_HardwareErrorIsSticky :
    broken.deviceStepsOnly = true ∧ broken.dev.hardwareError = true ∧ Instr.waitAccept 3 ≠ .reset ∧
    Instr.waitAccept 3 ≠ .start ∧ Instr.waitAccept 3 ≠ .healthCheck ∧ Instr.waitAccept 3 ≠ .linkTick ∧
    ∃ t, exec (.waitAccept 3) broken = .next t :=
  ⟨rfl, rfl, by decide, by decide, by decide, by decide, exists_of_next? (by decide +kernel)⟩

theorem witness_OnlyTheNamedInstructionsWriteTheMask :
    up.deviceStepsOnly = true ∧ Instr.interrupt ≠ .intEnable ∧ Instr.interrupt ≠ .intDisable ∧ Instr.interrupt ≠ .start ∧
    Instr.interrupt ≠ .reset ∧ Instr.interrupt ≠ .teardown ∧ Instr.interrupt ≠ .healthCheck ∧
    Instr.interrupt ≠ .linkTick ∧ Instr.interrupt ≠ .fullReset ∧ ∃ t, exec .interrupt up = .next t :=
  ⟨rfl, by decide, by decide, by decide, by decide, by decide, by decide, by decide, by decide,
    exists_of_next? (by decide +kernel)⟩

theorem witness_PowerOnAcceptsOnlyStart : encode (.submit 1) = .request 0x1000000000000001 ∧ Instr.submit 1 ≠ .start :=
  ⟨by decide, by decide⟩

theorem witness_StartBringsTheDeviceUp :
    State.reset.quiet = true ∧ State.reset.dev.lifecycle = .uninitialised ∧ State.reset.cfg.wf = true ∧
    State.reset.mem.wf = true ∧ [0x4000, 0x4800].length = State.reset.cfg.numLocalBuf ∧
    [0x2000, 0x2200, 0x2400, 0x2600].length = State.reset.cfg.rxInitialCount ∧
    State.reset.ports.sharedReplies =
      (0x1000 :: ([0x4000, 0x4800] ++ [0x2000, 0x2200, 0x2400, 0x2600])).map some ++ [] ∧
    State.reset.ports.lookasideReplies = List.replicate State.reset.cfg.rxInitialCount true ++ [true, true] ∧
    (State.reset.ports.liveRegions ++
      startRegions State.reset.cfg 0x1000 [0x4000, 0x4800] [0x2000, 0x2200, 0x2400, 0x2600]).Pairwise
        (fun a b => a.disjoint b = true) ∧
    (∀ r ∈ startRegions State.reset.cfg 0x1000 [0x4000, 0x4800] [0x2000, 0x2200, 0x2400, 0x2600],
      0 < r.base ∧ inSpace r.base r.size = true) ∧
    (∀ i < State.reset.cfg.numTcb, Config.aligned State.reset.cfg (0x1000 + i * State.reset.cfg.tdSize) = true) ∧
    (∀ r ∈ [0x2000, 0x2200, 0x2400, 0x2600],
      Config.aligned State.reset.cfg (r + State.reset.cfg.rxAlignShift) = true) := by decide +kernel

theorem witness_TeardownBeginsHalting :
    oneDone.quiet = true ∧ (oneDone.dev.lifecycle = .running ∨ oneDone.dev.lifecycle = .withdrawn) ∧
    oneDone.ports.teardown = .notUnderWay ∧ oneDone.txLaidOut = true ∧ halting.quiet = true ∧
    halting.dev.lifecycle ≠ .running ∧ halting.dev.lifecycle ≠ .withdrawn ∧
    State.quiet { oneDone with ports := { oneDone.ports with teardown := .finished } } = true := by decide +kernel

/-- The second transition of TEARDOWN next, in the phase `ph` with `n` references. -/
def finishing (ph : TeardownPhase) (n : Nat) : State :=
  { halting with
    dev := { halting.dev with refCount := n }
    ports := { halting.ports with schedule := [.teardownFinish], teardown := ph } }

/-- A reference is held; the first transition is under way; the device does not halt. -/
theorem witness_TeardownFinishes_waits :
    (finishing .notUnderWay 1).locks = Locks.free ∧ (finishing .notUnderWay 1).ports.schedule = .teardownFinish :: [] ∧
    (finishing .notUnderWay 1).dev.refCount ≠ 0 ∧ (finishing .beginning 0).locks = Locks.free ∧
    (finishing .beginning 0).ports.teardown ≠ .notUnderWay ∧
    (scheduled .teardownFinish up).locks = Locks.free ∧ up.dev.lifecycle ≠ .halting := by decide +kernel

/-- The second transition next, with a packet that an overtaken SUBMIT has queued. -/
def finishingLate : State :=
  { finishing .notUnderWay 0 with tx := { halting.tx with waitQueue := [packetA] } }

theorem witness_TeardownFinishes_late :
    finishingLate.locks = Locks.free ∧ finishingLate.ports.schedule = .teardownFinish :: [] ∧
    finishingLate.dev.lifecycle = .halting ∧ finishingLate.ports.teardown = .notUnderWay ∧
    finishingLate.dev.refCount = 0 ∧ finishingLate.rx.outstandingReceives = 0 ∧ finishingLate.ports.submits = 0 ∧
    finishingLate.ports.interleaved = [] ∧ finishingLate.heldPackets ≠ [] ∧ finishingLate.txLaidOut = true := by
  decide +kernel

theorem witness_TeardownFinishes_ends :
    (finishing .notUnderWay 0).locks = Locks.free ∧ (finishing .notUnderWay 0).ports.schedule = .teardownFinish :: [] ∧
    (finishing .notUnderWay 0).dev.lifecycle = .halting ∧ (finishing .notUnderWay 0).ports.teardown = .notUnderWay ∧
    (finishing .notUnderWay 0).dev.refCount = 0 ∧ halting.rx.outstandingReceives = 0 ∧ halting.ports.submits = 0 ∧
    halting.tx.busyCount = 0 ∧ halting.tx.waitQueue = [] ∧ halting.rx.pendingList = [] ∧ halting.rx.allocState = .idle := by decide +kernel

/-- RUN0 with the Acceptor's step at the first poll of RESET's verification. -/
def answering : State :=
  { up with ports := { up.ports with
      interleaved := List.replicate (18 + 4 * up.cfg.numTcb + 2 * up.rx.readyList.length + 2 * up.heldPackets.length) [] ++
        [[.device .accept]] } }

theorem witness_ResetRecoversTheDevice :
    answering.settled = true ∧
    answering.ports.interleaved =
      List.replicate (18 + 4 * answering.cfg.numTcb + 2 * answering.rx.readyList.length +
        2 * answering.heldPackets.length) [] ++ [[.device .accept]] ∧
    answering.dev.lifecycle = .running ∧ answering.link.phase.inProgress = false ∧ answering.txLaidOut = true ∧
    answering.rxLaidOut = true ∧ answering.mem.wf = true ∧ 1 ≤ answering.cfg.acceptPollBudget ∧
    answering.rx.readyList = 0 :: [1, 2, 3] ∧ answering.rdAddr? 0 = some 0x2000 ∧
    Config.aligned answering.cfg 0x2000 = true := by decide +kernel

/-- The posted headers lie outside the TD array. -/
theorem witness_ResetRecoversTheDevice_headers : ∀ x ∈ answering.rx.readyList, ∀ b, answering.rdAddr? x = some b →
    b + rdSize ≤ answering.tx.base ∨ answering.tx.base + answering.cfg.numTcb * answering.cfg.tdSize ≤ b := by
  intro x hx b hb
  have h : ∀ x ∈ answering.rx.readyList, (answering.rdAddr? x).all (fun b => decide (b + rdSize ≤ answering.tx.base) ||
      decide (answering.tx.base + answering.cfg.numTcb * answering.cfg.tdSize ≤ b)) = true := by decide +kernel
  simpa [hb] using h x hx

theorem witness_ResetDefersAndRefuses :
    scanning.quiet = true ∧ scanning.dev.lifecycle = .running ∧ scanning.link.phase.inProgress = true ∧
    State.quiet { up with dev := { up.dev with lifecycle := .withdrawn } } = true ∧
    halting.quiet = true ∧ halting.dev.lifecycle ≠ .running ∧ halting.dev.lifecycle ≠ .withdrawn := by decide +kernel

/-- RUN0 after `n` consecutive failed resets. -/
def failedResets (n : Nat) : State := { up with dev := { up.dev with consecutiveResetFailures := n } }

/-- Both sides of the bound of three attempts. -/
theorem witness_FailedResetsEscalate :
    (failedResets 1).locks = Locks.free ∧ (failedResets 1).ports.interleaved = [] ∧
    (failedResets 2).ports.interleaved = [] ∧
    (failedResets 1).dev.consecutiveResetFailures + 1 < (failedResets 1).cfg.maxResetAttempts ∧
    (failedResets 2).locks = Locks.free ∧
    (failedResets 2).cfg.maxResetAttempts ≤ (failedResets 2).dev.consecutiveResetFailures + 1 := by decide +kernel

/-- D42: what a LINK_START of another context has armed is cancelled with the withdrawal, and its reference released. -/
theorem test_resetFailed_cancels_linkTimer :
    ran .reset
      (inside (15 + 4 * up.cfg.numTcb + 2 * up.rx.readyList.length) [.request 0x4000000000000000] (failedResets 2))
      (fun t => (t.ports.callbackResults, t.dev.lifecycle, t.link.timer, t.dev.healthTimer, t.dev.refCount)) =
      some (some .nonRecoverable, [.ok], .withdrawn, .idle, .idle, 0) := by decide +kernel

theorem witness_HealthCheck_detecting :
    State.quiet { scanning with dev := { scanning.dev with healthTimer := .armed } } = true ∧
    scanning.dev.lifecycle = .running ∧ scanning.link.phase ≠ .done := by decide +kernel

theorem witness_HealthCheck_reset :
    broken.quiet = true ∧ broken.dev.lifecycle = .running ∧ broken.dev.healthTimer = .armed ∧
    broken.link.phase = .done ∧ broken.dev.hardwareError = true ∧
    ∃ t, exec .reset { broken with dev := { broken.dev with healthTimer := .idle } } = .next t :=
  ⟨by decide +kernel, rfl, rfl, rfl, rfl, exists_of_next? (by decide +kernel)⟩

theorem witness_HealthCheck_probe :
    up.quiet = true ∧ up.dev.lifecycle = .running ∧ up.dev.healthTimer = .armed ∧ up.link.phase = .done ∧
    up.dev.hardwareError = false ∧ up.tx.busyCount = 0 ∧ up.tx.waitQueue = [] ∧ up.link.selected = .addr 1 ∧
    statusRus up.regs.status = unitActive := by decide +kernel

/-- Slot 0 is the hardware's and not completed. -/
def oneStuck : State :=
  { oneDone with mem := oneDone.mem.write16 0x1000 0, link := { oneDone.link with selected := .alternateWiring } }

theorem witness_HealthCheck_counts :
    oneStuck.quiet = true ∧ oneStuck.dev.lifecycle = .running ∧ oneStuck.dev.healthTimer = .armed ∧
    oneStuck.link.phase = .done ∧ oneStuck.dev.hardwareError = false ∧ 0 < oneStuck.tx.busyCount ∧
    oneStuck.tx.head < oneStuck.cfg.numTcb ∧ oneStuck.txLaidOut = true ∧ oneStuck.tdC oneStuck.tx.head = false ∧
    (oneStuck.tx.shadowAt oneStuck.tx.head).retryCount + 1 ≤ oneStuck.cfg.hangThreshold ∧
    oneStuck.link.selected = .alternateWiring ∧ statusRus oneStuck.regs.status = unitActive := by decide +kernel

/-- Slot 0 at the threshold: one more check is one too many. -/
def oneHung : State :=
  { oneStuck with tx := oneStuck.tx.mapShadow 0 (fun sh => { sh with retryCount := oneStuck.cfg.hangThreshold }) }

theorem witness_HealthCheck_hang :
    oneHung.quiet = true ∧ oneHung.dev.lifecycle = .running ∧ oneHung.dev.healthTimer = .armed ∧
    oneHung.link.phase = .done ∧ oneHung.dev.hardwareError = false ∧ 0 < oneHung.tx.busyCount ∧
    oneHung.tx.head < oneHung.cfg.numTcb ∧ oneHung.txLaidOut = true ∧ oneHung.tdC oneHung.tx.head = false ∧
    oneHung.cfg.hangThreshold < (oneHung.tx.shadowAt oneHung.tx.head).retryCount + 1 ∧
    ∃ t, exec .reset { oneHung with
      dev := { oneHung.dev with healthTimer := .idle }
      tx := { oneHung.tx with
        shadow := oneHung.tx.shadow.set oneHung.tx.head
          { oneHung.tx.shadowAt oneHung.tx.head with
            retryCount := (oneHung.tx.shadowAt oneHung.tx.head).retryCount + 1 } } } = .next t :=
  ⟨by decide +kernel, rfl, rfl, rfl, rfl, by decide +kernel, by decide +kernel, by decide +kernel, by decide +kernel,
    by decide +kernel, exists_of_next? (by decide +kernel)⟩

/-- RUN0 with `FR` set. -/
def asserted : State := { up with regs := { up.regs with status := 0x208 } }

theorem witness_InterruptAcknowledgesTheCauses :
    up.quiet = true ∧ up.lineAsserted = false ∧
    asserted.quiet = true ∧ asserted.dev.lifecycle = .running ∧ asserted.lineAsserted = true ∧
    asserted.tx.busyCount = 0 ∧ asserted.tx.waitQueue = [] ∧ asserted.rxLaidOut = true ∧
    asserted.nothingToHarvest = true ∧ asserted.cfg.rxLowWater ≤ asserted.rx.readyCount ∧
    statusRus asserted.regs.status = unitActive := by decide +kernel

theorem witness_MaskRequestsWriteTheMask :
    up.quiet = true ∧ up.dev.lifecycle = .running ∧ halting.quiet = true ∧ halting.dev.lifecycle ≠ .running := by
  decide +kernel

theorem witness_SetPowerWaitsForHeldBuffers :
    up.quiet = true ∧ up.dev.lifecycle = .running ∧ up.rx.outstandingReceives = 0 ∧
    oneHanded.quiet = true ∧ oneHanded.dev.lifecycle = .running ∧ 0 < oneHanded.rx.outstandingReceives := by
  decide +kernel

/-- After TEARDOWN. -/
def halted : State := { State.reset with dev := { Device.reset with lifecycle := .halted } }

theorem witness_HaltedRefusesEveryRequest :
    encode .harvest = .request 0x2000000000000000 ∧ halted.quiet = true ∧ halted.dev.lifecycle = .halted ∧
    halted.link.timer = .idle ∧ halted.dev.healthTimer = .idle ∧ halted.rx.allocState = .idle ∧
    (∀ d, halted.isHanded d = false) := by
  refine ⟨by decide, by decide, rfl, rfl, rfl, rfl, fun d => rfl⟩

/-- The transmitter has been started and its start is still pending. -/
def chained : State := { oneDone with regs := { oneDone.regs with command := 1 } }

theorem witness_SubmitStartsAnIdleTransmitter :
    up.quiet = true ∧ up.dev.lifecycle = .running ∧ up.packetOf? 1 = some packetA ∧
    Config.packetAllowed up.cfg packetA = true ∧ up.dev.hardwareError = false ∧ up.link.phase = .done ∧
    up.link.media = .connected ∧ up.tx.waitQueue = [] ∧ up.tx.busyCount < up.cfg.numTcb ∧
    Config.mustCoalesce up.cfg packetA = false ∧ up.tx.transmitIdle = true ∧ commandCode up.regs.command = 0 ∧
    1 ≤ up.cfg.acceptPollBudget ∧ up.cfg.maxFragments ≤ 255 ∧ up.mem.wf = true ∧ up.txLaidOut = true ∧
    up.tx.tail < up.cfg.numTcb := by decide +kernel

theorem witness_SubmitAppendsAndResumes :
    oneDone.quiet = true ∧ oneDone.dev.lifecycle = .running ∧ oneDone.packetOf? 1 = some packetA ∧
    Config.packetAllowed oneDone.cfg packetA = true ∧ oneDone.dev.hardwareError = false ∧ oneDone.link.phase = .done ∧
    oneDone.link.media = .connected ∧ oneDone.tx.waitQueue = [] ∧ oneDone.tx.busyCount < oneDone.cfg.numTcb ∧
    Config.mustCoalesce oneDone.cfg packetA = false ∧ oneDone.tx.transmitIdle = false ∧
    commandCode oneDone.regs.command = 0 ∧ 1 ≤ oneDone.cfg.acceptPollBudget ∧ oneDone.cfg.maxFragments ≤ 255 ∧
    oneDone.mem.wf = true ∧ oneDone.txLaidOut = true ∧ oneDone.tx.tail < oneDone.cfg.numTcb := by decide +kernel

theorem witness_SubmitTimeoutRollsTheSlotBack :
    chained.quiet = true ∧ chained.dev.lifecycle = .running ∧ chained.packetOf? 1 = some packetA ∧
    Config.packetAllowed chained.cfg packetA = true ∧ chained.dev.hardwareError = false ∧
    chained.link.phase = .done ∧ chained.link.media = .connected ∧ chained.tx.waitQueue = [] ∧
    chained.tx.busyCount < chained.cfg.numTcb ∧ Config.mustCoalesce chained.cfg packetA = false ∧
    chained.tx.resumeWaitNeeded = true ∧ commandCode chained.regs.command ≠ 0 ∧ 1 ≤ chained.cfg.maxFragments ∧
    chained.cfg.maxFragments ≤ 255 ∧
    chained.mem.wf = true ∧ chained.txLaidOut = true ∧ chained.tx.tail < chained.cfg.numTcb ∧
    chained.tx.shadowAt chained.tx.tail = TxShadow.clear := by decide +kernel

/-- The packet that needs a local buffer. -/
theorem witness_SubmitTimeoutRollsTheSlotBack_buffer :
    chained.packetOf? 2 = some packetB ∧ Config.packetAllowed chained.cfg packetB = true ∧
    Config.mustCoalesce chained.cfg packetB = true ∧ chained.tx.localBufFree = 0 :: [1] ∧
    chained.tx.localBufFree.Pairwise (· < ·) ∧ 60 = max packetB.totalLen chained.cfg.minFrameSize ∧
    inSpace (chained.bufAddr 0) 60 = true ∧
    (∀ f ∈ packetB.frags, inSpace f.addr.toNat f.len.toNat = true) := by decide +kernel

theorem witness_SubmitQueuesAndRefuses :
    up.packetOf? 1 = some packetA ∧ Config.packetAllowed up.cfg packetA = true ∧ up.quiet = true ∧
    State.quiet { up with dev := { up.dev with lifecycle := .withdrawn } } = true ∧
    halting.quiet = true ∧ halting.packetOf? 1 = some packetA ∧ halting.dev.lifecycle ≠ .running ∧
    halting.dev.lifecycle ≠ .withdrawn ∧ broken.quiet = true ∧ broken.packetOf? 1 = some packetA ∧
    broken.dev.lifecycle = .running ∧ broken.dev.hardwareError = true ∧
    scanning.quiet = true ∧ scanning.packetOf? 1 = some packetA ∧ scanning.dev.lifecycle = .running ∧
    scanning.dev.hardwareError = false ∧ scanning.link.phase ≠ .done := by decide +kernel

/-- The link is absent and the policy says so. -/
def unplugged : State :=
  { up with cfg := { up.cfg with noLinkSendPolicy := .failSends }, link := { up.link with media := .disconnected } }

theorem witness_SubmitQueuesAndRefuses_linkDown :
    unplugged.quiet = true ∧ unplugged.packetOf? 1 = some packetA ∧
    Config.packetAllowed unplugged.cfg packetA = true ∧ unplugged.dev.lifecycle = .running ∧
    unplugged.dev.hardwareError = false ∧ unplugged.link.phase = .done ∧ unplugged.link.media = .disconnected ∧
    unplugged.cfg.noLinkSendPolicy = .failSends := by decide +kernel

theorem witness_SubmitCoalesces :
    up.quiet = true ∧ up.dev.lifecycle = .running ∧ up.packetOf? 2 = some packetB ∧
    Config.packetAllowed up.cfg packetB = true ∧ up.dev.hardwareError = false ∧ up.link.phase = .done ∧
    up.link.media = .connected ∧ up.tx.waitQueue = [] ∧ up.tx.busyCount < up.cfg.numTcb ∧
    Config.mustCoalesce up.cfg packetB = true ∧ up.tx.localBufFree = 0 :: [1] ∧
    60 = max packetB.totalLen up.cfg.minFrameSize ∧ up.tx.transmitIdle = true ∧ commandCode up.regs.command = 0 ∧
    1 ≤ up.cfg.acceptPollBudget ∧ 1 ≤ up.cfg.maxFragments ∧ up.mem.wf = true ∧ up.txLaidOut = true ∧
    up.tx.tail < up.cfg.numTcb ∧ inSpace (up.bufAddr 0) 60 = true ∧
    up.tx.base + up.cfg.numTcb * up.cfg.tdSize ≤ up.bufAddr 0 ∧
    (∀ f ∈ packetB.frags, inSpace f.addr.toNat f.len.toNat = true ∧
      (f.addr.toNat + f.len.toNat ≤ up.bufAddr 0 ∨ up.bufAddr 0 + 60 ≤ f.addr.toNat)) := by decide +kernel

/-- No local buffer is free. -/
def noBuffers : State := { up with tx := { up.tx with localBufFree := [] } }

theorem witness_SubmitCoalesces_none :
    noBuffers.quiet = true ∧ noBuffers.dev.lifecycle = .running ∧ noBuffers.packetOf? 2 = some packetB ∧
    Config.packetAllowed noBuffers.cfg packetB = true ∧ noBuffers.dev.hardwareError = false ∧
    noBuffers.link.phase = .done ∧ noBuffers.link.media = .connected ∧ noBuffers.tx.waitQueue = [] ∧
    noBuffers.tx.busyCount < noBuffers.cfg.numTcb ∧ Config.mustCoalesce noBuffers.cfg packetB = true ∧
    noBuffers.tx.localBufFree = [] := by decide +kernel

theorem witness_ReclaimRetiresCompletedSlots :
    oneDone.quiet = true ∧ oneDone.dev.lifecycle = .running ∧ oneDone.tx.waitQueue = [] ∧ oneDone.txLaidOut = true ∧
    oneDone.tx.head < oneDone.cfg.numTcb ∧ 1 ≤ oneDone.tx.busyCount ∧ oneDone.tx.busyCount ≤ oneDone.cfg.numTcb ∧
    (∀ j < 1, (oneDone.tx.shadowAt ((oneDone.tx.head + j) % oneDone.cfg.numTcb)).inUse = true ∧
      oneDone.tdC ((oneDone.tx.head + j) % oneDone.cfg.numTcb) = true) ∧ 1 = oneDone.tx.busyCount := by decide +kernel

theorem witness_CancelCompletesMatchingPackets :
    up.quiet = true ∧ up.dev.lifecycle = .running ∧ halting.quiet = true ∧ halting.dev.lifecycle ≠ .running ∧
    halting.dev.lifecycle ≠ .withdrawn := by decide +kernel

/-- One packet in the wait queue. -/
def queued : State := { up with tx := { up.tx with waitQueue := [packetA] } }

theorem witness_DrainPlacesTheOldestPacket :
    queued.quiet = true ∧ queued.dev.lifecycle = .running ∧ queued.tx.waitQueue = packetA :: [] ∧
    queued.tx.busyCount < queued.cfg.numTcb ∧ queued.dev.hardwareError = false ∧ queued.link.phase = .done ∧
    queued.link.media = .connected ∧ Config.mustCoalesce queued.cfg packetA = false ∧ queued.tx.transmitIdle = true ∧
    commandCode queued.regs.command = 0 ∧ 1 ≤ queued.cfg.acceptPollBudget ∧ queued.cfg.maxFragments ≤ 255 ∧
    queued.mem.wf = true ∧ queued.txLaidOut = true ∧ queued.tx.tail < queued.cfg.numTcb := by decide +kernel

theorem witness_PoolInitRebuildsTheRing :
    up.ports.interleaved = [] ∧ up.mem.wf = true ∧ inSpace up.tx.base (up.cfg.numTcb * up.cfg.tdSize) = true := by
  decide +kernel

/-- Slot 0 is the hardware's, with one fragment and `S` as given. -/
def transmitting (sBit : Bool) : State :=
  { up with
    regs := { up.regs with status := 0xA }
    mem := ((((up.mem.write16 0x1000 0).write16 0x1002 (tdCommandWord sBit)).setByte 0x1008 1).write32 0x100C
      0x9000).write32 0x1010 3 }

theorem witness_CommandUnitTransmitsTheSlot :
    (transmitting true).mem.wf = true ∧ (transmitting true).txLaidOut = true ∧ (transmitting true).units.cuCursor = 0 ∧
    0 < (transmitting true).cfg.numTcb ∧ statusCus (transmitting true).regs.status = unitActive ∧
    (transmitting true).tdC 0 = false ∧ ((transmitting true).tdFragCount 0).toNat ≤ (transmitting true).cfg.maxFragments ∧
    (∀ k < ((transmitting true).tdFragCount 0).toNat,
      inSpace ((transmitting true).tdFragAddr 0 k).toNat ((transmitting true).tdFragLen 0 k).toNat = true) ∧
    (transmitting true).tdS 0 = true := by decide +kernel

theorem witness_CommandUnitTransmitsTheSlot_moves :
    (transmitting false).mem.wf = true ∧ (transmitting false).txLaidOut = true ∧
    (transmitting false).tdC 0 = false ∧ (transmitting false).tdS 0 = false ∧
    Config.aligned (transmitting false).cfg ((transmitting false).tdLink 0).toNat = true ∧
    (transmitting false).slotAt? ((transmitting false).tdLink 0).toNat = some 1 := by decide +kernel

/-- The state with slot 0 leading to `a`. -/
def leading (a : Word) (s : State) : State := { s with mem := s.mem.write32 0x1004 a }

/-- A link that is misaligned, and one past the last slot. -/
theorem witness_CommandUnitTransmitsTheSlot_lost :
    (leading 0x101D (transmitting false)).mem.wf = true ∧ (leading 0x101D (transmitting false)).tdS 0 = false ∧
    (leading 0x101D (transmitting false)).tdC 0 = false ∧
    Config.aligned Config.cfgT ((leading 0x101D (transmitting false)).tdLink 0).toNat = false ∧
    (leading 0x1070 (transmitting false)).mem.wf = true ∧ (leading 0x1070 (transmitting false)).tdS 0 = false ∧
    (leading 0x1070 (transmitting false)).tdC 0 = false ∧
    (leading 0x1070 (transmitting false)).slotAt? ((leading 0x1070 (transmitting false)).tdLink 0).toNat = none := by
  decide +kernel

/-- Descriptor 0 completed with a good frame of two bytes. -/
def good : State := received 0 true up

theorem witness_HarvestDeliversAFrame :
    good.quiet = true ∧ good.dev.lifecycle = .running ∧ good.rxLaidOut = true ∧ good.rx.readyList = 0 :: [1, 2, 3] ∧
    good.rdAddr? 0 = some 0x2000 ∧ good.rxCompleted 0 = true ∧ good.mem.rdOK 0x2000 = true ∧
    good.dev.packetFilter ≠ 0 ∧ good.dev.power = .fullyPowered ∧ good.cfg.rxMinReady < good.rx.readyCount - 1 ∧
    (∀ e, [1, 2, 3].head? = some e → good.rxCompleted e = false) ∧
    inSpace (good.mem.rdPayloadPtr 0x2000).toNat (good.mem.rdCount 0x2000) = true ∧
    good.cfg.rxLowWater ≤ good.rx.readyCount - 1 ∧ 1 ≤ good.cfg.harvestIterationMax := by
  and_intros <;> first
    | (intro e h; cases h; decide +kernel)
    | decide +kernel

/-- Descriptor 0 completed with a bad frame. -/
def bad : State := received 0 false up

theorem witness_HarvestRecyclesWhatIsNotKept :
    bad.quiet = true ∧ bad.dev.lifecycle = .running ∧ bad.mem.wf = true ∧ bad.rxLaidOut = true ∧
    bad.rx.readyList = 0 :: [1, 2, 3] ∧ 0 ∉ [1, 2, 3] ∧ bad.rdAddr? 0 = some 0x2000 ∧
    bad.rxCompleted 0 = true ∧ (∀ e, [1, 2, 3].head? = some e → bad.rxCompleted e = false) ∧
    inSpace (bad.mem.rdPayloadPtr 0x2000).toNat (bad.mem.rdCount 0x2000) = true ∧
    bad.cfg.rxLowWater ≤ bad.rx.readyCount ∧ 1 ≤ bad.rx.readyCount ∧ 1 ≤ bad.cfg.harvestIterationMax ∧
    1 ≤ bad.cfg.indicateBatchMax ∧
    bad.mem.rdOK 0x2000 = false := by
  and_intros <;> first
    | (intro e h; cases h; decide +kernel)
    | decide +kernel

/-- A good frame at the threshold, with its descriptor the only posted one. -/
def lastLow : State :=
  let s : State := { up with rx := { RxRing.reset with
    shadows := [(0, ⟨.posted, some 0x2000, some 0x2000, 256, 0⟩)], readyList := [0], readyCount := 1, currentCount := 1 } }
  { received 0 true s with cfg := { up.cfg with rxMinReady := 1, rxLowWater := 1 } }

theorem witness_HarvestRecyclesWhatIsNotKept_low :
    lastLow.quiet = true ∧ lastLow.dev.lifecycle = .running ∧ lastLow.mem.wf = true ∧ lastLow.rxLaidOut = true ∧
    lastLow.rx.readyList = 0 :: [] ∧ lastLow.rdAddr? 0 = some 0x2000 ∧ lastLow.rxCompleted 0 = true ∧
    inSpace (lastLow.mem.rdPayloadPtr 0x2000).toNat (lastLow.mem.rdCount 0x2000) = true ∧
    lastLow.cfg.rxLowWater ≤ lastLow.rx.readyCount ∧ 1 ≤ lastLow.rx.readyCount ∧
    1 ≤ lastLow.cfg.harvestIterationMax ∧ 1 ≤ lastLow.cfg.indicateBatchMax ∧
    lastLow.rx.readyCount - 1 ≤ lastLow.cfg.rxMinReady := by decide +kernel

theorem witness_ReturnedDescriptorIsRecycled :
    oneHanded.shrinkEligible = false ∧ oneHanded.quiet = true ∧ oneHanded.mem.wf = true ∧ oneHanded.rxLaidOut = true ∧
    oneHanded.isHanded (0 : Word).toNat = true ∧ oneHanded.rdAddr? (0 : Word).toNat = some 0x2000 ∧
    (0 : Word).toNat ∉ oneHanded.rx.readyList := by decide +kernel

/-- The same, and the bad frame, with the sticky error. -/
theorem witness_Recycled_under_error :
    let s : State := { oneHanded with dev := broken.dev }
    let b : State := received 0 false broken
    s.dev.hardwareError = true ∧ s.shrinkEligible = false ∧ s.quiet = true ∧ s.mem.wf = true ∧ s.rxLaidOut = true ∧
    s.isHanded (0 : Word).toNat = true ∧ s.rdAddr? (0 : Word).toNat = some 0x2000 ∧
    b.dev.hardwareError = true ∧ b.quiet = true ∧ b.dev.lifecycle = .running ∧ b.mem.wf = true ∧ b.rxLaidOut = true ∧
    b.rx.readyList = 0 :: [1, 2, 3] ∧ b.rdAddr? 0 = some 0x2000 ∧ b.rxCompleted 0 = true ∧ b.rxCompleted 1 = false ∧
    inSpace (b.mem.rdPayloadPtr 0x2000).toNat (b.mem.rdCount 0x2000) = true ∧ b.cfg.rxLowWater ≤ b.rx.readyCount ∧
    b.mem.rdOK 0x2000 = false := by decide +kernel

theorem witness_ReturnedDescriptorIsFreedOrRefused :
    shrinkable.quiet = true ∧ shrinkable.isHanded (0 : Word).toNat = true ∧ shrinkable.shrinkEligible = true ∧
    (shrinkable.rx.shadow? (0 : Word).toNat).bind (·.allocBase) = some 0x2000 ∧
    up.quiet = true ∧ up.isHanded (1 : Word).toNat = false ∧ up.shrinkEligible = false := by decide +kernel

/-- The same with a power transition that waits for this last buffer. -/
theorem witness_ReturnedDescriptorIsFreedOrRefused_power :
    let s : State := { shrinkable with dev := { shrinkable.dev with powerTransitionPending := true } }
    s.quiet = true ∧ s.isHanded (0 : Word).toNat = true ∧ s.shrinkEligible = true ∧
    (s.rx.shadow? (0 : Word).toNat).bind (·.allocBase) = some 0x2000 ∧ s.rx.outstandingReceives - 1 = 0 := by
  decide +kernel

/-- The receive unit idle, descriptor 0 completed. -/
def stopped : State := received 0 true { up with regs := { up.regs with status := 0 } }

theorem witness_EnsureStartedStartsAtTheFirstUntouched :
    stopped.quiet = true ∧ stopped.dev.lifecycle = .running ∧ stopped.dev.hardwareError = false ∧
    statusRus stopped.regs.status ≠ unitActive ∧ stopped.rxLaidOut = true ∧
    stopped.rx.readyList = [0] ++ 1 :: [2, 3] ∧ (∀ x ∈ [0], stopped.rxUntouched x = false) ∧
    stopped.rxUntouched 1 = true ∧ stopped.rdAddr? 1 = some 0x2200 ∧ commandCode stopped.regs.command = 0 ∧
    1 ≤ stopped.cfg.acceptPollBudget ∧ statusRus up.regs.status = unitActive := by decide +kernel

theorem witness_GrowReservesOneDescriptor :
    up.quiet = true ∧ up.dev.lifecycle = .running ∧ up.rx.currentCount < up.cfg.rxMaxCount ∧
    up.rx.allocState = .idle ∧ up.ports.lookasideReplies = true :: [true] ∧ up.rx.shadow? 4 = none ∧
    (∀ e < 4, up.rx.shadow? e ≠ none) ∧ growing.quiet = true ∧ growing.dev.lifecycle = .running ∧
    growing.rx.allocState = .allocationInFlight 4 ∧ growing.rx.allocState ≠ .idle := by decide +kernel

/-- X15c: the region arrives while the device is being torn down. -/
def growingHalting : State := { growing with dev := { growing.dev with lifecycle := .halting } }

theorem witness_GrowReservesOneDescriptor_late :
    growingHalting.quiet = true ∧ growingHalting.rx.allocState = .allocationInFlight 4 ∧
    growingHalting.dev.lifecycle ≠ .running ∧
    regionAllowed growingHalting.ports.liveRegions ⟨(0x3000 : Word).toNat, growingHalting.cfg.rxRegionSize⟩ = true ∧
    Config.aligned growingHalting.cfg ((0x3000 : Word).toNat + growingHalting.cfg.rxAlignShift) = true := by
  decide +kernel

theorem witness_GrowReservesOneDescriptor_misaligned :
    growing.quiet = true ∧ growing.rx.allocState = .allocationInFlight 4 ∧
    Config.aligned growing.cfg ((0x3001 : Word).toNat + growing.cfg.rxAlignShift) = false := by decide +kernel

theorem witness_GrowReservesOneDescriptor_exhausted :
    State.quiet { up with ports := { up.ports with lookasideReplies := [] } } = true ∧ up.dev.lifecycle = .running ∧
    State.quiet { up with ports := { up.ports with lookasideReplies := false :: [true] } } = true ∧
    up.rx.currentCount < up.cfg.rxMaxCount ∧ up.rx.allocState = .idle := by decide +kernel

theorem witness_GrowCompleteAppendsTheDescriptor :
    growing.quiet = true ∧ growing.dev.lifecycle = .running ∧ growing.mem.wf = true ∧ growing.rxLaidOut = true ∧
    growing.rx.allocState = .allocationInFlight 4 ∧ growing.rx.currentCount < growing.cfg.rxMaxCount ∧
    regionAllowed growing.ports.liveRegions ⟨(0x3000 : Word).toNat, growing.cfg.rxRegionSize⟩ = true ∧
    4 ∉ growing.rx.readyList ∧ growing.cfg.rxBufferCapacity ≤ 16383 ∧
    0x3000 = (0x3000 : Word).toNat + growing.cfg.rxAlignShift ∧ Config.aligned growing.cfg 0x3000 = true ∧
    (∀ q, growing.rx.readyList.getLast? = some q → separateHeaders (some 0x3000) (growing.rdAddr? q) = true) := by
  and_intros <;> first
    | (intro q h; cases h; decide +kernel)
    | decide +kernel

/-- The unit half way through the descriptor `d`. -/
def halfway (d : Nat) (ph : RuPhase) : State := { up with units := ⟨0, some d, ph⟩ }

theorem witness_ReceiveUnitWritesTheStatus :
    up.mem.wf = true ∧ statusRus up.regs.status = unitActive ∧ (halfway 3 .countDone).units.ruCursor = some 3 ∧
    up.rdAddr? 3 = some 0x2600 ∧ inSpace 0x2600 rdSize = true ∧ up.mem.rdEL 0x2600 = true ∧
    up.units.ruPhase = .none ∧ up.units.ruCursor = some 0 ∧ up.rdAddr? 0 = some 0x2000 ∧
    inSpace 0x2000 rdSize = true ∧ up.mem.rdC 0x2000 = false ∧ up.mem.rdEL 0x2000 = false ∧
    Config.aligned up.cfg (up.mem.rdLink 0x2000).toNat = true ∧
    up.postedAt? (up.mem.rdLink 0x2000).toNat = some 1 := by decide +kernel

/-- The state with descriptor 0 leading to `a`, the unit in the phase `ph`. -/
def leadingTo (a : Word) (ph : RuPhase) : State := { halfway 0 ph with mem := up.mem.write32 0x2004 a }

/-- A link that is misaligned, and one that no posted descriptor has. -/
theorem witness_ReceiveUnitWritesTheStatus_lost :
    (leadingTo 0x2201 .countDone).mem.wf = true ∧ (leadingTo 0x2201 .countDone).mem.rdEL 0x2000 = false ∧
    Config.aligned Config.cfgT ((leadingTo 0x2201 .countDone).mem.rdLink 0x2000).toNat = false ∧
    (leadingTo 0x2800 .countDone).mem.wf = true ∧ (leadingTo 0x2800 .countDone).mem.rdEL 0x2000 = false ∧
    (leadingTo 0x2800 .countDone).postedAt? ((leadingTo 0x2800 .countDone).mem.rdLink 0x2000).toNat = none := by
  decide +kernel

theorem witness_ReceiveUnitWritesThePayloadAndCount :
    up.mem.wf = true ∧ statusRus up.regs.status = unitActive ∧ up.units.ruCursor = some 0 ∧
    up.rdAddr? 0 = some 0x2000 ∧ inSpace 0x2000 rdSize = true ∧ up.units.ruPhase = .none ∧
    up.mem.rdC 0x2000 = false ∧ 1 ≤ ([7, 8, 9] : List Byte).length ∧
    ([7, 8, 9] : List Byte).length ≤ up.mem.rdCapacity 0x2000 ∧
    inSpace (up.mem.rdPayloadPtr 0x2000).toNat ([7, 8, 9] : List Byte).length = true ∧
    0x2000 + rdSize ≤ (up.mem.rdPayloadPtr 0x2000).toNat := by decide +kernel

/-- The count as the second half: at the end of the list, and before the next descriptor. -/
theorem witness_ReceiveUnitWritesThePayloadAndCount_second :
    (halfway 3 .statusDone).units.ruCursor = some 3 ∧ up.rdAddr? 3 = some 0x2600 ∧ up.mem.rdEL 0x2600 = true ∧
    inSpace (up.mem.rdPayloadPtr 0x2600).toNat 256 = true ∧ 256 ≤ up.mem.rdCapacity 0x2600 ∧
    0x2600 + rdSize ≤ (up.mem.rdPayloadPtr 0x2600).toNat ∧
    (halfway 0 .statusDone).units.ruPhase = .statusDone ∧ up.mem.rdEL 0x2000 = false ∧
    Config.aligned up.cfg (up.mem.rdLink 0x2000).toNat = true ∧
    up.postedAt? (up.mem.rdLink 0x2000).toNat = some 1 := by decide +kernel

/-- One byte more than the capacity, and a unit that is not ready. -/
theorem witness_FramesWithNoDescriptorAreLost :
    statusRus stopped.regs.status ≠ unitActive ∧ up.units.ruCursor = some 0 ∧ up.rdAddr? 0 = some 0x2000 ∧
    inSpace 0x2000 rdSize = true ∧ up.mem.rdCapacity 0x2000 < (List.replicate 257 (0 : Byte)).length ∧
    good.units.ruCursor = some 0 ∧ good.units.ruPhase = .none ∧ good.mem.rdC 0x2000 = true := by decide +kernel

theorem witness_IssueCommandWritesTheCommand :
    up.quiet = true ∧ up.dev.lifecycle = .running ∧ up.dev.hardwareError = false ∧ commandCode up.regs.command = 0 ∧
    1 ≤ up.cfg.acceptPollBudget := by decide +kernel

/-- Code 4 is the first reserved one; a start is pending in `chained`. -/
theorem witness_IssueCommandRefusesAndTimesOut :
    up.quiet = true ∧ 3 < (4 : BitVec 7).toNat ∧ broken.quiet = true ∧ broken.dev.lifecycle = .running ∧
    broken.dev.hardwareError = true ∧ chained.quiet = true ∧ chained.dev.lifecycle = .running ∧
    chained.dev.hardwareError = false ∧ commandCode chained.regs.command ≠ 0 := by decide +kernel

theorem witness_WaitAcceptEndsWithinItsBudget :
    up.quiet = true ∧ (1 : Word) ≠ 0 ∧ up.dev.lifecycle = .running ∧ commandCode up.regs.command = 0 ∧
    chained.quiet = true ∧ chained.dev.lifecycle = .running ∧ commandCode chained.regs.command ≠ 0 := by decide +kernel

/-- A start of the command unit that the Acceptor takes at the point `n` (from 0). -/
def acceptedAt (n : Nat) : State :=
  { pendingStart with ports := { up.ports with interleaved := List.replicate n [] ++ [[.device .accept]] } }

/-- For a budget of 2: the last point in time, the one after the last poll, and the first at which nothing is taken. -/
theorem witness_WaitAcceptEndsWithinItsBudget_points :
    (acceptedAt 3).settled = true ∧ (acceptedAt 4).settled = true ∧ (acceptedAt 5).settled = true ∧ (2 : Word) ≠ 0 ∧
    (acceptedAt 3).dev.lifecycle = .running ∧ commandCode (acceptedAt 3).regs.command ≠ 0 ∧
    3 < 2 * (2 : Word).toNat ∧ 4 = 2 * (2 : Word).toNat ∧ 2 * (2 : Word).toNat < 5 ∧
    ∃ u, deviceStep .accept { acceptedAt 3 with ports := { (acceptedAt 3).ports with interleaved := [] } } =
      .ok ((), u) := by
  and_intros <;> first
    | decide +kernel
    | exact ⟨_, rfl⟩

theorem witness_CuStartActivatesAtThePointer :
    Config.aligned pendingStart.cfg pendingStart.regs.pointer.toNat = true ∧
    pendingStart.slotAt? pendingStart.regs.pointer.toNat = some 1 ∧
    up.slotAt? up.regs.pointer.toNat = none ∧ Config.aligned up.cfg (0x101D : Word).toNat = false := by decide +kernel

/-- The command unit suspended at slot 0, whose `S` is as given. -/
def suspended (sBit : Bool) : State :=
  { up with regs := { up.regs with status := 0x9, command := 2 }, mem := up.mem.write16 0x1002 (tdCommandWord sBit) }

theorem witness_CuResumeIsIdempotent :
    up.txLaidOut = true ∧ up.units.cuCursor < up.cfg.numTcb ∧ statusCus up.regs.status ≠ unitSuspended ∧
    (suspended true).txLaidOut = true ∧ statusCus (suspended true).regs.status = unitSuspended ∧
    (suspended true).tdS 0 = true ∧ (suspended false).txLaidOut = true ∧
    statusCus (suspended false).regs.status = unitSuspended ∧ (suspended false).tdS 0 = false ∧
    Config.aligned up.cfg ((suspended false).tdLink 0).toNat = true ∧
    (suspended false).slotAt? ((suspended false).tdLink 0).toNat = some 1 ∧
    (leading 0x101D (suspended false)).txLaidOut = true ∧ (leading 0x101D (suspended false)).tdS 0 = false ∧
    Config.aligned up.cfg ((leading 0x101D (suspended false)).tdLink 0).toNat = false ∧
    (leading 0x1070 (suspended false)).tdS 0 = false ∧
    (leading 0x1070 (suspended false)).slotAt? ((leading 0x1070 (suspended false)).tdLink 0).toNat = none := by
  decide +kernel

theorem witness_RuStartReadiesAtThePointer :
    Config.aligned up.cfg up.regs.pointer.toNat = true ∧ up.rdAt? up.regs.pointer.toNat = some 0 ∧
    pendingStart.rdAt? pendingStart.regs.pointer.toNat = none := by decide +kernel

theorem witness_FullResetRestoresTheRegisters : halfDone.regs.Legal := by
  unfold Registers.Legal; decide +kernel

theorem witness_LinkStartBeginsDetection :
    up.quiet = true ∧ up.dev.lifecycle = .running ∧ up.link.phase.inProgress = false ∧
    up.cfg.phyAddressOverride = none ∧ up.cfg.forcedConnector = none ∧
    scanning.quiet = true ∧ scanning.dev.lifecycle = .running ∧ scanning.link.phase.inProgress = true := by
  decide +kernel

/-- Both overrides (L6). -/
def overridden : State := { up with cfg := { up.cfg with phyAddressOverride := some 5, forcedConnector := some 2 } }

theorem witness_LinkStartBeginsDetection_overrides :
    overridden.quiet = true ∧ overridden.dev.lifecycle = .running ∧ overridden.link.phase.inProgress = false ∧
    overridden.cfg.phyAddressOverride = some 5 ∧
    State.quiet { overridden with cfg := { overridden.cfg with phyAddressOverride := none } } = true := by decide +kernel

/-- Address 1 is absent, address 2 has a link. -/
def secondLinks : State := { scanning with regs := { up.regs with phystat := phyWith 2 0x2F } }

theorem witness_LinkTickTakesTheFirstLink :
    secondLinks.quiet = true ∧ secondLinks.dev.lifecycle = .running ∧ secondLinks.link.timer = .armed ∧
    secondLinks.link.phase = .scanningForLink ∧
    secondLinks.cfg.phyCandidates.drop secondLinks.link.candidateAddressIndex = [1] ++ 2 :: [3] ∧
    (∀ x ∈ ([1] : List PhyAddress), (phyRecordOf secondLinks.regs.phystat[x]).present = false) ∧
    (phyRecordOf secondLinks.regs.phystat[(2 : PhyAddress)]).present = true ∧
    (phyRecordOf secondLinks.regs.phystat[(2 : PhyAddress)]).linkUp = true ∧ secondLinks.tx.waitQueue = [] ∧
    secondLinks.link.pendingReset = false := by decide +kernel

/-- Waiting for address 1 with `n` steps left. -/
def waiting (n : Nat) : State :=
  { scanning with
    regs := { up.regs with phystat := phyWith 1 0x01 }
    link := { scanning.link with
      phase := .waitingForNegotiation, waitCounter := n, foundAddress := some 1, waitingForNegotiation := true } }

theorem witness_LinkTickWaitsAndFallsBack :
    (waiting 2).quiet = true ∧ (waiting 2).link.timer = .armed ∧ (waiting 2).link.pendingReset = false ∧
    (waiting 2).link.pendingPropertyReads = [] ∧ (waiting 2).tx.waitQueue = [] ∧
    (waiting 2).link.phase = .waitingForNegotiation ∧
    (waiting 2).cfg.phyCandidates[(waiting 2).link.candidateAddressIndex]? = some 1 ∧
    (phyRecordOf (waiting 2).regs.phystat[(1 : PhyAddress)]).negotiationComplete = false ∧
    2 ≤ (waiting 2).link.waitCounter ∧ (waiting 1).quiet = true ∧ (waiting 1).link.waitCounter = 1 ∧
    (waiting 1).link.foundAddress = some 1 ∧
    (phyRecordOf (waiting 1).regs.phystat[(1 : PhyAddress)]).linkUp = false := by decide +kernel

/-- Address 1 is absent, address 2 is present without link, as in L2. -/
def secondWaits : State := { scanning with regs := { up.regs with phystat := phyWith 2 0x01 } }

/-- The scan comes to a candidate without link; none is present; the negotiation is complete. -/
theorem witness_LinkTickWaitsAndFallsBack_scan :
    secondWaits.quiet = true ∧ secondWaits.link.timer = .armed ∧ secondWaits.link.pendingReset = false ∧
    secondWaits.link.pendingPropertyReads = [] ∧ secondWaits.tx.waitQueue = [] ∧
    secondWaits.link.phase = .scanningForLink ∧
    secondWaits.cfg.phyCandidates.drop secondWaits.link.candidateAddressIndex = [1] ++ 2 :: [3] ∧
    (∀ x ∈ ([1] : List PhyAddress), (phyRecordOf secondWaits.regs.phystat[x]).present = false) ∧
    (phyRecordOf secondWaits.regs.phystat[(2 : PhyAddress)]).present = true ∧
    (phyRecordOf secondWaits.regs.phystat[(2 : PhyAddress)]).linkUp = false ∧
    (∀ x ∈ scanning.cfg.phyCandidates.drop scanning.link.candidateAddressIndex,
      (phyRecordOf (phyWith 9 0x2F)[x]).present = false) ∧
    (phyRecordOf (phyWith 1 0x05)[(1 : PhyAddress)]).negotiationComplete = true := by decide +kernel

/-- L4: an address override has put the machine in `Configuring`. -/
def overrideTaken : State :=
  { scanning with link := { scanning.link with phase := .configuring, selected := .addr 2 } }

theorem witness_LinkTickWaitsAndFallsBack_configuring :
    overrideTaken.quiet = true ∧ overrideTaken.link.timer = .armed ∧ overrideTaken.link.pendingReset = false ∧
    overrideTaken.link.pendingPropertyReads = [] ∧ overrideTaken.tx.waitQueue = [] ∧ overrideTaken.link.phase = .configuring ∧
    overrideTaken.link.selected ≠ .none := by decide +kernel

/-- L11: a reset deferred while detection runs, and a packet queued. -/
def resetDeferred : State :=
  { scanning with link := { scanning.link with pendingReset := true }, tx := { up.tx with waitQueue := [packetA] } }

/-- What the tick does before the deferred reset. -/
def beforeReset : State :=
  (next? (exec .linkTick { resetDeferred with
    link := { resetDeferred.link with pendingReset := false }, tx := { resetDeferred.tx with waitQueue := [] } })).getD up

theorem witness_LinkTickWaitsAndFallsBack_reset :
    resetDeferred.quiet = true ∧ resetDeferred.link.timer = .armed ∧ resetDeferred.link.pendingReset = true ∧
    ∃ u t, exec .linkTick { resetDeferred with
        link := { resetDeferred.link with pendingReset := false }, tx := { resetDeferred.tx with waitQueue := [] } } =
        .next u ∧
      u.link.phase = .done ∧ exec .reset { u with tx := resetDeferred.tx } = .next t := by
  obtain ⟨t, ht⟩ := exists_of_next? (o := exec .reset { beforeReset with tx := resetDeferred.tx }) (by decide +kernel)
  exact ⟨by decide +kernel, rfl, rfl, beforeReset, t, next_of_next? (by decide +kernel), by decide +kernel, ht⟩

theorem witness_PropertyReadsCompleteOrDefer :
    up.quiet = true ∧ up.dev.lifecycle = .running ∧ up.link.phase.inProgress = false ∧ scanning.quiet = true ∧
    scanning.dev.lifecycle = .running ∧ scanning.link.phase.inProgress = true := by decide +kernel

theorem witness_FilterRequestsStoreOrDefer :
    up.quiet = true ∧ up.dev.lifecycle = .running ∧ up.mcastListOf? 3 = some [0x01005E000001] ∧
    up.mcastListOf? 4 = none ∧
    up.link.phase.inProgress = false ∧ scanning.quiet = true ∧ scanning.dev.lifecycle = .running ∧
    scanning.mcastListOf? 3 = some [0x01005E000001] ∧ scanning.link.phase.inProgress = true := by decide +kernel

theorem witness_PhyChangeIsWhatAProbeReads : up.ports.interleaved = [] := rfl

end Sys2Proof.Tests
end

