-- ==== Sys2Proof/Proofs/Footprint.lean ====
section
/-!
PROOF. Footprints. An invariant that looks at few parts of the state is carried through every operation that leaves those
parts alone, whatever other agents do at its points, by following the operation's own text once. `Minor` says which
changes none of the invariants of spec/10_state.md looks at; `Lenient` are the invariants that ignore these, `Base` those
that other agents keep as well.
-/
namespace Sys2Proof.Machine

variable {α β : Type} {P Q R : State → Prop} {h : Handler}

/-! ## Hoare triples beside `Keeps` -/

/-- Whenever the operation answers from a state with `P`, its answer and the state it leaves have `Q`. -/
def Leads (P : State → Prop) (m : Op α) (Q : α → State → Prop) : Prop := ∀ s a t, P s → m s = .ok (a, t) → Q a t

theorem Leads.pure {Q : α → State → Prop} {a : α} (hq : ∀ s, P s → Q a s) : Leads P (pure a) Q := by
  intro s b t hs hr
  simp only [Op.pure_apply, Except.ok.injEq, Prod.mk.injEq] at hr
  exact hr.1 ▸ hr.2 ▸ hq s hs

theorem Leads.bind {m : Op α} {f : α → Op β} {Q : α → State → Prop} {R : β → State → Prop} (hm : Leads P m Q)
    (hf : ∀ a, Leads (Q a) (f a) R) : Leads P (m >>= f) R := by
  intro s b u hs hr
  obtain ⟨a, t, h1, h2⟩ := Op.bind_eq_ok.1 hr
  exact hf a t b u (hm s a t hs h1) h2

/-- An operation that keeps what the rest starts from. -/
theorem Keeps.then {m : Op α} {f : α → Op β} {R : β → State → Prop} (hm : Keeps P m) (hf : ∀ a, Leads P (f a) R) :
    Leads P (m >>= f) R := Leads.bind (Q := fun _ => P) hm hf

/-- After a read, its value is the state's. -/
theorem Leads.read_bind {v : State → α} {f : α → Op β} {R : β → State → Prop}
    (hf : ∀ a, Leads (fun s => P s ∧ v s = a) (f a) R) : Leads P (read v >>= f) R := by
  intro s b u hs hr
  rw [Op.bind_apply, read_apply] at hr
  exact hf (v s) s b u ⟨hs, rfl⟩ hr

theorem Leads.update {f : State → State} {Q : State → Prop} (hf : ∀ s, P s → Q (f s)) :
    Leads P (update f) (fun _ => Q) := by
  intro s a t hs hr
  simp only [update_apply, Except.ok.injEq, Prod.mk.injEq] at hr
  exact hr.2 ▸ hf s hs

/-- After an update, the state is the updated one. -/
theorem Leads.update_bind {g : State → State} {f : Unit → Op β} {R : β → State → Prop}
    (hf : Leads (fun t => ∃ s, P s ∧ t = g s) (f ()) R) : Leads P (Machine.update g >>= f) R := by
  intro s b u hs hr
  rw [Op.bind_apply, update_apply] at hr
  exact hf (g s) b u ⟨s, hs, rfl⟩ hr

theorem Leads.ite {c : Prop} [Decidable c] {m n : Op α} {Q : α → State → Prop}
    (hm : c → Leads P m Q) (hn : ¬ c → Leads P n Q) : Leads P (if c then m else n) Q := by
  split
  · exact hm ‹_›
  · exact hn ‹_›

/-- Where it does not matter which way the test goes. -/
theorem Leads.either {c : Prop} [Decidable c] {m n : Op α} {Q : α → State → Prop}
    (hm : Leads P m Q) (hn : Leads P n Q) : Leads P (if c then m else n) Q := .ite (fun _ => hm) fun _ => hn

theorem Leads.fault {f : Fault} {Q : α → State → Prop} : Leads P (fault f : Op α) Q := by
  intro s a t _ hr
  simp at hr

theorem Leads.mono {m : Op α} {P' : State → Prop} {Q Q' : α → State → Prop} (hm : Leads P m Q) (hp : ∀ s, P' s → P s)
    (hq : ∀ a s, Q a s → Q' a s) : Leads P' m Q' := fun s a t hs hr => hq a t (hm s a t (hp s hs) hr)

theorem Leads.pre {m : Op α} {P' : State → Prop} {Q : α → State → Prop} (hm : Leads P m Q) (hp : ∀ s, P' s → P s) :
    Leads P' m Q := hm.mono hp (fun _ _ => id)

/-- A pure fact of the states before may be taken out. -/
theorem Leads.of_fact {c : Prop} {m : Op α} {Q : α → State → Prop} (hc : ∀ s, P s → c) (hm : c → Leads P m Q) :
    Leads P m Q := fun s a t hs hr => hm (hc s hs) s a t hs hr

theorem Keeps.leads {m : Op α} (hm : Keeps P m) : Leads P m (fun _ => P) := hm

/-! ## Minor changes -/

/-- The transmit ring as R51 sees it: the cursors, the count, the used slots. -/
structure RingCore where
  head : Nat
  tail : Nat
  busy : Nat
  used : List Bool

/-- `head`, `tail`, `busyCount` and `inUse` of a ring. -/
def TxRing.core (t : TxRing) : RingCore := ⟨t.head, t.tail, t.busyCount, t.shadow.map (·.inUse)⟩

/-- `t` differs from `s` in what the invariants of the rings, of `deviceState` and of the sticky error do not look at: the
flag may be set, and the pending command may be taken. -/
structure Minor (s t : State) : Prop where
  cfg : t.cfg = s.cfg
  rx : t.rx = s.rx
  core : t.tx.core = s.tx.core
  lifecycle : t.dev.lifecycle = s.dev.lifecycle
  error : s.dev.hardwareError = true → t.dev.hardwareError = true
  pointer : t.regs.pointer = s.regs.pointer
  command : t.regs.command = s.regs.command ∨ commandCode t.regs.command = 0
  startActive : t.ports.startActive = s.ports.startActive
  interleaved : t.ports.interleaved = s.ports.interleaved
  mineTx : t.locks.mine.tx = s.locks.mine.tx
  mineRx : t.locks.mine.rx = s.locks.mine.rx
  others : t.locks.others = s.locks.others

theorem Minor.mapMem (s : State) (f : Memory → Memory) : Minor s (s.mapMem f) :=
  ⟨rfl, rfl, rfl, rfl, id, rfl, .inl rfl, rfl, rfl, rfl, rfl, rfl⟩

theorem Minor.mapUnits (s : State) (f : Units → Units) : Minor s (s.mapUnits f) :=
  ⟨rfl, rfl, rfl, rfl, id, rfl, .inl rfl, rfl, rfl, rfl, rfl, rfl⟩

theorem Minor.mapLink (s : State) (f : Link → Link) : Minor s (s.mapLink f) :=
  ⟨rfl, rfl, rfl, rfl, id, rfl, .inl rfl, rfl, rfl, rfl, rfl, rfl⟩

theorem Minor.mapEvents (s : State) (f : List Event → List Event) : Minor s (s.mapEvents f) :=
  ⟨rfl, rfl, rfl, rfl, id, rfl, .inl rfl, rfl, rfl, rfl, rfl, rfl⟩

theorem Minor.withResult (s : State) (r : Option Status) : Minor s (s.withResult r) :=
  ⟨rfl, rfl, rfl, rfl, id, rfl, .inl rfl, rfl, rfl, rfl, rfl, rfl⟩

theorem Minor.advance (s : State) : Minor s s.advance :=
  ⟨rfl, rfl, rfl, rfl, id, rfl, .inl rfl, rfl, rfl, rfl, rfl, rfl⟩

theorem Minor.postpone (s : State) (e : Stimulus) : Minor s (s.postpone e) :=
  ⟨rfl, rfl, rfl, rfl, id, rfl, .inl rfl, rfl, rfl, rfl, rfl, rfl⟩

theorem Minor.mapRegs {s : State} {f : Registers → Registers} (hp : (f s.regs).pointer = s.regs.pointer)
    (hc : (f s.regs).command = s.regs.command ∨ commandCode (f s.regs).command = 0) : Minor s (s.mapRegs f) :=
  ⟨rfl, rfl, rfl, rfl, id, hp, hc, rfl, rfl, rfl, rfl, rfl⟩

theorem Minor.mapDev {s : State} {f : Device → Device} (hl : (f s.dev).lifecycle = s.dev.lifecycle)
    (he : s.dev.hardwareError = true → (f s.dev).hardwareError = true) : Minor s (s.mapDev f) :=
  ⟨rfl, rfl, rfl, hl, he, rfl, .inl rfl, rfl, rfl, rfl, rfl, rfl⟩

theorem Minor.mapPorts {s : State} {f : Ports → Ports} (hs : (f s.ports).startActive = s.ports.startActive)
    (hi : (f s.ports).interleaved = s.ports.interleaved) : Minor s (s.mapPorts f) :=
  ⟨rfl, rfl, rfl, rfl, id, rfl, .inl rfl, hs, hi, rfl, rfl, rfl⟩

theorem Minor.mapTx {s : State} {f : TxRing → TxRing} (hc : (f s.tx).core = s.tx.core) : Minor s (s.mapTx f) :=
  ⟨rfl, rfl, hc, rfl, id, rfl, .inl rfl, rfl, rfl, rfl, rfl, rfl⟩

/-- `inUse` of a slot, read off the core. -/
theorem TxRing.shadowAt_inUse (t : TxRing) (i : Nat) : (t.shadowAt i).inUse = t.core.used.getD i false := by
  simp only [TxRing.shadowAt, TxRing.core, List.getD_eq_getElem?_getD, List.getElem?_map]
  cases t.shadow[i]? <;> rfl

/-- A change of one shadow record, as the core sees it. -/
theorem TxRing.core_mapShadow (t : TxRing) (i : Nat) (f : TxShadow → TxShadow) :
    (t.mapShadow i f).core = { t.core with used := t.core.used.set i (f (t.shadowAt i)).inUse } := by
  simp [TxRing.core, TxRing.mapShadow, List.map_set]

/-- Setting a slot to what it is. -/
theorem set_eq_of_getD {l : List Bool} {i : Nat} {b : Bool} (hb : l.getD i false = b) : l.set i b = l := by
  apply List.ext_getElem? fun j => ?_
  rw [List.getElem?_set]
  by_cases hj : i = j
  · subst hj
    by_cases hl : i < l.length <;> simp_all
  · simp [hj]

/-- A change of one shadow record that leaves `inUse` as it is does not change the core. -/
theorem TxRing.core_mapShadow_of_inUse {t : TxRing} {i : Nat} {f : TxShadow → TxShadow}
    (hf : (f (t.shadowAt i)).inUse = (t.shadowAt i).inUse) : (t.mapShadow i f).core = t.core := by
  rw [t.core_mapShadow, hf, set_eq_of_getD (t.shadowAt_inUse i).symm]

/-! ## Invariants that ignore minor changes -/

/-- Invariants that look at no minor change. -/
def Lenient (P : State → Prop) : Prop := ∀ s t, Minor s t → P s → P t

/-- Invariants that do not look at the running operation's own locks. -/
def LockBlind (P : State → Prop) : Prop :=
  ∀ s f, (f s.locks).others = s.locks.others → P s → P (s.mapLocks f)

theorem LockBlind.lock (hb : LockBlind P) (l : Lock) : Keeps P (lock l) := by
  intro s a t hs hr
  obtain ⟨_, _, rfl⟩ := lock_ok.1 hr
  exact hb s _ rfl hs

theorem LockBlind.unlock (hb : LockBlind P) (l : Lock) : Keeps P (unlock l) := Keeps.update (fun s hs => hb s _ rfl hs)

namespace Lenient
variable (hl : Lenient P)
include hl

theorem update {f : State → State} (hf : ∀ s, Minor s (f s)) : Keeps P (update f) :=
  Keeps.update (fun s hs => hl s _ (hf s) hs)

theorem mapMem (f : Memory → Memory) : Keeps P (Machine.update (State.mapMem f)) := hl.update (fun s => .mapMem s f)
theorem updateUnits (f : Units → Units) : Keeps P (updateUnits f) := hl.update (fun s => .mapUnits s f)
theorem updateLink (f : Link → Link) : Keeps P (updateLink f) := hl.update (fun s => .mapLink s f)

theorem updateRegs {f : Registers → Registers} (hp : ∀ r, (f r).pointer = r.pointer)
    (hc : ∀ r, (f r).command = r.command ∨ commandCode (f r).command = 0) : Keeps P (updateRegs f) :=
  hl.update (fun _ => .mapRegs (hp _) (hc _))

theorem updateDev {f : Device → Device} (hd : ∀ d, (f d).lifecycle = d.lifecycle := by exact fun _ => rfl)
    (he : ∀ d, d.hardwareError = true → (f d).hardwareError = true := by exact fun _ => id) : Keeps P (updateDev f) :=
  hl.update (fun _ => .mapDev (hd _) (he _))

theorem updatePorts {f : Ports → Ports} (hs : ∀ p, (f p).startActive = p.startActive := by exact fun _ => rfl)
    (hi : ∀ p, (f p).interleaved = p.interleaved := by exact fun _ => rfl) : Keeps P (updatePorts f) :=
  hl.update (fun _ => .mapPorts (hs _) (hi _))

theorem updateTx {f : TxRing → TxRing} (hf : ∀ t, (f t).core = t.core := by exact fun _ => rfl) :
    Keeps P (updateTx f) := hl.update (fun _ => .mapTx (hf _))

/-- A change of a shadow record that keeps `inUse`. -/
theorem mapShadow {i : Nat} {f : TxShadow → TxShadow} (hf : ∀ x, (f x).inUse = x.inUse) :
    Keeps P (Machine.updateTx (fun t => t.mapShadow i f)) :=
  hl.updateTx (fun t => t.core_mapShadow_of_inUse (hf _))

/-- The lock operations other than those on the locks of the two rings. -/
theorem mapLocks {l : Lock} {held : Bool} (hd : l = .dev ∨ l = .cmd) :
    Keeps P (Machine.update (State.mapLocks (fun x => x.put l held))) := by
  refine hl.update (fun s => ?_)
  rcases hd with rfl | rfl <;> exact ⟨rfl, rfl, rfl, rfl, id, rfl, .inl rfl, rfl, rfl, rfl, rfl, rfl⟩

theorem unlock_dev : Keeps P (unlock .dev) := hl.mapLocks (.inl rfl)
theorem unlock_cmd : Keeps P (unlock .cmd) := hl.mapLocks (.inr rfl)
theorem lock_dev : Keeps P (lock .dev) := .bind (.read _) fun _ => .ite (.fault _) (.ite .blocked (hl.mapLocks (.inl rfl)))
theorem lock_cmd : Keeps P (lock .cmd) := .bind (.read _) fun _ => .ite (.fault _) (.ite .blocked (hl.mapLocks (.inr rfl)))

end Lenient

/-! ## Invariants that other agents keep -/

/-- Invariants that survive the points of an operation with the handler `h`, and the command writes. -/
structure Base (h : Handler) (P : State → Prop) : Prop where
  lenient : Lenient P
  point : Keeps P (point h)
  command : ∀ code wait pointer, Keeps P (writeCommandLocked h code wait pointer)

/-- Invariants that look neither at the transmit ring nor at the operation's own locks. -/
structure TxBlind (h : Handler) (P : State → Prop) : Prop extends Base h P where
  locks : LockBlind P
  ring : ∀ s f, P s → P (s.mapTx f)

/-- Invariants that look neither at the receive ring nor at the operation's own locks. -/
structure RxBlind (h : Handler) (P : State → Prop) : Prop extends Base h P where
  locks : LockBlind P
  ring : ∀ s f, P s → P (s.mapRx f)

end Sys2Proof.Machine
end

