-- ==== Sys2Proof/Proofs/Operations.lean ====
section
/-!
PROOF. The operations that leave alone what the invariants of `Minor` look at, each followed once through its own text by
the rules of `Keeps`.
-/
namespace Sys2Proof.Machine

variable {α : Type} {P : State → Prop} {h : Handler}

/-! ## Reads -/

theorem Keeps.assert (c : Bool) : Keeps P (assert c) := .ite (.pure _) (.fault _)

theorem Keeps.memRead (a n : Nat) : Keeps P (memRead a n) := .ite (.read _) (.fault _)
theorem Keeps.memRead8 (a : Nat) : Keeps P (memRead8 a) := .ite (.read _) (.fault _)
theorem Keeps.memRead16 (a : Nat) : Keeps P (memRead16 a) := .ite (.read _) (.fault _)
theorem Keeps.memRead32 (a : Nat) : Keeps P (memRead32 a) := .ite (.read _) (.fault _)

theorem Keeps.regRead (r : Register) : Keeps P (regRead r) := by cases r <;> exact .read _

theorem Keeps.readTdC (i : Nat) : Keeps P (readTdC i) := .bind (.read _) fun _ => .bind (.memRead16 _) fun _ => .pure _
theorem Keeps.readTdS (i : Nat) : Keeps P (readTdS i) := .bind (.read _) fun _ => .bind (.memRead16 _) fun _ => .pure _
theorem Keeps.readTdLink (i : Nat) : Keeps P (readTdLink i) := .bind (.read _) fun _ => .memRead32 _
theorem Keeps.readTdFragCount (i : Nat) : Keeps P (readTdFragCount i) := .bind (.read _) fun _ => .memRead8 _
theorem Keeps.readTdFragAddr (i k : Nat) : Keeps P (readTdFragAddr i k) := .bind (.read _) fun _ => .memRead32 _
theorem Keeps.readTdFragLen (i k : Nat) : Keeps P (readTdFragLen i k) := .bind (.read _) fun _ => .memRead32 _

theorem Keeps.rdAddrOf (d : Nat) : Keeps P (rdAddrOf d) :=
  .bind (.read _) fun
    | some _ => .pure _
    | none => .fault _

/-- A field of a receive descriptor, read with its halfword. -/
theorem Keeps.readRd16 {d : Nat} {place : Nat → Nat} {v : Halfword → α} :
    Keeps P (Machine.rdAddrOf d >>= fun a => Machine.memRead16 (place a) >>= fun x => Pure.pure (v x)) :=
  .bind (.rdAddrOf d) fun _ => .bind (.memRead16 _) fun _ => .pure _

theorem Keeps.readRdC (d : Nat) : Keeps P (readRdC d) := .readRd16 (place := id)
theorem Keeps.readRdOK (d : Nat) : Keeps P (readRdOK d) := .readRd16 (place := id)
theorem Keeps.readRdEL (d : Nat) : Keeps P (readRdEL d) := .readRd16
theorem Keeps.readRdCount (d : Nat) : Keeps P (readRdCount d) := .readRd16
theorem Keeps.readRdV (d : Nat) : Keeps P (readRdV d) := .readRd16
theorem Keeps.readRdCapacity (d : Nat) : Keeps P (readRdCapacity d) := .readRd16
theorem Keeps.readRdLink (d : Nat) : Keeps P (readRdLink d) := .bind (.rdAddrOf d) fun _ => .memRead32 _
theorem Keeps.readRdPayloadPtr (d : Nat) : Keeps P (readRdPayloadPtr d) := .bind (.rdAddrOf d) fun _ => .memRead32 _

theorem Keeps.requireAligned (a : Nat) : Keeps P (requireAligned a) :=
  .bind (.read _) fun _ => .ite (.pure _) (.fault _)

theorem Keeps.requireAlignedAll : ∀ as, Keeps P (requireAlignedAll as)
  | [] => .pure _
  | a :: as => .bind (.requireAligned a) fun _ => .requireAlignedAll as

theorem Keeps.gatherFragments (i : Nat) : ∀ ks, Keeps P (gatherFragments i ks)
  | [] => .pure _
  | k :: ks => .bind (.readTdFragAddr i k) fun _ => .bind (.readTdFragLen i k) fun _ => .bind (.memRead _ _) fun _ =>
    .bind (.gatherFragments i ks) fun _ => .pure _

theorem Keeps.ruMay (d : Nat) (phase : RuPhase) : Keeps P (ruMay d phase) :=
  .bind (.read _) fun _ => .ite (.bind (.readRdC d) fun _ => .pure _) (.pure _)

theorem Keeps.handOver {write : Op Unit} (hw : Keeps P write) : Keeps P (handOver write) :=
  .bind (.read _) fun _ => .ite (.pure _) (.bind hw fun _ => .pure _)

/-! ## What makes a minor change -/

namespace Lenient
variable (hl : Lenient P)
include hl

theorem memWrite (a : Nat) (bs : List Byte) : Keeps P (memWrite a bs) := .ite (hl.mapMem _) (.fault _)
theorem memWrite8 (a : Nat) (v : Byte) : Keeps P (memWrite8 a v) := .ite (hl.mapMem _) (.fault _)
theorem memWrite16 (a : Nat) (v : Halfword) : Keeps P (memWrite16 a v) := .ite (hl.mapMem _) (.fault _)
theorem memWrite32 (a : Nat) (v : Word) : Keeps P (memWrite32 a v) := .ite (hl.mapMem _) (.fault _)

theorem writeTdC (i : Nat) (c : Bool) : Keeps P (writeTdC i c) := .bind (.read _) fun _ => hl.memWrite16 _ _
theorem writeTdS (i : Nat) (b : Bool) : Keeps P (writeTdS i b) := .bind (.read _) fun _ => hl.memWrite16 _ _
theorem writeTdLink (i : Nat) (v : Word) : Keeps P (writeTdLink i v) := .bind (.read _) fun _ => hl.memWrite32 _ _
theorem writeTdFragCount (i : Nat) (n : Byte) : Keeps P (writeTdFragCount i n) :=
  .bind (.read _) fun _ => hl.memWrite8 _ _
theorem writeTdReserved (i : Nat) : Keeps P (writeTdReserved i) := .bind (.read _) fun _ => hl.memWrite _ _
theorem writeTdFragAddr (i k : Nat) (v : Word) : Keeps P (writeTdFragAddr i k v) :=
  .bind (.read _) fun _ => hl.memWrite32 _ _
theorem writeTdFragLen (i k : Nat) (v : Word) : Keeps P (writeTdFragLen i k v) :=
  .bind (.read _) fun _ => hl.memWrite32 _ _

theorem writeRdStatus (d : Nat) (c o : Bool) : Keeps P (writeRdStatus d c o) :=
  .bind (.rdAddrOf d) fun _ => hl.memWrite16 _ _
theorem writeRdEL (d : Nat) (e : Bool) : Keeps P (writeRdEL d e) := .bind (.rdAddrOf d) fun _ => hl.memWrite16 _ _
theorem writeRdLink (d : Nat) (v : Word) : Keeps P (writeRdLink d v) := .bind (.rdAddrOf d) fun _ => hl.memWrite32 _ _
theorem writeRdPayloadPtr (d : Nat) (v : Word) : Keeps P (writeRdPayloadPtr d v) :=
  .bind (.rdAddrOf d) fun _ => hl.memWrite32 _ _
theorem writeRdCount (d n : Nat) (v : Bool) : Keeps P (writeRdCount d n v) :=
  .bind (.rdAddrOf d) fun _ => hl.memWrite16 _ _
theorem writeRdCapacity (d n : Nat) : Keeps P (writeRdCapacity d n) := .bind (.rdAddrOf d) fun _ => hl.memWrite16 _ _

theorem record (e : Event) : Keeps P (record e) := hl.update (fun s => .mapEvents s _)
theorem emit (e : Event) : Keeps P (emit e) := .bind (.read _) fun _ => .ite (hl.record e) (.fault _)
theorem errorEntry : Keeps P errorEntry := hl.updateDev (he := fun _ _ => rfl)
theorem retain : Keeps P retain := hl.updateDev
theorem release : Keeps P release :=
  hl.updateDev (fun d => by split <;> rfl) (fun d hd => by split <;> exact hd)

theorem addRegion (r : Region) : Keeps P (addRegion r) := .bind (.read _) fun _ => .ite hl.updatePorts (.fault _)
theorem freeRegion (b : Nat) : Keeps P (freeRegion b) := hl.updatePorts
theorem takeRegion (b : Nat) : Keeps P (takeRegion b) :=
  .bind (.read _) fun _ => .bind (hl.addRegion _) fun _ => .requireAligned _

theorem allocShared (size : Nat) : Keeps P (allocShared size) :=
  .bind (.read _) fun
    | [] => .pure _
    | none :: _ => .bind hl.updatePorts fun _ => .pure _
    | some _ :: _ => .bind hl.updatePorts fun _ => .bind (hl.addRegion _) fun _ => .pure _

theorem allocShadow : Keeps P allocShadow :=
  .bind (.read _) fun
    | [] => .pure _
    | _ :: _ => .bind hl.updatePorts fun _ => .pure _

theorem allocSharedMany (size : Nat) : ∀ n, Keeps P (allocSharedMany n size)
  | 0 => .pure _
  | n + 1 => .bind (hl.allocShared size) fun
    | none => .pure _
    | some _ => .bind (allocSharedMany size n) fun _ => .pure _

theorem allocShadows : ∀ n, Keeps P (allocShadows n)
  | 0 => .pure _
  | n + 1 => .bind hl.allocShadow fun _ => .ite (allocShadows n) (.pure _)

theorem startAllocate : Keeps P startAllocate :=
  .bind (.read _) fun _ => .bind (hl.allocShared _) fun
    | none => .pure _
    | some _ => .bind (.requireAlignedAll _) fun _ => .bind (hl.allocSharedMany _ _) fun
      | none => .pure _
      | some _ => .bind (hl.allocSharedMany _ _) fun
        | none => .pure _
        | some _ => .bind (.requireAlignedAll _) fun _ => .bind (hl.allocShadows _) fun _ => .pure _

/-! ## Registers and device agents -/

/-- `STATUS` and `INTMASK` are none of the registers that the sticky error freezes. -/
theorem regWrite_status (v : Word) : Keeps P (regWrite .status v) := hl.updateRegs (fun _ => rfl) (fun _ => .inl rfl)
theorem regWrite_intmask (v : Word) : Keeps P (regWrite .intmask v) := hl.updateRegs (fun _ => rfl) (fun _ => .inl rfl)

theorem clearCommand : Keeps P clearCommand := hl.updateRegs (fun _ => rfl) (fun _ => .inr rfl)

theorem setStatus (f : Registers → Word) : Keeps P (Machine.updateRegs (fun r => { r with status := f r })) :=
  hl.updateRegs (fun _ => rfl) (fun _ => .inl rfl)

theorem selectiveReset : Keeps P selectiveReset :=
  .bind (hl.updateRegs (fun _ => rfl) (fun _ => .inr rfl)) fun _ => hl.updateUnits _

/-- The full reset, for an invariant that does not look at the registers. -/
theorem fullReset (hr : ∀ s f, P s → P (s.mapRegs f)) : Keeps P fullReset :=
  .bind hl.selectiveReset fun _ => .bind (.update fun s hs => hr s _ hs) fun _ => hl.updateUnits _

theorem acceptCuStart : Keeps P acceptCuStart :=
  .bind (.read _) fun
    | none => .fault _
    | some _ => .bind (hl.updateUnits _) fun _ => .bind (hl.setStatus _) fun _ => hl.clearCommand

theorem acceptRuStart : Keeps P acceptRuStart :=
  .bind (.read _) fun
    | none => .fault _
    | some _ => .bind (hl.updateUnits _) fun _ => .bind (hl.setStatus _) fun _ => hl.clearCommand

theorem acceptCuResume : Keeps P acceptCuResume :=
  .bind (.read _) fun _ => .ite
    (.bind (.read _) fun _ => .bind (.readTdS _) fun _ => .ite hl.clearCommand <|
      .bind (.readTdLink _) fun _ => .bind (.read _) fun
        | none => .fault _
        | some _ => .bind (hl.updateUnits _) fun _ => .bind (hl.setStatus _) fun _ => hl.clearCommand)
    hl.clearCommand

theorem accept : Keeps P accept :=
  .bind (.read _) fun _ => .ite (.pure _) <| .ite hl.acceptCuStart <| .ite hl.acceptCuResume <|
    .ite hl.acceptRuStart (.fault _)

theorem cuExecuteSlot (i : Nat) : Keeps P (cuExecuteSlot i) :=
  .bind (.readTdFragCount i) fun _ => .bind (.gatherFragments i _) fun _ => .bind (hl.record _) fun _ =>
    .bind (hl.writeTdC i true) fun _ => .bind (hl.setStatus _) fun _ => .bind (.readTdS i) fun _ =>
      .ite (hl.setStatus _) <| .bind (.readTdLink i) fun _ => .bind (.read _) fun
        | none => .fault _
        | some _ => hl.updateUnits _

theorem cuExecute : Keeps P cuExecute :=
  .bind (.read _) fun _ => .bind (.read _) fun _ => .ite
    (.bind (.readTdC _) fun _ => .ite (.pure _) (hl.cuExecuteSlot _)) (.pure _)

theorem ruAdvance (d : Nat) : Keeps P (ruAdvance d) :=
  .bind (hl.updateUnits _) fun _ => .bind (hl.setStatus _) fun _ => .bind (.readRdEL d) fun _ =>
    .ite (.bind (hl.setStatus _) fun _ => hl.updateUnits _) <| .bind (.readRdLink d) fun _ => .bind (.read _) fun
      | none => .fault _
      | some _ => hl.updateUnits _

theorem ruStatus (ok : Bool) : Keeps P (ruStatus ok) :=
  .bind (.read _) fun
    | none => .pure _
    | some d => .bind (.ruMay d _) fun _ => .ite
      (.bind (hl.writeRdStatus d true ok) fun _ => .bind (.read _) fun _ => .ite (hl.updateUnits _) (hl.ruAdvance d))
      (.pure _)

theorem ruCount (bytes : List Byte) : Keeps P (ruCount bytes) :=
  .bind (.read _) fun
    | none => .pure _
    | some d => .bind (.ruMay d _) fun _ => .bind (.readRdCapacity d) fun _ => .ite
      (.bind (.readRdPayloadPtr d) fun _ => .bind (hl.memWrite _ bytes) fun _ =>
        .bind (hl.writeRdCount d _ true) fun _ => .bind (.read _) fun _ => .ite (hl.updateUnits _) (hl.ruAdvance d))
      (.pure _)

theorem phyChange (a : PhyAddress) (r : PhyRecord) : Keeps P (phyChange a r) :=
  hl.updateRegs (fun _ => rfl) (fun _ => .inl rfl)

/-- A step of a device agent takes the pending command and writes none. -/
theorem deviceStep : ∀ d, Keeps P (deviceStep d)
  | .accept => hl.accept
  | .cuExecute => hl.cuExecute
  | .ruStatus ok => hl.ruStatus ok
  | .ruCount bytes => hl.ruCount bytes
  | .phy a r => hl.phyChange a r

/-! ## Small host-side operations without a point -/

theorem enqueue (p : Packet) : Keeps P (enqueue p) := .bind hl.updateTx fun _ => .pure _
theorem popWaitQueue : Keeps P popWaitQueue := hl.updateTx

theorem powerCheck : Keeps P powerCheck :=
  .bind (.read _) fun _ => .ite (.bind hl.updateDev fun _ => .pure _) (.pure _)

theorem choose (x : Selection) : Keeps P (choose x) := hl.updateLink _
theorem endWait : Keeps P endWait := hl.updateLink _
theorem setDefaults (m : MediaState) : Keeps P (setDefaults m) := hl.update (fun s => .mapLink s _)
theorem takeLinkTimer : Keeps P takeLinkTimer := .bind (.read _) fun _ => .bind (hl.updateLink _) fun _ => .pure _
theorem cancelLinkTimer : Keeps P cancelLinkTimer := .bind hl.takeLinkTimer fun _ => .ite hl.release (.pure _)

theorem applyDeferred : Keeps P (Machine.update State.applyDeferred) :=
  hl.update (fun _ => ⟨rfl, rfl, rfl, rfl, id, rfl, .inl rfl, rfl, rfl, rfl, rfl, rfl⟩)

theorem recordResult : ∀ r, Keeps P (recordResult r)
  | none => .pure _
  | some _ => hl.updatePorts

end Lenient

/-! ## What other agents may step inside -/

theorem Lenient.waitAcceptLocked (hl : Lenient P) (hp : Keeps P (point h)) : ∀ n, Keeps P (waitAcceptLocked h n)
  | 0 => .bind (.host hp hl.errorEntry) fun _ => .pure _
  | n + 1 => .bind (.host hp (.regRead _)) fun _ => .ite (.pure _) <| .ite
    (.bind (.host hp hl.errorEntry) fun _ => .pure _) <| .bind hp fun _ => Lenient.waitAcceptLocked hl hp n

/-- An invariant that does not look at the registers. -/
theorem Base.of_registers (hl : Lenient P) (hp : Keeps P (Machine.point h)) (hr : ∀ s f, P s → P (s.mapRegs f)) : Base h P where
  lenient := hl
  point := hp
  command code wait pointer := by
    have write : Keeps P (Machine.host h (regWrite .command (code.setWidth 32))) :=
      .host hp <| .bind (.regRead _) fun _ => .ite (.fault _) <| .ite (.fault _) (.update fun s hs => hr s _ hs)
    have written : Keeps P (Machine.host h (regWrite .command (code.setWidth 32)) >>= fun _ =>
        updateTx (fun t => { t with resumeWaitNeeded := code != codeCuResume }) >>= fun _ => Pure.pure Status.ok) :=
      .bind write fun _ => .bind hl.updateTx fun _ => .pure _
    refine .bind (.read _) fun _ => ?_
    refine .ite (.bind (hl.waitAcceptLocked hp _) ?rest) (.bind (.pure _) ?rest)
    exact fun _ => .bind (.read _) fun _ => .ite (.pure _) <| .ite
      (.bind (.host hp (.update fun s hs => hr s _ hs)) fun _ => written) written

namespace Base
variable (b : Base h P)
include b

theorem host {m : Op α} (hm : Keeps P m) : Keeps P (host h m) := Keeps.host b.point hm
theorem sync {m : Op α} (hm : Keeps P m) : Keeps P (sync h m) := Keeps.sync b.point hm
theorem callback (e : Event) : Keeps P (callback h e) := Keeps.callback (b.lenient.emit e) b.point
theorem callbacks (es : List Event) : Keeps P (callbacks h es) := Keeps.callbacks b.lenient.emit b.point es

/-- Making the events that wait in the ports, which it takes from there. -/
theorem callbacksDue {next : Ports → Option (Event × Ports)}
    (hn : ∀ p e q, next p = some (e, q) → q.startActive = p.startActive ∧ q.interleaved = p.interleaved) :
    ∀ n, Keeps P (callbacksDue h next n)
  | 0 => .pure _
  | n + 1 => b.point.then fun _ => .read_bind fun
    | none => .pure fun _ hs => hs.1
    | some (e, q) => by
      refine .bind (Q := fun _ => P) (.update ?_) fun _ => .bind (b.callback e) fun _ => callbacksDue hn n
      rintro s ⟨hs, hd⟩
      obtain ⟨h1, h2⟩ := hn _ _ _ hd
      exact b.lenient _ _ (.mapPorts h1 h2) hs

theorem completionsDue (n : Nat) : Keeps P (Machine.callbacksDue h Ports.nextCompletion n) := by
  refine b.callbacksDue (fun p e q hq => ?_) n
  unfold Ports.nextCompletion at hq
  split at hq <;> cases hq
  exact ⟨rfl, rfl⟩

theorem indicationsDue (n : Nat) : Keeps P (Machine.callbacksDue h Ports.nextIndication n) := by
  refine b.callbacksDue (fun p e q hq => ?_) n
  unfold Ports.nextIndication at hq
  split at hq <;> cases hq
  exact ⟨rfl, rfl⟩

/-! ### The coordinator -/

theorem waitAcceptLocked (n : Nat) : Keeps P (waitAcceptLocked h n) := b.lenient.waitAcceptLocked b.point n

theorem issueLocked (code : Byte) (wait : Bool) (pointer : Word) : Keeps P (issueLocked h code wait pointer) :=
  .bind (.read _) fun _ => .ite (.pure _) (b.command code wait pointer)

theorem issueRequest (wait : Bool) (code : BitVec 7) (pointer : Word) : Keeps P (issueRequest h wait code pointer) :=
  .bind (.read _) fun _ => .ite (.pure _) <| .ite (.pure _) <| .ite (.pure _) <| .bind b.point fun _ =>
    .bind (.read _) fun _ => .ite (.pure _) <| .bind b.point fun _ => .bind b.lenient.lock_cmd fun _ =>
      .bind (b.command _ wait pointer) fun _ => .bind b.lenient.unlock_cmd fun _ => .pure _

theorem waitRequest (budget : Word) : Keeps P (waitRequest h budget) :=
  .bind (.read _) fun _ => .ite (.pure _) <| .bind b.point fun _ => .bind b.lenient.lock_cmd fun _ =>
    .bind (b.waitAcceptLocked _) fun _ => .bind b.lenient.unlock_cmd fun _ => .pure _

/-! ### The transmit side, up to the ring itself -/

theorem initDescriptors : ∀ is, Keeps P (initDescriptors h is)
  | [] => .pure _
  | i :: is => .bind (b.host (b.lenient.writeTdC i true)) fun _ => .bind (b.host (b.lenient.writeTdS i false)) fun _ =>
    .bind (.read _) fun _ => .bind (b.host (b.lenient.writeTdLink i _)) fun _ =>
      .bind (b.host (b.lenient.writeTdFragCount i 0)) fun _ => initDescriptors is

theorem copyFragments : ∀ dst fs, Keeps P (copyFragments h dst fs)
  | _, [] => .pure _
  | dst, _ :: fs => .bind (b.host (.memRead _ _)) fun _ => .bind (b.host (b.lenient.memWrite dst _)) fun _ =>
    copyFragments _ fs

theorem zeroPad : ∀ dst n, Keeps P (zeroPad h dst n)
  | _, 0 => .pure _
  | dst, n + 1 => .bind (b.host (b.lenient.memWrite dst _)) fun _ => zeroPad _ n

theorem coalesceInto (i : Nat) (p : Packet) : Keeps P (coalesceInto h i p) :=
  .bind (.read _) fun _ => .bind (.read _) fun _ => .bind (b.copyFragments _ _) fun _ => b.zeroPad _ _

theorem writeFragments (t : Nat) : ∀ k fs, Keeps P (writeFragments h t k fs)
  | _, [] => .pure _
  | k, _ :: fs => .bind (b.host (b.lenient.writeTdFragAddr t k _)) fun _ =>
    .bind (b.host (b.lenient.writeTdFragLen t k _)) fun _ => writeFragments t _ fs

theorem placeFill (t : Nat) (p : Packet) : Keeps P (placeFill h t p) :=
  .bind (.read _) fun _ => .ite
    (.bind (.read _) fun
      | [] => .pure _
      | i :: _ => .bind b.lenient.updateTx fun _ => .bind (b.coalesceInto i p) fun _ =>
        .bind (b.lenient.mapShadow fun _ => rfl) fun _ => .bind (b.host (b.lenient.writeTdFragCount t 1)) fun _ =>
          .bind (.read _) fun _ => .bind (.read _) fun _ => .bind (b.host (b.lenient.writeTdFragAddr t 0 _)) fun _ =>
            .bind (b.host (b.lenient.writeTdFragLen t 0 _)) fun _ => .pure _)
    (.bind (b.host (b.lenient.writeTdFragCount t _)) fun _ => .bind (b.writeFragments t 0 _) fun _ => .pure _)

theorem placeCommand (t : Nat) : Keeps P (placeCommand h t) := by
  refine .bind (.read _) fun _ => .ite
    (.bind (.read _) fun _ => .bind (b.issueLocked _ _ _) fun _ => .ite (.pure _) <|
      .bind b.lenient.updateTx fun _ => .pure _)
    (.bind (.read _) fun _ => .bind (.read _) fun _ => ?_)
  refine .ite (.bind (b.waitAcceptLocked _) ?resume) (.bind (.pure _) ?resume)
  exact fun _ => .ite (.pure _) <| .bind (.read _) fun _ => .bind (b.host (b.lenient.writeTdS _ false)) fun _ =>
    .bind (b.issueLocked _ _ _) fun _ => .pure _

theorem placeIssue (t : Nat) : Keeps P (placeIssue h t) :=
  .bind b.point fun _ => .bind b.lenient.lock_cmd fun _ => .bind (b.placeCommand t) fun _ =>
    .bind b.lenient.unlock_cmd fun _ => .pure _

theorem hangCheck : Keeps P (hangCheck h) :=
  .bind (.read _) fun _ => .ite
    (.bind (b.host (.readTdC _)) fun _ => .ite (.pure _) <| .bind (b.lenient.mapShadow fun _ => rfl) fun _ => .read _)
    (.pure _)

/-! ### The receive side, up to the ring itself -/

theorem openGate (q a : Nat) : Keeps P (openGate h q a) :=
  .bind (b.host (b.lenient.writeRdLink q _)) fun _ => b.host (b.lenient.writeRdEL q false)

theorem powerSignal (due : Bool) : Keeps P (powerSignal h due) := .ite (b.callbacks _) (.pure _)

theorem gatherFrames : ∀ batch, Keeps P (gatherFrames h batch)
  | [] => .pure _
  | (d, _) :: rest => .bind (b.host (.readRdPayloadPtr d)) fun _ => .bind (.read _) fun _ =>
    .bind (b.host (.memRead _ _)) fun _ => .bind (gatherFrames rest) fun _ => .pure _

theorem readCompleted (d : Nat) : Keeps P (readCompleted h d) :=
  .bind (b.host (.readRdC d)) fun _ => .ite (b.host (.readRdV d)) (.pure _)

theorem firstUntouched : ∀ ds, Keeps P (firstUntouched h ds)
  | [] => .pure _
  | d :: ds => .bind (b.host (.readRdC d)) fun _ => .ite (firstUntouched ds) <|
    .bind (b.host (.readRdV d)) fun _ => .ite (firstUntouched ds) (.pure _)

theorem rearmPosted : ∀ ds, Keeps P (rearmPosted h ds)
  | [] => .pure _
  | d :: ds => .bind (b.host (b.lenient.writeRdCount d 0 false)) fun _ =>
    .bind (b.host (b.lenient.writeRdStatus d false false)) fun _ => rearmPosted ds

/-! ### The link machine -/

theorem phyProbe (a : PhyAddress) : Keeps P (phyProbe h a) := .bind (b.host (.regRead _)) fun _ => .pure _

theorem linkStart : Keeps P (linkStart h) :=
  .bind (.read _) fun _ => .ite (.pure _) <| .bind b.point fun _ => .bind b.lenient.lock_dev fun _ =>
    .bind (.read _) fun _ => .ite (.bind b.lenient.unlock_dev fun _ => .pure _) <|
      .bind (b.lenient.update fun s => .mapLink s _) fun _ => .bind b.lenient.retain fun _ =>
        .bind b.lenient.unlock_dev fun _ => .pure _

theorem scan : ∀ as, Keeps P (scan h as)
  | [] => .bind (.read _) fun x => .bind (b.lenient.choose x) fun _ => .pure _
  | a :: as => .bind (b.phyProbe a) fun _ => .ite (.bind (b.lenient.updateLink _) fun _ => scan as) <| .ite
    (.bind (b.lenient.choose _) fun _ => .pure _)
    (.bind (.read _) fun _ => .bind (b.lenient.updateLink _) fun _ => .pure _)

theorem waitStep : Keeps P (waitStep h) :=
  .bind (.read _) fun
    | none => .fault _
    | some a => .bind (b.phyProbe a) fun _ => .ite
      (.bind (b.lenient.choose _) fun _ => .bind b.lenient.endWait fun _ => .pure _)
      (.bind (b.lenient.updateLink _) fun _ => .bind (.read _) fun _ => .ite
        (.bind (.read _) fun _ => .bind (b.lenient.choose _) fun _ => .bind b.lenient.endWait fun _ => .pure _)
        (.pure _))

theorem linkAdvance : Keeps P (linkAdvance h) :=
  .bind (.read _) fun s => by
    split
    · exact b.scan _
    · exact b.waitStep
    · exact .pure _
    · exact .fault _
    · exact .fault _

theorem configure : Keeps P (configure h) :=
  .bind (.read _) fun
    | .addr a => .bind (b.phyProbe a) fun _ => .ite (b.host (b.lenient.updateLink _)) (b.host (b.lenient.setDefaults _))
    | .connector _ => b.lenient.setDefaults _
    | .alternateWiring => b.lenient.setDefaults _
    | .none => .fault _

theorem valueOf : ∀ prop, Keeps P (valueOf h prop)
  | .linkSpeed => .read _
  | .mediaState => .bind (.read _) fun _ => .bind (b.host (.read _)) fun _ => .bind (b.host (.read _)) fun _ => .pure _

theorem getProperty (q : Word) (prop : Property) : Keeps P (getProperty h q prop) :=
  .bind (.read _) fun _ => .ite (.pure _) <| .bind b.point fun _ => .bind b.lenient.lock_dev fun _ =>
    .bind (.read _) fun _ => .ite
      (.bind (b.lenient.updateLink _) fun _ => .bind b.lenient.unlock_dev fun _ => .pure _)
      (.bind (b.valueOf prop) fun _ => .bind b.lenient.unlock_dev fun _ => .bind (b.callbacks _) fun _ => .pure _)

theorem setFilter (mask : Word) : Keeps P (setFilter h mask) :=
  .bind (.read _) fun _ => .ite (.pure _) <| .bind b.point fun _ => .bind b.lenient.lock_dev fun _ =>
    .bind (.read _) fun _ => .ite
      (.bind (b.lenient.updateLink _) fun _ => .bind b.lenient.unlock_dev fun _ => .pure _)
      (.bind b.lenient.updateDev fun _ => .bind b.lenient.unlock_dev fun _ => .pure _)

theorem setMcast (handle : Word) : Keeps P (setMcast h handle) :=
  .bind (.read _) fun _ => .bind (.read _) fun found => .ite (.pure _) <| match found with
    | none => .pure _
    | some _ => .bind b.point fun _ => .bind b.lenient.lock_dev fun _ => .bind (.read _) fun _ => .ite
      (.bind (b.lenient.updateLink _) fun _ => .bind b.lenient.unlock_dev fun _ => .pure _)
      (.bind b.lenient.updateDev fun _ => .bind b.lenient.unlock_dev fun _ => .pure _)

theorem reprobe : Keeps P (reprobe h) :=
  .bind (.read _) fun
    | .addr a => .bind (b.phyProbe a) fun _ => .bind (.read _) fun _ => .ite
      (.bind (b.host (b.lenient.updateLink _)) fun _ => .pure _)
      (.bind (b.host (b.lenient.updateLink _)) fun _ => .pure _)
    | .connector _ => .pure _
    | .alternateWiring => .pure _
    | .none => .pure _

theorem completeReads : ∀ reads, Keeps P (completeReads h reads)
  | [] => .pure _
  | (_, prop) :: rest => .bind b.point fun _ => .bind (b.valueOf prop) fun _ => .bind (b.callbacks _) fun _ =>
    completeReads rest

/-! ### Device control -/

theorem setMask (v : Word) : Keeps P (setMask h v) := b.sync (b.lenient.regWrite_intmask v)

theorem maskRequest (v : Word) : Keeps P (maskRequest h v) :=
  .bind (.read _) fun _ => .ite (.pure _) <| .bind b.point fun _ => .bind (b.setMask v) fun _ => .pure _

theorem armHealthTimer : Keeps P (armHealthTimer h) := .bind b.point fun _ => b.lenient.updateDev

theorem clearFragments (i : Nat) : ∀ ks, Keeps P (clearFragments h i ks)
  | [] => .pure _
  | k :: ks => .bind (b.host (b.lenient.writeTdFragAddr i k 0)) fun _ =>
    .bind (b.host (b.lenient.writeTdFragLen i k 0)) fun _ => clearFragments i ks

theorem clearSlots : ∀ is, Keeps P (clearSlots h is)
  | [] => .pure _
  | i :: is => .bind (b.host (b.lenient.writeTdReserved i)) fun _ => .bind (.read _) fun _ =>
    .bind (b.clearFragments i _) fun _ => clearSlots is

end Base

end Sys2Proof.Machine
end

