-- ==== Sys2Proof/Proofs/Requests.lean ====
section
/-!
PROOF. The requests. An invariant is kept by every step of every agent once it is kept by the few operations that change
what it looks at: `TxSection` names those under lock `tx`, `Rings` the requests on the rings, `Life` those that change
`deviceState`.
-/
namespace Sys2Proof.Machine

variable {α : Type} {P T : State → Prop} {h : Handler}

/-! ## Refusals -/

/-- In this state the operation changes nothing. -/
def Refuses (m : Op α) (s : State) : Prop := ∀ a t, m s = .ok (a, t) → t = s

theorem Refuses.of_ok {m : Op α} {s : State} {a : α} (hm : m s = .ok (a, s)) : Refuses m s := by
  intro b t hr
  rw [hm, Except.ok.injEq, Prod.mk.injEq] at hr
  exact hr.2.symm

theorem Refuses.of_error {m : Op α} {s : State} {e : Stop} (hm : m s = .error e) : Refuses m s := by
  intro b t hr
  rw [hm] at hr
  cases hr

/-- An operation may be followed under the stronger invariant that its first test establishes. -/
theorem Keeps.of_refuses {P' : State → Prop} {m : Op α} (hm : Keeps P' m) (hin : ∀ s, P s → P' s ∨ Refuses m s)
    (hout : ∀ s, P' s → P s) : Keeps P m := by
  intro s a t hs hr
  rcases hin s hs with h' | h'
  · exact hout t (hm s a t h' hr)
  · exact h' a t hr ▸ hs

/-- An operation that every state with `P` makes refuse. -/
theorem Keeps.refused {m : Op α} (hin : ∀ s, P s → Refuses m s) : Keeps P m :=
  fun s a t hs hr => hin s hs a t hr ▸ hs

section Refusals
variable {s : State}

theorem submit_refuses (hl : s.dev.lifecycle ≠ .running) (w : Word) : Refuses (submit h w) s :=
  .of_ok (by simp [submit, hl]; rfl)
theorem reclaim_refuses (hl : s.dev.lifecycle ≠ .running) : Refuses (reclaim h) s := .of_ok (by simp [reclaim, hl]; rfl)
theorem drain_refuses (hl : s.dev.lifecycle ≠ .running) : Refuses (drain h) s := .of_ok (by simp [drain, hl]; rfl)
theorem harvest_refuses (hl : s.dev.lifecycle ≠ .running) : Refuses (harvest h) s := .of_ok (by simp [harvest, hl]; rfl)
theorem grow_refuses (hl : s.dev.lifecycle ≠ .running) : Refuses (grow h) s := .of_ok (by simp [grow, hl]; rfl)

theorem reset_refuses (hl : s.dev.lifecycle ≠ .running) : Refuses (reset h) s := by
  by_cases hw : s.dev.lifecycle = .withdrawn
  · exact .of_ok (by simp [reset, hw]; rfl)
  · exact .of_ok (by simp [reset, hw, hl]; rfl)

theorem teardown_refuses (hm : s.mayTearDown = false) : Refuses (teardown h) s := .of_ok (by simp [teardown, hm]; rfl)
theorem teardownFinish_refuses (hm : s.teardownMayFinish = false) : Refuses (teardownFinish h) s :=
  .of_ok (teardownFinish_waits hm)

theorem recycle_refuses {d : Nat} (hd : s.isHanded d = false) : Refuses (recycle h d) s :=
  .of_ok (by simp [recycle, hd]; rfl)
theorem rxReturn_refuses {d : Nat} (hd : s.isHanded d = false) : Refuses (rxReturn h d) s :=
  .of_ok (by simp [rxReturn, hd]; rfl)
theorem shrink_refuses {d : Nat} (hd : s.isHanded d = false) : Refuses (shrink h d) s :=
  .of_ok (by simp [shrink, hd]; rfl)
theorem growComplete_refuses (ha : s.rx.allocState = .idle) (ok : Bool) (a : Nat) : Refuses (growComplete h ok a) s :=
  .of_ok (by simp [growComplete, ha]; rfl)

/-- START is refused where it is under way or the device is past it. -/
theorem start_refuses (hs : s.ports.startActive = true ∨ s.dev.lifecycle ≠ .uninitialised) : Refuses (start h) s := by
  by_cases ha : s.ports.startActive = true
  · exact .of_error (e := .wait) (by simp [start, ha])
  · exact .of_ok (by simp [start, ha, hs.resolve_left ha]; rfl)

end Refusals

/-! ## The sections under lock `tx` -/

/-- `T` is what holds, beside `P`, while the operation holds lock `tx`; the fields are what is done to the ring there. -/
structure TxSection (h : Handler) (P T : State → Prop) : Prop extends Base h P where
  inside : Base h T
  enter : Leads P (lock .tx) (fun _ => T)
  leave : Leads T (unlock .tx) (fun _ => P)
  lock_rx : Keeps T (lock .rx)
  unlock_rx : Keeps T (unlock .rx)
  submit : ∀ p, Keeps T (submitLocked h p)
  drain : ∀ n, Keeps T (drainLoop h n)
  reclaim : ∀ n, Keeps T (reclaimLoop h n)
  abort : Keeps T (abortHeld h)

namespace TxSection
variable (x : TxSection h P T)
include x

/-- An operation that takes lock `tx`. -/
theorem locked {f : Unit → Op α} (hf : ∀ u, Leads T (f u) (fun _ => P)) : Keeps P (lock .tx >>= f) :=
  Leads.bind (Q := fun _ => T) x.enter hf

/-- An operation that gives lock `tx` back. -/
theorem unlocked {f : Unit → Op α} (hf : ∀ u, Keeps P (f u)) : Leads T (unlock .tx >>= f) (fun _ => P) :=
  Leads.bind (Q := fun _ => P) x.leave hf

theorem submitAdmitted (w : Word) : Keeps P (submitAdmitted h w) :=
  .bind (.read _) fun s => by
    split
    · exact .pure _
    · exact .ite (.pure _) <| .bind x.point fun _ => .bind (.read _) fun _ => .ite (.pure _) <| .bind x.point fun _ =>
        x.locked fun _ => (x.submit _).then fun _ => x.unlocked fun _ => .pure _

theorem submit_keeps (w : Word) : Keeps P (Machine.submit h w) :=
  .bind (.read _) fun _ => .ite (.pure _) <| .bind x.lenient.updatePorts fun _ => .bind (x.submitAdmitted w) fun _ =>
    .bind x.lenient.updatePorts fun _ => .pure _

theorem drain_keeps : Keeps P (Machine.drain h) :=
  .bind (.read _) fun _ => .ite (.pure _) <| .bind x.point fun _ => x.locked fun _ => (Keeps.read _).then fun _ =>
    (x.drain _).then fun _ => x.unlocked fun _ => .bind (x.callbacks _) fun _ => .pure _

theorem reclaim_keeps : Keeps P (Machine.reclaim h) :=
  .bind (.read _) fun _ => .ite (.pure _) <| .bind x.point fun _ => x.locked fun _ => (Keeps.read _).then fun _ =>
    (x.reclaim _).then fun _ => x.inside.lenient.updatePorts.then fun _ => (Keeps.read _).then fun _ =>
      x.unlocked fun _ => .bind (x.completionsDue _) fun _ => .bind x.point fun _ => .bind x.drain_keeps fun _ => .pure _

/-- RESET's part under the locks: its port reset and the clearing of the flag are what the invariant must allow. -/
theorem resetRings_keeps (hf : Keeps T fullReset) (he : Keeps T errorReturn) : Keeps P (resetRings h) :=
  .bind (x.setMask 1) fun _ => .bind x.point fun _ => x.locked fun _ => x.inside.point.then fun _ =>
    x.lock_rx.then fun _ => (x.inside.host hf).then fun _ => x.inside.point.then fun _ => he.then fun _ =>
    x.abort.then fun _ => x.inside.point.then fun _ => x.inside.lenient.lock_cmd.then fun _ =>
    x.inside.lenient.updateTx.then fun _ => x.inside.lenient.unlock_cmd.then fun _ => (Keeps.read _).then fun _ =>
    (x.inside.rearmPosted _).then fun _ => x.unlock_rx.then fun _ => x.unlocked fun _ =>
      .bind x.lenient.unlock_dev fun _ => .pure _

/-- TEARDOWN's first transition, where the invariant allows `Halting`. -/
theorem teardown_keeps
    (hh : ∀ s, P s → P (s.mapDev (fun d => { d with lifecycle := .halting }))) : Keeps P (teardown h) := by
  refine .bind (.read _) fun _ => .ite (.pure _) <| .bind x.lenient.updatePorts fun _ => .bind x.point fun _ =>
    .bind x.lenient.lock_dev fun _ => .bind (.update hh) fun _ => .bind x.lenient.unlock_dev fun _ =>
    .bind x.point fun _ => .bind (x.setMask 1) fun _ => .bind x.point fun _ => .bind x.lenient.updateDev fun _ =>
    .bind x.point fun _ => .bind (.read _) fun _ => ?_
  refine .ite (.bind (x.host x.lenient.cancelLinkTimer) ?rest) (?rest ())
  exact fun _ => .bind (x.host x.lenient.selectiveReset) fun _ => .bind x.point fun _ =>
    .bind x.lenient.lock_dev fun _ => .bind x.point fun _ => x.locked fun _ => x.abort.then fun _ =>
    (Keeps.read _).then fun _ => (x.inside.lenient.updateLink _).then fun _ => x.unlocked fun _ =>
    .bind x.lenient.unlock_dev fun _ => .bind (x.callbacks _) fun _ => .bind (x.callbacks _) fun _ =>
    .bind x.lenient.updatePorts fun _ => .pure _

theorem abortLate_keeps : Keeps P (abortLate h) :=
  .bind (.read _) fun _ => .ite
    (.bind x.point fun _ => .bind x.lenient.lock_dev fun _ => .bind x.point fun _ => x.locked fun _ =>
      x.abort.then fun _ => x.unlocked fun _ => .bind x.lenient.unlock_dev fun _ => x.callbacks _)
    (.pure _)

theorem teardownFinish_keeps (hf : Keeps P teardownFree) : Keeps P (teardownFinish h) :=
  .bind (.read _) fun _ => .ite (.bind x.abortLate_keeps fun _ => .bind (.read _) fun _ => .ite hf (.pure _)) (.pure _)

end TxSection

namespace TxBlind
variable (t : TxBlind h P)
include t

theorem updateTx (f : TxRing → TxRing) : Keeps P (updateTx f) := Keeps.update (fun s hs => t.ring s f hs)

theorem rollback (i : Nat) : Keeps P (rollback h i) :=
  .bind (t.host (t.lenient.writeTdC i true)) fun _ => t.updateTx _

theorem place (p : Packet) : Keeps P (place h p) := by
  refine .bind (.read _) fun i => .bind (t.placeFill i p) fun _ => .ite (.pure _) <| .bind (t.updateTx _) fun _ =>
    .bind (t.host (t.lenient.writeTdS i true)) fun _ =>
    .bind (t.host (.handOver (t.lenient.writeTdC i false))) fun _ => ?_
  refine .ite (.bind (t.placeIssue i) ?rest) (.bind (.pure _) ?rest)
  exact fun _ => .ite (.bind (t.rollback i) fun _ => .pure _) <| .bind (t.updateTx _) fun _ =>
    .bind (.update fun s hs => t.ring s _ hs) fun _ => .pure _

theorem submitLocked (p : Packet) : Keeps P (submitLocked h p) :=
  .bind (.read _) fun _ => .ite (t.lenient.enqueue p) <| .ite (.ite (.pure _) (t.lenient.enqueue p)) <|
    .ite (t.lenient.enqueue p) (t.place p)

theorem drainLoop : ∀ n, Keeps P (drainLoop h n)
  | 0 => .pure _
  | n + 1 => .bind t.point fun _ => .bind (.read _) fun s => .ite
    (by
      split
      · exact .pure _
      · exact .bind (t.place _) fun _ => .ite (.bind t.lenient.popWaitQueue fun _ => drainLoop n) <|
          .ite (.pure _) <| .bind t.lenient.popWaitQueue fun _ => .pure _)
    (.pure _)

theorem reclaimLoop : ∀ n, Keeps P (reclaimLoop h n)
  | 0 => .pure _
  | n + 1 => .bind (.read _) fun i => .bind (.read _) fun _ => .ite
    (.bind (t.host (.readTdC i)) fun _ => .ite
      (.bind (.bind (.read _) fun _ => .bind (.read _) fun _ => .bind (.update fun s hs => t.ring s _ hs) fun _ => .pure _)
        fun _ => .bind (reclaimLoop n) fun _ => .pure _)
      (.pure _))
    (.pure _)

theorem abortHeld : Keeps P (abortHeld h) :=
  .bind (.read _) fun _ => .bind
    (.bind (.read _) fun _ => .bind (t.initDescriptors _) fun _ => .bind (.read _) fun _ => t.updateTx _) fun _ => .pure _

/-- For an invariant that does not look at the ring nothing changes under lock `tx`. -/
theorem section_ : TxSection h P P where
  toBase := t.toBase
  inside := t.toBase
  enter := t.locks.lock .tx
  leave := t.locks.unlock .tx
  lock_rx := t.locks.lock .rx
  unlock_rx := t.locks.unlock .rx
  submit := t.submitLocked
  drain := t.drainLoop
  reclaim := t.reclaimLoop
  abort := t.abortHeld

end TxBlind

/-! ## Under lock `rx`, for an invariant that does not look at the receive ring -/

/-- The end of GROW_COMPLETE. -/
theorem growCompleted (r : RxBlind h P) : Keeps P (do
    updateRx (fun r => { r with allocState := .idle })
    unlock .rx
    point h
    release
    pure Status.ok) :=
  .bind (.update fun s hs => r.ring s _ hs) fun _ => .bind (r.locks.unlock .rx) fun _ => .bind r.point fun _ =>
    .bind r.lenient.release fun _ => .pure _

namespace RxBlind
variable (r : RxBlind h P)
include r

theorem updateRx (f : RxRing → RxRing) : Keeps P (updateRx f) := Keeps.update (fun s hs => r.ring s f hs)

theorem poolAllocRx (d a : Nat) : Keeps P (poolAllocRx h d a) :=
  .bind (.read _) fun _ => .bind (r.updateRx _) fun _ => .bind (r.host (r.lenient.writeRdStatus d _ _)) fun _ =>
    .bind (r.host (r.lenient.writeRdEL d _)) fun _ => .bind (r.host (r.lenient.writeRdLink d _)) fun _ =>
    .bind (r.host (r.lenient.writeRdPayloadPtr d _)) fun _ => .bind (r.host (r.lenient.writeRdCount d _ _)) fun _ =>
    r.host (r.lenient.writeRdCapacity d _)

theorem poolFreeRx (d : Nat) : Keeps P (poolFreeRx d) :=
  .bind (.read _) fun sh => by
    cases sh.bind (·.allocBase) with
    | none => exact r.updateRx _
    | some a => exact .bind (r.lenient.freeRegion a) fun _ => r.updateRx _

theorem recycleLocked (d : Nat) : Keeps P (recycleLocked h d) :=
  .bind (r.host (r.lenient.writeRdCount d _ _)) fun _ => .bind (r.host (r.lenient.writeRdEL d _)) fun _ =>
    .bind (r.host (r.lenient.writeRdLink d _)) fun _ => .bind (r.host (r.lenient.writeRdStatus d _ _)) fun _ =>
    .bind (.read _) fun last => .bind (.rdAddrOf d) fun a => by
      cases last with
      | none => exact r.updateRx _
      | some q => exact .bind (r.openGate q a) fun _ => r.updateRx _

theorem detachPending (d : Nat) : Keeps P (detachPending d) :=
  .bind (.read _) fun c => .bind (.assert c) fun _ => r.updateRx _

theorem shrinkLocked (d : Nat) : Keeps P (shrinkLocked d) := .bind (r.poolFreeRx d) fun _ => r.updateRx _

theorem recycle (d : Nat) : Keeps P (recycle h d) :=
  .bind (.read _) fun _ => .ite (.pure _) <| .bind r.point fun _ => .bind (r.locks.lock .rx) fun _ =>
    .bind (r.detachPending d) fun _ => .bind (r.recycleLocked d) fun _ => .bind r.lenient.powerCheck fun _ =>
    .bind (r.locks.unlock .rx) fun _ => .bind (r.powerSignal _) fun _ => .pure _

theorem rxReturn (d : Nat) : Keeps P (rxReturn h d) := by
  refine .bind (.read _) fun _ => .ite (.pure _) <| .bind r.point fun _ => .bind (r.locks.lock .rx) fun _ =>
    .bind (r.detachPending d) fun _ => .bind (.read _) fun _ => ?_
  refine .ite (.bind (r.shrinkLocked d) ?rest) (.bind (r.recycleLocked d) ?rest)
  exact fun _ => .bind r.lenient.powerCheck fun _ => .bind (r.locks.unlock .rx) fun _ =>
    .bind (r.powerSignal _) fun _ => .pure _

theorem shrink (d : Nat) : Keeps P (shrink h d) :=
  .bind (.read _) fun _ => .ite (.pure _) <| .bind r.point fun _ => .bind (r.locks.lock .rx) fun _ =>
    .bind (.read _) fun _ => .ite (.bind (r.locks.unlock .rx) fun _ => .pure _) <|
    .bind (r.detachPending d) fun _ => .bind (r.shrinkLocked d) fun _ => .bind r.lenient.powerCheck fun _ =>
    .bind (r.locks.unlock .rx) fun _ => .bind (r.powerSignal _) fun _ => .pure _

theorem growLocked : Keeps P growLocked :=
  .bind (.read _) fun _ => .ite (.pure _) <| .bind r.lenient.allocShadow fun _ => .ite (.pure _) <|
    .bind (r.updateRx _) fun _ => .bind r.lenient.retain fun _ => .pure _

theorem grow : Keeps P (grow h) :=
  .bind (.read _) fun _ => .ite (.pure _) <| .bind r.point fun _ => .bind (r.locks.lock .rx) fun _ =>
    .bind r.growLocked fun _ => .bind (r.locks.unlock .rx) fun _ => .pure _

theorem growComplete (ok : Bool) (a : Nat) : Keeps P (growComplete h ok a) := by
  refine .bind (.read _) fun _ => .ite (.pure _) <| .bind r.point fun _ => .bind (r.locks.lock .rx) fun _ =>
    .bind (.read _) fun s => ?_
  split
  · exact .fault _
  · rename_i d _
    have finish := growCompleted r
    have dropped := Keeps.bind (r.updateRx (fun x => x.dropShadow d)) fun _ => finish
    refine .ite (.bind (r.lenient.takeRegion a) ?rest) (?rest ())
    exact fun _ => .ite
      (.bind (r.poolAllocRx d a) fun _ => .bind (r.updateRx _) fun _ => .bind (r.recycleLocked d) fun _ => finish)
      (.ite (.bind (r.lenient.freeRegion a) fun _ => dropped) dropped)

theorem updateThresholds : Keeps P updateThresholds :=
  .bind (.read _) fun _ => .ite
    (.bind (r.updateRx _) fun _ => .ite (.bind r.growLocked fun _ => .pure _) (.pure _))
    (r.updateRx _)

theorem recycleLow : ∀ batch, Keeps P (recycleLow h batch)
  | [] => .pure _
  | (d, _) :: rest => .ite (.bind (r.recycleLocked d) fun _ => recycleLow rest) (recycleLow rest)

theorem flush (batch : List (Nat × Bool)) : Keeps P (flush h batch) :=
  .bind (r.gatherFrames batch) fun _ => .bind r.lenient.updatePorts fun _ => .bind (.read _) fun _ =>
    .bind (r.locks.unlock .rx) fun _ => .bind (r.indicationsDue _) fun _ => .bind (r.locks.lock .rx) fun _ =>
    r.recycleLow batch

theorem dispose (d : Nat) : Keeps P (dispose h d) :=
  .bind (r.host (.readRdCount d)) fun _ => .bind (r.updateRx _) fun _ => .bind (r.host (.readRdOK d)) fun _ =>
    .bind (r.host (.read _)) fun _ => .bind (.read _) fun _ => .ite (.bind (r.recycleLocked d) fun _ => .pure _) <|
    .ite (.bind (r.updateRx _) fun _ => .pure _) (.bind (r.updateRx _) fun _ => .pure _)

theorem flushFull (batch : List (Nat × Bool)) : Keeps P (flushFull h batch) :=
  .bind (.read _) fun _ => .ite (.bind (r.flush batch) fun _ => .pure _) (.pure _)

theorem harvestLoop : ∀ n batch, Keeps P (harvestLoop h n batch)
  | 0, _ => .pure _
  | n + 1, batch => .bind (.read _) fun ready => by
    cases ready with
    | nil => exact .pure _
    | cons d ds =>
      exact .bind (r.readCompleted d) fun _ => .ite
        (.bind (r.updateRx _) fun _ => .bind (r.dispose d) fun _ => .bind (r.flushFull _) fun _ => harvestLoop n _)
        (.pure _)

theorem harvest : Keeps P (harvest h) := by
  refine .bind (.read _) fun _ => .ite (.pure _) <| .bind r.point fun _ => .bind (r.locks.lock .rx) fun _ =>
    .bind (.read _) fun n => .bind (r.harvestLoop n []) fun batch => ?_
  refine .ite (.bind (r.flush batch) ?rest) (?rest ())
  exact fun _ => .bind r.updateThresholds fun _ => .bind (r.locks.unlock .rx) fun _ => .pure _

theorem freePosted : ∀ ds, Keeps P (freePosted ds)
  | [] => .pure _
  | d :: ds => .bind (r.poolFreeRx d) fun _ => .bind (r.updateRx _) fun _ => freePosted ds

theorem startReceive : ∀ k bases, Keeps P (startReceive h k bases)
  | _, [] => .pure _
  | k, a :: rest => .bind (r.poolAllocRx k a) fun _ => .bind (r.updateRx _) fun _ => .bind (r.recycleLocked k) fun _ =>
    startReceive (k + 1) rest

/-- TEARDOWN's steps 7 to 9, where the invariant allows `Halted`. -/
theorem teardownFree (hh : ∀ s, P s → P (s.mapDev (fun d => { d with lifecycle := .halted }))) : Keeps P teardownFree :=
  .bind (.read _) fun _ => .bind (.assert _) fun _ => .bind (r.locks.lock .rx) fun _ => .bind (r.freePosted _) fun _ =>
    .bind (r.updateRx _) fun _ => .bind (r.locks.unlock .rx) fun _ => .bind r.lenient.updatePorts fun _ =>
    .bind (.update hh) fun _ => r.lenient.update fun s => .withResult s _

end RxBlind

/-! ## The requests on the rings, and those that run them -/

/-- The invariant is kept by the requests on the rings. -/
structure Rings (h : Handler) (P : State → Prop) : Prop extends Base h P where
  locks : LockBlind P
  submit : ∀ w, Keeps P (submit h w)
  drain : Keeps P (drain h)
  reclaim : Keeps P (reclaim h)
  harvest : Keeps P (harvest h)
  recycle : ∀ d, Keeps P (recycle h d)
  rxReturn : ∀ d, Keeps P (rxReturn h d)
  shrink : ∀ d, Keeps P (shrink h d)
  grow : Keeps P (grow h)
  growComplete : ∀ ok a, Keeps P (growComplete h ok a)

namespace Rings
variable (r : Rings h P)
include r

theorem cancel (tag : Word) : Keeps P (cancel h tag) :=
  .bind (.read _) fun _ => .ite (.pure _) <| .bind r.point fun _ => .bind (r.locks.lock .tx) fun _ =>
    .bind (.read _) fun _ => .bind r.lenient.updateTx fun _ => .bind (r.locks.unlock .tx) fun _ =>
    .bind (r.callbacks _) fun _ => .pure _

theorem startAt : ∀ found, Keeps P (startAt h found)
  | none => .bind (r.locks.unlock .rx) fun _ => .pure _
  | some d => .bind (.rdAddrOf d) fun _ => .bind r.point fun _ => .bind r.lenient.lock_cmd fun _ =>
    .bind (r.issueLocked _ _ _) fun _ => .bind r.lenient.unlock_cmd fun _ => .bind (r.locks.unlock .rx) fun _ => .pure _

theorem ensureStarted : Keeps P (ensureStarted h) :=
  .bind (.read _) fun _ => .ite (.pure _) <| .bind r.point fun _ => .bind (.read _) fun _ => .ite (.pure _) <|
    .bind (r.host (.regRead _)) fun _ => .ite (.pure _) <| .bind r.point fun _ => .bind (r.locks.lock .rx) fun _ =>
    .bind (.read _) fun _ => .bind (r.firstUntouched _) fun _ => .ite
      (.bind (r.locks.unlock .rx) fun _ => .bind r.point fun _ => .bind r.harvest fun _ => .bind r.point fun _ =>
        .bind (r.locks.lock .rx) fun _ => .bind (.read _) fun _ => .bind (r.firstUntouched _) fun _ => r.startAt _)
      (r.startAt _)

theorem setPower (target : PowerState) : Keeps P (setPower h target) :=
  .bind (.read _) fun _ => .ite (.pure _) <| .bind r.point fun _ => .bind r.lenient.lock_dev fun _ =>
    .bind r.point fun _ => .bind (r.locks.lock .rx) fun _ => .bind r.lenient.updateDev fun _ => by
      cases target with
      | fullyPowered =>
        exact .bind r.lenient.updateDev fun _ => .bind (r.locks.unlock .rx) fun _ =>
          .bind r.lenient.unlock_dev fun _ => .pure _
      | lowPower =>
        exact .bind (.read _) fun _ => .ite
          (.bind r.lenient.updateDev fun _ => .bind (r.locks.unlock .rx) fun _ =>
            .bind r.lenient.unlock_dev fun _ => .pure _)
          (.bind (r.locks.unlock .rx) fun _ => .bind r.lenient.unlock_dev fun _ => .bind (r.callbacks _) fun _ => .pure _)

theorem interrupt : Keeps P (interrupt h) :=
  .bind (.read _) fun _ => .bind (.read _) fun _ => .ite .blocked <| .ite (.pure _) <|
    .bind r.lenient.updatePorts fun _ => .bind
      (.bind (r.host (.regRead _)) fun _ => .bind (r.host (.regRead _)) fun _ => .ite (.pure _) <|
        .bind (r.host (r.lenient.regWrite_status _)) fun _ => .bind r.point fun _ => .bind r.reclaim fun _ =>
        .bind r.point fun _ => .bind r.harvest fun _ => .bind r.point fun _ => .bind r.ensureStarted fun _ => .pure _)
      fun _ => .bind r.lenient.updatePorts fun _ => .pure _

/-- RESET_FAILED, where the invariant allows `Withdrawn`. -/
theorem resetFailed (hw : ∀ s, P s → P (s.mapDev (fun d => { d with nonRecoverable := true, lifecycle := .withdrawn }))) :
    Keeps P (resetFailed h) :=
  .bind r.lenient.lock_dev fun _ => .bind r.lenient.updateDev fun _ => .bind (.read _) fun _ => .ite
    (.bind r.lenient.unlock_dev fun _ => .pure _)
    (.bind (.update hw) fun _ => .bind r.lenient.unlock_dev fun _ => .bind r.point fun _ =>
      .bind r.lenient.updateDev fun _ => .bind (r.host r.lenient.cancelLinkTimer) fun _ => .pure _)

theorem resetRestart : Keeps P (resetRestart h) :=
  .bind r.ensureStarted fun _ => .ite
    (.bind r.point fun _ => .bind (.read _) fun _ => .bind r.lenient.lock_cmd fun _ =>
      .bind (r.waitAcceptLocked _) fun _ => .bind r.lenient.unlock_cmd fun _ => .pure _)
    (.pure _)

theorem reset (hr : Keeps P (resetRings h)) (hf : Keeps P (Machine.resetFailed h)) : Keeps P (reset h) :=
  .bind (.read _) fun _ => .ite (.pure _) <| .ite (.pure _) <| .bind r.point fun _ => .bind r.lenient.lock_dev fun _ =>
    .bind (.read _) fun _ => .ite
      (.bind (r.lenient.updateLink _) fun _ => .bind r.lenient.unlock_dev fun _ => .pure _)
      (.bind hr fun _ => .bind (r.callbacks _) fun _ => .bind r.point fun _ => .bind r.resetRestart fun _ =>
        .bind r.point fun _ => .ite hf <| .bind r.lenient.lock_dev fun _ => .bind r.lenient.updateDev fun _ =>
        .bind r.lenient.unlock_dev fun _ => .bind (r.setMask 0) fun _ => .bind r.point fun _ =>
        .bind r.linkStart fun _ => .pure _)

end Rings

/-! ## The requests that change `deviceState`, and every step of every agent -/

/-- The invariant is kept by every operation that changes what `Minor` protects. -/
structure Life (h : Handler) (P : State → Prop) : Prop extends Rings h P where
  start : Keeps P (start h)
  reset : Keeps P (reset h)
  teardown : Keeps P (teardown h)
  teardownFinish : Keeps P (teardownFinish h)
  registers : ∀ s f, P s → P (s.mapRegs f)

/-- The instructions whose meaning runs START or RESET, or is the full reset. -/
def Instr.resets : Instr → Bool
  | .start | .reset | .healthCheck | .linkTick | .fullReset => true
  | _ => false

/-- Every other request keeps what the requests on the rings and TEARDOWN keep. -/
theorem Rings.perform (r : Rings h P) (ht : Keeps P (teardown h)) : ∀ i : Instr, Instr.resets i = false → Keeps P (perform h i)
  | .teardown, _ => ht
  | .interrupt, _ => .map _ r.interrupt
  | .intEnable, _ => .map _ (r.maskRequest 0)
  | .intDisable, _ => .map _ (r.maskRequest 1)
  | .setPower target, _ => .map _ (r.setPower target)
  | .submit handle, _ => .map _ (r.submit handle)
  | .reclaim, _ => .map _ r.reclaim
  | .cancel tag, _ => .map _ (r.cancel tag)
  | .drain, _ => .map _ r.drain
  | .harvest, _ => .map _ r.harvest
  | .recycle d, _ => .map _ (r.recycle _)
  | .ensureStarted, _ => .map _ r.ensureStarted
  | .grow, _ => .map _ r.grow
  | .growComplete ok a, _ => .map _ (r.growComplete ok _)
  | .rxReturn d, _ => .map _ (r.rxReturn _)
  | .shrink d, _ => .map _ (r.shrink _)
  | .issueCommand wait code pointer, _ => .map _ (r.issueRequest wait code pointer)
  | .waitAccept budget, _ => .map _ (r.waitRequest budget)
  | .linkStart, _ => .map _ r.linkStart
  | .getLinkSpeed q, _ => .map _ (r.getProperty q _)
  | .getMediaState q, _ => .map _ (r.getProperty q _)
  | .setFilter mask, _ => .map _ (r.setFilter mask)
  | .setMcast l, _ => .map _ (r.setMcast l)
  | .cuStart, _ => .map _ r.lenient.acceptCuStart
  | .cuResume, _ => .map _ r.lenient.acceptCuResume
  | .ruStart, _ => .map _ r.lenient.acceptRuStart
  | .selectiveReset, _ => .map _ r.lenient.selectiveReset
  | .start, hi | .reset, hi | .healthCheck, hi | .linkTick, hi | .fullReset, hi => by cases hi

namespace Life
variable (l : Life h P)
include l

theorem healthCheck : Keeps P (healthCheck h) := by
  have body : Keeps P (healthBody h) := by
    refine .bind (.read _) fun _ => .bind l.point fun _ => .ite l.reset <| .bind (l.locks.lock .tx) fun _ =>
      .bind l.hangCheck fun _ => .bind (l.locks.unlock .tx) fun _ => .bind l.point fun _ => .ite l.reset <|
      .bind l.lenient.lock_dev fun _ => .bind l.reprobe fun _ => .bind l.lenient.unlock_dev fun _ =>
      .bind l.point fun _ => ?_
    have restart : Keeps P (Machine.ensureStarted h >>= fun _ => Pure.pure Status.ok) :=
      .bind l.ensureStarted fun _ => .pure _
    exact .ite (.bind l.drain fun _ => .bind l.point fun _ => restart) restart
  refine .bind (.read _) fun _ => .ite (.pure _) <| .bind l.point fun _ => .bind l.lenient.updateDev fun _ =>
    .bind l.point fun _ => .bind (.read _) fun _ => .ite (.pure _) <| .bind l.point fun _ => .bind (.read _) fun _ =>
    .ite (.bind l.armHealthTimer fun _ => .pure _) <| .bind l.point fun _ => .bind body fun _ => .bind l.point fun _ =>
    .bind (.read _) fun _ => ?_
  exact .ite (.bind l.armHealthTimer fun _ => .pure _) (.pure _)

theorem linkTick : Keeps P (linkTick h) := by
  have deferred : Keeps P (releaseDeferred h) :=
    .bind l.lenient.release fun _ => .bind l.point fun _ => .bind l.lenient.lock_dev fun _ => .bind (.read _) fun _ =>
      .bind l.lenient.applyDeferred fun _ => .bind l.lenient.unlock_dev fun _ => .bind (l.completeReads _) fun _ =>
      .bind l.point fun _ => .ite (.bind l.reset fun _ => .pure _) (.bind l.drain fun _ => .pure _)
  have linkStep : Keeps P (linkStep h) :=
    .bind l.point fun _ => .bind l.lenient.lock_dev fun _ => .bind l.linkAdvance fun _ => .ite
      (.bind (l.lenient.updateLink _) fun _ => .bind l.lenient.unlock_dev fun _ => .pure _)
      (.bind l.configure fun _ => .bind (l.lenient.updateLink _) fun _ => .bind l.lenient.unlock_dev fun _ =>
        .bind l.point fun _ => .bind deferred fun _ => .pure _)
  exact .bind (.read _) fun _ => .ite (.pure _) <| .bind (l.host l.lenient.takeLinkTimer) fun _ => .ite linkStep (.pure _)

theorem fullReset : Keeps P fullReset := l.lenient.fullReset l.registers

theorem perform (i : Instr) : Keeps P (perform h i) := by
  cases hi : Instr.resets i with
  | false => exact l.toRings.perform l.teardown i hi
  | true =>
    cases i with
    | start => exact .map _ l.start
    | reset => exact .map _ l.reset
    | healthCheck => exact .map _ l.healthCheck
    | linkTick => exact .map _ l.linkTick
    | fullReset => exact .map _ l.fullReset
    | _ => cases hi

theorem regWriteAt (o : Nat) (v : Word) : Keeps P (regWriteAt o v) := by
  unfold Machine.regWriteAt
  split
  · rename_i reg _
    cases reg with
    | status => exact l.lenient.regWrite_status v
    | command =>
      exact .bind (.regRead _) fun _ => .ite (.fault _) <| .ite (.fault _) (.update fun s hs => l.registers s _ hs)
    | pointer => exact .update fun s hs => l.registers s _ hs
    | intmask => exact l.lenient.regWrite_intmask v
    | port => exact .ite l.lenient.selectiveReset <| .ite l.fullReset (.fault _)
    | phystat _ => exact .pure _
  · exact .fault _

/-- Every step of every agent inside an operation. -/
theorem occur : ∀ e, Keeps P (occur h e)
  | .request w => by
    show Keeps P (request h w)
    unfold request
    split
    · exact l.lenient.recordResult _
    · exact .bind (l.perform _) fun _ => l.lenient.recordResult _
  | .device d => l.lenient.deviceStep d
  | .registerWrite o v => l.regWriteAt o v
  | .teardownFinish => l.teardownFinish
  | .memoryWrite a bytes => l.lenient.memWrite a bytes
  | .providePacket _ => l.lenient.updatePorts
  | .provideMcastList _ _ => l.lenient.updatePorts
  | .allocatorReply _ => l.lenient.updatePorts
  | .lookasideReply _ => l.lenient.updatePorts

end Life

end Sys2Proof.Machine
end

