-- ==== Sys2Proof/Proofs/Steps.lean ====
section
/-!
PROOF. From what the operations keep to what a step keeps: the points inside an operation, the handler at every depth, the
step.
-/
namespace Sys2Proof.Machine

variable {P : State → Prop} {h : Handler}

/-! ## Points -/

/-- A step inside an operation is taken with the operation's locks held by others, and gives the locks back. -/
theorem Lenient.intrude (hl : Lenient P)
    (hin : ∀ s, P s → ∃ P' : State → Prop, P' (s.mapLocks Locks.inside) ∧ (∀ e, Keeps P' (h e)) ∧
      ∀ u, P' u → P (u.mapLocks (fun _ => s.locks))) (e : Stimulus) : Keeps P (intrude h e) := by
  intro s a t hs hr
  rcases intrude_ok hr with ⟨u, hu, rfl⟩ | ⟨_, rfl⟩
  · obtain ⟨P', h1, h2, h3⟩ := hin s hs
    exact h3 u (h2 e _ _ _ h1 hu)
  · exact hl _ _ (.postpone s e) hs

/-- A point keeps what the steps inside it keep, if the invariant does not look at what is left to do inside. -/
theorem Keeps.point_of (ht : ∀ s x, P s → P (s.mapPorts (fun p => { p with interleaved := x })))
    (hi : ∀ e, Keeps P (Machine.intrude h e)) : Keeps P (Machine.point h) :=
  .bind (.read _) fun
    | [] => .pure _
    | _ :: _ => .bind (.update fun s hs => ht s _ hs) fun _ => .intrudeAll hi _

/-- What holds of the handler that does nothing, and of one whose inner steps it holds of, holds at every depth. -/
theorem reenter_induction {Q : Handler → Prop} (h0 : Q (fun _ => blocked)) (hs : ∀ h, Q h → Q (occur h)) :
    ∀ n, Q (reenter n)
  | 0 => h0
  | n + 1 => hs _ (reenter_induction h0 hs n)

/-! ## The step -/

/-- An instruction at the top of a step is its operation, and its status is recorded if it has one. -/
theorem exec_eq (i : Instr) (s : State) :
    (∃ m, exec i s = answer m s ∧ perform (handlerOf s) i = some <$> m) ∨
    (∃ m, exec i s = answerLater m s ∧ perform (handlerOf s) i = m) ∨
    (∃ m, exec i s = outcome m s ∧ perform (handlerOf s) i = (fun _ => none) <$> m) := by
  cases i with
  | teardown => exact .inr (.inl ⟨_, rfl, rfl⟩)
  | cuStart | cuResume | ruStart | selectiveReset | fullReset => exact .inr (.inr ⟨_, rfl, rfl⟩)
  | _ => exact .inl ⟨_, rfl, rfl⟩

/-- An instruction that answers keeps what its operation keeps. -/
theorem exec_keeps (hl : Lenient P) {i : Instr} {s t : State} (hp : Keeps P (perform (handlerOf s) i)) (hs : P s)
    (hr : exec i s = .next t) : P t := by
  rcases exec_eq i s with ⟨m, he, hm⟩ | ⟨m, he, hm⟩ | ⟨m, he, hm⟩ <;> rw [he] at hr <;> rw [hm] at hp
  · obtain ⟨st, u, hu, rfl⟩ := answer_eq_next.1 hr
    exact hl _ _ (.withResult u _) (hp s _ u hs (Op.map_eq_ok.2 ⟨st, hu, rfl⟩))
  · obtain ⟨st, u, hu, rfl⟩ := answerLater_eq_next.1 hr
    exact hl _ _ (.withResult u _) (hp s _ u hs hu)
  · exact hp s _ t hs (Op.map_eq_ok.2 ⟨(), outcome_eq_next.1 hr, rfl⟩)

/-- A step keeps what every instruction and every step of an agent keeps. -/
theorem step_keeps (hl : Lenient P) {s t : State} (hh : Life (handlerOf s.advance) P) (hs : P s)
    (hr : step s = .next t) : P t := by
  have ha : P s.advance := hl _ _ (.advance s) hs
  unfold step at hr
  split at hr
  · rename_i p _
    split at hr
    · exact exec_keeps hl (hh.perform _) ha hr
    · cases p with
      | request w =>
        cases hr
        exact hl _ _ (.withResult _ _) ha
      | command w => cases hr
      | port w => cases hr
  · split at hr
    · cases hr
      exact hs
    · exact hh.occur _ _ _ t ha (outcome_eq_next.1 hr)

end Sys2Proof.Machine
end

