-- ==== Sys2Proof/Proofs/Service.lean ====
section
/-!
PROOF. Out of service a device stays (R47): START is refused there, and every other change of `deviceState` is to
`Withdrawn`, `Halting` or `Halted`.
-/
namespace Sys2Proof.Machine

/-- The device has left service. -/
def OutOfService (s : State) : Prop := s.dev.lifecycle.outOfService = true

theorem outOfService_lenient : Lenient OutOfService := fun s t hm hs => by
  unfold OutOfService at hs ⊢
  rw [hm.lifecycle]
  exact hs

theorem outOfService_lockBlind : LockBlind OutOfService := fun _ _ _ hs => hs

section
variable {h : Handler} (hh : ∀ e, Keeps OutOfService (h e))
include hh

theorem outOfService_base : Base h OutOfService :=
  .of_registers outOfService_lenient
    (.point_of (fun _ _ hs => hs) (outOfService_lenient.intrude fun _ hs => ⟨_, hs, hh, fun _ hu => hu⟩)) fun _ _ hs => hs

theorem outOfService_life : Life h OutOfService := by
  have x : TxBlind h OutOfService := { toBase := outOfService_base hh, locks := outOfService_lockBlind, ring := fun _ _ hs => hs }
  have r : RxBlind h OutOfService := { toBase := outOfService_base hh, locks := outOfService_lockBlind, ring := fun _ _ hs => hs }
  have rings : Rings h OutOfService :=
    { toBase := outOfService_base hh, locks := outOfService_lockBlind,
      submit := x.section_.submit_keeps, drain := x.section_.drain_keeps, reclaim := x.section_.reclaim_keeps,
      harvest := r.harvest, recycle := r.recycle, rxReturn := r.rxReturn, shrink := r.shrink, grow := r.grow,
      growComplete := r.growComplete }
  exact
    { toRings := rings, registers := fun _ _ hs => hs,
      start := .refused fun s hs => start_refuses (.inr fun hl => by simp [OutOfService, hl, Lifecycle.outOfService] at hs),
      reset := rings.reset
        (x.section_.resetRings_keeps (x.lenient.fullReset fun _ _ hs => hs) (.update fun _ hs => hs))
        (rings.resetFailed fun _ _ => rfl),
      teardown := x.section_.teardown_keeps fun _ _ => rfl,
      teardownFinish := x.section_.teardownFinish_keeps (r.teardownFree fun _ _ => rfl) }

end

theorem outOfService_handler (n : Nat) : ∀ e, Keeps OutOfService (reenter n e) :=
  Keeps.reenter (fun _ hh => (outOfService_life hh).occur) n

/-- Settles O11: START alone leads into service, and it is refused out of service. -/
theorem noWayBackIntoService : Obligations.NoWayBackIntoService := fun _ _ hs hr =>
  step_keeps outOfService_lenient (outOfService_life (outOfService_handler _)) hs hr

end Sys2Proof.Machine
end

