-- ==== Sys2Proof/Proofs/PowerOn.lean ====
section
/-!
PROOF. The state after power-on meets what every step keeps.
-/
namespace Sys2Proof.Machine

/-- A receive ring with no descriptor. -/
theorem RxRing.ownership_reset : RxRing.reset.Ownership := by
  refine ⟨.nil, .nil, .nil, fun d => ?_, fun d => ?_, rfl, rfl, rfl, fun d hd => by cases hd⟩ <;>
    simp [RxRing.reset, RxRing.shadow?]

theorem reset_regs_legal : State.reset.regs.Legal := by
  refine ⟨by decide, by decide, by decide, by decide, by decide, fun a => ?_⟩
  simp [State.reset, Registers.reset]

theorem reset_txRingLaw : State.reset.TxRingLaw :=
  ⟨by decide, by decide, by decide, .inl rfl, fun i _ => by simp [State.reset, TxRing.reset, TxRing.shadowAt, TxShadow.clear]⟩

/-- Settles O14: part by part. -/
theorem resetSatisfiesTheInvariants : Obligations.ResetSatisfiesTheInvariants :=
  ⟨reset_mem_wf, reset_regs_legal, RxRing.ownership_reset, reset_txRingLaw, by decide, by decide, by decide⟩

end Sys2Proof.Machine
end

