-- ==== Sys2Proof/Proofs/StickyError.lean ====
section
/-!
PROOF. While the sticky error is set, with device agents alone stepping inside an operation, the flag stays and no command
is written (R26, R282, R320).
-/
namespace Sys2Proof.Machine

/-- The flag is set, `POINTER` holds `p`, `COMMAND` is `c` or clear, and only device agents are to step inside. -/
structure Broken (p c : Word) (s : State) : Prop where
  error : s.dev.hardwareError = true
  pointer : s.regs.pointer = p
  command : s.regs.command = c ∨ commandCode s.regs.command = 0
  inside : s.deviceStepsOnly = true

section
variable {p c : Word}

theorem broken_lenient : Lenient (Broken p c) := fun s t hm hs =>
  { error := hm.error hs.error
    pointer := hm.pointer.trans hs.pointer
    command := hm.command.elim (fun he => he ▸ hs.command) .inr
    inside := by
      have hi := hs.inside
      unfold State.deviceStepsOnly at hi ⊢
      rwa [hm.interleaved] }

theorem Broken.mapLocks {s : State} (hs : Broken p c s) (f : Locks → Locks) : Broken p c (s.mapLocks f) :=
  ⟨hs.error, hs.pointer, hs.command, hs.inside⟩

theorem broken_lockBlind : LockBlind (Broken p c) := fun _ f _ hs => hs.mapLocks f

/-- A device step inside an operation. -/
theorem broken_handler (n : Nat) (d : DeviceStep) : Keeps (Broken p c) (reenter n (.device d)) := by
  cases n with
  | zero => exact .blocked
  | succ n => exact broken_lenient.deviceStep d

theorem broken_intrudeAll (n : Nat) : ∀ es : List Stimulus, es.all Stimulus.ofDevice = true →
    Keeps (Broken p c) (intrudeAll (reenter n) es)
  | [], _ => .pure _
  | e :: es, he => by
    simp only [List.all_cons, Bool.and_eq_true] at he
    refine .bind ?_ fun _ => broken_intrudeAll n es he.2
    cases e with
    | device d =>
      intro s a t hs hr
      rcases intrude_ok hr with ⟨u, hu, rfl⟩ | ⟨_, rfl⟩
      · exact (broken_handler n d _ _ _ (hs.mapLocks _) hu).mapLocks _
      · exact broken_lenient _ _ (.postpone s _) hs
    | _ => cases he.1

theorem broken_point (n : Nat) : Keeps (Broken p c) (point (reenter n)) := by
  refine Leads.read_bind fun held => ?_
  cases held with
  | nil => exact Leads.pure fun _ hs => hs.1
  | cons es rest =>
    refine .of_fact (c := es.all Stimulus.ofDevice = true) ?_ fun he => ?_
    · rintro s ⟨hs, hi⟩
      have h1 := hs.inside
      simp only [State.deviceStepsOnly, hi, List.all_cons, Bool.and_eq_true] at h1
      exact h1.1
    · refine .bind (Q := fun _ => Broken p c) (.update ?_) fun _ => broken_intrudeAll n es he
      rintro s ⟨hs, hi⟩
      have h1 := hs.inside
      simp only [State.deviceStepsOnly, hi, List.all_cons, Bool.and_eq_true] at h1
      exact ⟨hs.error, hs.pointer, hs.command, h1.2⟩

/-- Under the flag neither register is written, whatever the wait finds. -/
theorem broken_base (n : Nat) : Base (reenter n) (Broken p c) where
  lenient := broken_lenient
  point := broken_point n
  command code wait pointer := by
    have refuse : ∀ accepted : Bool, Keeps (Broken p c) (read (fun s => s.dev.hardwareError) >>= fun broken =>
        if !accepted || broken then pure Status.hardError else (do
          if code ≠ codeCuResume then host (reenter n) (regWrite .pointer pointer) else pure ()
          host (reenter n) (regWrite .command (code.setWidth 32))
          updateTx (fun t => { t with resumeWaitNeeded := code != codeCuResume })
          pure .ok)) := fun accepted =>
      Leads.read_bind fun broken => .of_fact (c := broken = true) (fun s hs => hs.2 ▸ hs.1.error) fun hb =>
        .ite (fun _ => .pure fun _ hs => hs.1) fun hn => absurd (by simp [hb]) hn
    refine .bind (.read _) fun _ => ?_
    exact .ite (.bind (broken_lenient.waitAcceptLocked (broken_point n) _) refuse) (.bind (.pure _) refuse)

theorem broken_rings (n : Nat) : Rings (reenter n) (Broken p c) := by
  have b := broken_base (p := p) (c := c) n
  have x : TxBlind (reenter n) (Broken p c) :=
    { toBase := b, locks := broken_lockBlind, ring := fun _ _ hs => ⟨hs.error, hs.pointer, hs.command, hs.inside⟩ }
  have r : RxBlind (reenter n) (Broken p c) :=
    { toBase := b, locks := broken_lockBlind, ring := fun _ _ hs => ⟨hs.error, hs.pointer, hs.command, hs.inside⟩ }
  exact
    { toBase := b, locks := broken_lockBlind, submit := x.section_.submit_keeps, drain := x.section_.drain_keeps,
      reclaim := x.section_.reclaim_keeps, harvest := r.harvest, recycle := r.recycle, rxReturn := r.rxReturn,
      shrink := r.shrink, grow := r.grow, growComplete := r.growComplete }

theorem broken_teardown (n : Nat) : Keeps (Broken p c) (teardown (reenter n)) :=
  TxSection.teardown_keeps (TxBlind.section_
    { toBase := broken_base n, locks := broken_lockBlind,
      ring := fun _ _ hs => ⟨hs.error, hs.pointer, hs.command, hs.inside⟩ })
    fun _ hs => ⟨hs.error, hs.pointer, hs.command, hs.inside⟩

end

/-- Settles O12: under the flag every command write is short-circuited, and the port resets only clear. -/
theorem hardwareErrorIsSticky : Obligations.HardwareErrorIsSticky := by
  intro i s t hd he hreset hstart hhealth htick hr
  have hs : Broken s.regs.pointer s.regs.command s := ⟨he, rfl, .inl rfl, hd⟩
  by_cases hf : i = .fullReset
  · subst hf
    have ht : fullReset s = .ok ((), t) := outcome_eq_next.1 hr
    rw [fullReset_apply] at ht
    cases ht
    exact ⟨he, fun hn => absurd rfl hn, .inr rfl⟩
  · have hi : Instr.resets i = false := by
      cases i with
      | start => exact absurd rfl hstart
      | reset => exact absurd rfl hreset
      | healthCheck => exact absurd rfl hhealth
      | linkTick => exact absurd rfl htick
      | fullReset => exact absurd rfl hf
      | _ => rfl
    have ht := exec_keeps broken_lenient ((broken_rings _).perform (broken_teardown _) i hi) hs hr
    exact ⟨ht.error, fun _ => ht.pointer, ht.command⟩

end Sys2Proof.Machine
end

