-- ==== Sys2Proof/Proofs/Bars.lean ====
section
/-!
PROOF. What keeps a START out while an operation is under way: another START (log entry 27), or a device past its first one.
-/
namespace Sys2Proof.Machine

/-- What an operation relies on for its duration: that a START is under way, that the device has been started. -/
structure Bars where
  starting : Bool
  served : Bool

/-- Nothing is relied on. -/
def Bars.none : Bars := ⟨false, false⟩

/-- What is relied on holds. -/
structure Bars.Hold (b : Bars) (s : State) : Prop where
  starting : b.starting = true → s.ports.startActive = true
  served : b.served = true → s.dev.lifecycle ≠ .uninitialised

theorem Bars.hold_none (s : State) : Bars.none.Hold s := ⟨nofun, nofun⟩

/-- A step inside START is under way. -/
def Bars.started (b : Bars) : Bars := { b with starting := true }

/-- The device has been started. -/
def Bars.inService (b : Bars) : Bars := { b with served := true }

theorem Bars.inService_ne_none (b : Bars) : b.inService ≠ Bars.none := by simp [Bars.inService, Bars.none]

theorem Bars.started_ne_none (b : Bars) : b.started ≠ Bars.none := by simp [Bars.started, Bars.none]

theorem Bars.Hold.inService {b : Bars} {s : State} (hb : b.Hold s) (hl : s.dev.lifecycle ≠ .uninitialised) :
    b.inService.Hold s := ⟨hb.starting, fun _ => hl⟩

theorem Bars.Hold.of_inService {b : Bars} {s : State} (hb : b.inService.Hold s) : b.Hold s := ⟨hb.starting, fun _ => hb.served rfl⟩

/-- Where anything is relied on, START is refused. -/
theorem Bars.Hold.start_refuses {b : Bars} {s : State} {h : Handler} (hb : b.Hold s) (hn : b ≠ Bars.none) :
    Refuses (start h) s := by
  obtain ⟨starting, served⟩ := b
  cases starting with
  | true => exact Machine.start_refuses (.inl (hb.starting rfl))
  | false =>
    cases served with
    | true => exact Machine.start_refuses (.inr (hb.served rfl))
    | false => exact absurd rfl hn

end Sys2Proof.Machine
end

