-- ==== Sys2Proof/Proofs/RingLaw.lean ====
section
/-!
PROOF. The law of the transmit ring (R51) on its core, and what placing and retiring a slot do to it.
-/
namespace Sys2Proof.Machine

/-- R51 on the core of a ring of `n` slots. -/
structure RingCore.Law (n : Nat) (c : RingCore) : Prop where
  head : c.head < n
  busy : c.busy ≤ n
  tail : c.tail = (c.head + c.busy) % n
  used : ∀ i < n, (c.used.getD i false = true ↔ ∃ j < c.busy, i = (c.head + j) % n)

theorem State.txRingLaw_iff (s : State) : s.TxRingLaw ↔
    s.tx.core.Law s.cfg.numTcb ∧ (s.dev.lifecycle = .uninitialised ∨ s.tx.core.used.length = s.cfg.numTcb) := by
  have hlen : s.tx.core.used.length = s.tx.shadow.length := by simp [TxRing.core]
  constructor
  · rintro ⟨h1, h2, h3, h4, h5⟩
    exact ⟨⟨h1, h2, h3, fun i hi => s.tx.shadowAt_inUse i ▸ h5 i hi⟩, hlen ▸ h4⟩
  · rintro ⟨⟨h1, h2, h3, h5⟩, h4⟩
    exact ⟨h1, h2, h3, hlen ▸ h4, fun i hi => s.tx.shadowAt_inUse i ▸ h5 i hi⟩

section
variable {n : Nat} {c : RingCore}

/-- Two slots of a ring are the same only at the same distance from the head. -/
theorem slot_injective {a j k : Nat} (hj : j < n) (hk : k < n) (he : (a + j) % n = (a + k) % n) : j = k := by
  have h1 : j ≡ k [MOD n] := Nat.ModEq.add_left_cancel' a he
  rwa [Nat.ModEq, Nat.mod_eq_of_lt hj, Nat.mod_eq_of_lt hk] at h1

/-- A ring that is not full has its tail free. -/
theorem RingCore.Law.tail_free (hl : c.Law n) (hb : c.busy < n) : c.used.getD c.tail false = false := by
  have ht : c.tail < n := hl.tail ▸ Nat.mod_lt _ (by omega)
  rw [Bool.eq_false_iff, Ne, hl.used _ ht]
  rintro ⟨j, hj, he⟩
  have := slot_injective hb (by omega) (hl.tail.symm.trans he)
  omega

/-- A ring of free slots, all at their start. -/
theorem RingCore.law_free (hn : 0 < n) (m : Nat) : RingCore.Law n ⟨0, 0, 0, List.replicate m false⟩ where
  head := hn
  busy := Nat.zero_le n
  tail := (Nat.zero_mod n).symm
  used i _ := by
    simp only [List.getD_eq_getElem?_getD, List.getElem?_replicate]
    split <;> simp

/-- Using the tail slot of a ring that is not full. -/
theorem RingCore.Law.push (hl : c.Law n) (hb : c.busy < n) (hn : c.used.length = n) :
    RingCore.Law n ⟨c.head, (c.tail + 1) % n, c.busy + 1, c.used.set c.tail true⟩ where
  head := hl.head
  busy := hb
  tail := by simp only [hl.tail, Nat.mod_add_mod, Nat.add_assoc]
  used i hi := by
    have ht : c.tail < c.used.length := by rw [hn, hl.tail]; exact Nat.mod_lt _ (by omega)
    by_cases he : c.tail = i
    · subst he
      simp only [List.getD_eq_getElem?_getD, List.getElem?_set_self ht, Option.getD_some, true_iff]
      exact ⟨c.busy, Nat.lt_succ_self _, hl.tail⟩
    · have hi' := hl.used i hi
      simp only [List.getD_eq_getElem?_getD, List.getElem?_set_ne he] at hi' ⊢
      rw [hi']
      constructor
      · rintro ⟨j, hj, e⟩
        exact ⟨j, by omega, e⟩
      · rintro ⟨j, hj, e⟩
        refine ⟨j, ?_, e⟩
        have : j ≠ c.busy := fun hjb => he (by rw [hl.tail, e, hjb])
        omega

/-- Freeing the head slot of a ring that is not empty. -/
theorem RingCore.Law.pop (hl : c.Law n) (hb : 0 < c.busy) :
    RingCore.Law n ⟨(c.head + 1) % n, c.tail, c.busy - 1, c.used.set c.head false⟩ where
  head := Nat.mod_lt _ (by have := hl.head; omega)
  busy := (Nat.sub_le _ _).trans hl.busy
  tail := by
    rw [hl.tail, Nat.mod_add_mod, Nat.add_assoc, Nat.add_sub_cancel' hb]
  used i hi := by
    have shift : ∀ j, ((c.head + 1) % n + j) % n = (c.head + (j + 1)) % n := fun j => by
      rw [Nat.mod_add_mod]
      congr 1
      omega
    have hhead : (c.head + 0) % n = c.head := Nat.mod_eq_of_lt hl.head
    by_cases he : c.head = i
    · subst he
      have hf : (c.used.set c.head false).getD c.head false = false := by
        simp only [List.getD_eq_getElem?_getD, List.getElem?_set_self']
        cases c.used[c.head]? <;> rfl
      rw [hf]
      simp only [Bool.false_eq_true, false_iff]
      rintro ⟨j, hj, e⟩
      rw [shift] at e
      have := slot_injective (a := c.head) (j := 0) (k := j + 1) (n := n) (by omega) (by have := hl.busy; omega) (hhead.trans e)
      omega
    · have hi' := hl.used i hi
      simp only [List.getD_eq_getElem?_getD, List.getElem?_set_ne he] at hi' ⊢
      rw [hi']
      constructor
      · rintro ⟨j, hj, e⟩
        obtain ⟨k, rfl⟩ : ∃ k, j = k + 1 := ⟨j - 1, by
          have : j ≠ 0 := fun h0 => he (by rw [e, h0, hhead])
          omega⟩
        exact ⟨k, by omega, by rw [shift, e]⟩
      · rintro ⟨j, hj, e⟩
        exact ⟨j + 1, by omega, by rw [e, shift]⟩

end

end Sys2Proof.Machine
end

