-- ==== Sys2Proof/Proofs/TransmitRing.lean ====
section
/-!
PROOF. Every step keeps the transmit ring law (R51, R149). Outside lock `tx` a step of another agent may change the ring and
keeps its law; under the lock, the running operation's or that of one it runs inside, it leaves the core as it is. So what an
operation has read of the ring under the lock still holds when it writes it.
-/
namespace Sys2Proof.Machine

variable {h : Handler}

/-- What is fixed while an operation runs: the configuration, the locks of others, what is relied on, whether the ring has
its slots for good, and the core of the ring, which stays as it is while others hold lock `tx`. -/
structure TxGhost where
  cfg : Config
  others : Held
  bars : Bars
  sized : Bool
  core : RingCore

/-- The invariant. -/
structure TxKept (g : TxGhost) (s : State) : Prop where
  cfg : s.cfg = g.cfg
  others : s.locks.others = g.others
  bars : g.bars.Hold s
  law : s.tx.core.Law g.cfg.numTcb
  slots : s.dev.lifecycle = .uninitialised ∨ s.tx.core.used.length = g.cfg.numTcb
  sized : g.sized = true → s.tx.core.used.length = g.cfg.numTcb
  core : g.others.tx = true → s.tx.core = g.core

/-- The invariant while the operation holds lock `tx`. -/
structure TxHeld (g : TxGhost) (s : State) : Prop extends TxKept g s where
  mine : s.locks.mine.tx = true
  free : g.others.tx = false

/-- That, with the core known. -/
structure TxAt (g : TxGhost) (c : RingCore) (s : State) : Prop extends TxHeld g s where
  at_ : s.tx.core = c

/-- `sized` is only said where START is kept out. -/
def TxGhost.Sound (g : TxGhost) : Prop := g.sized = true → g.bars ≠ Bars.none

variable {g : TxGhost} {c : RingCore}

/-! ## What the invariants look at -/

theorem TxKept.congr {s t : State} (hs : TxKept g s) (hc : t.cfg = s.cfg) (ho : t.locks.others = s.locks.others)
    (ha : t.ports.startActive = s.ports.startActive) (hl : t.dev.lifecycle = s.dev.lifecycle)
    (hr : t.tx.core = s.tx.core) : TxKept g t where
  cfg := hc.trans hs.cfg
  others := ho.trans hs.others
  bars := ⟨fun hb => ha.trans (hs.bars.starting hb), fun hb => hl ▸ hs.bars.served hb⟩
  law := hr ▸ hs.law
  slots := hr ▸ hl ▸ hs.slots
  sized := hr ▸ hs.sized
  core := hr ▸ hs.core

theorem txKept_lenient : Lenient (TxKept g) := fun _ _ hm hs =>
  hs.congr hm.cfg hm.others hm.startActive hm.lifecycle hm.core

theorem txHeld_lenient : Lenient (TxHeld g) := fun _ _ hm hs =>
  ⟨txKept_lenient _ _ hm hs.toTxKept, hm.mineTx.trans hs.mine, hs.free⟩

theorem txAt_lenient : Lenient (TxAt g c) := fun _ _ hm hs =>
  ⟨txHeld_lenient _ _ hm hs.toTxHeld, hm.core.trans hs.at_⟩

theorem txKept_lockBlind : LockBlind (TxKept g) := fun _ _ ho hs => hs.congr rfl ho rfl rfl rfl

theorem TxHeld.at {s : State} (hs : TxHeld g s) : TxAt g s.tx.core s := ⟨hs, rfl⟩

/-! ## Points -/

/-- What a step inside the operation finds: the operation's locks are those of others. -/
def TxGhost.inside (g : TxGhost) (s : State) : TxGhost :=
  { g with others := s.locks.mine.union s.locks.others, core := s.tx.core }

theorem TxGhost.Sound.inside (hg : g.Sound) (s : State) : (g.inside s).Sound := hg

theorem TxKept.inside {s : State} (hs : TxKept g s) : TxKept (g.inside s) (s.mapLocks Locks.inside) where
  cfg := hs.cfg
  others := rfl
  bars := ⟨hs.bars.starting, hs.bars.served⟩
  law := hs.law
  slots := hs.slots
  sized := hs.sized
  core _ := rfl

/-- Under lock `tx`, the operation's or that of others, the core is unchanged after a step inside. -/
theorem TxKept.core_of_inside {s u : State} (hu : TxKept (g.inside s) u)
    (hl : s.locks.mine.tx = true ∨ s.locks.others.tx = true) : u.tx.core = s.tx.core :=
  hu.core (by simpa [TxGhost.inside, Held.union] using hl)

/-- A step inside, whose locks are given back. -/
theorem TxKept.of_inside {s u : State} (hs : TxKept g s) (hu : TxKept (g.inside s) u) :
    TxKept g (u.mapLocks (fun _ => s.locks)) where
  cfg := hu.cfg
  others := hs.others
  bars := ⟨hu.bars.starting, hu.bars.served⟩
  law := hu.law
  slots := hu.slots
  sized := hu.sized
  core ho := (hu.core_of_inside (.inr (hs.others ▸ ho))).trans (hs.core ho)

section Steps
variable (hh : ∀ g : TxGhost, g.Sound → ∀ e, Keeps (TxKept g) (h e)) (hg : g.Sound)
include hh hg

theorem txKept_base : Base h (TxKept g) :=
  .of_registers txKept_lenient
    (.point_of (fun _ _ hs => hs.congr rfl rfl rfl rfl rfl) <| txKept_lenient.intrude fun s hs =>
      ⟨_, hs.inside, hh _ (hg.inside s), fun _ hu => hs.of_inside hu⟩)
    fun _ _ hs => hs.congr rfl rfl rfl rfl rfl

theorem txHeld_base : Base h (TxHeld g) :=
  .of_registers txHeld_lenient
    (.point_of (fun _ _ hs => ⟨hs.toTxKept.congr rfl rfl rfl rfl rfl, hs.mine, hs.free⟩) <|
      txHeld_lenient.intrude fun s hs =>
        ⟨_, hs.toTxKept.inside, hh _ (hg.inside s), fun _ hu => ⟨hs.toTxKept.of_inside hu, hs.mine, hs.free⟩⟩)
    fun _ _ hs => ⟨hs.toTxKept.congr rfl rfl rfl rfl rfl, hs.mine, hs.free⟩

theorem txAt_base : Base h (TxAt g c) :=
  .of_registers txAt_lenient
    (.point_of (fun _ _ hs => ⟨⟨hs.toTxKept.congr rfl rfl rfl rfl rfl, hs.mine, hs.free⟩, hs.at_⟩) <|
      txAt_lenient.intrude fun s hs =>
        ⟨_, hs.toTxKept.inside, hh _ (hg.inside s), fun _ hu =>
          ⟨⟨hs.toTxKept.of_inside hu, hs.mine, hs.free⟩, (hu.core_of_inside (.inl hs.mine)).trans hs.at_⟩⟩)
    fun _ _ hs => ⟨⟨hs.toTxKept.congr rfl rfl rfl rfl rfl, hs.mine, hs.free⟩, hs.at_⟩

/-! ## Writing the ring under the lock -/

omit hh hg in
/-- The core may be replaced by another lawful one. -/
theorem TxHeld.mapTx {s : State} (hs : TxHeld g s) {f : TxRing → TxRing} (hl : (f s.tx).core.Law g.cfg.numTcb)
    (hn : (f s.tx).core.used.length = s.tx.core.used.length ∨ (f s.tx).core.used.length = g.cfg.numTcb) :
    TxHeld g (s.mapTx f) where
  cfg := hs.cfg
  others := hs.others
  bars := ⟨hs.bars.starting, hs.bars.served⟩
  law := hl
  slots := hn.elim (fun he => he ▸ hs.slots) .inr
  sized hz := hn.elim (fun he => he ▸ hs.sized hz) id
  core ho := by rw [hs.free] at ho; cases ho
  mine := hs.mine
  free := hs.free

/-- Giving back a slot that is not in use. -/
theorem rollback_keeps {i : Nat} (hi : c.used.getD i false = false) : Keeps (TxAt g c) (rollback h i) := by
  have b := txAt_base (c := c) hh hg
  refine .bind (b.host (b.lenient.writeTdC i true)) fun _ => .update fun s hs => txAt_lenient _ _ (.mapTx ?_) hs
  exact TxRing.core_mapShadow_of_inUse (f := fun _ => TxShadow.clear) ((hs.at_ ▸ s.tx.shadowAt_inUse i).trans hi).symm

omit hh hg in
/-- The commit of PLACE: the tail slot is used, the tail and the count advance. -/
theorem TxAt.commit {s : State} (hs : TxAt g c s) (hn : c.used.length = g.cfg.numTcb) (hb : c.busy < g.cfg.numTcb) :
    TxHeld g ((s.mapTx (fun x => x.mapShadow c.tail (fun sh => { sh with inUse := true }))).mapTx
      (fun x => { x with tail := s.cfg.next c.tail, busyCount := x.busyCount + 1 })) := by
  have hc : TxRing.core { s.tx.mapShadow c.tail (fun sh => { sh with inUse := true }) with
      tail := s.cfg.next c.tail, busyCount := s.tx.busyCount + 1 } =
      ⟨c.head, (c.tail + 1) % g.cfg.numTcb, c.busy + 1, c.used.set c.tail true⟩ := by
    simp [← hs.at_, TxRing.core, TxRing.mapShadow, List.map_set, Config.next, hs.cfg]
  refine hs.toTxHeld.mapTx (f := fun x => { x.mapShadow c.tail (fun sh => { sh with inUse := true }) with
      tail := s.cfg.next c.tail, busyCount := x.busyCount + 1 }) (hc ▸ (hs.at_ ▸ hs.law).push hb hn) ?_
  exact .inl (by rw [hc, hs.at_, List.length_set])

/-- PLACE, where a slot is free and the ring has all its slots. -/
theorem place_leads (hn : c.used.length = g.cfg.numTcb) (hb : c.busy < g.cfg.numTcb) (p : Packet) :
    Leads (TxAt g c) (place h p) (fun _ => TxHeld g) := by
  have b := txAt_base (c := c) hh hg
  refine .of_fact (c := c.Law g.cfg.numTcb) (fun s hs => hs.at_ ▸ hs.law) fun hl => .read_bind fun i => ?_
  refine .of_fact (c := i = c.tail) (fun s hs => hs.2 ▸ hs.1.at_ ▸ rfl) fun hi => ?_
  subst hi
  refine .pre (P := TxAt g c) ?_ fun _ hs => hs.1
  refine (b.placeFill _ p).then fun filled => .ite (fun _ => .pure fun _ hs => hs.toTxHeld) fun _ => ?_
  refine Keeps.then (b.lenient.mapShadow fun _ => rfl) fun _ => (b.host (b.lenient.writeTdS _ true)).then fun _ =>
    (b.host (.handOver (b.lenient.writeTdC _ false))).then fun handed => ?_
  have rest : ∀ issued : Bool, Leads (TxAt g c) (if !issued then (rollback h c.tail >>= fun _ => pure Status.hardError) else
      (updateTx (fun x => x.mapShadow c.tail (fun sh => { sh with inUse := true })) >>= fun _ =>
        update (fun s => s.mapTx (fun x => { x with tail := s.cfg.next c.tail, busyCount := x.busyCount + 1 })) >>= fun _ =>
        pure .sent)) (fun _ => TxHeld g) := fun issued => .ite
    (fun _ => (rollback_keeps hh hg (hl.tail_free hb)).then fun _ => .pure fun _ hs => hs.toTxHeld)
    (fun _ => .update_bind <| .update_bind <| .pure <| by
      rintro _ ⟨_, ⟨s, hs, rfl⟩, rfl⟩
      exact hs.commit hn hb)
  exact .ite (fun _ => (b.placeIssue _).then rest) (fun _ => (Keeps.pure _).then rest)

omit hh hg in
/-- The core is read once, under the lock. -/
theorem Leads.with_core {α : Type} {m : Op α} {Q : α → State → Prop} (hm : ∀ c, Leads (TxAt g c) m Q) :
    Leads (TxHeld g) m Q := fun s a t hs hr => hm _ s a t hs.at hr

omit hh hg in
/-- Where the device is in service the ring has all its slots. -/
theorem TxKept.full {s : State} (hs : TxKept g s) (hv : g.bars.served = true) :
    s.tx.core.used.length = g.cfg.numTcb := hs.slots.resolve_left (hs.bars.served hv)

theorem submitLocked_keeps (hv : g.bars.served = true) (p : Packet) : Keeps (TxHeld g) (submitLocked h p) := by
  have hl := (txHeld_base hh hg).lenient
  have keep {m : Op Status} {s₀ : State} (hm : Keeps (TxHeld g) m) :
      Leads (fun s => TxHeld g s ∧ id s = s₀) m (fun _ => TxHeld g) := Leads.pre hm fun _ hs => hs.1
  refine Leads.read_bind fun s₀ => ?_
  refine .ite (fun _ => keep (hl.enqueue p)) fun _ => .ite (fun _ => keep (.ite (.pure _) (hl.enqueue p))) fun _ =>
    .ite (fun _ => keep (hl.enqueue p)) fun hfull => ?_
  refine .of_fact (c := TxHeld g s₀) (fun s hs => hs.2 ▸ hs.1) fun h₀ => ?_
  have hb : s₀.tx.core.busy < g.cfg.numTcb :=
    lt_of_le_of_ne h₀.law.busy fun he => hfull (.inr (he.trans (congrArg _ h₀.cfg.symm)))
  exact (place_leads hh hg (h₀.full hv) hb p).pre fun s hs => ⟨hs.1, hs.2 ▸ rfl⟩

theorem drainLoop_keeps (hv : g.bars.served = true) : ∀ n, Keeps (TxHeld g) (drainLoop h n)
  | 0 => .pure _
  | n + 1 => by
    have b := txHeld_base hh hg
    refine .bind b.point fun _ => Leads.read_bind fun s₀ => .ite (fun hmay => ?_) (fun _ => .pure fun _ hs => hs.1)
    split
    · exact .pure fun _ hs => hs.1
    · rename_i p _ _
      refine .of_fact (c := TxHeld g s₀) (fun s hs => hs.2 ▸ hs.1) fun h₀ => ?_
      have hb : s₀.tx.core.busy < g.cfg.numTcb := by
        simp only [State.mayDrain, Bool.and_eq_true, decide_eq_true_eq, h₀.cfg] at hmay
        exact hmay.1.1.1.2
      refine .bind ((place_leads hh hg (h₀.full hv) hb p).pre fun s hs => ⟨hs.1, hs.2 ▸ rfl⟩) fun r => ?_
      exact Keeps.ite (.bind b.lenient.popWaitQueue fun _ => drainLoop_keeps hv n) <|
        .ite (.pure _) <| .bind b.lenient.popWaitQueue fun _ => .pure _

omit hh hg in
/-- Retiring the head slot of a ring that is not empty. -/
theorem retire_leads (hb : 0 < c.busy) : Leads (TxAt g c) (retire c.head) (fun _ => TxHeld g) := by
  intro s a t hs hr
  rw [retire_eq] at hr
  cases hr
  have hl := (hs.at_ ▸ hs.law : c.Law g.cfg.numTcb).pop hb
  refine hs.toTxHeld.mapTx ?_ (.inl ?_)
  · convert hl using 1
    simp [← hs.at_, TxRing.core, TxRing.mapShadow, List.map_set, Config.next, hs.cfg, TxShadow.clear]
  · simp [TxRing.core, TxRing.mapShadow]

theorem reclaimLoop_keeps : ∀ n, Keeps (TxHeld g) (reclaimLoop h n)
  | 0 => .pure _
  | n + 1 => by
    refine Leads.with_core fun c => .read_bind fun i => ?_
    refine .of_fact (c := i = c.head) (fun s hs => hs.2 ▸ hs.1.at_ ▸ rfl) fun hi => ?_
    subst hi
    refine .read_bind fun busy => ?_
    refine .of_fact (c := busy = true → 0 < c.busy) ?_ fun hb => .pre (P := TxAt g c) ?_ fun _ hs => hs.1.1
    · rintro s ⟨⟨hs, -⟩, rfl⟩ hb
      simp only [Bool.and_eq_true, decide_eq_true_eq] at hb
      exact hs.at_ ▸ hb.1
    · have b := txAt_base (c := c) hh hg
      refine .ite (fun hbusy => (b.host (.readTdC c.head)).then fun done => .ite (fun _ => ?_) fun _ =>
        .pure fun _ hs => hs.toTxHeld) fun _ => .pure fun _ hs => hs.toTxHeld
      exact .bind (retire_leads (hb hbusy)) fun _ => .bind (reclaimLoop_keeps n) fun _ => .pure fun _ hs => hs

/-- POOL_INIT_TX leaves a ring of free slots. -/
theorem poolInitTx_leads :
    Leads (TxHeld g) (poolInitTx h) (fun _ s => TxHeld g s ∧ s.tx.core.used.length = g.cfg.numTcb) := by
  have b := txHeld_base hh hg
  refine .read_bind fun n => .of_fact (c := n = g.cfg.numTcb) (fun s hs => hs.2 ▸ hs.1.cfg ▸ rfl) fun hn => ?_
  subst hn
  refine .pre (P := TxHeld g) ?_ fun _ hs => hs.1
  refine (b.initDescriptors _).then fun _ => (Keeps.read _).then fun bufs => .update fun s hs => ?_
  have hlen : (List.map (·.inUse) (List.replicate g.cfg.numTcb TxShadow.clear)).length = g.cfg.numTcb := by simp
  refine ⟨hs.mapTx ?_ (.inr hlen), hlen⟩
  have hfree := RingCore.law_free (n := g.cfg.numTcb) (Nat.zero_lt_of_lt hs.law.head) g.cfg.numTcb
  simpa [TxRing.core, TxShadow.clear] using hfree

theorem abortHeld_keeps : Keeps (TxHeld g) (abortHeld h) :=
  .bind (.read _) fun _ => Leads.bind (poolInitTx_leads hh hg) fun _ => .pure fun _ hs => hs.1

omit hh hg in
theorem lock_tx_enters : Leads (TxKept g) (lock .tx) (fun _ => TxHeld g) := by
  intro s a t hs hr
  obtain ⟨_, ho, rfl⟩ := lock_ok.1 hr
  exact ⟨hs.congr rfl rfl rfl rfl rfl, rfl, hs.others ▸ ho⟩

theorem txHeld_section (hv : g.bars.served = true) : TxSection h (TxKept g) (TxHeld g) where
  toBase := txKept_base hh hg
  inside := txHeld_base hh hg
  enter := lock_tx_enters
  leave := .pre (txKept_lockBlind.unlock .tx) fun _ hs => hs.toTxKept
  lock_rx := fun s a t hs hr => by
    obtain ⟨_, _, rfl⟩ := lock_ok.1 hr
    exact ⟨hs.toTxKept.congr rfl rfl rfl rfl rfl, hs.mine, hs.free⟩
  unlock_rx := .update fun s hs => ⟨hs.toTxKept.congr rfl rfl rfl rfl rfl, hs.mine, hs.free⟩
  submit := submitLocked_keeps hh hg hv
  drain := drainLoop_keeps hh hg hv
  reclaim := reclaimLoop_keeps hh hg
  abort := abortHeld_keeps hh hg

theorem txKept_rxBlind : RxBlind h (TxKept g) where
  toBase := txKept_base hh hg
  locks := txKept_lockBlind
  ring _ _ hs := hs.congr rfl rfl rfl rfl rfl

/-! ## In service or refused -/

omit hh hg in
/-- With the device in service, which is relied on from here. -/
theorem TxKept.inService {s : State} (hs : TxKept g s) (hl : s.dev.lifecycle ≠ .uninitialised) :
    TxKept { g with bars := g.bars.inService } s := { hs with bars := hs.bars.inService hl }

omit hh hg in
theorem TxKept.of_inService {s : State} (hs : TxKept { g with bars := g.bars.inService } s) : TxKept g s :=
  { hs with bars := hs.bars.of_inService }

omit hh hg in
theorem TxGhost.Sound.inService : TxGhost.Sound { g with bars := g.bars.inService } := fun _ => g.bars.inService_ne_none

omit hh hg in
/-- An operation that only a device in service makes. -/
theorem Keeps.served {α : Type} {m : Op α} (hm : Keeps (TxKept { g with bars := g.bars.inService }) m)
    (hr : ∀ s : State, s.dev.lifecycle = .uninitialised → Refuses m s) : Keeps (TxKept g) m :=
  .of_refuses hm
    (fun s hs => (em (s.dev.lifecycle = .uninitialised)).elim (fun hl => .inr (hr s hl)) fun hl => .inl (hs.inService hl))
    fun _ hs => hs.of_inService

theorem txKept_rings : Rings h (TxKept g) := by
  have x : TxSection h (TxKept { g with bars := g.bars.inService }) (TxHeld { g with bars := g.bars.inService }) :=
    txHeld_section hh .inService rfl
  have r := txKept_rxBlind hh hg
  exact
    { toBase := txKept_base hh hg, locks := txKept_lockBlind,
      submit := fun w => .served (x.submit_keeps w) fun s hl => submit_refuses (by simp [hl]) w,
      drain := .served x.drain_keeps fun s hl => drain_refuses (by simp [hl]),
      reclaim := .served x.reclaim_keeps fun s hl => reclaim_refuses (by simp [hl]),
      harvest := r.harvest, recycle := r.recycle, rxReturn := r.rxReturn, shrink := r.shrink, grow := r.grow,
      growComplete := r.growComplete }

/-! ## START -/

omit hh hg in
/-- The ghost once START is under way and has made the ring anew. -/
def TxGhost.restarted (g : TxGhost) (sized : Bool) : TxGhost :=
  { g with bars := g.bars.started, sized := sized, core := TxRing.reset.core }

omit hh hg in
theorem TxGhost.Sound.restarted (sized : Bool) : (g.restarted sized).Sound := fun _ => g.bars.started_ne_none

omit hg in
/-- START's step 3, from a ring that lock `tx` may protect to one that it still protects: a START inside another operation's
lock gets no further than this. -/
theorem startVariables_leads (hv : g.bars.served = false) (base : Nat) (bufs : List Nat) :
    Leads (TxKept { g with bars := g.bars.started, sized := false }) (startVariables h base bufs)
      (fun _ => TxKept (g.restarted false)) := by
  have b := txKept_base hh (.restarted (g := g) false)
  refine .bind (Q := fun _ => TxKept (g.restarted false)) (.update fun s hs => ?_) fun _ =>
    (Keeps.read _).then fun _ => b.clearSlots _
  have hn : 0 < g.cfg.numTcb := Nat.zero_lt_of_lt hs.law.head
  exact
    { cfg := hs.cfg
      others := hs.others
      bars := ⟨hs.bars.starting, fun hb => absurd hb (by simp [TxGhost.restarted, Bars.started, hv])⟩
      law := RingCore.law_free hn 0
      slots := .inl rfl
      sized := nofun
      core := fun _ => rfl }

/-- START from its full reset to `Running`, where nothing is relied on. -/
theorem startInitialise_keeps (hb : g.bars = Bars.none) (base : Nat) (bufs regions : List Nat) :
    Keeps (TxKept g) (startInitialise h base bufs regions) := by
  have hz : g.sized = false := by
    cases hs : g.sized with
    | false => rfl
    | true => exact absurd hb (hg hs)
  have s₁ : TxGhost.Sound { g with bars := g.bars.started, sized := false } := nofun
  have b₁ := txKept_base hh s₁
  have b₂ := txKept_base hh (.restarted (g := g) false)
  have b₃ := txKept_base hh (.restarted (g := g) true)
  have r₃ := txKept_rxBlind hh (.restarted (g := g) true)
  -- the full reset
  refine Leads.bind (Q := fun _ => TxKept { g with bars := g.bars.started, sized := false }) (.update fun s hs => ?_) fun _ => ?_
  · exact { cfg := hs.cfg, others := hs.others, law := hs.law, slots := hs.slots, sized := nofun, core := hs.core,
            bars := ⟨fun _ => rfl, hs.bars.served⟩ }
  refine (b₁.host (m := regWrite .port 2) (b₁.lenient.fullReset fun _ _ hs => hs.congr rfl rfl rfl rfl rfl)).then fun _ => ?_
  -- the variables and the ring
  refine .bind (startVariables_leads hh (by rw [hb]; rfl) base bufs) fun _ => b₂.point.then fun _ => ?_
  refine .bind lock_tx_enters fun _ => .of_fact (c := g.others.tx = false) (fun s hs => hs.free) fun hfree => ?_
  refine .bind (poolInitTx_leads hh (.restarted (g := g) false)) fun _ => ?_
  refine .bind (Q := fun _ => TxKept (g.restarted true)) (.update fun s hs => ?_) fun _ => ?_
  · exact { cfg := hs.1.cfg, others := hs.1.others, law := hs.1.law, slots := hs.1.slots, sized := fun _ => hs.2,
            core := hs.1.core, bars := ⟨hs.1.bars.starting, hs.1.bars.served⟩ }
  -- the receive side
  refine b₃.point.then fun _ => b₃.lenient.updateTx.then fun _ => b₃.point.then fun _ =>
    (r₃.locks.lock .rx).then fun _ => (r₃.startReceive _ _).then fun _ => (r₃.locks.unlock .rx).then fun _ =>
    b₃.point.then fun _ => ?_
  -- `Running`
  refine .update_bind (.update ?_)
  rintro _ ⟨s, hs, rfl⟩
  exact { cfg := hs.cfg, others := hs.others, law := hs.law, slots := .inr (hs.sized rfl),
          sized := fun hs => absurd hs (by simp [hz]), core := fun ho => absurd ho (by simp [hfree]),
          bars := hb ▸ Bars.hold_none _ }

theorem txKept_start : Keeps (TxKept g) (start h) := by
  by_cases hb : g.bars = Bars.none
  · have r := txKept_rings hh hg
    refine .bind (.read _) fun s => .ite .blocked <| .ite (.pure _) <| .bind r.lenient.startAllocate fun
      | none => .bind r.lenient.updatePorts fun _ => .pure _
      | some (base, bufs, regions) => .bind (startInitialise_keeps hh hg hb base bufs regions) fun _ =>
        .bind r.point fun _ => .bind r.linkStart fun _ => .bind r.point fun _ => .bind r.ensureStarted fun _ =>
        .bind (r.setMask 0) fun _ => .bind r.armHealthTimer fun _ => .pure _
  · exact .refused fun s hs => hs.bars.start_refuses hb

/-! ## Every step -/

omit hh hg in
/-- A change of `deviceState` in service. -/
theorem TxKept.setLifecycle {s : State} (hs : TxKept { g with bars := g.bars.inService } s) {f : Device → Device}
    (hf : (f s.dev).lifecycle ≠ .uninitialised) : TxKept { g with bars := g.bars.inService } (s.mapDev f) where
  cfg := hs.cfg
  others := hs.others
  bars := ⟨hs.bars.starting, fun _ => hf⟩
  law := hs.law
  slots := .inr (hs.full rfl)
  sized := hs.sized
  core := hs.core

theorem txKept_life : Life h (TxKept g) := by
  have hs : TxGhost.Sound { g with bars := g.bars.inService } := .inService
  have x := txHeld_section hh hs rfl
  have r := txKept_rings hh hs
  have clear : Keeps (TxHeld { g with bars := g.bars.inService }) fullReset :=
    x.inside.lenient.fullReset fun _ _ hs => ⟨hs.toTxKept.congr rfl rfl rfl rfl rfl, hs.mine, hs.free⟩
  have flag : Keeps (TxHeld { g with bars := g.bars.inService }) errorReturn :=
    .update fun s hs => ⟨hs.toTxKept.congr rfl rfl rfl rfl rfl, hs.mine, hs.free⟩
  exact
    { toRings := txKept_rings hh hg
      registers := fun _ _ hs => hs.congr rfl rfl rfl rfl rfl
      start := txKept_start hh hg
      reset := .served (r.reset (x.resetRings_keeps clear flag) (r.resetFailed fun _ hs => hs.setLifecycle nofun))
        fun s hl => reset_refuses (by simp [hl])
      teardown := .served (x.teardown_keeps fun _ hs => hs.setLifecycle nofun)
        fun s hl => teardown_refuses (by simp [State.mayTearDown, hl])
      teardownFinish := .served
        (x.teardownFinish_keeps ((txKept_rxBlind hh hs).teardownFree fun _ hs => hs.setLifecycle nofun))
        fun s hl => teardownFinish_refuses (by simp [State.teardownMayFinish, hl]) }

end Steps

/-- Steps of other agents keep the invariant at every depth. -/
theorem txKept_handler (n : Nat) : ∀ g : TxGhost, g.Sound → ∀ e, Keeps (TxKept g) (reenter n e) :=
  reenter_induction (Q := fun h => ∀ g : TxGhost, g.Sound → ∀ e, Keeps (TxKept g) (h e))
    (fun _ _ _ => .blocked) (fun _ hh _ hg => (txKept_life hh hg).occur) n

/-- Settles O9: the ring is written under lock `tx` only, but for START, and there by operations that keep its law. -/
theorem stepKeepsTransmitRingLaw : Obligations.StepKeepsTransmitRingLaw := by
  intro s t hs hr
  obtain ⟨hlaw, hslots⟩ := s.txRingLaw_iff.1 hs
  let g : TxGhost := ⟨s.cfg, s.locks.others, Bars.none, false, s.tx.core⟩
  have hg : g.Sound := nofun
  have h₀ : TxKept g s := ⟨rfl, rfl, Bars.hold_none s, hlaw, hslots, nofun, fun _ => rfl⟩
  have ht := step_keeps txKept_lenient (txKept_life (txKept_handler _) hg) h₀ hr
  exact ⟨t.txRingLaw_iff.2 ⟨ht.cfg ▸ ht.law, ht.cfg ▸ ht.slots⟩, ht.cfg⟩

end Sys2Proof.Machine
end

