-- ==== Sys2Proof/Proofs/Ownership.lean ====
section
/-!
PROOF. The receive ring as plain data (R23, R28, R43, R53): what is owned, what is loose while an operation has one
descriptor in hand, and how the operations of spec/42_receive_ring.md lead from one to the other.
-/
namespace Sys2Proof.Machine

/-! ## The map of shadow records -/

/-- The state of the record with id `d`, if there is one. -/
def stateIn (l : List (Nat × RxShadow)) (d : Nat) : Option RxSlotState :=
  ((l.find? (fun e => e.1 == d)).map (·.2)).map (·.state)

/-- `state(d)` (R28), if `d` exists. -/
def RxRing.stateOf (r : RxRing) (d : Nat) : Option RxSlotState := stateIn r.shadows d

/-- Whether `currentCount` counts the record. -/
def counts (e : Nat × RxShadow) : Bool := e.2.state != .allocationPending

/-- How many records other than that of `d` are counted. -/
def countBut (d : Nat) (l : List (Nat × RxShadow)) : Nat := l.countP (fun e => e.1 != d && counts e)

/-- The ids rise. -/
def Rising (l : List (Nat × RxShadow)) : Prop := (l.map (·.1)).Pairwise (· < ·)

theorem RxRing.stateOf_eq_some {r : RxRing} {d : Nat} {st : RxSlotState} :
    r.stateOf d = some st ↔ ∃ sh, r.shadow? d = some sh ∧ sh.state = st := by
  simp only [stateOf, stateIn, RxRing.shadow?, Option.map_eq_some_iff]

theorem State.isHanded_eq_true {s : State} {d : Nat} :
    s.isHanded d = true ↔ s.rx.stateOf d = some .handedToUpperLayer := by
  rw [RxRing.stateOf_eq_some, State.isHanded]
  cases s.rx.shadow? d <;> simp

section
variable {l : List (Nat × RxShadow)} {d x : Nat}

theorem stateIn_cons (e : Nat × RxShadow) : stateIn (e :: l) x = if e.1 = x then some e.2.state else stateIn l x := by
  by_cases he : e.1 = x
  · simp [stateIn, he]
  · simp [stateIn, he]

theorem stateIn_eq_none : stateIn l x = none ↔ x ∉ l.map (·.1) := by
  induction l with
  | nil => simp [stateIn]
  | cons e l ih =>
    rw [stateIn_cons, List.map_cons, List.mem_cons, not_or, ← ih]
    by_cases he : e.1 = x
    · simp [he]
    · simp [he, Ne.symm he]

/-! ### Changing a record -/

/-- The list with the record of `d` changed, as `RxRing.mapShadow` has it. -/
def mapIn (d : Nat) (f : RxShadow → RxShadow) (l : List (Nat × RxShadow)) : List (Nat × RxShadow) :=
  l.map (fun e => if e.1 = d then (e.1, f e.2) else e)

@[simp] theorem RxRing.mapShadow_shadows (r : RxRing) (f : RxShadow → RxShadow) :
    (r.mapShadow d f).shadows = mapIn d f r.shadows := rfl

theorem mapIn_ids (f : RxShadow → RxShadow) : (mapIn d f l).map (·.1) = l.map (·.1) := by
  rw [mapIn, List.map_map]
  exact List.map_congr_left fun e _ => by dsimp only [Function.comp]; split <;> rfl

theorem stateIn_mapIn_same {f : RxShadow → RxShadow} {st : RxSlotState} (hf : ∀ sh, (f sh).state = st)
    (hd : stateIn l d ≠ none) : stateIn (mapIn d f l) d = some st := by
  simp only [stateIn, ne_eq, Option.map_eq_none_iff] at hd
  obtain ⟨e, he⟩ := Option.ne_none_iff_exists'.1 hd
  rw [stateIn, mapIn, shadows_find_map_same, he]
  simp [hf]

theorem stateIn_mapIn_ne (hx : x ≠ d) (f : RxShadow → RxShadow) : stateIn (mapIn d f l) x = stateIn l x := by
  rw [stateIn, mapIn, shadows_find_map_ne hx, stateIn]

theorem countBut_mapIn (f : RxShadow → RxShadow) : countBut d (mapIn d f l) = countBut d l := by
  rw [countBut, mapIn, List.countP_map]
  refine List.countP_congr fun e _ => ?_
  by_cases he : e.1 = d <;> simp [he]

/-! ### Entering a record -/

theorem stateIn_put_same (sh : RxShadow) : stateIn (putShadow d sh l) d = some sh.state := by
  rw [stateIn, putShadow_find_same]
  rfl

theorem stateIn_put_ne (hx : x ≠ d) (sh : RxShadow) : stateIn (putShadow d sh l) x = stateIn l x := by
  induction l with
  | nil => simp [putShadow, stateIn_cons, Ne.symm hx]
  | cons e l ih =>
    obtain ⟨k, y⟩ := e
    simp only [putShadow]
    split
    · simp [stateIn_cons, Ne.symm hx]
    · split
      · rename_i hk
        simp [stateIn_cons, ← hk, Ne.symm hx]
      · rw [stateIn_cons, stateIn_cons, ih]

theorem countBut_put (sh : RxShadow) : countBut d (putShadow d sh l) = countBut d l := by
  induction l with
  | nil => simp [putShadow, countBut]
  | cons e l ih =>
    obtain ⟨k, y⟩ := e
    simp only [putShadow]
    split
    · simp [countBut]
    · split
      · rename_i hk
        simp [countBut, hk]
      · simp only [countBut, List.countP_cons] at ih ⊢
        rw [ih]

theorem mem_put_ids {sh : RxShadow} (hx : x ∈ (putShadow d sh l).map (·.1)) : x = d ∨ x ∈ l.map (·.1) := by
  by_contra hn
  rw [not_or] at hn
  exact absurd hx (stateIn_eq_none.1 ((stateIn_put_ne hn.1 sh).trans (stateIn_eq_none.2 hn.2)))

theorem Rising.put (hl : Rising l) (sh : RxShadow) : Rising (putShadow d sh l) := by
  induction l with
  | nil => simp [putShadow, Rising]
  | cons e l ih =>
    obtain ⟨k, y⟩ := e
    obtain ⟨hk, hl'⟩ := List.pairwise_cons.1 hl
    simp only [putShadow]
    split
    · rename_i hd
      refine List.pairwise_cons.2 ⟨fun a ha => ?_, hl⟩
      rcases List.mem_cons.1 ha with rfl | ha
      · exact hd
      · exact hd.trans (hk a ha)
    · split
      · rename_i hd
        exact List.pairwise_cons.2 ⟨hd ▸ hk, hl'⟩
      · refine List.pairwise_cons.2 ⟨fun a ha => ?_, ih hl'⟩
        rcases mem_put_ids ha with rfl | ha
        · show k < a
          omega
        · exact hk a ha

/-! ### Removing a record -/

theorem stateIn_drop_same : stateIn (l.filter (fun e => e.1 != d)) d = none := by
  rw [stateIn_eq_none]
  simp

theorem stateIn_drop_ne (hx : x ≠ d) : stateIn (l.filter (fun e => e.1 != d)) x = stateIn l x := by
  induction l with
  | nil => rfl
  | cons e l ih =>
    by_cases he : e.1 = d
    · simp [he, ih, stateIn_cons, Ne.symm hx]
    · simp [he, ih, stateIn_cons]

theorem countBut_drop : (l.filter (fun e => e.1 != d)).countP counts = countBut d l := by
  rw [List.countP_filter, countBut]
  exact List.countP_congr fun e _ => by simp [and_comm]

theorem Rising.drop (hl : Rising l) : Rising (l.filter (fun e => e.1 != d)) :=
  hl.sublist (List.filter_sublist.map _)

/-! ### Counting -/

theorem countBut_of_absent (hd : stateIn l d = none) : countBut d l = l.countP counts := by
  rw [stateIn_eq_none] at hd
  refine List.countP_congr fun e he => ?_
  have : e.1 ≠ d := fun h => hd (h ▸ List.mem_map_of_mem he)
  simp [this]

/-- The counted records are the others and that of `d`, if it is counted. -/
theorem countP_counts (hl : Rising l) : l.countP counts =
    countBut d l + (if stateIn l d = none ∨ stateIn l d = some .allocationPending then 0 else 1) := by
  induction l with
  | nil => simp [stateIn, countBut]
  | cons e l ih =>
    obtain ⟨hk, hl'⟩ := List.pairwise_cons.1 hl
    by_cases he : e.1 = d
    · have hd : stateIn l d = none := by
        rw [stateIn_eq_none]
        exact fun hm => absurd (hk d hm) (by simp [he])
      have hc := countBut_of_absent hd
      rw [stateIn_cons, if_pos he, List.countP_cons, ← hc]
      by_cases hp : e.2.state = .allocationPending <;> simp [countBut, he, hp, counts]
    · have := ih hl'
      rw [stateIn_cons, if_neg he, List.countP_cons, this]
      simp only [countBut, List.countP_cons, bne_iff_ne, ne_eq, he, not_false_eq_true, Bool.and_eq_true, true_and]
      omega

theorem countP_counts_of_pending (hl : Rising l) (hd : stateIn l d = none ∨ stateIn l d = some .allocationPending) :
    l.countP counts = countBut d l := by rw [countP_counts hl, if_pos hd, Nat.add_zero]

theorem countP_counts_of_counted (hl : Rising l) {st : RxSlotState} (hd : stateIn l d = some st)
    (hs : st ≠ .allocationPending) : l.countP counts = countBut d l + 1 := by
  rw [countP_counts (d := d) hl, if_neg (by simp [hd, hs])]

end

/-! ## Owned and loose -/

/-- `RxRing.Ownership`, by names, and what operations under way rely on: the descriptors of `low` are in low-resources mode,
there are at most `cap` descriptors. -/
structure RxRing.Owned (low : List Nat) (cap : Option Nat) (r : RxRing) : Prop where
  rising : Rising r.shadows
  readyNodup : r.readyList.Nodup
  pendingNodup : r.pendingList.Nodup
  ready : ∀ x, x ∈ r.readyList ↔ r.stateOf x = some .posted
  pending : ∀ x, x ∈ r.pendingList ↔ r.stateOf x = some .handedToUpperLayer
  readyCount : r.readyCount = r.readyList.length
  outstanding : r.outstandingReceives = r.pendingList.length
  current : r.currentCount = r.shadows.countP counts
  inFlight : ∀ x, r.allocState = .allocationInFlight x → r.stateOf x = some .allocationPending
  lowNodup : low.Nodup
  low : ∀ x ∈ low, r.stateOf x = some .lowResource
  cap : ∀ n, cap = some n → r.currentCount ≤ n

theorem RxRing.ownership_iff (r : RxRing) : r.Ownership ↔ r.Owned [] none := by
  simp only [RxRing.Ownership, ← RxRing.stateOf_eq_some, ← List.countP_eq_length_filter]
  exact ⟨fun ⟨h1, h2, h3, h4, h5, h6, h7, h8, h9⟩ => ⟨h1, h2, h3, h4, h5, h6, h7, h8, h9, .nil, nofun, nofun⟩,
    fun ⟨h1, h2, h3, h4, h5, h6, h7, h8, h9, _, _, _⟩ => ⟨h1, h2, h3, h4, h5, h6, h7, h8, h9⟩⟩

/-- The operation under way has the descriptor `d` in hand: `d` exists, is in neither list and is counted, whatever its state
says, and all else is owned. -/
structure RxRing.Loose (low : List Nat) (cap : Option Nat) (d : Nat) (r : RxRing) : Prop where
  rising : Rising r.shadows
  readyNodup : r.readyList.Nodup
  pendingNodup : r.pendingList.Nodup
  ready : ∀ x, x ∈ r.readyList ↔ x ≠ d ∧ r.stateOf x = some .posted
  pending : ∀ x, x ∈ r.pendingList ↔ x ≠ d ∧ r.stateOf x = some .handedToUpperLayer
  readyCount : r.readyCount = r.readyList.length
  outstanding : r.outstandingReceives = r.pendingList.length
  current : r.currentCount = countBut d r.shadows + 1
  inFlight : ∀ x, r.allocState = .allocationInFlight x → x ≠ d ∧ r.stateOf x = some .allocationPending
  lowNodup : low.Nodup
  low : ∀ x ∈ low, x ≠ d ∧ r.stateOf x = some .lowResource
  cap : ∀ n, cap = some n → r.currentCount ≤ n
  found : r.stateOf d ≠ none

namespace RxRing

variable {r : RxRing} {d : Nat} {low : List Nat} {cap : Option Nat}

/-- The counters of the intervals are not looked at. -/
theorem Owned.counters (hr : r.Owned low cap) (l s : Nat) : Owned low cap { r with lowCount := l, shrinkCounter := s } :=
  { hr with }

/-- The order in which the descriptors of low-resources mode are named does not matter. -/
theorem Owned.perm (hr : r.Owned low cap) {low' : List Nat} (hp : low'.Perm low) : r.Owned low' cap :=
  { hr with lowNodup := hp.nodup_iff.2 hr.lowNodup, low := fun x hx => hr.low x (hp.subset hx) }

/-- The ready descriptors are counted, each once. -/
theorem Owned.readyCount_le (hr : r.Owned low cap) : r.readyCount ≤ r.currentCount := by
  have hsub : r.readyList ⊆ (r.shadows.filter counts).map (·.1) := fun d hd => by
    obtain ⟨sh, hsh, hst⟩ := RxRing.stateOf_eq_some.1 ((hr.ready d).1 hd)
    obtain ⟨e, he, rfl⟩ := Option.map_eq_some_iff.1 hsh
    have hid : e.1 = d := by simpa using List.find?_some he
    exact List.mem_map.2 ⟨e, List.mem_filter.2 ⟨List.mem_of_find?_eq_some he, by simp [counts, hst]⟩, hid⟩
  calc r.readyCount = r.readyList.length := hr.readyCount
    _ ≤ ((r.shadows.filter counts).map (·.1)).length := (hr.readyNodup.subperm hsub).length_le
    _ = r.currentCount := by rw [List.length_map, ← List.countP_eq_length_filter, hr.current]

/-! ### Taking a descriptor in hand -/

/-- Descriptors in different states are different. -/
theorem stateOf_ne_iff {x : Nat} {a b : RxSlotState} (hd : r.stateOf d = some a) (hab : b ≠ a) :
    r.stateOf x = some b ↔ x ≠ d ∧ r.stateOf x = some b := by
  refine ⟨fun hx => ⟨?_, hx⟩, fun hx => hx.2⟩
  rintro rfl
  exact hab (Option.some.inj (hx.symm.trans hd))

/-- A descriptor indicated in low-resources mode is in neither list. -/
theorem Owned.lowTaken (hr : r.Owned (d :: low) cap) : r.Loose low cap d := by
  have hd := hr.low d List.mem_cons_self
  obtain ⟨hnot, hnodup⟩ := List.nodup_cons.1 hr.lowNodup
  exact
    { hr with
      ready := fun x => (hr.ready x).trans (stateOf_ne_iff hd nofun)
      pending := fun x => (hr.pending x).trans (stateOf_ne_iff hd nofun)
      current := hr.current.trans (countP_counts_of_counted hr.rising hd nofun)
      inFlight := fun x hx => (stateOf_ne_iff (b := .allocationPending) hd nofun).1 (hr.inFlight x hx)
      lowNodup := hnodup
      low := fun x hx => ⟨fun h => hnot (h ▸ hx), hr.low x (List.mem_cons_of_mem d hx)⟩
      found := hd ▸ nofun }

/-- DETACH_PENDING(d). -/
def detached (d : Nat) (r : RxRing) : RxRing :=
  { r with pendingList := r.pendingList.filter (fun x => x != d), outstandingReceives := r.outstandingReceives - 1 }

theorem Owned.detached (hr : r.Owned low cap) (hd : r.stateOf d = some .handedToUpperLayer) :
    Loose low cap d (r.detached d) :=
  { hr with
    pendingNodup := hr.pendingNodup.filter _
    ready := fun x => (hr.ready x).trans (stateOf_ne_iff hd nofun)
    pending := fun x => by
      rw [RxRing.detached, List.mem_filter, hr.pending x, bne_iff_ne, and_comm]
      rfl
    outstanding := by
      rw [RxRing.detached, ← hr.pendingNodup.erase_eq_filter d, List.length_erase_of_mem ((hr.pending d).2 hd), hr.outstanding]
    current := hr.current.trans (countP_counts_of_counted hr.rising hd nofun)
    inFlight := fun x hx => (stateOf_ne_iff (b := .allocationPending) hd nofun).1 (hr.inFlight x hx)
    low := fun x hx => (stateOf_ne_iff (b := .lowResource) hd nofun).1 (hr.low x hx)
    found := by
      show r.stateOf d ≠ none
      exact hd ▸ nofun }

/-- The head of the ready list is taken off. -/
def popped (r : RxRing) : RxRing := { r with readyList := r.readyList.tail, readyCount := r.readyCount - 1 }

theorem Owned.popped (hr : r.Owned low cap) {ds : List Nat} (hd : r.readyList = d :: ds) : Loose low cap d r.popped := by
  have hst : r.stateOf d = some .posted := (hr.ready d).1 (hd ▸ List.mem_cons_self)
  obtain ⟨hnot, hnodup⟩ := List.nodup_cons.1 (hd ▸ hr.readyNodup)
  have htail : r.popped.readyList = ds := by rw [RxRing.popped, hd]; rfl
  exact
    { hr with
      readyNodup := htail ▸ hnodup
      ready := fun x => by
        show x ∈ r.popped.readyList ↔ x ≠ d ∧ r.stateOf x = some .posted
        rw [← hr.ready x, hd, List.mem_cons, htail]
        exact ⟨fun hx => ⟨fun h => hnot (h ▸ hx), .inr hx⟩, fun hx => hx.2.resolve_left hx.1⟩
      pending := fun x => (hr.pending x).trans (stateOf_ne_iff hst nofun)
      readyCount := by rw [htail, RxRing.popped, hr.readyCount, hd]; rfl
      current := hr.current.trans (countP_counts_of_counted hr.rising hst nofun)
      inFlight := fun x hx => (stateOf_ne_iff (b := .allocationPending) hst nofun).1 (hr.inFlight x hx)
      low := fun x hx => (stateOf_ne_iff (b := .lowResource) hst nofun).1 (hr.low x hx)
      found := by
        show r.stateOf d ≠ none
        exact hst ▸ nofun }

/-- The descriptor of an allocation enters the count, the allocation being over. -/
theorem Owned.counted (hr : r.Owned low cap) (hd : r.stateOf d = some .allocationPending)
    (hcap : ∀ n, cap = some n → r.currentCount < n) :
    Loose low cap d { r with currentCount := r.currentCount + 1, allocState := .idle } :=
  { hr with
    ready := fun x => (hr.ready x).trans (stateOf_ne_iff hd nofun)
    pending := fun x => (hr.pending x).trans (stateOf_ne_iff hd nofun)
    current := congrArg (· + 1) (hr.current.trans (countP_counts_of_pending hr.rising (.inr hd)))
    inFlight := nofun
    low := fun x hx => (stateOf_ne_iff (b := .lowResource) hd nofun).1 (hr.low x hx)
    cap := hcap
    found := by
      show r.stateOf d ≠ none
      exact hd ▸ nofun }

/-! ### Letting it go -/

/-- A change of its record leaves the descriptor in hand. -/
theorem Loose.mapShadow (hr : r.Loose low cap d) (f : RxShadow → RxShadow) : Loose low cap d (r.mapShadow d f) :=
  { hr with
    rising := by
      rw [mapShadow_shadows, Rising, mapIn_ids]
      exact hr.rising
    ready := fun x => (hr.ready x).trans (and_congr_right fun hx => by rw [stateOf, stateOf, mapShadow_shadows, stateIn_mapIn_ne hx])
    pending := fun x =>
      (hr.pending x).trans (and_congr_right fun hx => by rw [stateOf, stateOf, mapShadow_shadows, stateIn_mapIn_ne hx])
    current := hr.current.trans (by rw [mapShadow_shadows, countBut_mapIn])
    inFlight := fun x hx => by
      rw [stateOf, mapShadow_shadows, stateIn_mapIn_ne (hr.inFlight x hx).1]
      exact hr.inFlight x hx
    low := fun x hx => by
      rw [stateOf, mapShadow_shadows, stateIn_mapIn_ne (hr.low x hx).1]
      exact hr.low x hx
    found := by
      rw [stateOf, mapShadow_shadows, Ne, stateIn_eq_none, mapIn_ids, ← stateIn_eq_none]
      exact hr.found }

/-- A descriptor in hand gets the state `st`, and joins the list of that state. -/
theorem Loose.released (hr : r.Loose low cap d) {r' : RxRing} {st : RxSlotState} {f : RxShadow → RxShadow}
    (hst : st ≠ .allocationPending) (hf : ∀ sh, (f sh).state = st) (hs : r'.shadows = mapIn d f r.shadows)
    (hready : r'.readyList = if st = .posted then r.readyList ++ [d] else r.readyList)
    (hpending : r'.pendingList = if st = .handedToUpperLayer then r.pendingList ++ [d] else r.pendingList)
    (hn : r'.readyCount = r'.readyList.length) (ho : r'.outstandingReceives = r'.pendingList.length)
    (hc : r'.currentCount = r.currentCount) (ha : r'.allocState = r.allocState) : Owned low cap r' := by
  have same : r'.stateOf d = some st := by
    rw [stateOf, hs]
    exact stateIn_mapIn_same hf hr.found
  have other : ∀ {x}, x ≠ d → r'.stateOf x = r.stateOf x := fun hx => by
    rw [stateOf, hs, stateIn_mapIn_ne hx, stateOf]
  have rising : Rising r'.shadows := by
    rw [Rising, hs, mapIn_ids]
    exact hr.rising
  have hd₁ : d ∉ r.readyList := fun h => ((hr.ready d).1 h).1 rfl
  have hd₂ : d ∉ r.pendingList := fun h => ((hr.pending d).1 h).1 rfl
  have member : ∀ {l : List Nat} {s₀ : RxSlotState} (x : Nat), (∀ x, x ∈ l ↔ x ≠ d ∧ r.stateOf x = some s₀) →
      (x ∈ (if st = s₀ then l ++ [d] else l) ↔ r'.stateOf x = some s₀) := fun {l s₀} x hl => by
    by_cases hx : x = d
    · subst hx
      have : x ∉ l := fun h => ((hl x).1 h).1 rfl
      by_cases hs₀ : st = s₀ <;> simp [hs₀, this, same]
    · rw [other hx]
      by_cases hs₀ : st = s₀ <;> simp [hs₀, hl, hx]
  have nodup : ∀ {l : List Nat} {s₀ : RxSlotState}, l.Nodup → d ∉ l → (if st = s₀ then l ++ [d] else l).Nodup :=
    fun {l s₀} hl hd => by
      split
      · exact List.concat_eq_append ▸ hl.concat hd
      · exact hl
  exact
    { rising
      readyNodup := hready ▸ nodup hr.readyNodup hd₁
      pendingNodup := hpending ▸ nodup hr.pendingNodup hd₂
      ready := fun x => hready ▸ member x hr.ready
      pending := fun x => hpending ▸ member x hr.pending
      readyCount := hn
      outstanding := ho
      current := by rw [hc, hr.current, countP_counts_of_counted rising same hst, hs, countBut_mapIn]
      inFlight := fun x hx => (other (hr.inFlight x (ha ▸ hx)).1).trans (hr.inFlight x (ha ▸ hx)).2
      lowNodup := hr.lowNodup
      low := fun x hx => (other (hr.low x hx).1).trans (hr.low x hx).2
      cap := fun n hn => hc ▸ hr.cap n hn }

/-- RECYCLE_LOCKED. -/
theorem Loose.appended (hr : r.Loose low cap d) : Owned low cap (appended d r) :=
  hr.released (st := .posted) (f := fun sh => { sh with state := .posted, actualBytes := 0 }) nofun (fun _ => rfl) rfl rfl rfl
    (by simp [Machine.appended, hr.readyCount]) hr.outstanding rfl rfl

/-- The descriptor goes to the upper layer. -/
def handedUp (d : Nat) (r : RxRing) : RxRing :=
  { r.mapShadow d (fun sh => { sh with state := .handedToUpperLayer }) with
    pendingList := r.pendingList ++ [d], outstandingReceives := r.outstandingReceives + 1 }

theorem Loose.handedUp (hr : r.Loose low cap d) : Owned low cap (r.handedUp d) :=
  hr.released (st := .handedToUpperLayer) (f := fun sh => { sh with state := .handedToUpperLayer }) nofun (fun _ => rfl) rfl rfl rfl hr.readyCount
    (by simp [RxRing.handedUp, hr.outstanding]) rfl rfl

/-- The descriptor is indicated in low-resources mode. -/
def kept (d : Nat) (r : RxRing) : RxRing := r.mapShadow d (fun sh => { sh with state := .lowResource })

theorem Loose.kept (hr : r.Loose low cap d) : Owned (d :: low) cap (r.kept d) := by
  have ho : Owned low cap (r.kept d) :=
    hr.released (st := .lowResource) (f := fun sh => { sh with state := .lowResource }) nofun (fun _ => rfl) rfl rfl rfl
      hr.readyCount hr.outstanding rfl rfl
  refine { ho with lowNodup := List.nodup_cons.2 ⟨fun hd => (hr.low d hd).1 rfl, hr.lowNodup⟩, low := fun x hx => ?_ }
  rcases List.mem_cons.1 hx with rfl | hx
  · exact stateIn_mapIn_same (f := fun sh => { sh with state := .lowResource }) (fun _ => rfl) hr.found
  · exact ho.low x hx

/-- SHRINK_LOCKED. -/
def shrunk (d : Nat) (r : RxRing) : RxRing := { r.dropShadow d with currentCount := r.currentCount - 1 }

/-- Where a descriptor is dropped the others stay as they are. -/
theorem stateOf_dropShadow_ne {x : Nat} (hx : x ≠ d) : (r.dropShadow d).stateOf x = r.stateOf x := stateIn_drop_ne hx

theorem Loose.shrunk (hr : r.Loose low cap d) : Owned low cap (r.shrunk d) := by
  have same : (r.shrunk d).stateOf d = none := stateIn_drop_same
  have member : ∀ {x : Nat} {st : RxSlotState}, x ≠ d ∧ r.stateOf x = some st ↔ (r.shrunk d).stateOf x = some st :=
    fun {x st} => by
      by_cases hx : x = d
      · simp [hx, same]
      · rw [show (r.shrunk d).stateOf x = r.stateOf x from stateIn_drop_ne hx]
        simp [hx]
  exact
    { hr with
      rising := hr.rising.drop
      ready := fun x => (hr.ready x).trans member
      pending := fun x => (hr.pending x).trans member
      current := by
        show r.currentCount - 1 = (r.shadows.filter (fun e => e.1 != d)).countP counts
        rw [countBut_drop, hr.current, Nat.add_sub_cancel]
      inFlight := fun x hx => member.1 (hr.inFlight x hx)
      low := fun x hx => member.1 (hr.low x hx)
      cap := fun n hn => (Nat.sub_le _ _).trans (hr.cap n hn) }

/-! ### Allocations -/

/-- A pending record may be entered for an id that does not exist or is pending. -/
theorem Owned.put (hr : r.Owned low cap) {sh : RxShadow}
    (hd : r.stateOf d = none ∨ r.stateOf d = some .allocationPending) (hsh : sh.state = .allocationPending) :
    Owned low cap { r with shadows := putShadow d sh r.shadows } := by
  have same : stateIn (putShadow d sh r.shadows) d = some .allocationPending := hsh ▸ stateIn_put_same sh
  have member : ∀ {x : Nat} {st : RxSlotState}, st ≠ .allocationPending →
      (r.stateOf x = some st ↔ stateIn (putShadow d sh r.shadows) x = some st) := fun {x st} hst => by
    by_cases hx : x = d
    · subst hx
      rcases hd with hd | hd <;> simp [same, hd, hst.symm]
    · rw [stateIn_put_ne hx]
      rfl
  exact
    { hr with
      rising := hr.rising.put sh
      ready := fun x => (hr.ready x).trans (member nofun)
      pending := fun x => (hr.pending x).trans (member nofun)
      current := by
        show r.currentCount = (putShadow d sh r.shadows).countP counts
        rw [countP_counts_of_pending (hr.rising.put sh) (.inr same), countBut_put, hr.current,
          countP_counts_of_pending hr.rising hd]
      inFlight := fun x hx => by
        by_cases hxd : x = d
        · exact hxd ▸ same
        · exact (stateIn_put_ne hxd sh).trans (hr.inFlight x hx)
      low := fun x hx => (member (st := .lowResource) nofun).1 (hr.low x hx) }

/-- POOL_ALLOC_RX, the count and RECYCLE_LOCKED, with the allocation over. -/
theorem Owned.adopted (hr : r.Owned low cap) {sh : RxShadow}
    (hd : r.stateOf d = none ∨ r.stateOf d = some .allocationPending) (hsh : sh.state = .allocationPending)
    (hcap : ∀ n, cap = some n → r.currentCount < n) :
    Owned low cap { appended d { r with shadows := putShadow d sh r.shadows, currentCount := r.currentCount + 1 } with
      allocState := .idle } :=
  ((hr.put hd hsh).counted (hsh ▸ stateIn_put_same sh) hcap).appended

/-- GROW_LOCKED's reservation. -/
theorem Owned.reserved (hr : r.Owned low cap) {sh : RxShadow} (hd : r.stateOf d = none)
    (hsh : sh.state = .allocationPending) (l c : Nat) :
    Owned low cap { r with shadows := putShadow d sh r.shadows, allocState := .allocationInFlight d, lowCount := l,
                           shrinkCounter := c } :=
  { hr.put (.inl hd) hsh with
    inFlight := fun x hx => by
      cases hx
      exact hsh ▸ stateIn_put_same sh }

/-- An id that is not used. -/
theorem freshId_not_mem (used : List Nat) : freshId used ∉ used := by
  have : ∃ x ∈ List.range (used.length + 1), x ∉ used := by
    by_contra hn
    push Not at hn
    have := (List.nodup_range.subperm hn).length_le
    simp at this
  obtain ⟨x, hx, hxn⟩ := this
  rw [freshId]
  cases hf : (List.range (used.length + 1)).find? (fun d => !used.contains d) with
  | none => simpa [hxn] using List.find?_eq_none.1 hf x hx
  | some y => simpa using List.find?_some hf

theorem stateOf_freshId (r : RxRing) : r.stateOf (freshId (r.shadows.map (·.1))) = none :=
  stateIn_eq_none.2 (freshId_not_mem _)

/-- The allocation in flight is over and its descriptor is dropped. -/
theorem Owned.abandoned (hr : r.Owned low cap) (hd : r.stateOf d = some .allocationPending) :
    Owned low cap { r.dropShadow d with allocState := .idle } := by
  have member : ∀ {x : Nat} {st : RxSlotState}, st ≠ .allocationPending →
      (r.stateOf x = some st ↔ (r.dropShadow d).stateOf x = some st) := fun {x st} hst => by
    by_cases hx : x = d
    · subst hx
      rw [show (r.dropShadow x).stateOf x = none from stateIn_drop_same, hd]
      simp [hst.symm]
    · rw [stateOf_dropShadow_ne hx]
  exact
    { hr with
      rising := hr.rising.drop
      ready := fun x => (hr.ready x).trans (member nofun)
      pending := fun x => (hr.pending x).trans (member nofun)
      current := by
        show r.currentCount = (r.shadows.filter (fun e => e.1 != d)).countP counts
        rw [countBut_drop, hr.current, countP_counts_of_pending hr.rising (.inr hd)]
      inFlight := nofun
      low := fun x hx => (member (st := .lowResource) nofun).1 (hr.low x hx) }

/-! ### Freeing the ready list -/

/-- The ring with the descriptors of the ready list up to `ds` freed. -/
def readyLeft (ds : List Nat) (r : RxRing) : RxRing := { r with readyList := ds, readyCount := ds.length }

theorem Owned.freed {ds : List Nat} (hr : (r.readyLeft (d :: ds)).Owned low cap) : ((r.shrunk d).readyLeft ds).Owned low cap :=
  (hr.popped rfl).shrunk

/-- No descriptor exists. -/
theorem owned_reset (cap : Option Nat) : RxRing.reset.Owned [] cap :=
  { RxRing.reset.ownership_iff.1 RxRing.ownership_reset with cap := fun n _ => Nat.zero_le n }

/-! ### START -/

/-- START has made the first `n` descriptors. -/
structure Started (cap : Option Nat) (n : Nat) (r : RxRing) : Prop extends r.Owned [] cap where
  idle : r.allocState = .idle
  made : r.currentCount = n
  fresh : ∀ x, n ≤ x → r.stateOf x = none

theorem started_reset (cap : Option Nat) : RxRing.reset.Started cap 0 where
  toOwned := owned_reset cap
  idle := rfl
  made := rfl
  fresh _ _ := rfl

theorem Started.next {n : Nat} (hr : r.Started cap n) {sh : RxShadow} (hsh : sh.state = .allocationPending)
    (hcap : ∀ m, cap = some m → n < m) : Started cap (n + 1)
      (appended n { r with shadows := putShadow n sh r.shadows, currentCount := r.currentCount + 1 }) where
  toOwned := by
    have ho := hr.adopted (.inl (hr.fresh n le_rfl)) hsh fun m hm => hr.made.symm ▸ hcap m hm
    rwa [← hr.idle] at ho
  idle := hr.idle
  made := congrArg (· + 1) hr.made
  fresh x hx := by
    have hne : x ≠ n := by omega
    exact (stateIn_mapIn_ne hne fun sh => { sh with state := .posted, actualBytes := 0 }).trans <|
      (stateIn_put_ne hne sh).trans (hr.fresh x (by omega))

end RxRing

end Sys2Proof.Machine
end

