-- ==== Sys2Proof/Proofs/ReceiveRing.lean ====
section
/-!
PROOF. Every step keeps the ownership of receive descriptors (R23, R28, R43, R53) and their bound (R52, R174). Under lock `rx`
the ring is what the running operation has made of it; outside, every agent keeps its law, and a HARVEST that indicates with the
lock released finds its descriptors in low-resources mode again, START being kept out. START has the ring empty from its step 3
to its step 5: every operation is refused there.
-/
namespace Sys2Proof.Machine

variable {α : Type} {h : Handler}

/-- What is fixed while an operation runs: the configuration, the locks of others, what is relied on. -/
structure RxEnv where
  cfg : Config
  others : Held
  bars : Bars

/-- What is known of the ring: the descriptors in low-resources mode, the bound, and the ring itself, which stays as it is
while others hold lock `rx`. -/
structure RxGhost where
  low : List Nat
  cap : Option Nat
  ring : RxRing

/-- The invariant. -/
structure RxKept (e : RxEnv) (k : RxGhost) (s : State) : Prop where
  cfg : s.cfg = e.cfg
  others : s.locks.others = e.others
  bars : e.bars.Hold s
  ring : e.others.rx = true → s.rx = k.ring
  owned : e.others.rx = false → s.rx.Owned k.low k.cap

/-- The operation holds lock `rx`, and the ring is `r`. -/
structure RxAt (e : RxEnv) (r : RxRing) (s : State) : Prop where
  cfg : s.cfg = e.cfg
  others : s.locks.others = e.others
  bars : e.bars.Hold s
  mine : s.locks.mine.rx = true
  free : e.others.rx = false
  at_ : s.rx = r

/-- The operation holds lock `rx`, and the ring is one of those with `φ`. -/
def RxHeld (e : RxEnv) (φ : RxRing → Prop) (s : State) : Prop := ∃ r, φ r ∧ RxAt e r s

/-- START is between its step 3 and its step 5. -/
structure RxStart (c : Config) (o : Held) (s : State) : Prop where
  cfg : s.cfg = c
  others : s.locks.others = o
  active : s.ports.startActive = true
  lifecycle : s.dev.lifecycle = .uninitialised
  ring : s.rx = RxRing.reset

/-- Descriptors in low-resources mode and the bound are relied on only where START keeps them. -/
structure RxGhost.Sound (e : RxEnv) (k : RxGhost) : Prop where
  low : e.bars = Bars.none → k.low = []
  cap : ∀ n, k.cap = some n → n = e.cfg.rxMaxCount ∧ e.cfg.rxInitialCount ≤ n

/-- The steps of other agents keep both invariants. -/
structure RxHandled (h : Handler) : Prop where
  kept : ∀ e k, RxGhost.Sound e k → ∀ x, Keeps (RxKept e k) (h x)
  starting : ∀ c o x, Keeps (RxStart c o) (h x)

variable {e : RxEnv} {k : RxGhost} {r : RxRing} {φ ψ : RxRing → Prop} {c : Config} {o : Held}

/-! ## What the invariants look at -/

theorem RxKept.congr {s t : State} (hs : RxKept e k s) (hc : t.cfg = s.cfg) (ho : t.locks.others = s.locks.others)
    (ha : t.ports.startActive = s.ports.startActive) (hl : t.dev.lifecycle = s.dev.lifecycle) (hr : t.rx = s.rx) :
    RxKept e k t where
  cfg := hc.trans hs.cfg
  others := ho.trans hs.others
  bars := ⟨fun hb => ha.trans (hs.bars.starting hb), fun hb => hl ▸ hs.bars.served hb⟩
  ring := hr ▸ hs.ring
  owned := hr ▸ hs.owned

theorem RxAt.congr {s t : State} (hs : RxAt e r s) (hc : t.cfg = s.cfg) (ho : t.locks.others = s.locks.others)
    (hm : t.locks.mine.rx = s.locks.mine.rx) (ha : t.ports.startActive = s.ports.startActive)
    (hl : t.dev.lifecycle = s.dev.lifecycle) (hr : t.rx = s.rx) : RxAt e r t where
  cfg := hc.trans hs.cfg
  others := ho.trans hs.others
  bars := ⟨fun hb => ha.trans (hs.bars.starting hb), fun hb => hl ▸ hs.bars.served hb⟩
  mine := hm.trans hs.mine
  free := hs.free
  at_ := hr.trans hs.at_

theorem rxKept_lenient : Lenient (RxKept e k) := fun _ _ hm hs =>
  hs.congr hm.cfg hm.others hm.startActive hm.lifecycle hm.rx

theorem rxAt_lenient : Lenient (RxAt e r) := fun _ _ hm hs =>
  hs.congr hm.cfg hm.others hm.mineRx hm.startActive hm.lifecycle hm.rx

theorem rxStart_lenient : Lenient (RxStart c o) := fun _ _ hm hs =>
  ⟨hm.cfg.trans hs.cfg, hm.others.trans hs.others, hm.startActive.trans hs.active, hm.lifecycle.trans hs.lifecycle,
    hm.rx.trans hs.ring⟩

theorem rxKept_lockBlind : LockBlind (RxKept e k) := fun _ _ ho hs => hs.congr rfl ho rfl rfl rfl

theorem rxStart_lockBlind : LockBlind (RxStart c o) := fun _ _ ho hs =>
  ⟨hs.cfg, ho.trans hs.others, hs.active, hs.lifecycle, hs.ring⟩

/-! ## Points -/

/-- What a step inside the operation finds: the operation's locks are those of others. -/
def RxEnv.inside (e : RxEnv) (s : State) : RxEnv := { e with others := s.locks.mine.union s.locks.others }

/-- It finds the ring that stands. -/
def RxGhost.inside (k : RxGhost) (s : State) : RxGhost := { k with ring := s.rx }

theorem RxGhost.Sound.inside (hk : k.Sound e) (s : State) : (k.inside s).Sound (e.inside s) := ⟨hk.low, hk.cap⟩

theorem RxKept.inside {s : State} (hs : RxKept e k s) : RxKept (e.inside s) (k.inside s) (s.mapLocks Locks.inside) where
  cfg := hs.cfg
  others := rfl
  bars := ⟨hs.bars.starting, hs.bars.served⟩
  ring _ := rfl
  owned hf := hs.owned (by
    rw [← hs.others]
    exact (Bool.or_eq_false_iff.1 hf).2)

/-- A step inside, whose locks are given back. -/
theorem RxKept.of_inside {s u : State} (hs : RxKept e k s) (hu : RxKept (e.inside s) (k.inside s) u) :
    RxKept e k (u.mapLocks (fun _ => s.locks)) where
  cfg := hu.cfg
  others := hs.others
  bars := ⟨hu.bars.starting, hu.bars.served⟩
  ring ho := (hu.ring (Bool.or_eq_true_iff.2 (.inr (hs.others ▸ ho)))).trans (hs.ring ho)
  owned hf := by
    cases hm : (s.locks.mine.union s.locks.others).rx with
    | true => exact (hu.ring hm : u.rx = s.rx) ▸ hs.owned hf
    | false => exact hu.owned hm

/-- Of a ring under the lock nothing need be known for it to stay. -/
def RxGhost.still (r : RxRing) : RxGhost := ⟨[], none, r⟩

theorem RxGhost.Sound.still (e : RxEnv) (r : RxRing) : (RxGhost.still r).Sound e := ⟨fun _ => rfl, nofun⟩

theorem RxAt.inside {s : State} (hs : RxAt e r s) :
    RxKept (e.inside s) (.still r) (s.mapLocks Locks.inside) where
  cfg := hs.cfg
  others := rfl
  bars := ⟨hs.bars.starting, hs.bars.served⟩
  ring _ := hs.at_
  owned hf := absurd hs.mine (Bool.eq_false_iff.1 (Bool.or_eq_false_iff.1 hf).1)

theorem RxAt.of_inside {s u : State} (hs : RxAt e r s) (hu : RxKept (e.inside s) (.still r) u) :
    RxAt e r (u.mapLocks (fun _ => s.locks)) where
  cfg := hu.cfg
  others := hs.others
  bars := ⟨hu.bars.starting, hu.bars.served⟩
  mine := hs.mine
  free := hs.free
  at_ := hu.ring (Bool.or_eq_true_iff.2 (.inl hs.mine))

/-! ## Leaving the ring alone -/

/-- What leads on from every ring leads on from those with `φ`. -/
theorem Leads.of_held {m : Op α} {Q : α → State → Prop} (hm : ∀ r, φ r → Leads (RxAt e r) m Q) : Leads (RxHeld e φ) m Q :=
  fun s a t ⟨r, hr, hs⟩ hrun => hm r hr s a t hs hrun

theorem Keeps.held {m : Op α} (hm : ∀ r, Keeps (RxAt e r) m) : Keeps (RxHeld e φ) m :=
  fun s a t ⟨r, hr, hs⟩ hrun => ⟨r, hr, hm r s a t hs hrun⟩

section Steps
variable (hh : RxHandled h)
include hh

theorem rxKept_base (hk : k.Sound e) : Base h (RxKept e k) :=
  .of_registers rxKept_lenient
    (.point_of (fun _ _ hs => hs.congr rfl rfl rfl rfl rfl) <| rxKept_lenient.intrude fun s hs =>
      ⟨_, hs.inside, hh.kept _ _ (hk.inside s), fun _ hu => hs.of_inside hu⟩)
    fun _ _ hs => hs.congr rfl rfl rfl rfl rfl

theorem rxAt_base : Base h (RxAt e r) :=
  .of_registers rxAt_lenient
    (.point_of (fun _ _ hs => hs.congr rfl rfl rfl rfl rfl rfl) <| rxAt_lenient.intrude fun _ hs =>
      ⟨_, hs.inside, hh.kept _ _ (.still _ _), fun _ hu => hs.of_inside hu⟩)
    fun _ _ hs => hs.congr rfl rfl rfl rfl rfl rfl

theorem rxHeld_base : Base h (RxHeld e φ) where
  lenient _ _ hm hs := hs.imp fun _ hr => ⟨hr.1, rxAt_lenient _ _ hm hr.2⟩
  point := .held fun _ => (rxAt_base hh).point
  command _ _ _ := .held fun _ => (rxAt_base hh).command _ _ _

theorem rxStart_base : Base h (RxStart c o) :=
  .of_registers rxStart_lenient
    (.point_of (fun _ _ hs => ⟨hs.cfg, hs.others, hs.active, hs.lifecycle, hs.ring⟩) <| rxStart_lenient.intrude fun s hs =>
      ⟨RxStart c (s.locks.mine.union s.locks.others), ⟨hs.cfg, rfl, hs.active, hs.lifecycle, hs.ring⟩, hh.starting _ _,
        fun _ hu => ⟨hu.cfg, hs.others, hu.active, hu.lifecycle, hu.ring⟩⟩)
    fun _ _ hs => ⟨hs.cfg, hs.others, hs.active, hs.lifecycle, hs.ring⟩

theorem rxKept_txBlind (hk : k.Sound e) : TxBlind h (RxKept e k) where
  toBase := rxKept_base hh hk
  locks := rxKept_lockBlind
  ring _ _ hs := hs.congr rfl rfl rfl rfl rfl

theorem rxStart_txBlind : TxBlind h (RxStart c o) where
  toBase := rxStart_base hh
  locks := rxStart_lockBlind
  ring _ _ hs := ⟨hs.cfg, hs.others, hs.active, hs.lifecycle, hs.ring⟩

/-! ## Writing the ring under the lock -/

omit hh in
theorem lock_rx_at : Leads (fun s => RxKept e k s ∧ s.rx = r) (lock .rx) (fun _ s => r.Owned k.low k.cap ∧ RxAt e r s) := by
  rintro s a t ⟨hs, rfl⟩ hr
  obtain ⟨_, hf, rfl⟩ := lock_ok.1 hr
  have hfree : e.others.rx = false := hs.others ▸ hf
  exact ⟨hs.owned hfree, hs.cfg, hs.others, ⟨hs.bars.starting, hs.bars.served⟩, rfl, hfree, rfl⟩

omit hh in
theorem lock_rx_leads : Leads (RxKept e k) (lock .rx) (fun _ => RxHeld e (RxRing.Owned k.low k.cap)) :=
  fun s a t hs hr => ⟨s.rx, lock_rx_at s a t ⟨hs, rfl⟩ hr⟩

omit hh in
theorem unlock_rx_leads : Leads (RxHeld e (RxRing.Owned k.low k.cap)) (unlock .rx) (fun _ => RxKept e k) :=
  .update fun _ ⟨_, hr, hs⟩ =>
    ⟨hs.cfg, hs.others, ⟨hs.bars.starting, hs.bars.served⟩, fun ho => absurd ho (Bool.eq_false_iff.1 hs.free),
      fun _ => hs.at_ ▸ hr⟩

omit hh in
theorem updateRx_leads (f : RxRing → RxRing) : Leads (RxAt e r) (updateRx f) (fun _ => RxAt e (f r)) :=
  .update fun _ hs => ⟨hs.cfg, hs.others, ⟨hs.bars.starting, hs.bars.served⟩, hs.mine, hs.free, congrArg f hs.at_⟩

omit hh in
/-- A ring reached is one of those with `φ`. -/
theorem Leads.into_held {m : Op α} {P : State → Prop} (hm : Leads P m (fun _ => RxAt e r)) (hr : φ r) :
    Leads P m (fun _ => RxHeld e φ) := hm.mono (fun _ => id) fun _ _ hs => ⟨r, hr, hs⟩

omit hh in
theorem poolFreeRx_leads (d : Nat) : Leads (RxAt e r) (poolFreeRx d) (fun _ => RxAt e (r.dropShadow d)) :=
  (Keeps.read _).then fun sh => by
    cases sh.bind (·.allocBase) with
    | none => exact updateRx_leads _
    | some a => exact (rxAt_lenient.freeRegion a).then fun _ => updateRx_leads _

omit hh in
theorem shrinkLocked_leads (d : Nat) : Leads (RxAt e r) (shrinkLocked d) (fun _ => RxAt e (r.shrunk d)) :=
  .bind (poolFreeRx_leads d) fun _ => updateRx_leads _

omit hh in
theorem detachPending_leads (d : Nat) : Leads (RxAt e r) (detachPending d)
    (fun _ s => r.stateOf d = some .handedToUpperLayer ∧ RxAt e (r.detached d) s) := by
  intro s a t hs hr
  obtain ⟨hd, rfl⟩ := detachPending_ok.1 hr
  exact ⟨hs.at_ ▸ State.isHanded_eq_true.1 hd, hs.cfg, hs.others, ⟨hs.bars.starting, hs.bars.served⟩, hs.mine, hs.free,
    congrArg (RxRing.detached d) hs.at_⟩

theorem recycleLocked_leads (d : Nat) : Leads (RxAt e r) (recycleLocked h d) (fun _ => RxAt e (appended d r)) := by
  have b := rxAt_base (e := e) (r := r) hh
  refine (b.host (b.lenient.writeRdCount d _ _)).then fun _ => (b.host (b.lenient.writeRdEL d _)).then fun _ =>
    (b.host (b.lenient.writeRdLink d _)).then fun _ => (b.host (b.lenient.writeRdStatus d _ _)).then fun _ =>
    (Keeps.read _).then fun last => (Keeps.rdAddrOf d).then fun a => ?_
  cases last with
  | none => exact updateRx_leads _
  | some q => exact (b.openGate q a).then fun _ => updateRx_leads _

/-- POOL_ALLOC_RX enters a pending record. -/
theorem poolAllocRx_leads (d a : Nat) : Leads (RxAt e r) (poolAllocRx h d a) (fun _ => RxHeld e fun r' =>
    ∃ sh : RxShadow, r' = { r with shadows := putShadow d sh r.shadows } ∧ sh.state = .allocationPending) := by
  refine .read_bind fun c => .pre (P := RxAt e r) ?_ fun _ hs => hs.1
  refine .bind (updateRx_leads _) fun _ => Leads.into_held ?_
    ⟨⟨.allocationPending, some a, some (a + c.rxAlignShift), c.rxBufferCapacity, 0⟩, rfl, rfl⟩
  have b {r' : RxRing} : Base h (RxAt e r') := rxAt_base hh
  exact (b.host (b.lenient.writeRdStatus d _ _)).then fun _ => (b.host (b.lenient.writeRdEL d _)).then fun _ =>
    (b.host (b.lenient.writeRdLink d _)).then fun _ => (b.host (b.lenient.writeRdPayloadPtr d _)).then fun _ =>
    (b.host (b.lenient.writeRdCount d _ _)).then fun _ => b.host (b.lenient.writeRdCapacity d _)

/-- POOL_ALLOC_RX, the count and RECYCLE_LOCKED. -/
theorem adopt_leads (d a : Nat) {β : Type} {f : Unit → Op β} {Q : β → State → Prop}
    (hf : ∀ sh : RxShadow, sh.state = .allocationPending → Leads (RxAt e (appended d
      { r with shadows := putShadow d sh r.shadows, currentCount := r.currentCount + 1 })) (f ()) Q) :
    Leads (RxAt e r) (poolAllocRx h d a >>= fun _ => updateRx (fun r => { r with currentCount := r.currentCount + 1 }) >>=
      fun _ => recycleLocked h d >>= f) Q := by
  refine .bind (poolAllocRx_leads hh d a) fun _ => .of_held ?_
  rintro _ ⟨sh, rfl, hsh⟩
  exact .bind (updateRx_leads _) fun _ => .bind (recycleLocked_leads hh d) fun _ => hf sh hsh

/-! ## GROW and the thresholds -/

omit hh in
theorem growLocked_leads {low : List Nat} {cap : Option Nat} (hr : r.Owned low cap) :
    Leads (RxAt e r) growLocked (fun _ => RxHeld e (RxRing.Owned low cap)) := by
  have stay (st : Status) : Leads (RxAt e r) (pure st) (fun _ => RxHeld e (RxRing.Owned low cap)) :=
    .pure fun _ hs => ⟨r, hr, hs⟩
  refine .read_bind fun s₀ => .of_fact (c := s₀.rx = r) (fun s hs => hs.2 ▸ hs.1.at_) fun h₀ => ?_
  refine .pre (P := RxAt e r) (.either (stay _) <| rxAt_lenient.allocShadow.then fun _ => .either (stay _) <|
    .bind (updateRx_leads _) fun _ => rxAt_lenient.retain.then fun _ => .pure fun _ hs => ⟨_, ?_, hs⟩) fun _ hs => hs.1
  rw [h₀]
  exact hr.reserved (RxRing.stateOf_freshId r) rfl _ _

omit hh in
theorem updateThresholds_leads {low : List Nat} {cap : Option Nat} (hr : r.Owned low cap) :
    Leads (RxAt e r) updateThresholds (fun _ => RxHeld e (RxRing.Owned low cap)) := by
  refine .read_bind fun s₀ => .pre (P := RxAt e r) (.ite (fun _ => ?_) fun _ => ?_) fun _ hs => hs.1
  · exact .bind (updateRx_leads _) fun _ => .ite
      (fun _ => .bind (growLocked_leads (hr.counters _ _)) fun _ => .pure fun _ hs => hs)
      fun _ => .pure fun _ hs => ⟨_, hr.counters _ _, hs⟩
  · exact (updateRx_leads _).into_held (hr.counters _ _)

/-! ## The requests that return a descriptor -/

section
variable (hk : k.Sound e)
include hk

/-- The end of an operation that has returned a descriptor. -/
theorem returned_leads : Leads (RxHeld e (RxRing.Owned k.low k.cap)) (powerCheck >>= fun due => unlock .rx >>= fun _ =>
    powerSignal h due >>= fun _ => pure Status.ok) (fun _ => RxKept e k) :=
  (rxHeld_base hh).lenient.powerCheck.then fun due => .bind unlock_rx_leads fun _ =>
    ((rxKept_base hh hk).powerSignal due).then fun _ => .pure fun _ hs => hs

omit hh hk in
/-- Under the lock, with the descriptor detached. -/
theorem detached_leads (d : Nat) {f : Unit → Op α} {Q : α → State → Prop}
    (hf : ∀ r, r.Loose k.low k.cap d → Leads (RxAt e r) (f ()) Q) :
    Leads (RxHeld e (RxRing.Owned k.low k.cap)) (detachPending d >>= f) Q :=
  .of_held fun _ hr => .bind (detachPending_leads d) fun _ => .of_fact (fun _ hs => hs.1) fun hd =>
    .pre (hf _ (hr.detached hd)) fun _ hs => hs.2

theorem rxKept_recycle (d : Nat) : Keeps (RxKept e k) (recycle h d) :=
  .bind (.read _) fun _ => .ite (.pure _) <| .bind (rxKept_base hh hk).point fun _ => Leads.bind lock_rx_leads fun _ =>
    detached_leads d fun _ hr => .bind ((recycleLocked_leads hh d).into_held hr.appended) fun _ => returned_leads hh hk

theorem rxKept_rxReturn (d : Nat) : Keeps (RxKept e k) (rxReturn h d) := by
  refine .bind (.read _) fun _ => .ite (.pure _) <| .bind (rxKept_base hh hk).point fun _ => Leads.bind lock_rx_leads fun _ =>
    detached_leads d fun _ hr => (Keeps.read _).then fun _ => ?_
  refine .either (.bind ((shrinkLocked_leads d).into_held hr.shrunk) ?rest)
    (.bind ((recycleLocked_leads hh d).into_held hr.appended) ?rest)
  exact fun _ => returned_leads hh hk

theorem rxKept_shrink (d : Nat) : Keeps (RxKept e k) (shrink h d) :=
  .bind (.read _) fun _ => .ite (.pure _) <| .bind (rxKept_base hh hk).point fun _ => Leads.bind lock_rx_leads fun _ =>
    (Keeps.read _).then fun _ => .ite (fun _ => .bind unlock_rx_leads fun _ => .pure fun _ hs => hs) fun _ =>
    detached_leads d fun _ hr => .bind ((shrinkLocked_leads d).into_held hr.shrunk) fun _ => returned_leads hh hk

/-! ## The requests that grow the ring -/

theorem rxKept_grow : Keeps (RxKept e k) (grow h) :=
  .bind (.read _) fun _ => .ite (.pure _) <| .bind (rxKept_base hh hk).point fun _ => Leads.bind lock_rx_leads fun _ =>
    .bind (.of_held fun _ hr => growLocked_leads hr) fun _ => .bind unlock_rx_leads fun _ => .pure fun _ hs => hs

/-- The end of GROW_COMPLETE, from a ring that is owned once the allocation is over. -/
theorem growCompleted_leads (hr : RxRing.Owned k.low k.cap { r with allocState := .idle }) : Leads (RxAt e r) (do
    updateRx (fun r => { r with allocState := .idle })
    unlock .rx
    point h
    release
    pure Status.ok) (fun _ => RxKept e k) :=
  .bind ((updateRx_leads _).into_held hr) fun _ => .bind unlock_rx_leads fun _ =>
    (rxKept_base hh hk).point.then fun _ => rxKept_lenient.release.then fun _ => .pure fun _ hs => hs

theorem rxKept_growComplete (ok : Bool) (a : Nat) : Keeps (RxKept e k) (growComplete h ok a) := by
  refine .bind (.read _) fun _ => .ite (.pure _) <| .bind (rxKept_base hh hk).point fun _ => Leads.bind lock_rx_leads fun _ =>
    .of_held fun r hr => .read_bind fun s₀ => ?_
  refine .of_fact (c := RxAt e r s₀) (fun s hs => hs.2 ▸ hs.1) fun h₀ => .pre (P := RxAt e r) ?_ fun _ hs => hs.1
  split
  · exact .fault
  · rename_i d hd
    have hpending := hr.inFlight d (h₀.at_ ▸ hd)
    have dropped := (updateRx_leads (e := e) (fun x => x.dropShadow d)).bind fun _ =>
      growCompleted_leads hh hk (hr.abandoned hpending)
    refine .either ((rxAt_lenient.takeRegion a).then ?rest) (?rest ())
    refine fun _ => .ite (fun hroom => adopt_leads hh d a fun sh hsh => growCompleted_leads hh hk (hr.adopted (.inr hpending) hsh ?_))
      fun _ => .ite (fun _ => (rxAt_lenient.freeRegion a).then fun _ => dropped) fun _ => dropped
    intro n hn
    simp only [Bool.and_eq_true, decide_eq_true_eq, h₀.at_, h₀.cfg, ← (hk.cap n hn).1] at hroom
    exact hroom.2

/-! ## HARVEST -/

/-- The ghost with other descriptors in low-resources mode. -/
def RxGhost.withLow (k : RxGhost) (low : List Nat) : RxGhost := { k with low := low }

omit hh hk in
/-- The descriptors of a batch that are in low-resources mode. -/
def lows (batch : List (Nat × Bool)) : List Nat := (batch.filter (·.2)).map (·.1)

omit hh hk in
theorem lows_append (a b : List (Nat × Bool)) : lows (a ++ b) = lows a ++ lows b := by simp [lows]

omit hh hk in
/-- The ring is owned, with a batch's descriptors in low-resources mode. -/
def RxGhost.Batch (k : RxGhost) (batch : List (Nat × Bool)) (r : RxRing) : Prop := r.Owned (lows batch ++ k.low) k.cap

omit hk in
theorem recycleLow_leads : ∀ batch, Leads (RxHeld e (k.Batch batch)) (recycleLow h batch) (fun _ => RxHeld e (k.Batch []))
  | [] => .pure fun _ hs => hs
  | (d, true) :: rest => .bind (.of_held fun _ hr => (recycleLocked_leads hh d).into_held (RxRing.Owned.lowTaken hr).appended)
      fun _ => recycleLow_leads rest
  | (_, false) :: rest => recycleLow_leads rest

/-- FLUSH: what is in low-resources mode while the lock is released is so when it is taken again. -/
theorem flush_leads (hb : e.bars ≠ Bars.none) (batch : List (Nat × Bool)) :
    Leads (RxHeld e (k.Batch batch)) (flush h batch) (fun _ => RxHeld e (k.Batch [])) := by
  have b := rxHeld_base (e := e) (φ := k.Batch batch) hh
  have hk' : (k.withLow (lows batch ++ k.low)).Sound e := ⟨fun hn => absurd hn hb, hk.cap⟩
  exact (b.gatherFrames batch).then fun _ => b.lenient.updatePorts.then fun _ => (Keeps.read _).then fun n =>
    .bind (unlock_rx_leads (k := k.withLow (lows batch ++ k.low))) fun _ =>
    ((rxKept_base hh hk').indicationsDue n).then fun _ => .bind lock_rx_leads fun _ => recycleLow_leads hh batch

omit hk in
/-- The descriptor taken off the ready list ends in one of three ways. -/
theorem dispose_leads {low : List Nat} {d : Nat} (hr : r.Loose low k.cap d) : Leads (RxAt e r) (dispose h d)
    (fun more => RxHeld e (RxRing.Owned (lows more ++ low) k.cap)) := by
  have b {r' : RxRing} : Base h (RxAt e r') := rxAt_base hh
  refine (b.host (.readRdCount d)).then fun n => .bind (updateRx_leads _) fun _ => (b.host (.readRdOK d)).then fun _ =>
    (b.host (.read _)).then fun _ => (Keeps.read _).then fun _ => ?_
  have hr' := hr.mapShadow (fun sh => { sh with actualBytes := n })
  exact .either (.bind ((recycleLocked_leads hh d).into_held hr'.appended) fun _ => .pure fun _ hs => hs) <|
    .either (.bind ((updateRx_leads _).into_held hr'.handedUp) fun _ => .pure fun _ hs => hs)
      (.bind ((updateRx_leads _).into_held hr'.kept) fun _ => .pure fun _ hs => hs)

theorem flushFull_leads (hb : e.bars ≠ Bars.none) (batch : List (Nat × Bool)) :
    Leads (RxHeld e (k.Batch batch)) (flushFull h batch) (fun left => RxHeld e (k.Batch left)) :=
  (Keeps.read _).then fun _ => .either (.bind (flush_leads hh hk hb batch) fun _ => .pure fun _ hs => hs)
    (.pure fun _ hs => hs)

omit hh hk in
/-- What joins the batch. -/
theorem RxGhost.Batch.join {batch more : List (Nat × Bool)} {r : RxRing} (hr : r.Owned (lows more ++ (lows batch ++ k.low)) k.cap) :
    k.Batch (batch ++ more) r := hr.perm (by
  rw [lows_append, ← List.append_assoc]
  exact List.perm_append_comm.append_right _)

theorem harvestLoop_leads (hb : e.bars ≠ Bars.none) : ∀ n batch,
    Leads (RxHeld e (k.Batch batch)) (harvestLoop h n batch) (fun left => RxHeld e (k.Batch left))
  | 0, _ => .pure fun _ hs => hs
  | n + 1, batch => .of_held fun r hr => .read_bind fun ready => by
    refine .of_fact (c := r.readyList = ready) (fun s hs => hs.2 ▸ hs.1.at_ ▸ rfl) fun hready =>
      .pre (P := RxAt e r) ?_ fun _ hs => hs.1
    cases ready with
    | nil => exact .pure fun _ hs => ⟨r, hr, hs⟩
    | cons d ds =>
      refine ((rxAt_base hh).readCompleted d).then fun _ => .either ?_ (.pure fun _ hs => ⟨r, hr, hs⟩)
      exact .bind (updateRx_leads _) fun _ => .bind (dispose_leads hh (hr.popped hready)) fun _ =>
        .bind ((flushFull_leads hh hk hb _).pre fun _ ⟨r', hr', hs⟩ => ⟨r', .join hr', hs⟩) fun _ =>
        harvestLoop_leads hb n _

omit hh hk in
/-- The end of HARVEST. -/
theorem harvested_leads : Leads (RxHeld e (k.Batch [])) (updateThresholds >>= fun _ => unlock .rx >>= fun _ =>
    pure Status.ok) (fun _ => RxKept e k) :=
  .bind (.of_held fun _ hr => updateThresholds_leads hr) fun _ => .bind unlock_rx_leads fun _ => .pure fun _ hs => hs

theorem harvest_served (hb : e.bars ≠ Bars.none) : Keeps (RxKept e k) (harvest h) := by
  refine .bind (.read _) fun _ => .ite (.pure _) <| .bind (rxKept_base hh hk).point fun _ => Leads.bind lock_rx_leads fun _ =>
    (Keeps.read _).then fun n => .bind (harvestLoop_leads hh hk hb n []) fun batch => ?_
  refine .ite (fun _ => .bind (flush_leads hh hk hb batch) fun _ => harvested_leads) fun hn => ?_
  obtain rfl : batch = [] := not_not.1 hn
  exact harvested_leads

/-! ## In service or refused -/

omit hh hk in
/-- The device is relied on to be in service. -/
def RxEnv.inService (e : RxEnv) : RxEnv := { e with bars := e.bars.inService }

omit hh in
theorem RxGhost.Sound.inService : k.Sound e.inService := ⟨fun hn => absurd hn e.bars.inService_ne_none, hk.cap⟩

omit hh hk in
/-- An operation that only a device in service makes. -/
theorem Keeps.rxServed {m : Op α} (hm : Keeps (RxKept e.inService k) m)
    (hr : ∀ s : State, s.dev.lifecycle = .uninitialised → Refuses m s) : Keeps (RxKept e k) m :=
  .of_refuses hm
    (fun s hs => (em (s.dev.lifecycle = .uninitialised)).elim (fun hl => .inr (hr s hl)) fun hl =>
      .inl { hs with bars := hs.bars.inService hl })
    fun _ hs => { hs with bars := hs.bars.of_inService }

theorem rxKept_rings : Rings h (RxKept e k) := by
  have x := (rxKept_txBlind hh hk).section_
  exact
    { toBase := rxKept_base hh hk, locks := rxKept_lockBlind,
      submit := x.submit_keeps, drain := x.drain_keeps, reclaim := x.reclaim_keeps,
      harvest := .rxServed (harvest_served hh hk.inService e.bars.inService_ne_none) fun s hl => harvest_refuses (by simp [hl]),
      recycle := rxKept_recycle hh hk, rxReturn := rxKept_rxReturn hh hk, shrink := rxKept_shrink hh hk,
      grow := rxKept_grow hh hk, growComplete := rxKept_growComplete hh hk }

/-! ## TEARDOWN -/

omit hh hk in
/-- A change of `deviceState` to one past START. -/
theorem RxKept.setLifecycle {s : State} (hs : RxKept e k s) {f : Device → Device}
    (hf : (f s.dev).lifecycle ≠ .uninitialised) : RxKept e k (s.mapDev f) :=
  ⟨hs.cfg, hs.others, ⟨hs.bars.starting, fun _ => hf⟩, hs.ring, hs.owned⟩

omit hh hk in
theorem freePosted_leads {low : List Nat} {cap : Option Nat} : ∀ ds r, (r.readyLeft ds).Owned low cap →
    Leads (RxAt e r) (freePosted ds) (fun _ => RxHeld e (fun r => (r.readyLeft []).Owned low cap))
  | [], r, hr => .pure fun _ hs => ⟨r, hr, hs⟩
  | d :: ds, r, hr => .bind (poolFreeRx_leads d) fun _ => .bind (updateRx_leads _) fun _ =>
    freePosted_leads ds (r.shrunk d) hr.freed

omit hh hk in
theorem rxKept_teardownFree : Keeps (RxKept e k) teardownFree := by
  refine Leads.read_bind fun s₀ => (Keeps.assert _).then fun _ => .bind (Q := fun _ s => s₀.rx.Owned k.low k.cap ∧ RxAt e s₀.rx s)
    (lock_rx_at.pre fun s hs => ⟨hs.1, hs.2 ▸ rfl⟩) fun _ => .of_fact (fun _ hs => hs.1) fun hr => ?_
  have hleft : (s₀.rx.readyLeft s₀.rx.readyList).Owned k.low k.cap := { hr with readyCount := rfl }
  refine .bind ((freePosted_leads s₀.rx.readyList s₀.rx hleft).pre fun _ hs => hs.2) fun _ =>
    .bind (.of_held fun _ hr => (updateRx_leads _).into_held hr) fun _ => .bind unlock_rx_leads fun _ =>
    rxKept_lenient.updatePorts.then fun _ => .bind (.update fun _ hs => hs.setLifecycle nofun) fun _ =>
    rxKept_lenient.update fun s => .withResult s _

/-! ## START -/

omit hh hk in
theorem allocSharedMany_leads {P : State → Prop} (hl : Lenient P) (size : Nat) : ∀ n, Leads P (allocSharedMany n size)
    (fun got s => (∀ bases, got = some bases → bases.length = n) ∧ P s)
  | 0 => .pure fun _ hs => ⟨fun _ h => Option.some.inj h ▸ rfl, hs⟩
  | n + 1 => (hl.allocShared size).then fun
    | none => .pure fun _ hs => ⟨nofun, hs⟩
    | some _ => .bind (allocSharedMany_leads hl size n) fun rest => .pure fun _ hs => ⟨fun bases hb => by
        obtain ⟨more, hm, rfl⟩ := Option.map_eq_some_iff.1 hb
        rw [List.length_cons, hs.1 more hm], hs.2⟩

omit hh hk in
/-- START's allocations: one region for each of the first descriptors. -/
theorem startAllocate_leads : Leads (RxKept e k) startAllocate (fun got s =>
    (∀ base bufs regions, got = some (base, bufs, regions) → regions.length = e.cfg.rxInitialCount) ∧ RxKept e k s) := by
  have none_leads : Leads (RxKept e k) (pure none) (fun (got : Option (Nat × List Nat × List Nat)) s =>
      (∀ base bufs regions, got = some (base, bufs, regions) → regions.length = e.cfg.rxInitialCount) ∧ RxKept e k s) :=
    .pure fun _ hs => ⟨nofun, hs⟩
  have hl := rxKept_lenient (e := e) (k := k)
  refine .read_bind fun c => .of_fact (c := c = e.cfg) (fun s hs => hs.2 ▸ hs.1.cfg) fun hc => ?_
  subst hc
  refine .pre (P := RxKept e k) ((hl.allocShared _).then fun
    | none => none_leads
    | some base => (Keeps.requireAlignedAll _).then fun _ => (hl.allocSharedMany _ _).then fun
      | none => none_leads
      | some bufs => .bind (allocSharedMany_leads hl _ _) fun
        | none => none_leads.pre fun _ hs => hs.2
        | some regions => .of_fact (fun _ hs => hs.1) fun hn => .pre (P := RxKept e k) ((Keeps.requireAlignedAll _).then fun _ =>
            (hl.allocShadows _).then fun got => .pure fun _ hs => ⟨fun a b c hsome => ?_, hs⟩) fun _ hs => hs.2) fun _ hs => hs.1
  cases got with
  | false => cases hsome
  | true =>
    cases hsome
    exact hn regions rfl

omit hk in
theorem startReceive_leads {cap : Option Nat} : ∀ regions n r, RxRing.Started cap n r →
    (∀ m, cap = some m → n + regions.length ≤ m) →
    Leads (RxAt e r) (startReceive h n regions) (fun _ => RxHeld e (RxRing.Owned [] cap))
  | [], _, r, hr, _ => .pure fun _ hs => ⟨r, hr.toOwned, hs⟩
  | a :: rest, n, r, hr, hcap => adopt_leads hh n a fun sh hsh =>
      startReceive_leads rest (n + 1) _ (hr.next hsh fun m hm => by have := hcap m hm; simp at this; omega)
        fun m hm => by have := hcap m hm; simp at this; omega

omit hh hk in
/-- START is under way. -/
def RxEnv.started (e : RxEnv) : RxEnv := { e with bars := e.bars.started }

omit hh in
theorem RxGhost.Sound.started : k.Sound e.started := ⟨fun hn => absurd hn e.bars.started_ne_none, hk.cap⟩

omit hk in
/-- START's step 3 makes the ring anew. -/
theorem startVariables_starts (base : Nat) (bufs : List Nat) :
    Leads (RxKept e.started k) (startVariables h base bufs) (fun _ => RxStart e.cfg e.others) :=
  .bind (Q := fun _ => RxStart e.cfg e.others) (.update fun _ hs => ⟨hs.cfg, hs.others, hs.bars.starting rfl, rfl, rfl⟩)
    fun _ => (Keeps.read _).then fun _ => (rxStart_base hh).clearSlots _

omit hk in
/-- START's step 4 leaves it. -/
theorem poolInitTx_starting : Keeps (RxStart c o) (poolInitTx h) :=
  .bind (.read _) fun _ => .bind ((rxStart_base hh).initDescriptors _) fun _ => .bind (.read _) fun _ =>
    (rxStart_txBlind hh).updateTx _

omit hh hk in
/-- START's step 5 finds it. -/
theorem lock_rx_starting (hb : e.bars = Bars.none) :
    Leads (RxStart e.cfg e.others) (lock .rx) (fun _ => RxAt e.started RxRing.reset) := by
  intro s a t hs hr
  obtain ⟨_, hf, rfl⟩ := lock_ok.1 hr
  have hserved : e.started.bars.served = false := congrArg Bars.served hb
  exact ⟨hs.cfg, hs.others, ⟨fun _ => hs.active, fun hv => absurd hv (Bool.eq_false_iff.1 hserved)⟩, rfl, hs.others ▸ hf, hs.ring⟩

/-- START's steps 2 to 5, from a ring that lock `rx` may protect. -/
theorem startInitialise_keeps_ring (hb : e.bars = Bars.none) {regions : List Nat} (hn : regions.length = e.cfg.rxInitialCount)
    (base : Nat) (bufs : List Nat) : Keeps (RxKept e k) (startInitialise h base bufs regions) := by
  have b₁ := rxKept_base hh hk.started
  have b₂ := rxStart_base (c := e.cfg) (o := e.others) hh
  have l₂ := rxStart_lockBlind (c := e.cfg) (o := e.others)
  -- the full reset
  have full : Keeps (RxKept e.started k) (regWrite .port 2) :=
    b₁.lenient.fullReset fun _ _ hs => hs.congr rfl rfl rfl rfl rfl
  refine Leads.bind (Q := fun _ => RxKept e.started k) (.update fun s hs => ?_) fun _ => (b₁.host full).then fun _ => ?_
  · exact ⟨hs.cfg, hs.others, ⟨fun _ => rfl, hs.bars.served⟩, hs.ring, hs.owned⟩
  -- the variables and the transmit ring
  refine .bind (startVariables_starts hh base bufs) fun _ => b₂.point.then fun _ => (l₂.lock .tx).then fun _ =>
    (poolInitTx_starting hh).then fun _ => (l₂.unlock .tx).then fun _ => b₂.point.then fun _ =>
    b₂.lenient.updateTx.then fun _ => b₂.point.then fun _ => ?_
  -- the receive ring
  have hcap : ∀ m, k.cap = some m → 0 + regions.length ≤ m := fun m hm => by
    rw [Nat.zero_add, hn]
    exact (hk.cap m hm).2
  refine .bind (lock_rx_starting hb) fun _ =>
    .bind (startReceive_leads hh regions 0 _ (RxRing.started_reset k.cap) hcap) fun _ =>
    .bind (unlock_rx_leads.pre fun s hs => (hk.low hb).symm ▸ hs) fun _ => b₁.point.then fun _ => ?_
  -- `Running`
  refine .bind (Q := fun _ => RxKept e.started k) (.update fun s hs => hs.setLifecycle nofun) fun _ => .update fun s hs => ?_
  exact ⟨hs.cfg, hs.others, hb ▸ Bars.hold_none _, hs.ring, hs.owned⟩

theorem rxKept_start : Keeps (RxKept e k) (start h) := by
  by_cases hb : e.bars = Bars.none
  · have r := rxKept_rings hh hk
    refine .bind (.read _) fun s => .ite .blocked <| .ite (.pure _) <| Leads.bind (startAllocate_leads) fun
      | none => .bind ((r.lenient.updatePorts).leads.pre fun _ hs => hs.2) fun _ => .pure fun _ hs => hs
      | some (base, bufs, regions) => .of_fact (fun _ hs => hs.1) fun hn => .pre (P := RxKept e k) ?_ fun _ hs => hs.2
    exact Keeps.bind (startInitialise_keeps_ring hh hk hb (hn base bufs regions rfl) base bufs) fun _ =>
        .bind r.point fun _ => .bind r.linkStart fun _ => .bind r.point fun _ => .bind r.ensureStarted fun _ =>
        .bind (r.setMask 0) fun _ => .bind r.armHealthTimer fun _ => .pure _
  · exact .refused fun s hs => hs.bars.start_refuses hb

omit hk in
/-- Between START's step 3 and its step 5 every operation is refused. -/
theorem rxStart_life : Life h (RxStart c o) := by
  have off {s : State} (hs : RxStart c o s) : s.dev.lifecycle ≠ .running := hs.lifecycle ▸ nofun
  have none_handed {s : State} (hs : RxStart c o s) (d : Nat) : s.isHanded d = false := by
    simp [State.isHanded, RxRing.shadow?, hs.ring, RxRing.reset]
  exact
    { toBase := rxStart_base hh, locks := rxStart_lockBlind
      submit := fun w => .refused fun s hs => submit_refuses (off hs) w
      drain := .refused fun s hs => drain_refuses (off hs)
      reclaim := .refused fun s hs => reclaim_refuses (off hs)
      harvest := .refused fun s hs => harvest_refuses (off hs)
      recycle := fun d => .refused fun s hs => recycle_refuses (none_handed hs d)
      rxReturn := fun d => .refused fun s hs => rxReturn_refuses (none_handed hs d)
      shrink := fun d => .refused fun s hs => shrink_refuses (none_handed hs d)
      grow := .refused fun s hs => grow_refuses (off hs)
      growComplete := fun ok a => .refused fun s hs => growComplete_refuses (hs.ring ▸ rfl) ok a
      start := .refused fun s hs => start_refuses (.inl hs.active)
      reset := .refused fun s hs => reset_refuses (off hs)
      teardown := .refused fun s hs => teardown_refuses (by simp [State.mayTearDown, hs.lifecycle])
      teardownFinish := .refused fun s hs => teardownFinish_refuses (by simp [State.teardownMayFinish, hs.lifecycle])
      registers := fun _ _ hs => ⟨hs.cfg, hs.others, hs.active, hs.lifecycle, hs.ring⟩ }

/-! ## Every step -/

theorem rxKept_life : Life h (RxKept e k) := by
  have r := rxKept_rings hh hk
  have x := (rxKept_txBlind hh hk).section_
  exact
    { toRings := r
      registers := fun _ _ hs => hs.congr rfl rfl rfl rfl rfl
      start := rxKept_start hh hk
      reset := r.reset
        (x.resetRings_keeps (x.lenient.fullReset fun _ _ hs => hs.congr rfl rfl rfl rfl rfl)
          (.update fun _ hs => hs.congr rfl rfl rfl rfl rfl))
        (r.resetFailed fun _ hs => hs.setLifecycle nofun)
      teardown := x.teardown_keeps fun _ hs => hs.setLifecycle nofun
      teardownFinish := x.teardownFinish_keeps rxKept_teardownFree }

end

end Steps

/-- Steps of other agents keep both invariants at every depth. -/
theorem rxHandled_reenter (n : Nat) : RxHandled (reenter n) :=
  reenter_induction (Q := RxHandled) ⟨fun _ _ _ _ => .blocked, fun _ _ _ => .blocked⟩
    (fun _ hh => ⟨fun _ _ hk => (rxKept_life hh hk).occur, fun _ _ => (rxStart_life hh).occur⟩) n

theorem State.locks_of_settled {s : State} (hs : s.settled = true) : s.locks = Locks.free := by
  simp only [State.settled, Bool.and_eq_true, decide_eq_true_eq] at hs
  exact hs.1.1.1.1.1.1

theorem Config.rxInitialCount_le {c : Config} (hc : c.wf = true) : c.rxInitialCount ≤ c.rxMaxCount := by
  simp only [Config.wf, Bool.and_eq_true, decide_eq_true_eq] at hc
  omega

/-- From a state in which nothing is under way, with or without the bound. -/
theorem step_keeps_owned {s t : State} {cap : Option Nat} (hs : s.settled = true) (ho : s.rx.Owned [] cap)
    (hcap : ∀ n, cap = some n → n = s.cfg.rxMaxCount ∧ s.cfg.rxInitialCount ≤ n) (hr : step s = .next t) :
    t.rx.Owned [] cap ∧ t.cfg = s.cfg := by
  let e : RxEnv := ⟨s.cfg, s.locks.others, Bars.none⟩
  let k : RxGhost := ⟨[], cap, s.rx⟩
  have hk : k.Sound e := ⟨fun _ => rfl, hcap⟩
  have h₀ : RxKept e k s := ⟨rfl, rfl, Bars.hold_none s, fun _ => rfl, fun _ => ho⟩
  have ht := step_keeps rxKept_lenient (rxKept_life (rxHandled_reenter _) hk) h₀ hr
  have hfree : s.locks.others.rx = false := by
    rw [State.locks_of_settled hs]
    rfl
  exact ⟨ht.owned hfree, ht.cfg⟩

/-- Settles O8: under lock `rx` a descriptor in hand ends in one list or is freed, and outside it the ring is owned. -/
theorem stepKeepsReceiveOwnership : Obligations.StepKeepsReceiveOwnership := by
  intro s t hs ho hr
  have hown := s.rx.ownership_iff.1 ho
  obtain ⟨ht, hcfg⟩ := step_keeps_owned hs hown nofun hr
  refine ⟨t.rx.ownership_iff.2 ht, ht.readyCount_le, fun hwf hmax => ?_⟩
  have hc : s.rx.Owned [] (some s.cfg.rxMaxCount) := { hown with cap := fun n hn => Option.some.inj hn ▸ hmax }
  have hb := (step_keeps_owned hs hc (fun n hn => Option.some.inj hn ▸ ⟨rfl, Config.rxInitialCount_le hwf⟩) hr).1
  exact hcfg ▸ hb.cap _ rfl

end Sys2Proof.Machine
end

