-- ==== Sys2Proof/Proofs/Ledger.lean ====
section
/-!
PROOF. What every operation gives back. A `Ledger` says what may stand open while an operation runs: the locks that are held,
which operations are under way, how many upward events are owed. `Tidy` says that nothing else does, and that memory is canonical
where it was. `Minor` allows any change of memory and of the locks `dev` and `cmd`, and every other port, so that what is kept
under it says nothing here: the operations are followed with `Calm` in its place. This file has those in which no other agent
steps.
-/
namespace Sys2Proof.Machine

variable {α : Type}

/-! ## The ledger -/

/-- What may stand open, and whether memory is known to be canonical. -/
structure Ledger where
  canonical : Bool
  locks : Locks
  serving : Bool
  starting : Bool
  ending : Bool
  completions : Nat
  indications : Nat
  submits : Nat

/-- The state is as the ledger says, and nothing is open that the ledger does not allow. -/
structure Tidy (g : Ledger) (s : State) : Prop where
  canonical : g.canonical = true → s.mem.wf = true
  locks : s.locks = g.locks
  serving : s.ports.isrActive = true → g.serving = true
  starting : s.ports.startActive = true → g.starting = true
  ending : s.ports.teardown = .beginning → g.ending = true
  completions : s.ports.completions.length ≤ g.completions
  indications : s.ports.indications.length ≤ g.indications
  submits : s.ports.submits ≤ g.submits

variable {g : Ledger}

/-- Nothing stands open. -/
def Ledger.closed : Ledger := ⟨false, Locks.free, false, false, false, 0, 0, 0⟩

/-- Between steps nothing stands open. -/
theorem State.settled_iff_tidy (s : State) : s.settled = true ↔ Tidy Ledger.closed s := by
  simp only [State.settled, Bool.and_eq_true, decide_eq_true_eq, Bool.not_eq_true', List.isEmpty_iff, beq_iff_eq]
  constructor
  · rintro ⟨⟨⟨⟨⟨⟨hl, hi⟩, hs⟩, ht⟩, hc⟩, hx⟩, hn⟩
    exact ⟨nofun, hl, fun h => absurd h (by simp [hi]), fun h => absurd h (by simp [hs]), fun h => absurd h ht, by simp [hc],
      by simp [hx], hn.le⟩
  · rintro ⟨-, hl, hi, hs, ht, hc, hx, hn⟩
    exact ⟨⟨⟨⟨⟨⟨hl, Bool.eq_false_iff.2 fun h => nomatch hi h⟩, Bool.eq_false_iff.2 fun h => nomatch hs h⟩,
      fun h => nomatch ht h⟩, List.eq_nil_of_length_eq_zero (Nat.le_zero.1 hc)⟩,
      List.eq_nil_of_length_eq_zero (Nat.le_zero.1 hx)⟩, Nat.le_zero.1 hn⟩

/-- A ledger for any state with canonical memory: its locks and events, and every operation may be under way. -/
def State.ledger (s : State) : Ledger :=
  ⟨true, s.locks, true, true, true, s.ports.completions.length, s.ports.indications.length, s.ports.submits⟩

theorem State.tidy_ledger {s : State} (hm : s.mem.wf = true) : Tidy s.ledger s :=
  ⟨fun _ => hm, rfl, fun _ => rfl, fun _ => rfl, fun _ => rfl, le_rfl, le_rfl, le_rfl⟩

/-! ## Changes that the ledger does not see -/

/-- `t` differs from `s` in nothing that the ledger looks at. -/
structure Calm (s t : State) : Prop where
  mem : t.mem = s.mem
  locks : t.locks = s.locks
  isrActive : t.ports.isrActive = s.ports.isrActive
  startActive : t.ports.startActive = s.ports.startActive
  teardown : t.ports.teardown = s.ports.teardown
  completions : t.ports.completions = s.ports.completions
  indications : t.ports.indications = s.ports.indications
  submits : t.ports.submits = s.ports.submits

namespace Tidy

theorem calm {s t : State} (hs : Tidy g s)
    (hc : Calm s t := by exact ⟨rfl, rfl, rfl, rfl, rfl, rfl, rfl, rfl⟩) : Tidy g t where
  canonical hg := hc.mem ▸ hs.canonical hg
  locks := hc.locks.trans hs.locks
  serving hi := hs.serving (hc.isrActive ▸ hi)
  starting ha := hs.starting (hc.startActive ▸ ha)
  ending ht := hs.ending (hc.teardown ▸ ht)
  completions := hc.completions ▸ hs.completions
  indications := hc.indications ▸ hs.indications
  submits := hc.submits ▸ hs.submits

/-- What one ledger allows, one that allows more events allows. -/
theorem owing_mono {m n : Nat} {s : State} (hs : Tidy { g with completions := m, indications := n } s) (hm : m ≤ g.completions)
    (hn : n ≤ g.indications) : Tidy g s :=
  { hs with completions := hs.completions.trans hm, indications := hs.indications.trans hn }

/-- An update that the ledger does not see. -/
theorem update {f : State → State} (hf : ∀ s, Calm s (f s) := by exact fun _ => ⟨rfl, rfl, rfl, rfl, rfl, rfl, rfl, rfl⟩) :
    Keeps (Tidy g) (update f) := .update fun s hs => hs.calm (hf s)

theorem updateRegs (f : Registers → Registers) : Keeps (Tidy g) (updateRegs f) := Tidy.update
theorem updateUnits (f : Units → Units) : Keeps (Tidy g) (updateUnits f) := Tidy.update
theorem updateTx (f : TxRing → TxRing) : Keeps (Tidy g) (updateTx f) := Tidy.update
theorem updateRx (f : RxRing → RxRing) : Keeps (Tidy g) (updateRx f) := Tidy.update
theorem updateLink (f : Link → Link) : Keeps (Tidy g) (updateLink f) := Tidy.update
theorem updateDev (f : Device → Device) : Keeps (Tidy g) (updateDev f) := Tidy.update

/-! ## Memory -/

theorem mapMem {f : Memory → Memory} (hf : ∀ m, m.wf = true → (f m).wf = true) :
    Keeps (Tidy g) (Machine.update (State.mapMem f)) :=
  .update fun _ hs => { hs with canonical := fun hc => hf _ (hs.canonical hc) }

theorem memWrite (a : Nat) (bs : List Byte) : Keeps (Tidy g) (memWrite a bs) :=
  .ite (mapMem fun _ hm => Memory.wf_writeBytes hm a bs) (.fault _)
theorem memWrite8 (a : Nat) (v : Byte) : Keeps (Tidy g) (memWrite8 a v) :=
  .ite (mapMem fun _ hm => Memory.wf_setByte hm a v) (.fault _)
theorem memWrite16 (a : Nat) (v : Halfword) : Keeps (Tidy g) (memWrite16 a v) :=
  .ite (mapMem fun _ hm => Memory.wf_write16 hm a v) (.fault _)
theorem memWrite32 (a : Nat) (v : Word) : Keeps (Tidy g) (memWrite32 a v) :=
  .ite (mapMem fun _ hm => Memory.wf_write32 hm a v) (.fault _)

theorem writeTdC (i : Nat) (c : Bool) : Keeps (Tidy g) (writeTdC i c) := .bind (.read _) fun _ => memWrite16 _ _
theorem writeTdS (i : Nat) (b : Bool) : Keeps (Tidy g) (writeTdS i b) := .bind (.read _) fun _ => memWrite16 _ _
theorem writeTdLink (i : Nat) (v : Word) : Keeps (Tidy g) (writeTdLink i v) := .bind (.read _) fun _ => memWrite32 _ _
theorem writeTdFragCount (i : Nat) (n : Byte) : Keeps (Tidy g) (writeTdFragCount i n) :=
  .bind (.read _) fun _ => memWrite8 _ _
theorem writeTdReserved (i : Nat) : Keeps (Tidy g) (writeTdReserved i) := .bind (.read _) fun _ => memWrite _ _
theorem writeTdFragAddr (i k : Nat) (v : Word) : Keeps (Tidy g) (writeTdFragAddr i k v) :=
  .bind (.read _) fun _ => memWrite32 _ _
theorem writeTdFragLen (i k : Nat) (v : Word) : Keeps (Tidy g) (writeTdFragLen i k v) :=
  .bind (.read _) fun _ => memWrite32 _ _

theorem writeRdStatus (d : Nat) (c o : Bool) : Keeps (Tidy g) (writeRdStatus d c o) :=
  .bind (.rdAddrOf d) fun _ => memWrite16 _ _
theorem writeRdEL (d : Nat) (e : Bool) : Keeps (Tidy g) (writeRdEL d e) := .bind (.rdAddrOf d) fun _ => memWrite16 _ _
theorem writeRdLink (d : Nat) (v : Word) : Keeps (Tidy g) (writeRdLink d v) := .bind (.rdAddrOf d) fun _ => memWrite32 _ _
theorem writeRdPayloadPtr (d : Nat) (v : Word) : Keeps (Tidy g) (writeRdPayloadPtr d v) :=
  .bind (.rdAddrOf d) fun _ => memWrite32 _ _
theorem writeRdCount (d n : Nat) (v : Bool) : Keeps (Tidy g) (writeRdCount d n v) :=
  .bind (.rdAddrOf d) fun _ => memWrite16 _ _
theorem writeRdCapacity (d n : Nat) : Keeps (Tidy g) (writeRdCapacity d n) := .bind (.rdAddrOf d) fun _ => memWrite16 _ _

/-! ## Events, the flag, the reference count, allocation -/

theorem emit (e : Event) : Keeps (Tidy g) (emit e) := .bind (.read _) fun _ => .ite Tidy.update (.fault _)
theorem errorEntry : Keeps (Tidy g) errorEntry := updateDev _
theorem errorReturn : Keeps (Tidy g) errorReturn := updateDev _
theorem retain : Keeps (Tidy g) retain := updateDev _
theorem release : Keeps (Tidy g) release := updateDev _

theorem addRegion (r : Region) : Keeps (Tidy g) (addRegion r) := .bind (.read _) fun _ => .ite Tidy.update (.fault _)
theorem freeRegion (b : Nat) : Keeps (Tidy g) (freeRegion b) := Tidy.update
theorem takeRegion (b : Nat) : Keeps (Tidy g) (takeRegion b) :=
  .bind (.read _) fun _ => .bind (addRegion _) fun _ => .requireAligned _

theorem allocShared (size : Nat) : Keeps (Tidy g) (allocShared size) :=
  .bind (.read _) fun
    | [] => .pure _
    | none :: _ => .bind Tidy.update fun _ => .pure _
    | some _ :: _ => .bind Tidy.update fun _ => .bind (addRegion _) fun _ => .pure _

theorem allocShadow : Keeps (Tidy g) allocShadow :=
  .bind (.read _) fun
    | [] => .pure _
    | _ :: _ => .bind Tidy.update fun _ => .pure _

theorem allocSharedMany (size : Nat) : ∀ n, Keeps (Tidy g) (allocSharedMany n size)
  | 0 => .pure _
  | n + 1 => .bind (allocShared size) fun
    | none => .pure _
    | some _ => .bind (allocSharedMany size n) fun _ => .pure _

theorem allocShadows : ∀ n, Keeps (Tidy g) (allocShadows n)
  | 0 => .pure _
  | n + 1 => .bind allocShadow fun _ => .ite (allocShadows n) (.pure _)

theorem startAllocate : Keeps (Tidy g) startAllocate :=
  .bind (.read _) fun _ => .bind (allocShared _) fun
    | none => .pure _
    | some _ => .bind (.requireAlignedAll _) fun _ => .bind (allocSharedMany _ _) fun
      | none => .pure _
      | some _ => .bind (allocSharedMany _ _) fun
        | none => .pure _
        | some _ => .bind (.requireAlignedAll _) fun _ => .bind (allocShadows _) fun _ => .pure _

/-! ## Registers and device agents -/

theorem selectiveReset : Keeps (Tidy g) selectiveReset := .bind (updateRegs _) fun _ => updateUnits _

theorem fullReset : Keeps (Tidy g) fullReset :=
  .bind selectiveReset fun _ => .bind (updateRegs _) fun _ => updateUnits _

theorem regWrite (v : Word) : ∀ r, Keeps (Tidy g) (regWrite r v)
  | .status => updateRegs _
  | .command => .bind (.regRead _) fun _ => .ite (.fault _) <| .ite (.fault _) (updateRegs _)
  | .pointer => updateRegs _
  | .intmask => updateRegs _
  | .port => .ite selectiveReset <| .ite fullReset (.fault _)
  | .phystat _ => .pure _

theorem regWriteAt (offset : Nat) (v : Word) : Keeps (Tidy g) (regWriteAt offset v) := by
  unfold Machine.regWriteAt
  split
  · exact regWrite v _
  · exact .fault _

/-- The end of accepting a start: the cursor, the unit's state, the command register. -/
theorem accepted (f : Units → Units) (k : Registers → Registers) :
    Keeps (Tidy g) (Machine.updateUnits f >>= fun _ => Machine.updateRegs k >>= fun _ => clearCommand) :=
  .bind (updateUnits f) fun _ => .bind (updateRegs k) fun _ => updateRegs _

theorem acceptCuStart : Keeps (Tidy g) acceptCuStart :=
  .bind (.read _) fun
    | none => .fault _
    | some _ => accepted _ _

theorem acceptRuStart : Keeps (Tidy g) acceptRuStart :=
  .bind (.read _) fun
    | none => .fault _
    | some _ => accepted _ _

theorem acceptCuResume : Keeps (Tidy g) acceptCuResume :=
  .bind (.read _) fun _ => .ite
    (.bind (.read _) fun _ => .bind (.readTdS _) fun _ => .ite (updateRegs _) <|
      .bind (.readTdLink _) fun _ => .bind (.read _) fun
        | none => .fault _
        | some _ => accepted _ _)
    (updateRegs _)

theorem accept : Keeps (Tidy g) accept :=
  .bind (.read _) fun _ => .ite (.pure _) <| .ite acceptCuStart <| .ite acceptCuResume <| .ite acceptRuStart (.fault _)

theorem cuExecuteSlot (i : Nat) : Keeps (Tidy g) (cuExecuteSlot i) :=
  .bind (.readTdFragCount i) fun _ => .bind (.gatherFragments i _) fun _ => .bind Tidy.update fun _ =>
    .bind (writeTdC i true) fun _ => .bind (updateRegs _) fun _ => .bind (.readTdS i) fun _ =>
      .ite (updateRegs _) <| .bind (.readTdLink i) fun _ => .bind (.read _) fun
        | none => .fault _
        | some _ => updateUnits _

theorem cuExecute : Keeps (Tidy g) cuExecute :=
  .bind (.read _) fun _ => .bind (.read _) fun _ => .ite
    (.bind (.readTdC _) fun _ => .ite (.pure _) (cuExecuteSlot _)) (.pure _)

theorem ruAdvance (d : Nat) : Keeps (Tidy g) (ruAdvance d) :=
  .bind (updateUnits _) fun _ => .bind (updateRegs _) fun _ => .bind (.readRdEL d) fun _ =>
    .ite (.bind (updateRegs _) fun _ => updateUnits _) <| .bind (.readRdLink d) fun _ => .bind (.read _) fun
      | none => .fault _
      | some _ => updateUnits _

theorem ruStatus (ok : Bool) : Keeps (Tidy g) (ruStatus ok) :=
  .bind (.read _) fun
    | none => .pure _
    | some d => .bind (.ruMay d _) fun _ => .ite
      (.bind (writeRdStatus d true ok) fun _ => .bind (.read _) fun _ => .ite (updateUnits _) (ruAdvance d))
      (.pure _)

theorem ruCount (bytes : List Byte) : Keeps (Tidy g) (ruCount bytes) :=
  .bind (.read _) fun
    | none => .pure _
    | some d => .bind (.ruMay d _) fun _ => .bind (.readRdCapacity d) fun _ => .ite
      (.bind (.readRdPayloadPtr d) fun _ => .bind (memWrite _ bytes) fun _ => .bind (writeRdCount d _ true) fun _ =>
        .bind (.read _) fun _ => .ite (updateUnits _) (ruAdvance d))
      (.pure _)

theorem deviceStep : ∀ d, Keeps (Tidy g) (deviceStep d)
  | .accept => accept
  | .cuExecute => cuExecute
  | .ruStatus ok => ruStatus ok
  | .ruCount bytes => ruCount bytes
  | .phy _ _ => updateRegs _

/-! ## The rings, where no other agent steps -/

theorem enqueue (p : Packet) : Keeps (Tidy g) (enqueue p) := .bind (updateTx _) fun _ => .pure _

theorem retire (i : Nat) : Keeps (Tidy g) (retire i) :=
  .bind (.read _) fun _ => .bind (.read _) fun _ => .bind Tidy.update fun _ => .pure _

theorem poolFreeRx (d : Nat) : Keeps (Tidy g) (poolFreeRx d) :=
  .bind (.read _) fun sh => by
    cases sh.bind (·.allocBase) with
    | none => exact updateRx _
    | some a => exact .bind (freeRegion a) fun _ => updateRx _

theorem shrinkLocked (d : Nat) : Keeps (Tidy g) (shrinkLocked d) := .bind (poolFreeRx d) fun _ => updateRx _

theorem freePosted : ∀ ds, Keeps (Tidy g) (freePosted ds)
  | [] => .pure _
  | d :: ds => .bind (poolFreeRx d) fun _ => .bind (updateRx _) fun _ => freePosted ds

theorem detachPending (d : Nat) : Keeps (Tidy g) (detachPending d) :=
  .bind (.read _) fun c => .bind (.assert c) fun _ => updateRx _

theorem powerCheck : Keeps (Tidy g) powerCheck :=
  .bind (.read _) fun _ => .ite (.bind (updateDev _) fun _ => .pure _) (.pure _)

theorem growLocked : Keeps (Tidy g) growLocked :=
  .bind (.read _) fun _ => .ite (.pure _) <| .bind allocShadow fun _ => .ite (.pure _) <| .bind (updateRx _) fun _ =>
    .bind retain fun _ => .pure _

theorem updateThresholds : Keeps (Tidy g) updateThresholds :=
  .bind (.read _) fun _ => .ite
    (.bind (updateRx _) fun _ => .ite (.bind growLocked fun _ => .pure _) (.pure _))
    (updateRx _)

/-! ## The link machine, where no other agent steps -/

theorem chosen {x : Selection} (b : Bool) : Keeps (Tidy g) (choose x >>= fun _ => endWait >>= fun _ => pure b) :=
  .bind (updateLink _) fun _ => .bind (updateLink _) fun _ => .pure _

theorem setDefaults (m : MediaState) : Keeps (Tidy g) (setDefaults m) := Tidy.update
theorem takeLinkTimer : Keeps (Tidy g) takeLinkTimer := .bind (.read _) fun _ => .bind (updateLink _) fun _ => .pure _
theorem cancelLinkTimer : Keeps (Tidy g) cancelLinkTimer := .bind takeLinkTimer fun _ => .ite release (.pure _)

theorem recordResult : ∀ r, Keeps (Tidy g) (recordResult r)
  | none => .pure _
  | some _ => Tidy.update

end Tidy

/-! ## Taking and releasing a lock -/

/-- The running operation does not hold `l`. -/
def Ledger.Free (g : Ledger) (l : Lock) : Prop := g.locks.mine.has l = false

/-- The ledger with lock `l` held by the running operation. -/
def Ledger.holding (g : Ledger) (l : Lock) : Ledger := { g with locks := g.locks.put l true }

theorem Held.has_of_mayTake {m : Held} {l : Lock} (hm : m.mayTake l = true) : m.has l = false := by
  cases l <;> simp_all [Held.mayTake, Held.has]

/-- A lock that was free, taken and released. -/
theorem Locks.put_put {x : Locks} {l : Lock} (hf : x.mine.has l = false) : (x.put l true).put l false = x := by
  obtain ⟨⟨d, t, r, c⟩, o⟩ := x
  cases l <;> simp_all [Locks.put, Held.put, Held.has]

/-- A lock that is taken was free. -/
theorem Leads.locked {l : Lock} {f : Unit → Op α} {Q : α → State → Prop}
    (hf : g.Free l → Leads (Tidy (g.holding l)) (f ()) Q) : Leads (Tidy g) (lock l >>= f) Q := by
  intro s a u hs hr
  obtain ⟨_, t, h1, h2⟩ := Op.bind_eq_ok.1 hr
  obtain ⟨hm, _, rfl⟩ := lock_ok.1 h1
  have hfree : g.Free l := by
    rw [Ledger.Free, ← hs.locks]
    exact Held.has_of_mayTake hm
  have ht : Tidy (g.holding l) (s.mapLocks (fun x => x.put l true)) := { hs with locks := congrArg (·.put l true) hs.locks }
  exact hf hfree _ a u ht h2

/-- Releasing it leaves the locks as they were before it was taken. -/
theorem Leads.unlock {l : Lock} (hf : g.Free l) : Leads (Tidy (g.holding l)) (unlock l) (fun _ => Tidy g) :=
  .update fun _ hs => { hs with locks := (congrArg (·.put l false) hs.locks).trans (Locks.put_put hf) }

theorem Leads.unlocked {l : Lock} {f : Unit → Op α} {Q : α → State → Prop} (hf : g.Free l) (hq : Leads (Tidy g) (f ()) Q) :
    Leads (Tidy (g.holding l)) (Machine.unlock l >>= f) Q := .bind (.unlock hf) fun _ => hq

/-- An answer without a change. -/
theorem Leads.done {P : State → Prop} {a : α} : Leads P (Pure.pure a) (fun _ => P) := .pure fun _ => id

end Sys2Proof.Machine
end

