-- ==== Sys2Proof/Proofs/Steady.lean ====
section
/-!
PROOF. The operations inside which other agents step. Whatever a step inside does to the locks, the operation has its own back
after it; under a lock the ledger holds that lock; and an operation that lists itself as under way, or owes events, has put that
right when it ends, while what is inside it is followed with a ledger that allows it.
-/
namespace Sys2Proof.Machine

variable {α : Type} {g : Ledger} {h : Handler}

/-- The steps of other agents keep every ledger. -/
def Steady (h : Handler) : Prop := ∀ (g : Ledger) (e : Stimulus), Keeps (Tidy g) (h e)

/-- Events made until none is owed: `P n` allows `n` of them, other agents add none that they do not make, and each made is one
less. -/
theorem callbacksDue_leads {P : Nat → State → Prop} {next : Ports → Option (Event × Ports)}
    (hp : ∀ n, Keeps (P n) (point h)) (hc : ∀ n e, Keeps (P n) (callback h e))
    (hnone : ∀ n s, P n s → next s.ports = none → P 0 s)
    (hsome : ∀ n s e p, P (n + 1) s → next s.ports = some (e, p) → P n (s.mapPorts fun _ => p)) :
    ∀ n, Leads (P n) (callbacksDue h next n) (fun _ => P 0)
  | 0 => .done
  | n + 1 => (hp _).then fun _ => .read_bind fun
    | none => .pure fun s hs => hnone _ s hs.1 hs.2
    | some (e, p) => .bind (Q := fun _ => P n) (.update fun s hs => hsome n s e p hs.1 hs.2) fun _ =>
      (hc n e).then fun _ => callbacksDue_leads hp hc hnone hsome n

/-- Taking an event to make changes nothing else in the ports. -/
theorem nextCompletion_takes {p q : Ports} {e : Event} (hn : p.nextCompletion = some (e, q)) :
    ∃ rest, q = { p with completions := rest } := by
  unfold Ports.nextCompletion at hn
  split at hn <;> cases hn
  exact ⟨_, rfl⟩

theorem nextIndication_takes {p q : Ports} {e : Event} (hn : p.nextIndication = some (e, q)) :
    ∃ rest, q = { p with indications := rest } := by
  unfold Ports.nextIndication at hn
  split at hn <;> cases hn
  exact ⟨_, rfl⟩

namespace Steady
variable (hh : Steady h)
include hh

/-! ## Points and events -/

theorem intrude (e : Stimulus) : Keeps (Tidy g) (intrude h e) := by
  intro s a t hs hr
  rcases intrude_ok hr with ⟨u, hu, rfl⟩ | ⟨_, rfl⟩
  · have hin : Tidy { g with locks := s.locks.inside } (s.mapLocks Locks.inside) := { hs with locks := rfl }
    exact { hh _ e _ _ _ hin hu with locks := hs.locks }
  · exact hs.calm

theorem point : Keeps (Tidy g) (point h) :=
  .bind (.read _) fun
    | [] => .pure _
    | _ :: _ => .bind Tidy.update fun _ => .intrudeAll hh.intrude _

theorem host {m : Op α} (hm : Keeps (Tidy g) m) : Keeps (Tidy g) (host h m) := Keeps.host hh.point hm
theorem sync {m : Op α} (hm : Keeps (Tidy g) m) : Keeps (Tidy g) (sync h m) := Keeps.sync hh.point hm
theorem callback (e : Event) : Keeps (Tidy g) (callback h e) := Keeps.callback (Tidy.emit e) hh.point
theorem callbacks (es : List Event) : Keeps (Tidy g) (callbacks h es) := Keeps.callbacks Tidy.emit hh.point es

/-- All completions that are owed are made. -/
theorem completionsDue (n : Nat) : Leads (Tidy { g with completions := n }) (callbacksDue h Ports.nextCompletion n)
    (fun _ => Tidy g) := by
  refine .mono (callbacksDue_leads (P := fun n => Tidy { g with completions := n }) (fun _ => hh.point) (fun _ e => hh.callback e)
    ?none ?some n) (fun _ => id) fun _ s hs => hs.owing_mono (Nat.zero_le _) le_rfl
  case none => exact fun n s hs hn => { hs with completions := by simp [nextCompletion_drains.empty _ hn] }
  case some =>
    intro n s e p hs hn
    have hlen := nextCompletion_drains.shorter _ _ _ hn
    obtain ⟨rest, rfl⟩ := nextCompletion_takes hn
    exact { hs with completions := Nat.le_of_succ_le_succ (hlen.trans_le hs.completions) }

/-- All indications that are owed are made. -/
theorem indicationsDue (n : Nat) : Leads (Tidy { g with indications := n }) (callbacksDue h Ports.nextIndication n)
    (fun _ => Tidy g) := by
  refine .mono (callbacksDue_leads (P := fun n => Tidy { g with indications := n }) (fun _ => hh.point) (fun _ e => hh.callback e)
    ?none ?some n) (fun _ => id) fun _ s hs => hs.owing_mono le_rfl (Nat.zero_le _)
  case none => exact fun n s hs hn => { hs with indications := by simp [nextIndication_drains.empty _ hn] }
  case some =>
    intro n s e p hs hn
    have hlen := nextIndication_drains.shorter _ _ _ hn
    obtain ⟨rest, rfl⟩ := nextIndication_takes hn
    exact { hs with indications := Nat.le_of_succ_le_succ (hlen.trans_le hs.indications) }

/-! ## The coordinator -/

theorem waitAcceptLocked : ∀ n, Keeps (Tidy g) (waitAcceptLocked h n)
  | 0 => .bind (hh.host Tidy.errorEntry) fun _ => .pure _
  | n + 1 => .bind (hh.host (.regRead _)) fun _ => .ite (.pure _) <| .ite
    (.bind (hh.host Tidy.errorEntry) fun _ => .pure _) <| .bind hh.point fun _ => waitAcceptLocked n

theorem writeCommandLocked (code : Byte) (wait : Bool) (pointer : Word) :
    Keeps (Tidy g) (writeCommandLocked h code wait pointer) := by
  have written : Keeps (Tidy g) (Machine.host h (regWrite .command (code.setWidth 32)) >>= fun _ =>
      updateTx (fun t => { t with resumeWaitNeeded := code != codeCuResume }) >>= fun _ => pure Status.ok) :=
    .bind (hh.host (Tidy.regWrite _ _)) fun _ => .bind (Tidy.updateTx _) fun _ => .pure _
  refine .bind (.read _) fun _ => ?_
  refine .ite (.bind (hh.waitAcceptLocked _) ?rest) (.bind (.pure _) ?rest)
  exact fun _ => .bind (.read _) fun _ => .ite (.pure _) <| .ite
    (.bind (hh.host (Tidy.regWrite _ _)) fun _ => written) written

theorem issueLocked (code : Byte) (wait : Bool) (pointer : Word) : Keeps (Tidy g) (issueLocked h code wait pointer) :=
  .bind (.read _) fun _ => .ite (.pure _) (hh.writeCommandLocked code wait pointer)

theorem issueRequest (wait : Bool) (code : BitVec 7) (pointer : Word) : Keeps (Tidy g) (issueRequest h wait code pointer) :=
  .bind (.read _) fun _ => .ite (.pure _) <| .ite (.pure _) <| .ite (.pure _) <| .bind hh.point fun _ =>
    .bind (.read _) fun _ => .ite (.pure _) <| .bind hh.point fun _ => Leads.locked fun hf =>
      (hh.writeCommandLocked _ wait pointer).then fun _ => .unlocked hf .done

theorem waitRequest (budget : Word) : Keeps (Tidy g) (waitRequest h budget) :=
  .bind (.read _) fun _ => .ite (.pure _) <| .bind hh.point fun _ => Leads.locked fun hf =>
    (hh.waitAcceptLocked _).then fun _ => .unlocked hf .done

/-! ## The transmit side -/

theorem initDescriptors : ∀ is, Keeps (Tidy g) (initDescriptors h is)
  | [] => .pure _
  | i :: is => .bind (hh.host (Tidy.writeTdC i true)) fun _ => .bind (hh.host (Tidy.writeTdS i false)) fun _ =>
    .bind (.read _) fun _ => .bind (hh.host (Tidy.writeTdLink i _)) fun _ =>
      .bind (hh.host (Tidy.writeTdFragCount i 0)) fun _ => initDescriptors is

theorem poolInitTx : Keeps (Tidy g) (poolInitTx h) :=
  .bind (.read _) fun _ => .bind (hh.initDescriptors _) fun _ => .bind (.read _) fun _ => Tidy.updateTx _

theorem abortHeld : Keeps (Tidy g) (abortHeld h) := .bind (.read _) fun _ => .bind hh.poolInitTx fun _ => .pure _

theorem copyFragments : ∀ dst fs, Keeps (Tidy g) (copyFragments h dst fs)
  | _, [] => .pure _
  | dst, _ :: fs => .bind (hh.host (.memRead _ _)) fun _ => .bind (hh.host (Tidy.memWrite dst _)) fun _ =>
    copyFragments _ fs

theorem zeroPad : ∀ dst n, Keeps (Tidy g) (zeroPad h dst n)
  | _, 0 => .pure _
  | dst, n + 1 => .bind (hh.host (Tidy.memWrite dst _)) fun _ => zeroPad _ n

theorem coalesceInto (i : Nat) (p : Packet) : Keeps (Tidy g) (coalesceInto h i p) :=
  .bind (.read _) fun _ => .bind (.read _) fun _ => .bind (hh.copyFragments _ _) fun _ => hh.zeroPad _ _

theorem writeFragments (t : Nat) : ∀ k fs, Keeps (Tidy g) (writeFragments h t k fs)
  | _, [] => .pure _
  | k, _ :: fs => .bind (hh.host (Tidy.writeTdFragAddr t k _)) fun _ =>
    .bind (hh.host (Tidy.writeTdFragLen t k _)) fun _ => writeFragments t _ fs

theorem placeFill (t : Nat) (p : Packet) : Keeps (Tidy g) (placeFill h t p) :=
  .bind (.read _) fun _ => .ite
    (.bind (.read _) fun
      | [] => .pure _
      | i :: _ => .bind (Tidy.updateTx _) fun _ => .bind (hh.coalesceInto i p) fun _ => .bind (Tidy.updateTx _) fun _ =>
        .bind (hh.host (Tidy.writeTdFragCount t 1)) fun _ => .bind (.read _) fun _ => .bind (.read _) fun _ =>
          .bind (hh.host (Tidy.writeTdFragAddr t 0 _)) fun _ => .bind (hh.host (Tidy.writeTdFragLen t 0 _)) fun _ => .pure _)
    (.bind (hh.host (Tidy.writeTdFragCount t _)) fun _ => .bind (hh.writeFragments t 0 _) fun _ => .pure _)

theorem placeCommand (t : Nat) : Keeps (Tidy g) (placeCommand h t) := by
  refine .bind (.read _) fun _ => .ite
    (.bind (.read _) fun _ => .bind (hh.issueLocked _ _ _) fun _ => .ite (.pure _) <|
      .bind (Tidy.updateTx _) fun _ => .pure _)
    (.bind (.read _) fun _ => .bind (.read _) fun _ => ?_)
  refine .ite (.bind (hh.waitAcceptLocked _) ?resume) (.bind (.pure _) ?resume)
  exact fun _ => .ite (.pure _) <| .bind (.read _) fun _ => .bind (hh.host (Tidy.writeTdS _ false)) fun _ =>
    .bind (hh.issueLocked _ _ _) fun _ => .pure _

theorem placeIssue (t : Nat) : Keeps (Tidy g) (placeIssue h t) :=
  .bind hh.point fun _ => Leads.locked fun hf => (hh.placeCommand t).then fun _ => .unlocked hf .done

theorem rollback (t : Nat) : Keeps (Tidy g) (rollback h t) :=
  .bind (hh.host (Tidy.writeTdC t true)) fun _ => Tidy.updateTx _

theorem place (p : Packet) : Keeps (Tidy g) (place h p) := by
  refine .bind (.read _) fun t => .bind (hh.placeFill t p) fun _ => .ite (.pure _) <| .bind (Tidy.updateTx _) fun _ =>
    .bind (hh.host (Tidy.writeTdS t true)) fun _ => .bind (hh.host (.handOver (Tidy.writeTdC t false))) fun _ => ?_
  refine .ite (.bind (hh.placeIssue t) ?rest) (.bind (.pure _) ?rest)
  exact fun _ => .ite (.bind (hh.rollback t) fun _ => .pure _) <| .bind (Tidy.updateTx _) fun _ =>
    .bind Tidy.update fun _ => .pure _

theorem submitLocked (p : Packet) : Keeps (Tidy g) (submitLocked h p) :=
  .bind (.read _) fun _ => .ite (Tidy.enqueue p) <| .ite (.ite (.pure _) (Tidy.enqueue p)) <|
    .ite (Tidy.enqueue p) (hh.place p)

theorem submitAdmitted (handle : Word) : Keeps (Tidy g) (submitAdmitted h handle) :=
  .bind (.read _) fun s => by
    split
    · exact .pure _
    · exact .ite (.pure _) <| .bind hh.point fun _ => .bind (.read _) fun _ => .ite (.pure _) <| .bind hh.point fun _ =>
        Leads.locked fun hf => (hh.submitLocked _).then fun _ => .unlocked hf .done

/-- SUBMIT counts itself while it is under way. -/
theorem submit (handle : Word) : Keeps (Tidy g) (submit h handle) :=
  .bind (.read _) fun _ => .ite (.pure _) <|
    Leads.bind (Q := fun _ => Tidy { g with submits := g.submits + 1 })
      (.update fun _ hs => { hs with submits := Nat.succ_le_succ hs.submits }) fun _ =>
    (hh.submitAdmitted handle).then fun _ =>
    .bind (Q := fun _ => Tidy g) (.update fun _ hs => { hs with submits := Nat.sub_le_of_le_add hs.submits }) fun _ => .done

theorem drainLoop : ∀ n, Keeps (Tidy g) (drainLoop h n)
  | 0 => .pure _
  | n + 1 => .bind hh.point fun _ => .bind (.read _) fun s => .ite
    (by
      split
      · exact .pure _
      · exact .bind (hh.place _) fun _ => .ite (.bind (Tidy.updateTx _) fun _ => drainLoop n) <|
          .ite (.pure _) <| .bind (Tidy.updateTx _) fun _ => .pure _)
    (.pure _)

theorem drain : Keeps (Tidy g) (drain h) :=
  .bind (.read _) fun _ => .ite (.pure _) <| .bind hh.point fun _ => Leads.locked fun hf => (Keeps.read _).then fun _ =>
    (hh.drainLoop _).then fun _ => .unlocked hf <| (hh.callbacks _).then fun _ => .done

theorem reclaimLoop : ∀ n, Keeps (Tidy g) (reclaimLoop h n)
  | 0 => .pure _
  | n + 1 => .bind (.read _) fun i => .bind (.read _) fun _ => .ite
    (.bind (hh.host (.readTdC i)) fun _ => .ite
      (.bind (Tidy.retire i) fun _ => .bind (reclaimLoop n) fun _ => .pure _)
      (.pure _))
    (.pure _)

omit hh in
/-- RECLAIM enters what it has retired, and counts what is owed then. -/
theorem owe_completions {done : List Packet} {f : Nat → Op α} {Q : α → State → Prop}
    (hf : ∀ n, Leads (Tidy { g with completions := n }) (f n) Q) :
    Leads (Tidy g) (updatePorts (fun p => { p with completions := p.completions ++ done }) >>= fun _ =>
      read (fun s => s.ports.completions.length) >>= f) Q :=
  .update_bind <| .read_bind fun n => .pre (hf n) <| by
    rintro _ ⟨⟨s, hs, rfl⟩, rfl⟩
    exact { hs with completions := le_rfl }

theorem reclaim : Keeps (Tidy g) (reclaim h) :=
  .bind (.read _) fun _ => .ite (.pure _) <| .bind hh.point fun _ => Leads.locked fun hf => (Keeps.read _).then fun _ =>
    (hh.reclaimLoop _).then fun _ => owe_completions fun n => .unlocked (g := { g with completions := n }) hf <|
    .bind (hh.completionsDue n) fun _ => hh.point.then fun _ => hh.drain.then fun _ => .done

theorem cancel (tag : Word) : Keeps (Tidy g) (cancel h tag) :=
  .bind (.read _) fun _ => .ite (.pure _) <| .bind hh.point fun _ => Leads.locked fun hf => (Keeps.read _).then fun _ =>
    (Tidy.updateTx _).then fun _ => .unlocked hf <| (hh.callbacks _).then fun _ => .done

/-! ## The receive side -/

theorem poolAllocRx (d a : Nat) : Keeps (Tidy g) (poolAllocRx h d a) :=
  .bind (.read _) fun _ => .bind (Tidy.updateRx _) fun _ => .bind (hh.host (Tidy.writeRdStatus d _ _)) fun _ =>
    .bind (hh.host (Tidy.writeRdEL d _)) fun _ => .bind (hh.host (Tidy.writeRdLink d _)) fun _ =>
    .bind (hh.host (Tidy.writeRdPayloadPtr d _)) fun _ => .bind (hh.host (Tidy.writeRdCount d _ _)) fun _ =>
    hh.host (Tidy.writeRdCapacity d _)

theorem openGate (q a : Nat) : Keeps (Tidy g) (openGate h q a) :=
  .bind (hh.host (Tidy.writeRdLink q _)) fun _ => hh.host (Tidy.writeRdEL q false)

theorem recycleLocked (d : Nat) : Keeps (Tidy g) (recycleLocked h d) :=
  .bind (hh.host (Tidy.writeRdCount d _ _)) fun _ => .bind (hh.host (Tidy.writeRdEL d _)) fun _ =>
    .bind (hh.host (Tidy.writeRdLink d _)) fun _ => .bind (hh.host (Tidy.writeRdStatus d _ _)) fun _ =>
    .bind (.read _) fun last => .bind (.rdAddrOf d) fun a => by
      cases last with
      | none => exact Tidy.updateRx _
      | some q => exact .bind (hh.openGate q a) fun _ => Tidy.updateRx _

theorem powerSignal (due : Bool) : Keeps (Tidy g) (powerSignal h due) := .ite (hh.callbacks _) (.pure _)

/-- The end of an operation that has returned a descriptor. -/
theorem returned (hf : g.Free .rx) : Leads (Tidy (g.holding .rx)) (powerCheck >>= fun due => unlock .rx >>= fun _ =>
    Machine.powerSignal h due >>= fun _ => pure Status.ok) (fun _ => Tidy g) :=
  Tidy.powerCheck.then fun due => .unlocked hf <| (hh.powerSignal due).then fun _ => .done

theorem recycle (d : Nat) : Keeps (Tidy g) (recycle h d) :=
  .bind (.read _) fun _ => .ite (.pure _) <| .bind hh.point fun _ => Leads.locked fun hf =>
    (Tidy.detachPending d).then fun _ => (hh.recycleLocked d).then fun _ => hh.returned hf

theorem rxReturn (d : Nat) : Keeps (Tidy g) (rxReturn h d) :=
  .bind (.read _) fun _ => .ite (.pure _) <| .bind hh.point fun _ => Leads.locked fun hf =>
    (Tidy.detachPending d).then fun _ => (Keeps.read _).then fun _ =>
    .either ((Tidy.shrinkLocked d).then fun _ => hh.returned hf) ((hh.recycleLocked d).then fun _ => hh.returned hf)

theorem shrink (d : Nat) : Keeps (Tidy g) (shrink h d) :=
  .bind (.read _) fun _ => .ite (.pure _) <| .bind hh.point fun _ => Leads.locked fun hf => (Keeps.read _).then fun _ =>
    .either (.unlocked hf .done) <|
    (Tidy.detachPending d).then fun _ => (Tidy.shrinkLocked d).then fun _ => hh.returned hf

theorem grow : Keeps (Tidy g) (grow h) :=
  .bind (.read _) fun _ => .ite (.pure _) <| .bind hh.point fun _ => Leads.locked fun hf =>
    Tidy.growLocked.then fun _ => .unlocked hf .done

/-- The end of GROW_COMPLETE. -/
theorem growCompleted (hf : g.Free .rx) : Leads (Tidy (g.holding .rx)) (do
    updateRx (fun r => { r with allocState := .idle })
    unlock .rx
    Machine.point h
    release
    pure Status.ok) (fun _ => Tidy g) :=
  (Tidy.updateRx _).then fun _ => .unlocked hf <| hh.point.then fun _ => Tidy.release.then fun _ => .done

theorem growComplete (ok : Bool) (a : Nat) : Keeps (Tidy g) (growComplete h ok a) := by
  refine .bind (.read _) fun _ => .ite (.pure _) <| .bind hh.point fun _ => Leads.locked fun hf =>
    (Keeps.read _).then fun s => ?_
  split
  · exact .fault
  · rename_i d _
    have finish := hh.growCompleted hf
    have dropped := (Tidy.updateRx (g := g.holding .rx) (fun x => x.dropShadow d)).then fun _ => finish
    refine .either ((Tidy.takeRegion a).then ?rest) (?rest ())
    exact fun _ => .either
      ((hh.poolAllocRx d a).then fun _ => (Tidy.updateRx _).then fun _ => (hh.recycleLocked d).then fun _ => finish)
      (.either ((Tidy.freeRegion a).then fun _ => dropped) dropped)

theorem gatherFrames : ∀ batch, Keeps (Tidy g) (gatherFrames h batch)
  | [] => .pure _
  | (d, _) :: rest => .bind (hh.host (.readRdPayloadPtr d)) fun _ => .bind (.read _) fun _ =>
    .bind (hh.host (.memRead _ _)) fun _ => .bind (gatherFrames rest) fun _ => .pure _

theorem recycleLow : ∀ batch, Keeps (Tidy g) (recycleLow h batch)
  | [] => .pure _
  | (d, _) :: rest => .ite (.bind (hh.recycleLocked d) fun _ => recycleLow rest) (recycleLow rest)

omit hh in
/-- FLUSH enters the batch it has gathered, and counts what is owed then. -/
theorem owe_indications {frames : List IndicatedFrame} {f : Nat → Op α} {Q : α → State → Prop}
    (hf : ∀ n, Leads (Tidy { g with indications := n }) (f n) Q) :
    Leads (Tidy g) (updatePorts (fun p => { p with indications := p.indications ++ [frames] }) >>= fun _ =>
      read (fun s => s.ports.indications.length) >>= f) Q :=
  .update_bind <| .read_bind fun n => .pre (hf n) <| by
    rintro _ ⟨⟨s, hs, rfl⟩, rfl⟩
    exact { hs with indications := le_rfl }

/-- FLUSH releases the lock it is called under, and takes it again. -/
theorem flush (hf : g.Free .rx) (batch : List (Nat × Bool)) : Keeps (Tidy (g.holding .rx)) (flush h batch) :=
  .bind (hh.gatherFrames batch) fun _ => owe_indications fun n => .unlocked (g := { g with indications := n }) hf <|
    .bind (hh.indicationsDue n) fun _ => .locked fun _ => hh.recycleLow batch

theorem readCompleted (d : Nat) : Keeps (Tidy g) (readCompleted h d) :=
  .bind (hh.host (.readRdC d)) fun _ => .ite (hh.host (.readRdV d)) (.pure _)

theorem dispose (d : Nat) : Keeps (Tidy g) (dispose h d) :=
  .bind (hh.host (.readRdCount d)) fun _ => .bind (Tidy.updateRx _) fun _ => .bind (hh.host (.readRdOK d)) fun _ =>
    .bind (hh.host (.read _)) fun _ => .bind (.read _) fun _ => .ite (.bind (hh.recycleLocked d) fun _ => .pure _) <|
    .ite (.bind (Tidy.updateRx _) fun _ => .pure _) (.bind (Tidy.updateRx _) fun _ => .pure _)

theorem flushFull (hf : g.Free .rx) (batch : List (Nat × Bool)) : Keeps (Tidy (g.holding .rx)) (flushFull h batch) :=
  .bind (.read _) fun _ => .ite (.bind (hh.flush hf batch) fun _ => .pure _) (.pure _)

theorem harvestLoop (hf : g.Free .rx) : ∀ n batch, Keeps (Tidy (g.holding .rx)) (harvestLoop h n batch)
  | 0, _ => .pure _
  | n + 1, _ => .bind (.read _) fun
    | [] => .pure _
    | d :: _ => .bind (hh.readCompleted d) fun _ => .ite
      (.bind (Tidy.updateRx _) fun _ => .bind (hh.dispose d) fun _ => .bind (hh.flushFull hf _) fun _ =>
        harvestLoop hf n _)
      (.pure _)

theorem harvest : Keeps (Tidy g) (harvest h) := by
  refine .bind (.read _) fun _ => .ite (.pure _) <| .bind hh.point fun _ => Leads.locked fun hf =>
    (Keeps.read _).then fun n => (hh.harvestLoop hf n []).then fun batch => ?_
  refine .either ((hh.flush hf batch).then ?rest) (?rest ())
  exact fun _ => Tidy.updateThresholds.then fun _ => .unlocked hf .done

theorem firstUntouched : ∀ ds, Keeps (Tidy g) (firstUntouched h ds)
  | [] => .pure _
  | d :: ds => .bind (hh.host (.readRdC d)) fun _ => .ite (firstUntouched ds) <|
    .bind (hh.host (.readRdV d)) fun _ => .ite (firstUntouched ds) (.pure _)

theorem startAt (hf : g.Free .rx) : ∀ found, Leads (Tidy (g.holding .rx)) (startAt h found) (fun _ => Tidy g)
  | none => .unlocked hf .done
  | some d => (Keeps.rdAddrOf d).then fun _ => hh.point.then fun _ => .locked fun hc => (hh.issueLocked _ _ _).then fun _ =>
    .unlocked hc <| .unlocked hf .done

theorem ensureStarted : Keeps (Tidy g) (ensureStarted h) :=
  .bind (.read _) fun _ => .ite (.pure _) <| .bind hh.point fun _ => .bind (.read _) fun _ => .ite (.pure _) <|
    .bind (hh.host (.regRead _)) fun _ => .ite (.pure _) <| .bind hh.point fun _ => Leads.locked fun hf =>
    (Keeps.read _).then fun _ => (hh.firstUntouched _).then fun _ => .either
      (.unlocked hf <| hh.point.then fun _ => hh.harvest.then fun _ => hh.point.then fun _ => .locked fun hf' =>
        (Keeps.read _).then fun _ => (hh.firstUntouched _).then fun _ => hh.startAt hf' _)
      (hh.startAt hf _)

/-! ## The link machine -/

theorem phyProbe (a : PhyAddress) : Keeps (Tidy g) (phyProbe h a) := .bind (hh.host (.regRead _)) fun _ => .pure _

theorem linkStart : Keeps (Tidy g) (linkStart h) :=
  .bind (.read _) fun _ => .ite (.pure _) <| .bind hh.point fun _ => Leads.locked fun hf => (Keeps.read _).then fun _ =>
    .either (.unlocked hf .done) <| Keeps.then Tidy.update fun _ => Tidy.retain.then fun _ => .unlocked hf .done

theorem scan : ∀ as, Keeps (Tidy g) (scan h as)
  | [] => .bind (.read _) fun _ => .bind (Tidy.updateLink _) fun _ => .pure _
  | a :: as => .bind (hh.phyProbe a) fun _ => .ite (.bind (Tidy.updateLink _) fun _ => scan as) <| .ite
    (.bind (Tidy.updateLink _) fun _ => .pure _)
    (.bind (.read _) fun _ => .bind (Tidy.updateLink _) fun _ => .pure _)

theorem waitStep : Keeps (Tidy g) (waitStep h) :=
  .bind (.read _) fun
    | none => .fault _
    | some a => .bind (hh.phyProbe a) fun _ => .ite (Tidy.chosen _)
      (.bind (Tidy.updateLink _) fun _ => .bind (.read _) fun _ => .ite (.bind (.read _) fun _ => Tidy.chosen _) (.pure _))

theorem linkAdvance : Keeps (Tidy g) (linkAdvance h) :=
  .bind (.read _) fun s => by
    split
    · exact hh.scan _
    · exact hh.waitStep
    · exact .pure _
    · exact .fault _
    · exact .fault _

theorem configure : Keeps (Tidy g) (configure h) :=
  .bind (.read _) fun
    | .addr a => .bind (hh.phyProbe a) fun _ => .ite (hh.host (Tidy.updateLink _)) (hh.host (Tidy.setDefaults _))
    | .connector _ => Tidy.setDefaults _
    | .alternateWiring => Tidy.setDefaults _
    | .none => .fault _

theorem valueOf : ∀ prop, Keeps (Tidy g) (valueOf h prop)
  | .linkSpeed => .read _
  | .mediaState => .bind (.read _) fun _ => .bind (hh.host (.read _)) fun _ => .bind (hh.host (.read _)) fun _ => .pure _

theorem getProperty (q : Word) (prop : Property) : Keeps (Tidy g) (getProperty h q prop) :=
  .bind (.read _) fun _ => .ite (.pure _) <| .bind hh.point fun _ => Leads.locked fun hf => (Keeps.read _).then fun _ =>
    .either ((Tidy.updateLink _).then fun _ => .unlocked hf .done) <|
    (hh.valueOf prop).then fun _ => .unlocked hf <| (hh.callbacks _).then fun _ => .done

theorem setFilter (mask : Word) : Keeps (Tidy g) (setFilter h mask) :=
  .bind (.read _) fun _ => .ite (.pure _) <| .bind hh.point fun _ => Leads.locked fun hf => (Keeps.read _).then fun _ =>
    .either ((Tidy.updateLink _).then fun _ => .unlocked hf .done) ((Tidy.updateDev _).then fun _ => .unlocked hf .done)

theorem setMcast (handle : Word) : Keeps (Tidy g) (setMcast h handle) :=
  .bind (.read _) fun _ => .bind (.read _) fun found => .ite (.pure _) <| match found with
    | none => .pure _
    | some _ => .bind hh.point fun _ => Leads.locked fun hf => (Keeps.read _).then fun _ =>
      .either ((Tidy.updateLink _).then fun _ => .unlocked hf .done) ((Tidy.updateDev _).then fun _ => .unlocked hf .done)

theorem reprobe : Keeps (Tidy g) (reprobe h) :=
  .bind (.read _) fun
    | .addr a => .bind (hh.phyProbe a) fun _ => .bind (.read _) fun _ => .ite
      (.bind (hh.host (Tidy.updateLink _)) fun _ => .pure _)
      (.bind (hh.host (Tidy.updateLink _)) fun _ => .pure _)
    | .connector _ => .pure _
    | .alternateWiring => .pure _
    | .none => .pure _

theorem completeReads : ∀ reads, Keeps (Tidy g) (completeReads h reads)
  | [] => .pure _
  | (_, prop) :: rest => .bind hh.point fun _ => .bind (hh.valueOf prop) fun _ => .bind (hh.callbacks _) fun _ =>
    completeReads rest

end Steady

end Sys2Proof.Machine
end

