-- ==== Sys2Proof/Proofs/Release.lean ====
section
/-!
PROOF. The control of the device, every request, every step. Each keeps every ledger; so a step keeps memory canonical (R70, R73)
and leaves nothing open that was not (R85, R86, R279).
-/
namespace Sys2Proof.Machine

variable {α : Type} {g : Ledger} {h : Handler}

namespace Steady
variable (hh : Steady h)
include hh

theorem setMask (v : Word) : Keeps (Tidy g) (setMask h v) := hh.sync (Tidy.regWrite v _)
theorem armHealthTimer : Keeps (Tidy g) (armHealthTimer h) := .bind hh.point fun _ => Tidy.updateDev _

/-! ## START -/

theorem clearFragments (i : Nat) : ∀ ks, Keeps (Tidy g) (clearFragments h i ks)
  | [] => .pure _
  | k :: ks => .bind (hh.host (Tidy.writeTdFragAddr i k 0)) fun _ =>
    .bind (hh.host (Tidy.writeTdFragLen i k 0)) fun _ => clearFragments i ks

theorem clearSlots : ∀ is, Keeps (Tidy g) (clearSlots h is)
  | [] => .pure _
  | i :: is => .bind (hh.host (Tidy.writeTdReserved i)) fun _ => .bind (.read _) fun _ =>
    .bind (hh.clearFragments i _) fun _ => clearSlots is

theorem startVariables (base : Nat) (bufs : List Nat) : Keeps (Tidy g) (startVariables h base bufs) :=
  .bind Tidy.update fun _ => .bind (.read _) fun _ => hh.clearSlots _

theorem startReceive : ∀ k bases, Keeps (Tidy g) (startReceive h k bases)
  | _, [] => .pure _
  | k, a :: rest => .bind (hh.poolAllocRx k a) fun _ => .bind (Tidy.updateRx _) fun _ => .bind (hh.recycleLocked k) fun _ =>
    startReceive (k + 1) rest

/-- START is under way from its full reset to `Running`. -/
theorem startInitialise (base : Nat) (bufs regions : List Nat) : Keeps (Tidy g) (startInitialise h base bufs regions) :=
  Leads.bind (Q := fun _ => Tidy { g with starting := true }) (.update fun _ hs => { hs with starting := fun _ => rfl }) fun _ =>
    (hh.host (Tidy.regWrite _ _)).then fun _ => (hh.startVariables base bufs).then fun _ => hh.point.then fun _ =>
    .locked fun hf => hh.poolInitTx.then fun _ => .unlocked hf <| hh.point.then fun _ => (Tidy.updateTx _).then fun _ =>
    hh.point.then fun _ => .locked fun hf => (hh.startReceive 0 regions).then fun _ => .unlocked hf <|
    hh.point.then fun _ => (Tidy.updateDev _).then fun _ => .update fun _ hs => { hs with starting := nofun }

theorem start : Keeps (Tidy g) (start h) :=
  .bind (.read _) fun _ => .ite .blocked <| .ite (.pure _) <| .bind Tidy.startAllocate fun
    | none => .bind Tidy.update fun _ => .pure _
    | some (base, bufs, regions) => .bind (hh.startInitialise base bufs regions) fun _ => .bind hh.point fun _ =>
      .bind hh.linkStart fun _ => .bind hh.point fun _ => .bind hh.ensureStarted fun _ => .bind (hh.setMask 0) fun _ =>
      .bind hh.armHealthTimer fun _ => .pure _

/-! ## RESET -/

theorem resetFailed : Keeps (Tidy g) (resetFailed h) :=
  Leads.locked fun hf => (Tidy.updateDev _).then fun _ => (Keeps.read _).then fun _ => .either (.unlocked hf .done) <|
    (Tidy.updateDev _).then fun _ => .unlocked hf <| hh.point.then fun _ => (Tidy.updateDev _).then fun _ =>
    (hh.host Tidy.cancelLinkTimer).then fun _ => .done

theorem rearmPosted : ∀ ds, Keeps (Tidy g) (rearmPosted h ds)
  | [] => .pure _
  | d :: ds => .bind (hh.host (Tidy.writeRdCount d 0 false)) fun _ =>
    .bind (hh.host (Tidy.writeRdStatus d false false)) fun _ => rearmPosted ds

/-- RESET's part under the locks, the first of which is its caller's. -/
theorem resetRings (hd : g.Free .dev) : Leads (Tidy (g.holding .dev)) (resetRings h) (fun _ => Tidy g) :=
  (hh.setMask 1).then fun _ => hh.point.then fun _ => .locked fun ht => hh.point.then fun _ => .locked fun hr =>
    (hh.host (Tidy.regWrite _ _)).then fun _ => hh.point.then fun _ => Tidy.errorReturn.then fun _ => hh.abortHeld.then fun _ =>
    hh.point.then fun _ => .locked fun hc => (Tidy.updateTx _).then fun _ => .unlocked hc <| (Keeps.read _).then fun _ =>
    (hh.rearmPosted _).then fun _ => .unlocked hr <| .unlocked ht <| .unlocked hd .done

theorem resetRestart : Keeps (Tidy g) (resetRestart h) :=
  .bind hh.ensureStarted fun _ => .ite
    (.bind hh.point fun _ => .bind (.read _) fun _ => Leads.locked fun hf => (hh.waitAcceptLocked _).then fun _ =>
      .unlocked hf .done)
    (.pure _)

theorem reset : Keeps (Tidy g) (reset h) :=
  .bind (.read _) fun _ => .ite (.pure _) <| .ite (.pure _) <| .bind hh.point fun _ => Leads.locked fun hf =>
    (Keeps.read _).then fun _ => .either ((Tidy.updateLink _).then fun _ => .unlocked hf .done) <|
    .bind (hh.resetRings hf) fun _ => (hh.callbacks _).then fun _ => hh.point.then fun _ => hh.resetRestart.then fun _ =>
    hh.point.then fun _ => .either hh.resetFailed <| .locked fun hf => (Tidy.updateDev _).then fun _ => .unlocked hf <|
    (hh.setMask 0).then fun _ => hh.point.then fun _ => hh.linkStart.then fun _ => .done

/-! ## TEARDOWN -/

/-- TEARDOWN's first transition is under way until its requester waits. -/
theorem teardown : Keeps (Tidy g) (teardown h) := by
  refine .bind (.read _) fun _ => .ite (.pure _) <| Leads.bind (Q := fun _ => Tidy { g with ending := true })
    (.update fun _ hs => { hs with ending := fun _ => rfl }) fun _ => hh.point.then fun _ => .locked fun hf =>
    (Tidy.updateDev _).then fun _ => .unlocked hf <| hh.point.then fun _ => (hh.setMask 1).then fun _ =>
    hh.point.then fun _ => (Tidy.updateDev _).then fun _ => hh.point.then fun _ => (Keeps.read _).then fun _ => ?_
  refine .either ((hh.host Tidy.cancelLinkTimer).then ?rest) (?rest ())
  exact fun _ => (hh.host (Tidy.regWrite _ _)).then fun _ => hh.point.then fun _ => .locked fun hd => hh.point.then fun _ =>
    .locked fun ht => hh.abortHeld.then fun _ => (Keeps.read _).then fun _ => (Tidy.updateLink _).then fun _ =>
    .unlocked ht <| .unlocked hd <| (hh.callbacks _).then fun _ => (hh.callbacks _).then fun _ =>
    .bind (Q := fun _ => Tidy g) (.update fun _ hs => { hs with ending := nofun }) fun _ => .done

theorem abortLate : Keeps (Tidy g) (abortLate h) :=
  .bind (.read _) fun _ => .ite
    (.bind hh.point fun _ => Leads.locked fun hd => hh.point.then fun _ => .locked fun ht => hh.abortHeld.then fun _ =>
      .unlocked ht <| .unlocked hd (hh.callbacks _))
    (.pure _)

omit hh in
theorem teardownFree : Keeps (Tidy g) teardownFree :=
  .bind (.read _) fun _ => .bind (.assert _) fun _ => Leads.locked fun hf => (Tidy.freePosted _).then fun _ =>
    (Tidy.updateRx _).then fun _ => .unlocked hf <|
    .bind (Q := fun _ => Tidy g) (.update fun _ hs => { hs with ending := nofun }) fun _ => (Tidy.updateDev _).then fun _ =>
    Tidy.update

theorem teardownFinish : Keeps (Tidy g) (teardownFinish h) :=
  .bind (.read _) fun _ => .ite (.bind hh.abortLate fun _ => .bind (.read _) fun _ => .ite teardownFree (.pure _)) (.pure _)

/-! ## HEALTH_CHECK -/

theorem hangCheck : Keeps (Tidy g) (hangCheck h) :=
  .bind (.read _) fun _ => .ite
    (.bind (hh.host (.readTdC _)) fun _ => .ite (.pure _) <| .bind (Tidy.updateTx _) fun _ => .read _)
    (.pure _)

theorem healthBody : Keeps (Tidy g) (healthBody h) := by
  have restart : Keeps (Tidy g) (Machine.ensureStarted h >>= fun _ => Pure.pure Status.ok) :=
    .bind hh.ensureStarted fun _ => .pure _
  exact .bind (.read _) fun _ => .bind hh.point fun _ => .ite hh.reset <| Leads.locked fun ht => hh.hangCheck.then fun _ =>
    .unlocked ht <| hh.point.then fun _ => .either hh.reset <| .locked fun hd => hh.reprobe.then fun _ => .unlocked hd <|
    hh.point.then fun _ => .either (hh.drain.then fun _ => hh.point.then fun _ => restart) restart

theorem healthCheck : Keeps (Tidy g) (healthCheck h) :=
  .bind (.read _) fun _ => .ite (.pure _) <| .bind hh.point fun _ => .bind (Tidy.updateDev _) fun _ => .bind hh.point fun _ =>
    .bind (.read _) fun _ => .ite (.pure _) <| .bind hh.point fun _ => .bind (.read _) fun _ => .ite
    (.bind hh.armHealthTimer fun _ => .pure _) <| .bind hh.point fun _ => .bind hh.healthBody fun _ => .bind hh.point fun _ =>
    .bind (.read _) fun _ => .ite (.bind hh.armHealthTimer fun _ => .pure _) (.pure _)

/-! ## INTERRUPT, the mask, power -/

theorem serve : Keeps (Tidy g) (serve h) :=
  .bind (hh.host (.regRead _)) fun _ => .bind (hh.host (.regRead _)) fun _ => .ite (.pure _) <|
    .bind (hh.host (Tidy.regWrite _ _)) fun _ => .bind hh.point fun _ => .bind hh.reclaim fun _ => .bind hh.point fun _ =>
    .bind hh.harvest fun _ => .bind hh.point fun _ => .bind hh.ensureStarted fun _ => .pure _

/-- INTERRUPT is under way while it serves. -/
theorem interrupt : Keeps (Tidy g) (interrupt h) :=
  .bind (.read _) fun _ => .bind (.read _) fun _ => .ite .blocked <| .ite (.pure _) <|
    Leads.bind (Q := fun _ => Tidy { g with serving := true }) (.update fun _ hs => { hs with serving := fun _ => rfl }) fun _ =>
    hh.serve.then fun _ => .bind (Q := fun _ => Tidy g) (.update fun _ hs => { hs with serving := nofun }) fun _ => .done

theorem maskRequest (v : Word) : Keeps (Tidy g) (maskRequest h v) :=
  .bind (.read _) fun _ => .ite (.pure _) <| .bind hh.point fun _ => .bind (hh.setMask v) fun _ => .pure _

theorem setPower (target : PowerState) : Keeps (Tidy g) (setPower h target) :=
  .bind (.read _) fun _ => .ite (.pure _) <| .bind hh.point fun _ => Leads.locked fun hd => hh.point.then fun _ =>
    .locked fun hr => (Tidy.updateDev _).then fun _ => match target with
    | .fullyPowered => (Tidy.updateDev _).then fun _ => .unlocked hr <| .unlocked hd .done
    | .lowPower => (Keeps.read _).then fun _ => .either
      ((Tidy.updateDev _).then fun _ => .unlocked hr <| .unlocked hd .done)
      (.unlocked hr <| .unlocked hd <| (hh.callbacks _).then fun _ => .done)

/-! ## LINK_TICK -/

theorem releaseDeferred : Keeps (Tidy g) (releaseDeferred h) :=
  .bind Tidy.release fun _ => .bind hh.point fun _ => Leads.locked fun hf => (Keeps.read _).then fun _ =>
    Keeps.then Tidy.update fun _ => .unlocked hf <| (hh.completeReads _).then fun _ => hh.point.then fun _ =>
    .either (hh.reset.then fun _ => .done) (hh.drain.then fun _ => .done)

theorem linkStep : Keeps (Tidy g) (linkStep h) :=
  .bind hh.point fun _ => Leads.locked fun hf => hh.linkAdvance.then fun _ => .either
    ((Tidy.updateLink _).then fun _ => .unlocked hf .done)
    (hh.configure.then fun _ => (Tidy.updateLink _).then fun _ => .unlocked hf <| hh.point.then fun _ =>
      hh.releaseDeferred.then fun _ => .done)

theorem linkTick : Keeps (Tidy g) (linkTick h) :=
  .bind (.read _) fun _ => .ite (.pure _) <| .bind (hh.host Tidy.takeLinkTimer) fun _ => .ite hh.linkStep (.pure _)

/-! ## Every request and every step -/

theorem perform : ∀ i, Keeps (Tidy g) (perform h i)
  | .start => .map _ hh.start
  | .teardown => hh.teardown
  | .reset => .map _ hh.reset
  | .healthCheck => .map _ hh.healthCheck
  | .interrupt => .map _ hh.interrupt
  | .intEnable => .map _ (hh.maskRequest 0)
  | .intDisable => .map _ (hh.maskRequest 1)
  | .setPower target => .map _ (hh.setPower target)
  | .submit handle => .map _ (hh.submit handle)
  | .reclaim => .map _ hh.reclaim
  | .cancel tag => .map _ (hh.cancel tag)
  | .drain => .map _ hh.drain
  | .harvest => .map _ hh.harvest
  | .recycle _ => .map _ (hh.recycle _)
  | .ensureStarted => .map _ hh.ensureStarted
  | .grow => .map _ hh.grow
  | .growComplete ok _ => .map _ (hh.growComplete ok _)
  | .rxReturn _ => .map _ (hh.rxReturn _)
  | .shrink _ => .map _ (hh.shrink _)
  | .issueCommand wait code pointer => .map _ (hh.issueRequest wait code pointer)
  | .waitAccept budget => .map _ (hh.waitRequest budget)
  | .linkStart => .map _ hh.linkStart
  | .linkTick => .map _ hh.linkTick
  | .getLinkSpeed q => .map _ (hh.getProperty q _)
  | .getMediaState q => .map _ (hh.getProperty q _)
  | .setFilter mask => .map _ (hh.setFilter mask)
  | .setMcast l => .map _ (hh.setMcast l)
  | .cuStart => .map _ Tidy.acceptCuStart
  | .cuResume => .map _ Tidy.acceptCuResume
  | .ruStart => .map _ Tidy.acceptRuStart
  | .selectiveReset => .map _ Tidy.selectiveReset
  | .fullReset => .map _ Tidy.fullReset

theorem request (w : RequestWord) : Keeps (Tidy g) (request h w) := by
  unfold Machine.request
  split
  · exact Tidy.recordResult _
  · exact .bind (hh.perform _) fun _ => Tidy.recordResult _

theorem occur : ∀ e, Keeps (Tidy g) (occur h e)
  | .request w => hh.request w
  | .device d => Tidy.deviceStep d
  | .registerWrite o v => Tidy.regWriteAt o v
  | .teardownFinish => hh.teardownFinish
  | .memoryWrite a bytes => Tidy.memWrite a bytes
  | .providePacket _ => Tidy.update
  | .provideMcastList _ _ => Tidy.update
  | .allocatorReply _ => Tidy.update
  | .lookasideReply _ => Tidy.update

end Steady

/-- The steps of other agents keep every ledger at every depth. -/
theorem steady_reenter (n : Nat) : Steady (reenter n) :=
  reenter_induction (Q := Steady) (fun _ _ => .blocked) (fun _ hh _ => hh.occur) n

/-- An instruction that answers is as tidy as its operation. -/
theorem Tidy.exec {i : Instr} {s t : State} (hs : Tidy g s) (hr : exec i s = .next t) : Tidy g t := by
  have hp : Keeps (Tidy g) (perform (handlerOf s) i) := (steady_reenter _).perform i
  rcases exec_eq i s with ⟨m, he, hm⟩ | ⟨m, he, hm⟩ | ⟨m, he, hm⟩ <;> rw [he] at hr <;> rw [hm] at hp
  · obtain ⟨st, u, hu, rfl⟩ := answer_eq_next.1 hr
    exact (hp s _ u hs (Op.map_eq_ok.2 ⟨st, hu, rfl⟩)).calm
  · obtain ⟨st, u, hu, rfl⟩ := answerLater_eq_next.1 hr
    exact (hp s _ u hs hu).calm
  · exact hp s _ t hs (Op.map_eq_ok.2 ⟨(), outcome_eq_next.1 hr, rfl⟩)

/-- A step keeps every ledger. -/
theorem Tidy.step {s t : State} (hs : Tidy g s) (hr : step s = .next t) : Tidy g t := by
  have ha : Tidy g s.advance := hs.calm
  unfold Machine.step at hr
  split at hr
  · rename_i p _
    split at hr
    · exact ha.exec hr
    · cases p with
      | request w =>
        cases hr
        exact ha.calm
      | command w => cases hr
      | port w => cases hr
  · split at hr
    · cases hr
      exact hs
    · exact (steady_reenter _).occur _ _ _ t ha (outcome_eq_next.1 hr)

/-- Settles O6: every write of memory keeps the canonical form, and a step keeps the ledger of its state with it. -/
theorem stepKeepsMemoryCanonical : Obligations.StepKeepsMemoryCanonical := fun _ _ hs hr =>
  ((State.tidy_ledger hs).step hr).canonical rfl

/-- Settles O10: a step keeps the ledger in which nothing stands open. -/
theorem stepReleasesEveryLock : Obligations.StepReleasesEveryLock := fun s t hs hr =>
  t.settled_iff_tidy.2 ((s.settled_iff_tidy.1 hs).step hr)

end Sys2Proof.Machine
end

