-- ==== Sys2Proof/Proofs/Codec.lean ====
section
/-!
PROOF. Encoder and decoder agree (spec/30_encoding.md R101 to R105, R112): what an instruction is encoded as is decoded as that
instruction, and nothing else decodes.
-/
namespace Sys2Proof

/-! ## From the encoder to the decoder -/

/-- A word built from its fields is decoded by its fields. -/
theorem decodeRequest_requestOf (op sub : Byte) (arg : Word) :
    decodeRequest (requestOf op sub arg) = decodeFields op sub arg := by
  simp [decodeRequest]

@[simp] theorem issueSub_wait (wait : Bool) (code : BitVec 7) : (issueSub wait code).getLsbD 7 = wait := by
  revert wait code
  decide

@[simp] theorem issueSub_code (wait : Bool) (code : BitVec 7) : (issueSub wait code).extractLsb' 0 7 = code := by
  revert wait code
  decide

/-- The fields of ISSUE_COMMAND's `sub` are all of it. -/
theorem issueSub_fields (sub : Byte) : issueSub (sub.getLsbD 7) (sub.extractLsb' 0 7) = sub := by
  revert sub
  decide

/-- Settles O1: row by row of the map of R103 to R105. -/
theorem decodeOfEncodeIsTheInstruction : Obligations.DecodeOfEncodeIsTheInstruction := by
  intro i hi
  cases i with
  | setPower target => cases target <;> exact decodeRequest_requestOf _ _ _
  | growComplete success allocBase =>
    cases success with
    | true => exact decodeRequest_requestOf _ _ _
    | false =>
      have hbase : allocBase = 0 := by simpa [Instr.wf] using hi
      subst hbase
      exact decodeRequest_requestOf _ _ _
  | issueCommand wait code pointer =>
    have hrow : decodeFields 0x30 (issueSub wait code) pointer = .ok (.issueCommand
        ((issueSub wait code).getLsbD 7) ((issueSub wait code).extractLsb' 0 7) pointer) := rfl
    rw [issueSub_wait, issueSub_code] at hrow
    exact (decodeRequest_requestOf _ _ _).trans hrow
  | cuStart | cuResume | ruStart | selectiveReset | fullReset => rfl
  | _ => exact decodeRequest_requestOf _ _ _

/-! ## From the decoder to the encoder -/

/-- A byte whose upper seven bits are 0 is its lowest bit. -/
theorem eq_lowest_bit {b : Byte} (hb : b.extractLsb' 1 7 = 0) : b = if b.getLsbD 0 then 1 else 0 := by
  revert b
  decide

/-- The instruction is well formed, and its request word has these fields. -/
def Instr.HasFields (op sub : Byte) (arg : Word) (i : Instr) : Prop :=
  i.wf = true ∧ encode i = .request (requestOf op sub arg)

namespace Instr.HasFields
variable {op sub : Byte} {arg : Word} {i j : Instr}

/-- One row of the map: the opcode is the row's, or a later row decides. -/
theorem row {code : Byte} {here later : Except DecodeError Instr} (hhere : here = .ok i → i.HasFields code sub arg)
    (hlater : later = .ok i → i.HasFields op sub arg) (hd : (if op = code then here else later) = .ok i) :
    i.HasFields op sub arg := by
  split at hd
  · rename_i hop
    exact hop ▸ hhere hd
  · exact hlater hd

theorem bare (hd : decodeBare sub arg j = .ok i) (hj : j.HasFields op 0 0 := by exact ⟨rfl, rfl⟩) :
    i.HasFields op sub arg := by
  unfold decodeBare at hd
  split_ifs at hd with hsub harg
  cases hd
  rwa [not_not.1 hsub, not_not.1 harg]

theorem withArg {f : Word → Instr} (hd : decodeWithArg sub arg f = .ok i)
    (hf : (f arg).HasFields op 0 arg := by exact ⟨rfl, rfl⟩) : i.HasFields op sub arg := by
  unfold decodeWithArg at hd
  split_ifs at hd with hsub
  cases hd
  rwa [not_not.1 hsub]

theorem setPower (hd : decodeSetPower sub arg = .ok i) : i.HasFields 0x08 sub arg := by
  unfold decodeSetPower at hd
  split_ifs at hd with hsub harg hbit <;> cases hd <;> rw [eq_lowest_bit (not_not.1 hsub), not_not.1 harg]
  · rw [if_pos hbit]
    exact ⟨rfl, rfl⟩
  · rw [if_neg hbit]
    exact ⟨rfl, rfl⟩

theorem growComplete (hd : decodeGrowComplete sub arg = .ok i) : i.HasFields 0x24 sub arg := by
  unfold decodeGrowComplete at hd
  split_ifs at hd with hsub harg
  cases hd
  have hs := eq_lowest_bit (not_not.1 hsub)
  cases hbit : sub.getLsbD 0 with
  | true =>
    rw [hbit] at hs
    exact hs ▸ ⟨rfl, rfl⟩
  | false =>
    rw [hbit] at hs harg
    have hbase : arg = 0 := by simpa using harg
    exact hs ▸ hbase ▸ ⟨rfl, rfl⟩

theorem issueCommand (hd : .ok (.issueCommand (sub.getLsbD 7) (sub.extractLsb' 0 7) arg) = (.ok i : Except DecodeError Instr)) :
    i.HasFields 0x30 sub arg := by
  cases hd
  exact ⟨rfl, congrArg (fun b => Presented.request (requestOf 0x30 b arg)) (issueSub_fields sub)⟩

/-- The map of R103, row by row. -/
theorem of_decodeFields : decodeFields op sub arg = .ok i → i.HasFields op sub arg :=
  -- device control, opcodes 0x01 to 0x08
  .row .bare <| .row .bare <| .row .bare <| .row .bare <| .row .bare <| .row .bare <| .row .bare <| .row .setPower <|
  -- transmit ring, 0x10 to 0x13
  .row .withArg <| .row .bare <| .row .withArg <| .row .bare <|
  -- receive ring, 0x20 to 0x26
  .row .bare <| .row .withArg <| .row .bare <| .row .bare <| .row .growComplete <| .row .withArg <| .row .withArg <|
  -- coordinator, 0x30 and 0x31
  .row .issueCommand <| .row .withArg <|
  -- link, 0x40 to 0x45, and no other opcode
  .row .bare <| .row .bare <| .row .withArg <| .row .withArg <| .row .withArg <| .row .withArg nofun

end Instr.HasFields

theorem decodeRequest_encode {w : RequestWord} {i : Instr} (hd : decodeRequest w = .ok i) :
    i.wf = true ∧ encode i = .request w := by
  unfold decodeRequest at hd
  split at hd
  · cases hd
  · rename_i hzero
    rw [← requestOf_fields w (not_not.1 hzero)]
    exact Instr.HasFields.of_decodeFields hd

theorem decodeCommand_encode {w : Word} {i : Instr} (hd : decodeCommand w = .ok i) :
    i.wf = true ∧ encode i = .command w := by
  unfold decodeCommand at hd
  split_ifs at hd with h1 h2 h3 <;> cases hd
  · exact ⟨rfl, h1 ▸ rfl⟩
  · exact ⟨rfl, h2 ▸ rfl⟩
  · exact ⟨rfl, h3 ▸ rfl⟩

theorem decodePort_encode {w : Word} {i : Instr} (hd : decodePort w = .ok i) : i.wf = true ∧ encode i = .port w := by
  unfold decodePort at hd
  split_ifs at hd with h1 h2 <;> cases hd
  · exact ⟨rfl, h1 ▸ rfl⟩
  · exact ⟨rfl, h2 ▸ rfl⟩

/-- Settles O2: by the place the word is presented at. -/
theorem encodeOfDecodeIsTheWord : Obligations.EncodeOfDecodeIsTheWord
  | .request _, _, hd => decodeRequest_encode hd
  | .command _, _, hd => decodeCommand_encode hd
  | .port _, _, hd => decodePort_encode hd

/-- Settles O3: each worked word is the encoding of the instruction it stands for. -/
theorem decodesTheWorkedWords : Obligations.DecodesTheWorkedWords :=
  ⟨decodeOfEncodeIsTheInstruction (.submit 5) rfl, decodeOfEncodeIsTheInstruction (.cancel 7) rfl,
    decodeOfEncodeIsTheInstruction (.setPower .lowPower) rfl,
    decodeOfEncodeIsTheInstruction (.growComplete true 0x200000) rfl,
    decodeOfEncodeIsTheInstruction (.issueCommand true 1 0x1000) rfl,
    decodeOfEncodeIsTheInstruction (.issueCommand false 2 0) rfl, decodeOfEncodeIsTheInstruction .harvest rfl,
    decodeOfEncodeIsTheInstruction .linkTick rfl, decodeOfEncodeIsTheInstruction .ruStart rfl,
    decodeOfEncodeIsTheInstruction .fullReset rfl⟩

end Sys2Proof
end

