-- ==== Sys2Proof/Proofs/Fetch.lean ====
section
/-!
PROOF. From the word an agent presents to what the step does (spec/30_encoding.md R100, R104, R105, R112).
-/
namespace Sys2Proof.Machine

variable {s : State} {rest : List Stimulus}

/-! ## What is presented -/

/-- The step takes the head of the schedule off and changes nothing else before it acts. -/
theorem advance_of_cons {e : Stimulus} (hs : s.ports.schedule = e :: rest) :
    s.advance = { s with ports := { s.ports with schedule := rest } } := by
  simp [State.advance, State.mapPorts, hs]

theorem fetch_of_request {w : RequestWord} (hs : s.ports.schedule = .request w :: rest) :
    fetch s = some (.request w) := by
  simp [fetch, hs]

theorem fetch_of_accept (hs : s.ports.schedule = .device .accept :: rest) (hc : commandCode s.regs.command ≠ 0) :
    fetch s = some (.command s.regs.command) := by
  simpa [fetch, hs] using hc

theorem fetch_of_registerWrite {offset : Nat} {v : Word} (hs : s.ports.schedule = .registerWrite offset v :: rest) :
    fetch s = if offset = Register.offset .port then some (.port v) else none := by
  simp [fetch, hs]

/-! ## What the step does with it -/

theorem step_of_decode {p : Presented} {i : Instr} (hf : fetch s = some p) (hd : decode p = .ok i) :
    step s = exec i s.advance := by
  simp [step, hf, hd]

theorem step_of_undecodable {p : Presented} {e : DecodeError} (hf : fetch s = some p) (hd : decode p = .error e) :
    step s = undecodable p s.advance := by
  simp [step, hf, hd]

theorem step_of_stimulus {e : Stimulus} (hf : fetch s = none) (hs : s.ports.schedule = e :: rest) :
    step s = stimulate e s.advance := by
  simp [step, hf, hs]

/-- What a step that proceeds can have done: run an instruction, refuse an undecodable request, found nothing scheduled, or
taken a step that is no instruction. -/
theorem step_eq_next {t : State} (hr : step s = .next t) :
    (∃ i, exec i s.advance = .next t) ∨ t = s.advance.withResult (some .invalidRequest) ∨ t = s ∨
      ∃ e, stimulate e s.advance = .next t := by
  unfold step at hr
  split at hr
  · rename_i p _
    split at hr
    · exact .inl ⟨_, hr⟩
    · cases p with
      | request w =>
        cases hr
        exact .inr (.inl rfl)
      | command w => cases hr
      | port w => cases hr
  · split at hr
    · cases hr
      exact .inr (.inr (.inl rfl))
    · exact .inr (.inr (.inr ⟨_, hr⟩))

/-- Settles O4: the three places an instruction is fetched from. -/
theorem stepRunsTheDecodedInstruction : Obligations.StepRunsTheDecodedInstruction := by
  intro s rest i
  refine ⟨fun w hs hd => ?_, fun hs hc hd => ?_, fun v hs hd => ?_⟩ <;> rw [← advance_of_cons hs]
  · exact step_of_decode (fetch_of_request hs) hd
  · exact step_of_decode (fetch_of_accept hs hc) hd
  · exact step_of_decode (fetch_of_registerWrite hs) hd

/-! ## Reserved codes -/

/-- A code of 4 or more is neither 0 nor one of the three commands. -/
theorem reservedCode_not_legal {c : Byte} (hc : 4 ≤ c.toNat) : (legalCode c || c == 0) = false := by
  revert c
  decide

/-- Format K looks at the whole word; a reserved code in it is no command. -/
theorem decodeCommand_of_reserved {w : Word} (hw : 4 ≤ (commandCode w).toNat) :
    decodeCommand w = .error .reservedCommandCode := by
  have hne : ∀ v : Word, (commandCode v).toNat < 4 → w ≠ v := fun v hv he => absurd (he ▸ hw) (Nat.not_le.2 hv)
  rw [decodeCommand, if_neg (hne 1#32 (by decide)), if_neg (hne 2#32 (by decide)), if_neg (hne 3#32 (by decide))]

theorem decodePort_of_reserved {v : Word} (h1 : v ≠ 1) (h2 : v ≠ 2) : decodePort v = .error .reservedPortCode :=
  (if_neg h1).trans (if_neg h2)

theorem writeCommand_of_reserved {v : Word} (hv : 4 ≤ (commandCode v).toNat) (s : State) :
    writeCommand v s = .error (.fault .reservedCommand) := by
  simp only [writeCommand, Op.bind_apply, regRead_command, reservedCode_not_legal hv]
  rfl

/-- Settles O5: the undecodable words of the three places, and the direct write of `COMMAND`, which no decoder sees. -/
theorem undecodableWordsRefuseOrFault : Obligations.UndecodableWordsRefuseOrFault := by
  intro s rest w v
  refine ⟨fun e hs hd => ?_, fun hs hv => ?_, fun hs hc => ?_, fun hs h1 h2 => ?_⟩
  · rw [step_of_undecodable (fetch_of_request hs) hd, advance_of_cons hs]
    rfl
  · have hwrite : occur (handlerOf s.advance) (.registerWrite 0x04 v) s.advance = writeCommand v s.advance := rfl
    rw [step_of_stimulus (fetch_of_registerWrite hs) hs, stimulate, outcome, hwrite, writeCommand_of_reserved hv]
    rfl
  · have h0 : commandCode s.regs.command ≠ 0 := fun h0 => by simp [h0] at hc
    rw [step_of_undecodable (fetch_of_accept hs h0) (decodeCommand_of_reserved hc)]
    rfl
  · rw [step_of_undecodable (fetch_of_registerWrite hs) (decodePort_of_reserved h1 h2)]
    rfl

end Sys2Proof.Machine
end

