-- ==== Sys2Proof/Proofs/RegisterChanges.lean ====
section
/-!
PROOF. What can happen to a device register. `RegStep` lists the changes that the operations make to the registers other than
`INTMASK`; legal registers stay legal under each of them (R107 to R109, R193).
-/
namespace Sys2Proof.Machine

/-! ## The fields of STATUS (R107) -/

section Status
variable (v : BitVec 2) (w : Word)

/-- The reserved bits of STATUS. -/
def statusReserved (w : Word) : Word := w &&& 0xFFFFF0F0

theorem statusCus_or (a b : Word) : statusCus (a ||| b) = statusCus a ||| statusCus b := BitVec.extractLsb'_or
theorem statusCus_and (a b : Word) : statusCus (a &&& b) = statusCus a &&& statusCus b := BitVec.extractLsb'_and
theorem statusRus_or (a b : Word) : statusRus (a ||| b) = statusRus a ||| statusRus b := BitVec.extractLsb'_or
theorem statusRus_and (a b : Word) : statusRus (a &&& b) = statusRus a &&& statusRus b := BitVec.extractLsb'_and
theorem statusReserved_or (a b : Word) : statusReserved (a ||| b) = statusReserved a ||| statusReserved b :=
  BitVec.and_or_distrib_right

/-- Clearing bits does not set reserved ones. -/
theorem statusReserved_and (a b : Word) : statusReserved (a &&& b) = statusReserved a &&& b := by
  simp only [statusReserved, BitVec.and_assoc, BitVec.and_comm b]

theorem statusCus_not (a : Word) : statusCus (~~~a) = ~~~statusCus a := BitVec.extractLsb'_not_of_lt (by decide)
theorem statusRus_not (a : Word) : statusRus (~~~a) = ~~~statusRus a := BitVec.extractLsb'_not_of_lt (by decide)

@[simp] theorem statusCus_withCus : statusCus (withCus v w) = v := by
  have hmask : statusCus 0xFFFFFFFC#32 = 0#2 := by decide
  have hv : ∀ v : BitVec 2, statusCus (v.setWidth 32) = v := by decide
  rw [withCus, statusCus_or, statusCus_and, hmask, hv, BitVec.and_zero, BitVec.zero_or]

@[simp] theorem statusRus_withCus : statusRus (withCus v w) = statusRus w := by
  have hmask : statusRus 0xFFFFFFFC#32 = BitVec.allOnes 2 := by decide
  have hv : ∀ v : BitVec 2, statusRus (v.setWidth 32) = 0#2 := by decide
  rw [withCus, statusRus_or, statusRus_and, hmask, hv, BitVec.and_allOnes, BitVec.or_zero]

@[simp] theorem statusReserved_withCus : statusReserved (withCus v w) = statusReserved w &&& 0xFFFFFFFC#32 := by
  have hv : ∀ v : BitVec 2, statusReserved (v.setWidth 32) = 0#32 := by decide
  rw [withCus, statusReserved_or, statusReserved_and, hv, BitVec.or_zero]

@[simp] theorem statusCus_withRus : statusCus (withRus v w) = statusCus w := by
  have hmask : statusCus 0xFFFFFFF3#32 = BitVec.allOnes 2 := by decide
  have hv : ∀ v : BitVec 2, statusCus (v.setWidth 32 <<< 2) = 0#2 := by decide
  rw [withRus, statusCus_or, statusCus_and, hmask, hv, BitVec.and_allOnes, BitVec.or_zero]

@[simp] theorem statusRus_withRus : statusRus (withRus v w) = v := by
  have hmask : statusRus 0xFFFFFFF3#32 = 0#2 := by decide
  have hv : ∀ v : BitVec 2, statusRus (v.setWidth 32 <<< 2) = v := by decide
  rw [withRus, statusRus_or, statusRus_and, hmask, hv, BitVec.and_zero, BitVec.zero_or]

@[simp] theorem statusReserved_withRus : statusReserved (withRus v w) = statusReserved w &&& 0xFFFFFFF3#32 := by
  have hv : ∀ v : BitVec 2, statusReserved (v.setWidth 32 <<< 2) = 0#32 := by decide
  rw [withRus, statusReserved_or, statusReserved_and, hv, BitVec.or_zero]

end Status

/-! ## Cause bits -/

section Causes
variable (c : Word)

/-- Cause bits lie outside every other field. -/
@[simp] theorem statusCus_causesOf : statusCus (causesOf c) = 0#2 := by
  have hmask : statusCus causeMask = 0#2 := by decide
  rw [causesOf, statusCus_and, hmask, BitVec.and_zero]

@[simp] theorem statusRus_causesOf : statusRus (causesOf c) = 0#2 := by
  have hmask : statusRus causeMask = 0#2 := by decide
  rw [causesOf, statusRus_and, hmask, BitVec.and_zero]

@[simp] theorem statusReserved_causesOf : statusReserved (causesOf c) = 0#32 := by
  have hmask : statusReserved causeMask = 0#32 := by decide
  rw [causesOf, BitVec.and_comm, statusReserved_and, hmask, BitVec.zero_and]

/-- Acknowledging causes leaves the states of the units. -/
@[simp] theorem statusCus_acknowledge (w : Word) : statusCus (w &&& ~~~causesOf c) = statusCus w := by
  rw [statusCus_and, statusCus_not, statusCus_causesOf, BitVec.not_zero, BitVec.and_allOnes]

@[simp] theorem statusRus_acknowledge (w : Word) : statusRus (w &&& ~~~causesOf c) = statusRus w := by
  rw [statusRus_and, statusRus_not, statusRus_causesOf, BitVec.not_zero, BitVec.and_allOnes]

end Causes

/-! ## Legal values -/

/-- No reserved bit and no reserved unit code (R107, R193). -/
structure StatusLegal (w : Word) : Prop where
  reserved : statusReserved w = 0
  cus : statusCus w ≠ 3
  rus : statusRus w = unitIdle ∨ statusRus w = unitActive

theorem Registers.legal_iff (r : Registers) : r.Legal ↔ StatusLegal r.status ∧
    r.command.toNat ≤ 3 ∧ r.intmask.toNat ≤ 1 ∧ ∀ a : PhyAddress, r.phystat[a] &&& 0xFFFFFF00 = 0 :=
  ⟨fun ⟨hr, hc, hu, hrest⟩ => ⟨⟨hr, hc, hu⟩, hrest⟩, fun ⟨⟨hr, hc, hu⟩, hrest⟩ => ⟨hr, hc, hu, hrest⟩⟩

namespace StatusLegal
variable {w : Word} (hw : StatusLegal w)
include hw

theorem withCus {v : BitVec 2} (hv : v ≠ 3) : StatusLegal (withCus v w) where
  reserved := by simp [hw.reserved]
  cus := by simpa using hv
  rus := by simpa using hw.rus

theorem withRus {v : BitVec 2} (hv : v = unitIdle ∨ v = unitActive) : StatusLegal (withRus v w) where
  reserved := by simp [hw.reserved]
  cus := by simpa using hw.cus
  rus := by simpa using hv

theorem raised (c : Word) : StatusLegal (w ||| causesOf c) where
  reserved := by simp [statusReserved_or, hw.reserved]
  cus := by simpa [statusCus_or] using hw.cus
  rus := by simpa [statusRus_or] using hw.rus

theorem acknowledged (c : Word) : StatusLegal (w &&& ~~~causesOf c) where
  reserved := by simp [statusReserved_and, hw.reserved]
  cus := by simpa using hw.cus
  rus := by simpa using hw.rus

end StatusLegal

/-- The reserved bits of PHYSTAT are 0 in the word of every record (R109). -/
theorem PhyRecord.toWord_reserved (r : PhyRecord) : r.toWord &&& 0xFFFFFF00 = 0 := by
  obtain ⟨p, l, n, d, sp⟩ := r
  revert p l n d sp
  decide

/-- A command write that is no fault leaves a code of R104 or 0. -/
theorem command_le_three {v : Word} (hv : legalCode (commandCode v) = true ∨ commandCode v = 0) :
    (v &&& 0xFF).toNat ≤ 3 := by
  have hcode : (v &&& 0xFF).toNat = (commandCode v).toNat := by
    rw [commandCode, BitVec.extractLsb'_toNat, BitVec.toNat_and]
    exact Nat.and_two_pow_sub_one_eq_mod v.toNat 8
  rw [hcode]
  generalize commandCode v = c at hv
  revert c
  decide

/-! ## Changes of the registers other than INTMASK -/

/-- Some changes, one after the other. -/
inductive RegStep : Registers → Registers → Prop where
  /-- causes written with 1 are cleared (R31) -/
  | acknowledge {r : Registers} (c : Word) : RegStep r { r with status := r.status &&& ~~~causesOf c }
  /-- a unit raises causes -/
  | raise {r : Registers} (c : Word) : RegStep r (raiseCauses (causesOf c) r)
  /-- the CU changes its state -/
  | cus {r : Registers} {v : BitVec 2} (hv : v ≠ 3) : RegStep r { r with status := withCus v r.status }
  /-- the RU changes its state -/
  | rus {r : Registers} {v : BitVec 2} (hv : v = unitIdle ∨ v = unitActive) :
    RegStep r { r with status := withRus v r.status }
  /-- a command is written, or taken -/
  | command {r : Registers} {c : Word} (hc : c.toNat ≤ 3) : RegStep r { r with command := c }
  | pointer {r : Registers} (p : Word) : RegStep r { r with pointer := p }
  | phystat {r : Registers} (a : PhyAddress) (x : PhyRecord) :
    RegStep r { r with phystat := r.phystat.set a.val x.toWord }
  | trans {r₁ r₂ r₃ : Registers} : RegStep r₁ r₂ → RegStep r₂ r₃ → RegStep r₁ r₃

/-- The port's selective reset (R199). -/
theorem RegStep.selectiveReset (r : Registers) :
    RegStep r { r with status := withRus unitIdle (withCus unitIdle r.status), command := 0 } :=
  .trans (.cus (by decide)) <| .trans (.rus (.inl rfl)) (.command (by decide))

/-- Legal registers stay legal. -/
theorem RegStep.legal {r r' : Registers} (h : RegStep r r') : r.Legal → r'.Legal := by
  simp only [Registers.legal_iff]
  induction h with
  | acknowledge c => exact fun ⟨hs, hrest⟩ => ⟨hs.acknowledged c, hrest⟩
  | raise c => exact fun ⟨hs, hrest⟩ => ⟨hs.raised c, hrest⟩
  | cus hv => exact fun ⟨hs, hrest⟩ => ⟨hs.withCus hv, hrest⟩
  | rus hv => exact fun ⟨hs, hrest⟩ => ⟨hs.withRus hv, hrest⟩
  | command hc => exact fun ⟨hs, _, hrest⟩ => ⟨hs, hc, hrest⟩
  | pointer p => exact id
  | phystat a x =>
    refine fun ⟨hs, hc, hm, hp⟩ => ⟨hs, hc, hm, fun b => ?_⟩
    by_cases hb : a = b
    · subst hb
      simpa using x.toWord_reserved
    · have hne : a.val ≠ b.val := fun he => hb (Fin.ext he)
      simpa [Vector.getElem_set, hne] using hp b
  | trans _ _ ih₁ ih₂ => exact ih₂ ∘ ih₁

end Sys2Proof.Machine
end

