-- ==== Sys2Proof/Proofs/RegisterLaw.lean ====
section
/-!
PROOF. Invariants of the device registers, followed once through every operation. `Minor` allows any change of `STATUS` and
`Calm` any change of a register, so what is kept under them says nothing of the registers. Here the invariant looks at the
registers and at what is left to do inside the operation, and nothing else; what an operation does besides `RegStep` is to
write `INTMASK`.
-/
namespace Sys2Proof.Machine

variable {α : Type} {P : State → Prop} {h : Handler}

/-- `P` looks only at the registers and at what is left to do inside, and every `RegStep` keeps it. -/
structure RegBlind (P : State → Prop) : Prop where
  blind : ∀ s t, t.regs = s.regs → t.ports.interleaved = s.ports.interleaved → P s → P t
  change : ∀ s f, RegStep s.regs (f s.regs) → P s → P (s.mapRegs f)

namespace RegBlind
variable (b : RegBlind P)
include b

/-! ## Updates -/

/-- An update of another part of the state. -/
theorem update {f : State → State} (hr : ∀ s, (f s).regs = s.regs := by exact fun _ => rfl)
    (hi : ∀ s, (f s).ports.interleaved = s.ports.interleaved := by exact fun _ => rfl) : Keeps P (update f) :=
  .update fun s hs => b.blind s _ (hr s) (hi s) hs

theorem updateRegs {f : Registers → Registers} (hf : ∀ r, RegStep r (f r)) : Keeps P (updateRegs f) :=
  .update fun s hs => b.change s f (hf _) hs

theorem lock (l : Lock) : Keeps P (lock l) :=
  .bind (.read _) fun _ => .ite (.fault _) <| .ite .blocked b.update

theorem unlock (l : Lock) : Keeps P (unlock l) := b.update

theorem emit (e : Event) : Keeps P (emit e) := .bind (.read _) fun _ => .ite b.update (.fault _)

/-! ## Memory -/

theorem memWrite (a : Nat) (bs : List Byte) : Keeps P (memWrite a bs) := .ite b.update (.fault _)
theorem memWrite16 (a : Nat) (v : Halfword) : Keeps P (memWrite16 a v) := .ite b.update (.fault _)
theorem memWrite32 (a : Nat) (v : Word) : Keeps P (memWrite32 a v) := .ite b.update (.fault _)

theorem writeTdC (i : Nat) (c : Bool) : Keeps P (writeTdC i c) := .bind (.read _) fun _ => b.memWrite16 _ _
theorem writeTdS (i : Nat) (c : Bool) : Keeps P (writeTdS i c) := .bind (.read _) fun _ => b.memWrite16 _ _
theorem writeTdLink (i : Nat) (v : Word) : Keeps P (writeTdLink i v) := .bind (.read _) fun _ => b.memWrite32 _ _
theorem writeTdFragCount (i : Nat) (n : Byte) : Keeps P (writeTdFragCount i n) :=
  .bind (.read _) fun _ => .ite b.update (.fault _)
theorem writeTdReserved (i : Nat) : Keeps P (writeTdReserved i) := .bind (.read _) fun _ => b.memWrite _ _
theorem writeTdFragAddr (i k : Nat) (v : Word) : Keeps P (writeTdFragAddr i k v) :=
  .bind (.read _) fun _ => b.memWrite32 _ _
theorem writeTdFragLen (i k : Nat) (v : Word) : Keeps P (writeTdFragLen i k v) :=
  .bind (.read _) fun _ => b.memWrite32 _ _

theorem writeRdStatus (d : Nat) (c o : Bool) : Keeps P (writeRdStatus d c o) :=
  .bind (.rdAddrOf d) fun _ => b.memWrite16 _ _
theorem writeRdEL (d : Nat) (e : Bool) : Keeps P (writeRdEL d e) := .bind (.rdAddrOf d) fun _ => b.memWrite16 _ _
theorem writeRdLink (d : Nat) (v : Word) : Keeps P (writeRdLink d v) := .bind (.rdAddrOf d) fun _ => b.memWrite32 _ _
theorem writeRdPayloadPtr (d : Nat) (v : Word) : Keeps P (writeRdPayloadPtr d v) :=
  .bind (.rdAddrOf d) fun _ => b.memWrite32 _ _
theorem writeRdCount (d n : Nat) (v : Bool) : Keeps P (writeRdCount d n v) :=
  .bind (.rdAddrOf d) fun _ => b.memWrite16 _ _
theorem writeRdCapacity (d n : Nat) : Keeps P (writeRdCapacity d n) := .bind (.rdAddrOf d) fun _ => b.memWrite16 _ _

/-! ## Allocation -/

theorem addRegion (r : Region) : Keeps P (addRegion r) := .bind (.read _) fun _ => .ite b.update (.fault _)

theorem takeRegion (a : Nat) : Keeps P (takeRegion a) :=
  .bind (.read _) fun _ => .bind (b.addRegion _) fun _ => .requireAligned _

theorem allocShared (size : Nat) : Keeps P (allocShared size) :=
  .bind (.read _) fun
    | [] => .pure _
    | none :: _ => .bind b.update fun _ => .pure _
    | some _ :: _ => .bind b.update fun _ => .bind (b.addRegion _) fun _ => .pure _

theorem allocShadow : Keeps P allocShadow :=
  .bind (.read _) fun
    | [] => .pure _
    | _ :: _ => .bind b.update fun _ => .pure _

theorem allocSharedMany (size : Nat) : ∀ n, Keeps P (allocSharedMany n size)
  | 0 => .pure _
  | n + 1 => .bind (b.allocShared size) fun
    | none => .pure _
    | some _ => .bind (allocSharedMany size n) fun _ => .pure _

theorem allocShadows : ∀ n, Keeps P (allocShadows n)
  | 0 => .pure _
  | n + 1 => .bind b.allocShadow fun _ => .ite (allocShadows n) (.pure _)

theorem startAllocate : Keeps P startAllocate :=
  .bind (.read _) fun _ => .bind (b.allocShared _) fun
    | none => .pure _
    | some _ => .bind (.requireAlignedAll _) fun _ => .bind (b.allocSharedMany _ _) fun
      | none => .pure _
      | some _ => .bind (b.allocSharedMany _ _) fun
        | none => .pure _
        | some _ => .bind (.requireAlignedAll _) fun _ => .bind (b.allocShadows _) fun _ => .pure _

/-! ## The registers (R31 to R36, R199) -/

theorem clearCommand : Keeps P clearCommand := b.updateRegs fun _ => .command (by decide)

theorem selectiveReset : Keeps P selectiveReset :=
  .bind (b.updateRegs .selectiveReset) fun _ => b.update

theorem regWrite_status (v : Word) : Keeps P (regWrite .status v) := b.updateRegs fun _ => .acknowledge v
theorem regWrite_pointer (v : Word) : Keeps P (regWrite .pointer v) := b.updateRegs fun _ => .pointer v

theorem regWrite_command (v : Word) : Keeps P (regWrite .command v) := fun s _ _ hs hr => by
  obtain ⟨hv, _, rfl⟩ := writeCommand_ok.1 hr
  exact b.change s _ (.command (command_le_three hv)) hs

/-! ## The device agents -/

theorem setCus {v : BitVec 2} (hv : v ≠ 3 := by decide) :
    Keeps P (Machine.updateRegs fun r => { r with status := withCus v r.status }) := b.updateRegs fun _ => .cus hv

theorem setRus {v : BitVec 2} (hv : v = unitIdle ∨ v = unitActive := by decide) :
    Keeps P (Machine.updateRegs fun r => { r with status := withRus v r.status }) := b.updateRegs fun _ => .rus hv

theorem acceptCuStart : Keeps P acceptCuStart :=
  .bind (.read _) fun
    | none => .fault _
    | some _ => .bind b.update fun _ => .bind b.setCus fun _ => b.clearCommand

theorem acceptRuStart : Keeps P acceptRuStart :=
  .bind (.read _) fun
    | none => .fault _
    | some _ => .bind b.update fun _ => .bind b.setRus fun _ => b.clearCommand

theorem acceptCuResume : Keeps P acceptCuResume :=
  .bind (.read _) fun _ => .ite
    (.bind (.read _) fun _ => .bind (.readTdS _) fun _ => .ite b.clearCommand <|
      .bind (.readTdLink _) fun _ => .bind (.read _) fun
        | none => .fault _
        | some _ => .bind b.update fun _ => .bind b.setCus fun _ => b.clearCommand)
    b.clearCommand

theorem accept : Keeps P accept :=
  .bind (.read _) fun _ => .ite (.pure _) <| .ite b.acceptCuStart <| .ite b.acceptCuResume <|
    .ite b.acceptRuStart (.fault _)

theorem cuExecuteSlot (i : Nat) : Keeps P (cuExecuteSlot i) :=
  .bind (.readTdFragCount i) fun _ => .bind (.gatherFragments i _) fun _ => .bind b.update fun _ =>
    .bind (b.writeTdC i true) fun _ => .bind (b.updateRegs fun _ => .raise causeCX) fun _ => .bind (.readTdS i) fun _ =>
      .ite (b.updateRegs fun _ => .trans (.cus (v := unitSuspended) (by decide)) (.raise causeCNA)) <|
      .bind (.readTdLink i) fun _ => .bind (.read _) fun
        | none => .fault _
        | some _ => b.update

theorem cuExecute : Keeps P cuExecute :=
  .bind (.read _) fun _ => .bind (.read _) fun _ => .ite
    (.bind (.readTdC _) fun _ => .ite (.pure _) (b.cuExecuteSlot _)) (.pure _)

theorem ruAdvance (d : Nat) : Keeps P (ruAdvance d) :=
  .bind b.update fun _ => .bind (b.updateRegs fun _ => .raise causeFR) fun _ => .bind (.readRdEL d) fun _ => .ite
    (.bind (b.updateRegs fun _ => .trans (.rus (v := unitIdle) (.inl rfl)) (.raise causeRNR)) fun _ => b.update) <|
    .bind (.readRdLink d) fun _ => .bind (.read _) fun
      | none => .fault _
      | some _ => b.update

theorem ruStatus (ok : Bool) : Keeps P (ruStatus ok) :=
  .bind (.read _) fun
    | none => .pure _
    | some d => .bind (.ruMay d _) fun _ => .ite
      (.bind (b.writeRdStatus d true ok) fun _ => .bind (.read _) fun _ => .ite b.update (b.ruAdvance d))
      (.pure _)

theorem ruCount (bytes : List Byte) : Keeps P (ruCount bytes) :=
  .bind (.read _) fun
    | none => .pure _
    | some d => .bind (.ruMay d _) fun _ => .bind (.readRdCapacity d) fun _ => .ite
      (.bind (.readRdPayloadPtr d) fun _ => .bind (b.memWrite _ bytes) fun _ => .bind (b.writeRdCount d _ true) fun _ =>
        .bind (.read _) fun _ => .ite b.update (b.ruAdvance d))
      (.pure _)

/-- No step of a device agent writes `INTMASK`. -/
theorem deviceStep : ∀ d, Keeps P (deviceStep d)
  | .accept => b.accept
  | .cuExecute => b.cuExecute
  | .ruStatus ok => b.ruStatus ok
  | .ruCount bytes => b.ruCount bytes
  | .phy a x => b.updateRegs fun _ => .phystat a x

/-! ## Host-side operations in which no other agent steps -/

theorem retire (i : Nat) : Keeps P (retire i) :=
  .bind (.read _) fun _ => .bind (.read _) fun _ => .bind b.update fun _ => .pure _

theorem enqueue (p : Packet) : Keeps P (enqueue p) := .bind b.update fun _ => .pure _

theorem poolFreeRx (d : Nat) : Keeps P (poolFreeRx d) :=
  .bind (.read _) fun sh => by
    cases sh.bind (·.allocBase) with
    | none => exact b.update
    | some a => exact .bind (b.update (f := State.mapPorts _)) fun _ => b.update

theorem shrinkLocked (d : Nat) : Keeps P (shrinkLocked d) := .bind (b.poolFreeRx d) fun _ => b.update

theorem freePosted : ∀ ds, Keeps P (freePosted ds)
  | [] => .pure _
  | d :: ds => .bind (b.poolFreeRx d) fun _ => .bind b.update fun _ => freePosted ds

theorem detachPending (d : Nat) : Keeps P (detachPending d) :=
  .bind (.read _) fun c => .bind (.assert c) fun _ => b.update

theorem growLocked : Keeps P growLocked :=
  .bind (.read _) fun _ => .ite (.pure _) <| .bind b.allocShadow fun _ => .ite (.pure _) <|
    .bind b.update fun _ => .bind b.update fun _ => .pure _

theorem updateThresholds : Keeps P updateThresholds :=
  .bind (.read _) fun _ => .ite
    (.bind b.update fun _ => .ite (.bind b.growLocked fun _ => .pure _) (.pure _))
    b.update

theorem powerCheck : Keeps P powerCheck := .bind (.read _) fun _ => .ite (.bind b.update fun _ => .pure _) (.pure _)

theorem takeLinkTimer : Keeps P takeLinkTimer := .bind (.read _) fun _ => .bind b.update fun _ => .pure _
theorem cancelLinkTimer : Keeps P cancelLinkTimer := .bind b.takeLinkTimer fun _ => .ite b.update (.pure _)

theorem recordResult : ∀ r, Keeps P (recordResult r)
  | none => .pure _
  | some _ => b.update

theorem teardownFree : Keeps P teardownFree :=
  .bind (.read _) fun _ => .bind (.assert _) fun _ => .bind (b.lock .rx) fun _ => .bind (b.freePosted _) fun _ =>
    .bind b.update fun _ => .bind (b.unlock .rx) fun _ => .bind b.update fun _ => .bind b.update fun _ => b.update

end RegBlind

end Sys2Proof.Machine
end

