-- ==== Sys2Proof/Proofs/RegisterRequests.lean ====
section
/-!
PROOF. Invariants of the device registers through the operations inside which other agents step. `RegHost` asks that these keep
the invariant at a point; `MaskHost`, beside it, that the two writes of `INTMASK` keep it, and serves the operations that make
them.
-/
namespace Sys2Proof.Machine

variable {P : State → Prop} {h : Handler}

/-- An invariant of the registers that other agents keep at the points of an operation. -/
structure RegHost (h : Handler) (P : State → Prop) : Prop extends RegBlind P where
  point : Keeps P (point h)

namespace RegHost
variable (b : RegHost h P)
include b

theorem host {α : Type} {m : Op α} (hm : Keeps P m) : Keeps P (host h m) := Keeps.host b.point hm
theorem callbacks (es : List Event) : Keeps P (callbacks h es) := Keeps.callbacks b.emit b.point es

theorem completionsDue (n : Nat) : Keeps P (callbacksDue h Ports.nextCompletion n) :=
  callbacksDue_leads (P := fun _ => P) (fun _ => b.point) (fun _ e => .callback (b.emit e) b.point) (fun _ _ hs _ => hs)
    (fun _ s _ _ hs hn => by
      obtain ⟨rest, rfl⟩ := nextCompletion_takes hn
      exact b.blind s _ rfl rfl hs) n

theorem indicationsDue (n : Nat) : Keeps P (callbacksDue h Ports.nextIndication n) :=
  callbacksDue_leads (P := fun _ => P) (fun _ => b.point) (fun _ e => .callback (b.emit e) b.point) (fun _ _ hs _ => hs)
    (fun _ s _ _ hs hn => by
      obtain ⟨rest, rfl⟩ := nextIndication_takes hn
      exact b.blind s _ rfl rfl hs) n

/-! ## The coordinator -/

theorem waitAcceptLocked : ∀ n, Keeps P (waitAcceptLocked h n)
  | 0 => .bind (b.host b.update) fun _ => .pure _
  | n + 1 => .bind (b.host (.regRead _)) fun _ => .ite (.pure _) <| .ite
    (.bind (b.host b.update) fun _ => .pure _) <| .bind b.point fun _ => waitAcceptLocked n

theorem writeCommandLocked (code : Byte) (wait : Bool) (pointer : Word) :
    Keeps P (writeCommandLocked h code wait pointer) := by
  have written : Keeps P (Machine.host h (regWrite .command (code.setWidth 32)) >>= fun _ =>
      updateTx (fun t => { t with resumeWaitNeeded := code != codeCuResume }) >>= fun _ => pure Status.ok) :=
    .bind (b.host (b.regWrite_command _)) fun _ => .bind b.update fun _ => .pure _
  refine .bind (.read _) fun _ => ?_
  refine .ite (.bind (b.waitAcceptLocked _) ?rest) (.bind (.pure _) ?rest)
  exact fun _ => .bind (.read _) fun _ => .ite (.pure _) <| .ite
    (.bind (b.host (b.regWrite_pointer _)) fun _ => written) written

theorem issueLocked (code : Byte) (wait : Bool) (pointer : Word) : Keeps P (issueLocked h code wait pointer) :=
  .bind (.read _) fun _ => .ite (.pure _) (b.writeCommandLocked code wait pointer)

theorem issueRequest (wait : Bool) (code : BitVec 7) (pointer : Word) : Keeps P (issueRequest h wait code pointer) :=
  .bind (.read _) fun _ => .ite (.pure _) <| .ite (.pure _) <| .ite (.pure _) <| .bind b.point fun _ =>
    .bind (.read _) fun _ => .ite (.pure _) <| .bind b.point fun _ => .bind (b.lock .cmd) fun _ =>
    .bind (b.writeCommandLocked _ wait pointer) fun _ => .bind (b.unlock .cmd) fun _ => .pure _

theorem waitRequest (budget : Word) : Keeps P (waitRequest h budget) :=
  .bind (.read _) fun _ => .ite (.pure _) <| .bind b.point fun _ => .bind (b.lock .cmd) fun _ =>
    .bind (b.waitAcceptLocked _) fun _ => .bind (b.unlock .cmd) fun _ => .pure _

/-! ## The transmit side -/

theorem initDescriptors : ∀ is, Keeps P (initDescriptors h is)
  | [] => .pure _
  | i :: is => .bind (b.host (b.writeTdC i true)) fun _ => .bind (b.host (b.writeTdS i false)) fun _ =>
    .bind (.read _) fun _ => .bind (b.host (b.writeTdLink i _)) fun _ => .bind (b.host (b.writeTdFragCount i 0)) fun _ =>
    initDescriptors is

theorem poolInitTx : Keeps P (poolInitTx h) :=
  .bind (.read _) fun _ => .bind (b.initDescriptors _) fun _ => .bind (.read _) fun _ => b.update

theorem abortHeld : Keeps P (abortHeld h) := .bind (.read _) fun _ => .bind b.poolInitTx fun _ => .pure _

theorem copyFragments : ∀ dst fs, Keeps P (copyFragments h dst fs)
  | _, [] => .pure _
  | dst, _ :: fs => .bind (b.host (.memRead _ _)) fun _ => .bind (b.host (b.memWrite dst _)) fun _ => copyFragments _ fs

theorem zeroPad : ∀ dst n, Keeps P (zeroPad h dst n)
  | _, 0 => .pure _
  | dst, n + 1 => .bind (b.host (b.memWrite dst _)) fun _ => zeroPad _ n

theorem writeFragments (t : Nat) : ∀ k fs, Keeps P (writeFragments h t k fs)
  | _, [] => .pure _
  | k, _ :: fs => .bind (b.host (b.writeTdFragAddr t k _)) fun _ => .bind (b.host (b.writeTdFragLen t k _)) fun _ =>
    writeFragments t _ fs

theorem placeFill (t : Nat) (p : Packet) : Keeps P (placeFill h t p) :=
  .bind (.read _) fun _ => .ite
    (.bind (.read _) fun
      | [] => .pure _
      | _ :: _ => .bind b.update fun _ =>
        .bind (.bind (.read _) fun _ => .bind (.read _) fun _ => .bind (b.copyFragments _ _) fun _ => b.zeroPad _ _) fun _ =>
        .bind b.update fun _ => .bind (b.host (b.writeTdFragCount t 1)) fun _ => .bind (.read _) fun _ =>
        .bind (.read _) fun _ => .bind (b.host (b.writeTdFragAddr t 0 _)) fun _ =>
        .bind (b.host (b.writeTdFragLen t 0 _)) fun _ => .pure _)
    (.bind (b.host (b.writeTdFragCount t _)) fun _ => .bind (b.writeFragments t 0 _) fun _ => .pure _)

theorem placeCommand (t : Nat) : Keeps P (placeCommand h t) := by
  refine .bind (.read _) fun _ => .ite
    (.bind (.read _) fun _ => .bind (b.issueLocked _ _ _) fun _ => .ite (.pure _) <| .bind b.update fun _ => .pure _)
    (.bind (.read _) fun _ => .bind (.read _) fun _ => ?_)
  refine .ite (.bind (b.waitAcceptLocked _) ?resume) (.bind (.pure _) ?resume)
  exact fun _ => .ite (.pure _) <| .bind (.read _) fun _ => .bind (b.host (b.writeTdS _ false)) fun _ =>
    .bind (b.issueLocked _ _ _) fun _ => .pure _

theorem placeIssue (t : Nat) : Keeps P (placeIssue h t) :=
  .bind b.point fun _ => .bind (b.lock .cmd) fun _ => .bind (b.placeCommand t) fun _ => .bind (b.unlock .cmd) fun _ => .pure _

theorem place (p : Packet) : Keeps P (place h p) := by
  refine .bind (.read _) fun t => .bind (b.placeFill t p) fun _ => .ite (.pure _) <| .bind b.update fun _ =>
    .bind (b.host (b.writeTdS t true)) fun _ => .bind (b.host (.handOver (b.writeTdC t false))) fun _ => ?_
  refine .ite (.bind (b.placeIssue t) ?rest) (.bind (.pure _) ?rest)
  exact fun _ => .ite (.bind (.bind (b.host (b.writeTdC t true)) fun _ => b.update) fun _ => .pure _) <|
    .bind b.update fun _ => .bind b.update fun _ => .pure _

theorem submit (w : Word) : Keeps P (submit h w) := by
  have locked (p : Packet) : Keeps P (submitLocked h p) :=
    .bind (.read _) fun _ => .ite (b.enqueue p) <| .ite (.ite (.pure _) (b.enqueue p)) <| .ite (b.enqueue p) (b.place p)
  have admitted : Keeps P (submitAdmitted h w) :=
    .bind (.read _) fun s => by
      split
      · exact .pure _
      · exact .ite (.pure _) <| .bind b.point fun _ => .bind (.read _) fun _ => .ite (.pure _) <| .bind b.point fun _ =>
          .bind (b.lock .tx) fun _ => .bind (locked _) fun _ => .bind (b.unlock .tx) fun _ => .pure _
  exact .bind (.read _) fun _ => .ite (.pure _) <| .bind b.update fun _ => .bind admitted fun _ =>
    .bind b.update fun _ => .pure _

theorem drainLoop : ∀ n, Keeps P (drainLoop h n)
  | 0 => .pure _
  | n + 1 => .bind b.point fun _ => .bind (.read _) fun s => .ite
    (by
      split
      · exact .pure _
      · exact .bind (b.place _) fun _ => .ite (.bind b.update fun _ => drainLoop n) <|
          .ite (.pure _) <| .bind b.update fun _ => .pure _)
    (.pure _)

theorem drain : Keeps P (drain h) :=
  .bind (.read _) fun _ => .ite (.pure _) <| .bind b.point fun _ => .bind (b.lock .tx) fun _ => .bind (.read _) fun _ =>
    .bind (b.drainLoop _) fun _ => .bind (b.unlock .tx) fun _ => .bind (b.callbacks _) fun _ => .pure _

theorem reclaimLoop : ∀ n, Keeps P (reclaimLoop h n)
  | 0 => .pure _
  | n + 1 => .bind (.read _) fun i => .bind (.read _) fun _ => .ite
    (.bind (b.host (.readTdC i)) fun _ => .ite
      (.bind (b.retire i) fun _ => .bind (reclaimLoop n) fun _ => .pure _) (.pure _))
    (.pure _)

theorem reclaim : Keeps P (reclaim h) :=
  .bind (.read _) fun _ => .ite (.pure _) <| .bind b.point fun _ => .bind (b.lock .tx) fun _ => .bind (.read _) fun _ =>
    .bind (b.reclaimLoop _) fun _ => .bind b.update fun _ => .bind (.read _) fun _ => .bind (b.unlock .tx) fun _ =>
    .bind (b.completionsDue _) fun _ => .bind b.point fun _ => .bind b.drain fun _ => .pure _

theorem cancel (tag : Word) : Keeps P (cancel h tag) :=
  .bind (.read _) fun _ => .ite (.pure _) <| .bind b.point fun _ => .bind (b.lock .tx) fun _ => .bind (.read _) fun _ =>
    .bind b.update fun _ => .bind (b.unlock .tx) fun _ => .bind (b.callbacks _) fun _ => .pure _

/-! ## The receive side -/

theorem poolAllocRx (d a : Nat) : Keeps P (poolAllocRx h d a) :=
  .bind (.read _) fun _ => .bind b.update fun _ => .bind (b.host (b.writeRdStatus d _ _)) fun _ =>
    .bind (b.host (b.writeRdEL d _)) fun _ => .bind (b.host (b.writeRdLink d _)) fun _ =>
    .bind (b.host (b.writeRdPayloadPtr d _)) fun _ => .bind (b.host (b.writeRdCount d _ _)) fun _ =>
    b.host (b.writeRdCapacity d _)

theorem recycleLocked (d : Nat) : Keeps P (recycleLocked h d) :=
  .bind (b.host (b.writeRdCount d _ _)) fun _ => .bind (b.host (b.writeRdEL d _)) fun _ =>
    .bind (b.host (b.writeRdLink d _)) fun _ => .bind (b.host (b.writeRdStatus d _ _)) fun _ =>
    .bind (.read _) fun last => .bind (.rdAddrOf d) fun _ => by
      cases last with
      | none => exact b.update
      | some q =>
        exact .bind (.bind (b.host (b.writeRdLink q _)) fun _ => b.host (b.writeRdEL q _)) fun _ => b.update

/-- The end of an operation that has returned a descriptor. -/
theorem returned : Keeps P (powerCheck >>= fun due => unlock .rx >>= fun _ => powerSignal h due >>= fun _ => pure Status.ok) :=
  .bind b.powerCheck fun _ => .bind (b.unlock .rx) fun _ => .bind (.ite (b.callbacks _) (.pure _)) fun _ => .pure _

theorem recycle (d : Nat) : Keeps P (recycle h d) :=
  .bind (.read _) fun _ => .ite (.pure _) <| .bind b.point fun _ => .bind (b.lock .rx) fun _ =>
    .bind (b.detachPending d) fun _ => .bind (b.recycleLocked d) fun _ => b.returned

theorem rxReturn (d : Nat) : Keeps P (rxReturn h d) :=
  .bind (.read _) fun _ => .ite (.pure _) <| .bind b.point fun _ => .bind (b.lock .rx) fun _ =>
    .bind (b.detachPending d) fun _ => .bind (.read _) fun _ =>
    .ite (.bind (b.shrinkLocked d) fun _ => b.returned) (.bind (b.recycleLocked d) fun _ => b.returned)

theorem shrink (d : Nat) : Keeps P (shrink h d) :=
  .bind (.read _) fun _ => .ite (.pure _) <| .bind b.point fun _ => .bind (b.lock .rx) fun _ => .bind (.read _) fun _ =>
    .ite (.bind (b.unlock .rx) fun _ => .pure _) <|
    .bind (b.detachPending d) fun _ => .bind (b.shrinkLocked d) fun _ => b.returned

theorem grow : Keeps P (grow h) :=
  .bind (.read _) fun _ => .ite (.pure _) <| .bind b.point fun _ => .bind (b.lock .rx) fun _ =>
    .bind b.growLocked fun _ => .bind (b.unlock .rx) fun _ => .pure _

theorem growComplete (ok : Bool) (a : Nat) : Keeps P (growComplete h ok a) := by
  refine .bind (.read _) fun _ => .ite (.pure _) <| .bind b.point fun _ => .bind (b.lock .rx) fun _ => .bind (.read _) fun s => ?_
  split
  · exact .fault _
  · rename_i d _
    have finish : Keeps P (updateRx (fun r => { r with allocState := .idle }) >>= fun _ => Machine.unlock .rx >>= fun _ =>
        Machine.point h >>= fun _ => release >>= fun _ => pure Status.ok) :=
      .bind b.update fun _ => .bind (b.unlock .rx) fun _ => .bind b.point fun _ => .bind b.update fun _ => .pure _
    have dropped := Keeps.bind (b.update (f := State.mapRx fun x => x.dropShadow d)) fun _ => finish
    refine .ite (.bind (b.takeRegion a) ?rest) (?rest ())
    exact fun _ => .ite
      (.bind (b.poolAllocRx d a) fun _ => .bind b.update fun _ => .bind (b.recycleLocked d) fun _ => finish)
      (.ite (.bind b.update fun _ => dropped) dropped)

theorem gatherFrames : ∀ batch, Keeps P (gatherFrames h batch)
  | [] => .pure _
  | (d, _) :: rest => .bind (b.host (.readRdPayloadPtr d)) fun _ => .bind (.read _) fun _ =>
    .bind (b.host (.memRead _ _)) fun _ => .bind (gatherFrames rest) fun _ => .pure _

theorem recycleLow : ∀ batch, Keeps P (recycleLow h batch)
  | [] => .pure _
  | (d, _) :: rest => .ite (.bind (b.recycleLocked d) fun _ => recycleLow rest) (recycleLow rest)

theorem flush (batch : List (Nat × Bool)) : Keeps P (flush h batch) :=
  .bind (b.gatherFrames batch) fun _ => .bind b.update fun _ => .bind (.read _) fun _ => .bind (b.unlock .rx) fun _ =>
    .bind (b.indicationsDue _) fun _ => .bind (b.lock .rx) fun _ => b.recycleLow batch

theorem dispose (d : Nat) : Keeps P (dispose h d) :=
  .bind (b.host (.readRdCount d)) fun _ => .bind b.update fun _ => .bind (b.host (.readRdOK d)) fun _ =>
    .bind (b.host (.read _)) fun _ => .bind (.read _) fun _ => .ite (.bind (b.recycleLocked d) fun _ => .pure _) <|
    .ite (.bind b.update fun _ => .pure _) (.bind b.update fun _ => .pure _)

theorem harvestLoop : ∀ n batch, Keeps P (harvestLoop h n batch)
  | 0, _ => .pure _
  | n + 1, _ => .bind (.read _) fun
    | [] => .pure _
    | d :: _ => .bind (.bind (b.host (.readRdC d)) fun _ => .ite (b.host (.readRdV d)) (.pure _)) fun _ => .ite
      (.bind b.update fun _ => .bind (b.dispose d) fun _ =>
        .bind (.bind (.read _) fun _ => .ite (.bind (b.flush _) fun _ => .pure _) (.pure _)) fun _ => harvestLoop n _)
      (.pure _)

theorem harvest : Keeps P (harvest h) := by
  refine .bind (.read _) fun _ => .ite (.pure _) <| .bind b.point fun _ => .bind (b.lock .rx) fun _ =>
    .bind (.read _) fun n => .bind (b.harvestLoop n []) fun batch => ?_
  refine .ite (.bind (b.flush batch) ?rest) (?rest ())
  exact fun _ => .bind b.updateThresholds fun _ => .bind (b.unlock .rx) fun _ => .pure _

theorem firstUntouched : ∀ ds, Keeps P (firstUntouched h ds)
  | [] => .pure _
  | d :: ds => .bind (b.host (.readRdC d)) fun _ => .ite (firstUntouched ds) <|
    .bind (b.host (.readRdV d)) fun _ => .ite (firstUntouched ds) (.pure _)

theorem startAt : ∀ found, Keeps P (startAt h found)
  | none => .bind (b.unlock .rx) fun _ => .pure _
  | some d => .bind (.rdAddrOf d) fun _ => .bind b.point fun _ => .bind (b.lock .cmd) fun _ =>
    .bind (b.issueLocked _ _ _) fun _ => .bind (b.unlock .cmd) fun _ => .bind (b.unlock .rx) fun _ => .pure _

theorem ensureStarted : Keeps P (ensureStarted h) :=
  .bind (.read _) fun _ => .ite (.pure _) <| .bind b.point fun _ => .bind (.read _) fun _ => .ite (.pure _) <|
    .bind (b.host (.regRead _)) fun _ => .ite (.pure _) <| .bind b.point fun _ => .bind (b.lock .rx) fun _ =>
    .bind (.read _) fun _ => .bind (b.firstUntouched _) fun _ => .ite
      (.bind (b.unlock .rx) fun _ => .bind b.point fun _ => .bind b.harvest fun _ => .bind b.point fun _ =>
        .bind (b.lock .rx) fun _ => .bind (.read _) fun _ => .bind (b.firstUntouched _) fun _ => b.startAt _)
      (b.startAt _)

/-! ## The link machine -/

theorem phyProbe (a : PhyAddress) : Keeps P (phyProbe h a) := .bind (b.host (.regRead _)) fun _ => .pure _

theorem linkStart : Keeps P (linkStart h) :=
  .bind (.read _) fun _ => .ite (.pure _) <| .bind b.point fun _ => .bind (b.lock .dev) fun _ => .bind (.read _) fun _ =>
    .ite (.bind (b.unlock .dev) fun _ => .pure _) <|
    .bind b.update fun _ => .bind b.update fun _ => .bind (b.unlock .dev) fun _ => .pure _

theorem scan : ∀ as, Keeps P (scan h as)
  | [] => .bind (.read _) fun _ => .bind b.update fun _ => .pure _
  | a :: as => .bind (b.phyProbe a) fun _ => .ite (.bind b.update fun _ => scan as) <|
    .ite (.bind b.update fun _ => .pure _) (.bind (.read _) fun _ => .bind b.update fun _ => .pure _)

theorem waitStep : Keeps P (waitStep h) := by
  have chosen (x : Selection) : Keeps P (choose x >>= fun _ => endWait >>= fun _ => pure false) :=
    .bind b.update fun _ => .bind b.update fun _ => .pure _
  exact .bind (.read _) fun
    | none => .fault _
    | some a => .bind (b.phyProbe a) fun _ => .ite (chosen _) <| .bind b.update fun _ => .bind (.read _) fun _ =>
      .ite (.bind (.read _) fun _ => chosen _) (.pure _)

theorem linkAdvance : Keeps P (linkAdvance h) :=
  .bind (.read _) fun s => by
    split
    · exact b.scan _
    · exact b.waitStep
    · exact .pure _
    · exact .fault _
    · exact .fault _

theorem configure : Keeps P (configure h) :=
  .bind (.read _) fun
    | .addr a => .bind (b.phyProbe a) fun _ => .ite (b.host b.update) (b.host b.update)
    | .connector _ => b.update
    | .alternateWiring => b.update
    | .none => .fault _

theorem valueOf : ∀ prop, Keeps P (valueOf h prop)
  | .linkSpeed => .read _
  | .mediaState => .bind (.read _) fun _ => .bind (b.host (.read _)) fun _ => .bind (b.host (.read _)) fun _ => .pure _

theorem getProperty (q : Word) (prop : Property) : Keeps P (getProperty h q prop) :=
  .bind (.read _) fun _ => .ite (.pure _) <| .bind b.point fun _ => .bind (b.lock .dev) fun _ => .bind (.read _) fun _ =>
    .ite (.bind b.update fun _ => .bind (b.unlock .dev) fun _ => .pure _) <|
    .bind (b.valueOf prop) fun _ => .bind (b.unlock .dev) fun _ => .bind (b.callbacks _) fun _ => .pure _

/-- A setting is deferred or applied. -/
theorem deferOrApply {f g : State → State} (hf : Keeps P (update f)) (hg : Keeps P (update g)) :
    Keeps P (Machine.point h >>= fun _ => Machine.lock .dev >>= fun _ => read (fun s => s.link.phase.inProgress) >>= fun busy =>
      if busy then update f >>= fun _ => unlock .dev >>= fun _ => pure Status.pending
      else update g >>= fun _ => unlock .dev >>= fun _ => pure Status.ok) :=
  .bind b.point fun _ => .bind (b.lock .dev) fun _ => .bind (.read _) fun _ =>
    .ite (.bind hf fun _ => .bind (b.unlock .dev) fun _ => .pure _) (.bind hg fun _ => .bind (b.unlock .dev) fun _ => .pure _)

theorem setFilter (mask : Word) : Keeps P (setFilter h mask) :=
  .bind (.read _) fun _ => .ite (.pure _) (b.deferOrApply b.update b.update)

theorem setMcast (handle : Word) : Keeps P (setMcast h handle) :=
  .bind (.read _) fun _ => .bind (.read _) fun found => .ite (.pure _) <| match found with
    | none => .pure _
    | some _ => b.deferOrApply b.update b.update

theorem reprobe : Keeps P (reprobe h) :=
  .bind (.read _) fun
    | .addr a => .bind (b.phyProbe a) fun _ => .bind (.read _) fun _ => .ite
      (.bind (b.host b.update) fun _ => .pure _) (.bind (b.host b.update) fun _ => .pure _)
    | .connector _ => .pure _
    | .alternateWiring => .pure _
    | .none => .pure _

theorem completeReads : ∀ reads, Keeps P (completeReads h reads)
  | [] => .pure _
  | (_, prop) :: rest => .bind b.point fun _ => .bind (b.valueOf prop) fun _ => .bind (b.callbacks _) fun _ =>
    completeReads rest

/-! ## Device control that writes no mask -/

theorem armHealthTimer : Keeps P (armHealthTimer h) := .bind b.point fun _ => b.update

theorem interrupt : Keeps P (interrupt h) := by
  have served : Keeps P (serve h) :=
    .bind (b.host (.regRead _)) fun _ => .bind (b.host (.regRead _)) fun _ => .ite (.pure _) <|
      .bind (b.host (b.regWrite_status _)) fun _ => .bind b.point fun _ => .bind b.reclaim fun _ => .bind b.point fun _ =>
      .bind b.harvest fun _ => .bind b.point fun _ => .bind b.ensureStarted fun _ => .pure _
  exact .bind (.read _) fun _ => .bind (.read _) fun _ => .ite .blocked <| .ite (.pure _) <| .bind b.update fun _ =>
    .bind served fun _ => .bind b.update fun _ => .pure _

theorem setPower (target : PowerState) : Keeps P (setPower h target) :=
  .bind (.read _) fun _ => .ite (.pure _) <| .bind b.point fun _ => .bind (b.lock .dev) fun _ => .bind b.point fun _ =>
    .bind (b.lock .rx) fun _ => .bind b.update fun _ => match target with
    | .fullyPowered => .bind b.update fun _ => .bind (b.unlock .rx) fun _ => .bind (b.unlock .dev) fun _ => .pure _
    | .lowPower => .bind (.read _) fun _ => .ite
      (.bind b.update fun _ => .bind (b.unlock .rx) fun _ => .bind (b.unlock .dev) fun _ => .pure _)
      (.bind (b.unlock .rx) fun _ => .bind (b.unlock .dev) fun _ => .bind (b.callbacks _) fun _ => .pure _)

theorem clearFragments (i : Nat) : ∀ ks, Keeps P (clearFragments h i ks)
  | [] => .pure _
  | k :: ks => .bind (b.host (b.writeTdFragAddr i k 0)) fun _ => .bind (b.host (b.writeTdFragLen i k 0)) fun _ =>
    clearFragments i ks

theorem clearSlots : ∀ is, Keeps P (clearSlots h is)
  | [] => .pure _
  | i :: is => .bind (b.host (b.writeTdReserved i)) fun _ => .bind (.read _) fun _ => .bind (b.clearFragments i _) fun _ =>
    clearSlots is

theorem startReceive : ∀ k bases, Keeps P (startReceive h k bases)
  | _, [] => .pure _
  | k, a :: rest => .bind (b.poolAllocRx k a) fun _ => .bind b.update fun _ => .bind (b.recycleLocked k) fun _ =>
    startReceive (k + 1) rest

theorem resetFailed : Keeps P (resetFailed h) :=
  .bind (b.lock .dev) fun _ => .bind b.update fun _ => .bind (.read _) fun _ => .ite
    (.bind (b.unlock .dev) fun _ => .pure _)
    (.bind b.update fun _ => .bind (b.unlock .dev) fun _ => .bind b.point fun _ => .bind b.update fun _ =>
      .bind (b.host b.cancelLinkTimer) fun _ => .pure _)

theorem rearmPosted : ∀ ds, Keeps P (rearmPosted h ds)
  | [] => .pure _
  | d :: ds => .bind (b.host (b.writeRdCount d 0 false)) fun _ => .bind (b.host (b.writeRdStatus d false false)) fun _ =>
    rearmPosted ds

theorem resetRestart : Keeps P (resetRestart h) :=
  .bind b.ensureStarted fun _ => .ite
    (.bind b.point fun _ => .bind (.read _) fun _ => .bind (b.lock .cmd) fun _ => .bind (b.waitAcceptLocked _) fun _ =>
      .bind (b.unlock .cmd) fun _ => .pure _)
    (.pure _)

theorem teardownFinish : Keeps P (teardownFinish h) := by
  have late : Keeps P (abortLate h) :=
    .bind (.read _) fun _ => .ite
      (.bind b.point fun _ => .bind (b.lock .dev) fun _ => .bind b.point fun _ => .bind (b.lock .tx) fun _ =>
        .bind b.abortHeld fun _ => .bind (b.unlock .tx) fun _ => .bind (b.unlock .dev) fun _ => b.callbacks _)
      (.pure _)
  exact .bind (.read _) fun _ => .ite (.bind late fun _ => .bind (.read _) fun _ => .ite b.teardownFree (.pure _)) (.pure _)

theorem hangCheck : Keeps P (hangCheck h) :=
  .bind (.read _) fun _ => .ite
    (.bind (b.host (.readTdC _)) fun _ => .ite (.pure _) <| .bind b.update fun _ => .read _)
    (.pure _)

end RegHost

/-! ## The operations that write INTMASK -/

/-- An invariant that a write of `INTMASK` and the full reset keep as well. -/
structure MaskHost (h : Handler) (P : State → Prop) : Prop extends RegHost h P where
  mask : ∀ v, Keeps P (regWrite .intmask v)
  full : Keeps P fullReset

namespace MaskHost
variable (m : MaskHost h P)
include m

theorem setMask (v : Word) : Keeps P (setMask h v) := Keeps.sync m.point (m.mask v)

theorem maskRequest (v : Word) : Keeps P (maskRequest h v) :=
  .bind (.read _) fun _ => .ite (.pure _) <| .bind m.point fun _ => .bind (m.setMask v) fun _ => .pure _

theorem startInitialise (base : Nat) (bufs regions : List Nat) : Keeps P (startInitialise h base bufs regions) :=
  .bind m.update fun _ => .bind (m.host m.full) fun _ =>
    .bind (.bind m.update fun _ => .bind (.read _) fun _ => m.clearSlots _) fun _ => .bind m.point fun _ =>
    .bind (m.lock .tx) fun _ => .bind m.poolInitTx fun _ => .bind (m.unlock .tx) fun _ => .bind m.point fun _ =>
    .bind m.update fun _ => .bind m.point fun _ => .bind (m.lock .rx) fun _ => .bind (m.startReceive 0 regions) fun _ =>
    .bind (m.unlock .rx) fun _ => .bind m.point fun _ => .bind m.update fun _ => m.update

theorem start : Keeps P (start h) :=
  .bind (.read _) fun _ => .ite .blocked <| .ite (.pure _) <| .bind m.startAllocate fun
    | none => .bind m.update fun _ => .pure _
    | some (base, bufs, regions) => .bind (m.startInitialise base bufs regions) fun _ => .bind m.point fun _ =>
      .bind m.linkStart fun _ => .bind m.point fun _ => .bind m.ensureStarted fun _ => .bind (m.setMask 0) fun _ =>
      .bind m.armHealthTimer fun _ => .pure _

theorem resetRings : Keeps P (resetRings h) :=
  .bind (m.setMask 1) fun _ => .bind m.point fun _ => .bind (m.lock .tx) fun _ => .bind m.point fun _ =>
    .bind (m.lock .rx) fun _ => .bind (m.host m.full) fun _ => .bind m.point fun _ => .bind m.update fun _ =>
    .bind m.abortHeld fun _ => .bind m.point fun _ => .bind (m.lock .cmd) fun _ => .bind m.update fun _ =>
    .bind (m.unlock .cmd) fun _ => .bind (.read _) fun _ => .bind (m.rearmPosted _) fun _ => .bind (m.unlock .rx) fun _ =>
    .bind (m.unlock .tx) fun _ => .bind (m.unlock .dev) fun _ => .pure _

theorem reset : Keeps P (reset h) :=
  .bind (.read _) fun _ => .ite (.pure _) <| .ite (.pure _) <| .bind m.point fun _ => .bind (m.lock .dev) fun _ =>
    .bind (.read _) fun _ => .ite (.bind m.update fun _ => .bind (m.unlock .dev) fun _ => .pure _) <|
    .bind m.resetRings fun _ => .bind (m.callbacks _) fun _ => .bind m.point fun _ => .bind m.resetRestart fun _ =>
    .bind m.point fun _ => .ite m.resetFailed <| .bind (m.lock .dev) fun _ => .bind m.update fun _ =>
    .bind (m.unlock .dev) fun _ => .bind (m.setMask 0) fun _ => .bind m.point fun _ => .bind m.linkStart fun _ => .pure _

theorem teardown : Keeps P (teardown h) := by
  refine .bind (.read _) fun _ => .ite (.pure _) <| .bind m.update fun _ => .bind m.point fun _ =>
    .bind (m.lock .dev) fun _ => .bind m.update fun _ => .bind (m.unlock .dev) fun _ => .bind m.point fun _ =>
    .bind (m.setMask 1) fun _ => .bind m.point fun _ => .bind m.update fun _ => .bind m.point fun _ =>
    .bind (.read _) fun _ => ?_
  refine .ite (.bind (m.host m.cancelLinkTimer) ?rest) (?rest ())
  exact fun _ => .bind (m.host m.selectiveReset) fun _ => .bind m.point fun _ => .bind (m.lock .dev) fun _ =>
    .bind m.point fun _ => .bind (m.lock .tx) fun _ => .bind m.abortHeld fun _ => .bind (.read _) fun _ =>
    .bind m.update fun _ => .bind (m.unlock .tx) fun _ => .bind (m.unlock .dev) fun _ => .bind (m.callbacks _) fun _ =>
    .bind (m.callbacks _) fun _ => .bind m.update fun _ => .pure _

theorem healthBody : Keeps P (healthBody h) := by
  have restart : Keeps P (ensureStarted h >>= fun _ => pure Status.ok) := .bind m.ensureStarted fun _ => .pure _
  exact .bind (.read _) fun _ => .bind m.point fun _ => .ite m.reset <| .bind (m.lock .tx) fun _ => .bind m.hangCheck fun _ =>
    .bind (m.unlock .tx) fun _ => .bind m.point fun _ => .ite m.reset <| .bind (m.lock .dev) fun _ => .bind m.reprobe fun _ =>
    .bind (m.unlock .dev) fun _ => .bind m.point fun _ =>
    .ite (.bind m.drain fun _ => .bind m.point fun _ => restart) restart

theorem healthCheck : Keeps P (healthCheck h) :=
  .bind (.read _) fun _ => .ite (.pure _) <| .bind m.point fun _ => .bind m.update fun _ => .bind m.point fun _ =>
    .bind (.read _) fun _ => .ite (.pure _) <| .bind m.point fun _ => .bind (.read _) fun _ => .ite
    (.bind m.armHealthTimer fun _ => .pure _) <| .bind m.point fun _ => .bind m.healthBody fun _ => .bind m.point fun _ =>
    .bind (.read _) fun _ => .ite (.bind m.armHealthTimer fun _ => .pure _) (.pure _)

theorem releaseDeferred : Keeps P (releaseDeferred h) :=
  .bind m.update fun _ => .bind m.point fun _ => .bind (m.lock .dev) fun _ => .bind (.read _) fun _ => .bind m.update fun _ =>
    .bind (m.unlock .dev) fun _ => .bind (m.completeReads _) fun _ => .bind m.point fun _ =>
    .ite (.bind m.reset fun _ => .pure _) (.bind m.drain fun _ => .pure _)

theorem linkTick : Keeps P (linkTick h) := by
  have linkStep : Keeps P (linkStep h) :=
    .bind m.point fun _ => .bind (m.lock .dev) fun _ => .bind m.linkAdvance fun _ => .ite
      (.bind m.update fun _ => .bind (m.unlock .dev) fun _ => .pure _)
      (.bind m.configure fun _ => .bind m.update fun _ => .bind (m.unlock .dev) fun _ => .bind m.point fun _ =>
        .bind m.releaseDeferred fun _ => .pure _)
  exact .bind (.read _) fun _ => .ite (.pure _) <| .bind (m.host m.takeLinkTimer) fun _ => .ite linkStep (.pure _)

end MaskHost

end Sys2Proof.Machine
end

