-- ==== Sys2Proof/Proofs/LegalRegisters.lean ====
section
/-!
PROOF. Legal registers stay legal through every step of every agent: what the requests and the agents do to a register is
`RegStep`, a write of `INTMASK` or the full reset, and none of these makes a reserved bit or code.
-/
namespace Sys2Proof.Machine

variable {P : State → Prop} {h : Handler}

/-! ## Every request and every step -/

/-- The instructions that write `INTMASK`, and those that run RESET (R276, R319). -/
def Instr.writesMask : Instr → Bool
  | .start | .teardown | .reset | .healthCheck | .intEnable | .intDisable | .linkTick | .fullReset => true
  | _ => false

theorem RegHost.perform (b : RegHost h P) : ∀ i : Instr, Instr.writesMask i = false → Keeps P (perform h i)
  | .interrupt, _ => .map _ b.interrupt
  | .setPower target, _ => .map _ (b.setPower target)
  | .submit handle, _ => .map _ (b.submit handle)
  | .reclaim, _ => .map _ b.reclaim
  | .cancel tag, _ => .map _ (b.cancel tag)
  | .drain, _ => .map _ b.drain
  | .harvest, _ => .map _ b.harvest
  | .recycle _, _ => .map _ (b.recycle _)
  | .ensureStarted, _ => .map _ b.ensureStarted
  | .grow, _ => .map _ b.grow
  | .growComplete ok _, _ => .map _ (b.growComplete ok _)
  | .rxReturn _, _ => .map _ (b.rxReturn _)
  | .shrink _, _ => .map _ (b.shrink _)
  | .issueCommand wait code pointer, _ => .map _ (b.issueRequest wait code pointer)
  | .waitAccept budget, _ => .map _ (b.waitRequest budget)
  | .linkStart, _ => .map _ b.linkStart
  | .getLinkSpeed q, _ => .map _ (b.getProperty q _)
  | .getMediaState q, _ => .map _ (b.getProperty q _)
  | .setFilter mask, _ => .map _ (b.setFilter mask)
  | .setMcast l, _ => .map _ (b.setMcast l)
  | .cuStart, _ => .map _ b.acceptCuStart
  | .cuResume, _ => .map _ b.acceptCuResume
  | .ruStart, _ => .map _ b.acceptRuStart
  | .selectiveReset, _ => .map _ b.selectiveReset
  | .start, hi | .teardown, hi | .reset, hi | .healthCheck, hi | .intEnable, hi | .intDisable, hi | .linkTick, hi
  | .fullReset, hi => by cases hi

namespace MaskHost
variable (m : MaskHost h P)
include m

theorem perform (i : Instr) : Keeps P (perform h i) := by
  cases hi : Instr.writesMask i with
  | false => exact m.toRegHost.perform i hi
  | true =>
    cases i with
    | start => exact .map _ m.start
    | teardown => exact m.teardown
    | reset => exact .map _ m.reset
    | healthCheck => exact .map _ m.healthCheck
    | intEnable => exact .map _ (m.maskRequest 0)
    | intDisable => exact .map _ (m.maskRequest 1)
    | linkTick => exact .map _ m.linkTick
    | fullReset => exact .map _ m.full
    | _ => cases hi

theorem request (w : RequestWord) : Keeps P (request h w) := by
  unfold Machine.request
  split
  · exact m.recordResult _
  · exact .bind (m.perform _) fun _ => m.recordResult _

theorem regWriteAt (offset : Nat) (v : Word) : Keeps P (regWriteAt offset v) := by
  unfold Machine.regWriteAt
  split
  · rename_i reg _
    cases reg with
    | status => exact m.regWrite_status v
    | command => exact m.regWrite_command v
    | pointer => exact m.regWrite_pointer v
    | intmask => exact m.mask v
    | port => exact .ite m.selectiveReset <| .ite m.full (.fault _)
    | phystat _ => exact .pure _
  · exact .fault _

/-- Every step of every agent inside an operation. -/
theorem occur : ∀ e, Keeps P (occur h e)
  | .request w => m.request w
  | .device d => m.deviceStep d
  | .registerWrite offset v => m.regWriteAt offset v
  | .teardownFinish => m.teardownFinish
  | .memoryWrite a bytes => m.memWrite a bytes
  | .providePacket _ => m.update
  | .provideMcastList _ _ => m.update
  | .allocatorReply _ => m.update
  | .lookasideReply _ => m.update

end MaskHost

/-- An instruction that answers keeps what its operation keeps. -/
theorem RegBlind.exec (b : RegBlind P) {i : Instr} {s t : State} (hp : Keeps P (perform (handlerOf s) i)) (hs : P s)
    (hr : exec i s = .next t) : P t := by
  rcases exec_eq i s with ⟨m, he, hm⟩ | ⟨m, he, hm⟩ | ⟨m, he, hm⟩ <;> rw [he] at hr <;> rw [hm] at hp
  · obtain ⟨st, u, hu, rfl⟩ := answer_eq_next.1 hr
    exact b.blind u _ rfl rfl (hp s _ u hs (Op.map_eq_ok.2 ⟨st, hu, rfl⟩))
  · obtain ⟨st, u, hu, rfl⟩ := answerLater_eq_next.1 hr
    exact b.blind u _ rfl rfl (hp s _ u hs hu)
  · exact hp s _ t hs (Op.map_eq_ok.2 ⟨(), outcome_eq_next.1 hr, rfl⟩)

/-- A step that proceeds keeps what every instruction and every step of an agent keeps. -/
theorem MaskHost.step {s t : State} (m : MaskHost (handlerOf s.advance) P) (hs : P s) (hr : step s = .next t) : P t := by
  have ha : P s.advance := m.blind s _ rfl rfl hs
  rcases step_eq_next hr with ⟨i, hi⟩ | rfl | rfl | ⟨e, he⟩
  · exact m.exec (m.perform i) ha hi
  · exact m.blind s.advance _ rfl rfl ha
  · exact hs
  · exact m.occur e _ _ t ha (outcome_eq_next.1 he)

/-! ## Legal registers -/

/-- The registers of the state are legal. -/
def LegalRegs (s : State) : Prop := s.regs.Legal

theorem Registers.Legal.setMask {r : Registers} (hr : r.Legal) {v : Word} (hv : v.toNat ≤ 1) :
    Registers.Legal { r with intmask := v } := by
  rw [Registers.legal_iff] at hr ⊢
  obtain ⟨hs, hc, _, hp⟩ := hr
  exact ⟨hs, hc, hv, hp⟩

theorem legalRegs_blind : RegBlind LegalRegs where
  blind s t hr _ hs := by rwa [LegalRegs, hr]
  change _ _ hf hs := hf.legal hs

theorem legalRegs_regWrite_intmask (v : Word) : Keeps LegalRegs (regWrite .intmask v) :=
  .update fun s hs => hs.setMask <| by
    rw [BitVec.toNat_and]
    exact Nat.and_le_right

/-- The full reset sets the mask bit and, beside the selective reset, clears causes and `POINTER` (R200). -/
theorem legalRegs_fullReset : Keeps LegalRegs fullReset := by
  refine .bind legalRegs_blind.selectiveReset fun _ => .bind (.update fun s hs => ?_) fun _ => legalRegs_blind.update
  obtain ⟨_, _, hmask, _⟩ := (Registers.legal_iff _).1 hs
  have hcleared := (RegStep.trans (.pointer 0) (.acknowledge causeMask)).legal hs
  refine hcleared.setMask (Nat.le_of_lt_succ ?_)
  rw [BitVec.toNat_or]
  exact Nat.or_lt_two_pow (n := 1) (Nat.lt_succ_of_le hmask) (by decide)

theorem legalRegs_maskHost (hh : ∀ e, Keeps LegalRegs (h e)) : MaskHost h LegalRegs where
  toRegBlind := legalRegs_blind
  point := .point (fun _ _ hs => hs) (.intrude (fun _ _ hs => hs) (fun _ _ hs => hs) hh)
  mask := legalRegs_regWrite_intmask
  full := legalRegs_fullReset

/-- At every depth. -/
theorem legalRegs_handler (n : Nat) : ∀ e, Keeps LegalRegs (reenter n e) :=
  Keeps.reenter (fun _ hh => (legalRegs_maskHost hh).occur) n

/-- Settles O7: every change of a register that a step makes keeps the registers legal. -/
theorem stepKeepsRegistersLegal : Obligations.StepKeepsRegistersLegal := fun _ _ hs hr =>
  (legalRegs_maskHost (legalRegs_handler _)).step hs hr

end Sys2Proof.Machine
end

