-- ==== Sys2Proof/Proofs/PoolInit.lean ====
section
/-!
PROOF. POOL_INIT_TX (spec/40_descriptor_pool.md R134) with nothing scheduled inside it: the memory its descriptor writes leave,
written out as a function of the memory before, and what that memory reads as inside and outside the array.
-/
namespace Sys2Proof.Machine

variable {h : Handler} {s : State}

/-! ## One descriptor -/

/-- The memory after the four writes of POOL_INIT_TX to the descriptor at `a`, in their order. -/
def freshDescriptor (a : Nat) (link : Word) (m : Memory) : Memory :=
  (((m.write16 a (tdStatusWord true)).write16 (a + 2) (tdCommandWord false)).write32 (a + 4) link).setByte (a + 8) 0

/-- The descriptor at `a` reads as R134 leaves it: software-owned, `S` 0, no fragments, the given link. -/
def Memory.TdFresh (m : Memory) (a : Nat) (link : Word) : Prop :=
  (m.read16 a).getLsbD 15 = true ∧ (m.read16 (a + 2)).getLsbD 14 = false ∧ m.read32 (a + 4) = link ∧ m.byte (a + 8) = 0

/-- Whether a descriptor is fresh is read off its first 9 bytes. -/
theorem Memory.TdFresh.congr {m m' : Memory} {a : Nat} {link : Word} (hm : m.TdFresh a link)
    (he : ∀ x, a ≤ x → x < a + 9 → m'.byte x = m.byte x) : m'.TdFresh a link := by
  unfold Memory.TdFresh
  rwa [Memory.read16_congr a fun x _ _ => he x (by omega) (by omega),
    Memory.read16_congr (a + 2) fun x _ _ => he x (by omega) (by omega),
    Memory.read32_congr (a + 4) fun x _ _ => he x (by omega) (by omega), he (a + 8) (by omega) (by omega)]

theorem freshDescriptor_wf {m : Memory} (hm : m.wf = true) (a : Nat) (link : Word) :
    (freshDescriptor a link m).wf = true :=
  Memory.wf_setByte (Memory.wf_write32 (Memory.wf_write16 (Memory.wf_write16 hm _ _) _ _) _ _) _ _

theorem freshDescriptor_outside (m : Memory) (a : Nat) (link : Word) {x : Nat} (hx : x < a ∨ a + 9 ≤ x) :
    (freshDescriptor a link m).byte x = m.byte x := by
  rw [freshDescriptor, Memory.byte_setByte_ne _ _ (by omega), Memory.byte_write32_outside _ _ _ (by omega),
    Memory.byte_write16_outside _ _ _ (by omega), Memory.byte_write16_outside _ _ _ (by omega)]

/-- Each field reads back, the later writes being to other bytes. -/
theorem freshDescriptor_tdFresh {m : Memory} (hm : m.wf = true) (a : Nat) (link : Word) :
    (freshDescriptor a link m).TdFresh a link := by
  have h1 := Memory.wf_write16 hm a (tdStatusWord true)
  have h2 := Memory.wf_write16 h1 (a + 2) (tdCommandWord false)
  have h3 := Memory.wf_write32 h2 (a + 4) link
  refine ⟨?status, ?command, ?link, Memory.byte_setByte_same h3 _ _⟩
  case status =>
    rw [Memory.read16_congr (m := m.write16 a (tdStatusWord true)) a, Memory.read16_write16 hm]
    · rfl
    · intro x _ _
      rw [freshDescriptor, Memory.byte_setByte_ne _ _ (by omega), Memory.byte_write32_outside _ _ _ (by omega),
        Memory.byte_write16_outside _ _ _ (by omega)]
  case command =>
    rw [Memory.read16_congr (m := (m.write16 a (tdStatusWord true)).write16 (a + 2) (tdCommandWord false)) (a + 2),
      Memory.read16_write16 h1]
    · rfl
    · intro x _ _
      rw [freshDescriptor, Memory.byte_setByte_ne _ _ (by omega), Memory.byte_write32_outside _ _ _ (by omega)]
  case link =>
    rw [freshDescriptor, Memory.read32_congr (a + 4) fun x _ _ => Memory.byte_setByte_ne _ (a := a + 8) 0 (by omega),
      Memory.read32_write32 h2]

/-! ## The array -/

/-- The word that leads from slot `i` to the slot behind it. -/
def State.nextLink (s : State) (i : Nat) : Word := addrWord (s.tdAddr (s.cfg.next i))

/-- The memory after the descriptor part of POOL_INIT_TX on slots `is`. -/
def State.freshDescriptors (s : State) : List Nat → Memory → Memory
  | [], m => m
  | i :: is, m => s.freshDescriptors is (freshDescriptor (s.tdAddr i) (s.nextLink i) m)

/-- Where the descriptors lie is read off the ring and the configuration, which a write to memory leaves alone. -/
theorem State.freshDescriptors_mapMem (s : State) (f : Memory → Memory) (is : List Nat) (m : Memory) :
    (s.mapMem f).freshDescriptors is m = s.freshDescriptors is m := by
  induction is generalizing m with
  | nil => rfl
  | cons i is ih => exact ih _

/-- The slots of the array lie one behind the other. -/
theorem State.tdAddr_add_tdSize_le (s : State) {i j : Nat} (hij : i < j) : s.tdAddr i + s.cfg.tdSize ≤ s.tdAddr j := by
  have := Nat.mul_le_mul_right s.cfg.tdSize (Nat.succ_le_of_lt hij)
  rw [Nat.succ_mul] at this
  unfold State.tdAddr
  omega

theorem twelve_le_tdSize (c : Config) : 12 ≤ c.tdSize := Nat.le_add_right _ _

/-- No slot begins inside the fields of another. -/
theorem State.tdAddr_apart (s : State) {i j : Nat} (hij : i ≠ j) :
    s.tdAddr i + 12 ≤ s.tdAddr j ∨ s.tdAddr j + 12 ≤ s.tdAddr i := by
  have hsize := twelve_le_tdSize s.cfg
  rcases Nat.lt_or_gt_of_ne hij with hlt | hgt
  · exact .inl (le_trans (by omega) (s.tdAddr_add_tdSize_le hlt))
  · exact .inr (le_trans (by omega) (s.tdAddr_add_tdSize_le hgt))

theorem State.freshDescriptors_outside {is : List Nat} {m : Memory} {x : Nat}
    (hx : ∀ i ∈ is, x < s.tdAddr i ∨ s.tdAddr i + 9 ≤ x) : (s.freshDescriptors is m).byte x = m.byte x := by
  induction is generalizing m with
  | nil => rfl
  | cons i is ih =>
    obtain ⟨hi, his⟩ := List.forall_mem_cons.1 hx
    rw [State.freshDescriptors, ih his, freshDescriptor_outside _ _ _ hi]

/-- Every slot written is fresh at the end: the slots written after it are other slots, or it again. -/
theorem State.freshDescriptors_tdFresh {is : List Nat} {m : Memory} (hm : m.wf = true) {j : Nat} (hj : j ∈ is) :
    (s.freshDescriptors is m).TdFresh (s.tdAddr j) (s.nextLink j) := by
  induction is generalizing m with
  | nil => cases hj
  | cons i is ih =>
    have hwf := freshDescriptor_wf hm (s.tdAddr i) (s.nextLink i)
    by_cases hlater : j ∈ is
    · exact ih hwf hlater
    · obtain rfl : j = i := (List.mem_cons.1 hj).resolve_right hlater
      rw [State.freshDescriptors]
      refine (freshDescriptor_tdFresh hm _ _).congr fun x _ _ => State.freshDescriptors_outside fun k hk => ?_
      have := s.tdAddr_apart (i := k) (j := j) fun hkj => hlater (hkj ▸ hk)
      omega

/-! ## The operation -/

/-- With nothing scheduled inside, the descriptor part changes memory only. -/
theorem initDescriptors_eq (is : List Nat) (hi : s.ports.interleaved = [])
    (hs : ∀ i ∈ is, inSpace (s.tdAddr i) 12 = true) :
    initDescriptors h is s = .ok ((), s.mapMem (s.freshDescriptors is)) := by
  induction is generalizing s with
  | nil => rfl
  | cons i is ih =>
    obtain ⟨hsi, hsis⟩ := List.forall_mem_cons.1 hs
    have hq : ∀ f, (s.mapMem f).ports.interleaved = [] := fun _ => hi
    have ha : ∀ f, inSpace ((s.mapMem f).tdAddr i) 12 = true := fun _ => hsi
    simp only [initDescriptors, Op.bind_apply, read_apply, host_nil hi, host_nil (hq _), writeTdC_eq hsi, writeTdS_eq (ha _),
      writeTdLink_eq (ha _), writeTdFragCount_eq (ha _), State.mapMem_mapMem]
    rw [ih (hq _) hsis, funext (State.freshDescriptors_mapMem s _ is)]
    rfl

/-- The ring's own fields as POOL_INIT_TX leaves them. -/
def TxRing.rebuilt (slots bufs : Nat) (t : TxRing) : TxRing :=
  { t with head := 0, tail := 0, busyCount := 0, waitQueue := [], shadow := List.replicate slots TxShadow.clear,
           localBufFree := List.range bufs }

theorem State.slot_inSpace (hs : inSpace s.tx.base (s.cfg.numTcb * s.cfg.tdSize) = true) {i : Nat}
    (hi : i < s.cfg.numTcb) : inSpace (s.tdAddr i) 12 = true := by
  have hend : s.tdAddr i + s.cfg.tdSize ≤ s.tdAddr s.cfg.numTcb := s.tdAddr_add_tdSize_le hi
  have hsize := twelve_le_tdSize s.cfg
  refine inSpace_sub hs ?_
  rw [State.tdAddr] at hend ⊢
  exact le_trans (by omega) hend

/-- With nothing scheduled inside, POOL_INIT_TX changes memory and the ring's own fields only. -/
theorem poolInitTx_eq (hi : s.ports.interleaved = []) (hs : inSpace s.tx.base (s.cfg.numTcb * s.cfg.tdSize) = true) :
    poolInitTx h s = .ok ((), (s.mapMem (s.freshDescriptors (List.range s.cfg.numTcb))).mapTx
      (TxRing.rebuilt s.cfg.numTcb s.cfg.numLocalBuf)) := by
  have hd := initDescriptors_eq (h := h) (List.range s.cfg.numTcb) hi fun i hr => State.slot_inSpace hs (List.mem_range.1 hr)
  simp only [poolInitTx, Op.bind_apply, read_apply, hd, updateTx_apply]
  rfl

/-- Settles O35: every slot is fresh, and what lies outside the array lies outside every slot. -/
theorem poolInitRebuildsTheRing : Obligations.PoolInitRebuildsTheRing := by
  intro h s hi hm hs
  refine ⟨_, poolInitTx_eq hi hs, fun i hlt => ?fields, rfl, fun x hx => ?frame, rfl⟩
  case fields =>
    exact State.freshDescriptors_tdFresh (s := s) hm (List.mem_range.2 hlt)
  case frame =>
    refine State.freshDescriptors_outside fun i hr => ?_
    have hend : s.tdAddr i + s.cfg.tdSize ≤ s.tx.base + s.cfg.numTcb * s.cfg.tdSize :=
      s.tdAddr_add_tdSize_le (List.mem_range.1 hr)
    have hbase : s.tx.base ≤ s.tdAddr i := Nat.le_add_right _ _
    have hsize := twelve_le_tdSize s.cfg
    omega

end Sys2Proof.Machine
end

