-- ==== Sys2Proof/Proofs/TxDescriptor.lean ====
section
/-!
PROOF. The transmit descriptor in memory (spec/30_encoding.md R110): where the TD array puts it, the accesses to its fragment
pairs, and the memory that the descriptor writes of PLACE leave (spec/41_transmit_ring.md R141), as a function of the memory
before.
-/
namespace Sys2Proof.Machine

variable {h : Handler} {s : State}

/-! ## Where a slot lies -/

theorem State.txLaidOut_iff : s.txLaidOut = true ↔
    inSpace s.tx.base (s.cfg.numTcb * s.cfg.tdSize) = true ∧ s.tx.shadow.length = s.cfg.numTcb := by
  simp [State.txLaidOut]

/-- Where a slot lies is read off the base of the array and the configuration. -/
theorem State.tdAddr_congr {t : State} {i : Nat} (hb : t.tx.base = s.tx.base) (hc : t.cfg = s.cfg) :
    t.tdAddr i = s.tdAddr i := by rw [State.tdAddr, State.tdAddr, hb, hc]

/-- The whole descriptor of a slot lies in the address space. -/
theorem State.td_inSpace (hs : s.txLaidOut = true) {i : Nat} (hi : i < s.cfg.numTcb) :
    inSpace (s.tdAddr i) s.cfg.tdSize = true := by
  refine inSpace_sub (State.txLaidOut_iff.1 hs).1 ?_
  exact s.tdAddr_add_tdSize_le hi

/-- Its header does. -/
theorem State.tdHeader_inSpace (hs : s.txLaidOut = true) {i : Nat} (hi : i < s.cfg.numTcb) :
    inSpace (s.tdAddr i) 12 = true := State.slot_inSpace (State.txLaidOut_iff.1 hs).1 hi

/-- So do its first `n` fragment pairs, if the configuration has as many. -/
theorem State.tdPairs_inSpace (hs : s.txLaidOut = true) {i n : Nat} (hi : i < s.cfg.numTcb) (hn : n ≤ s.cfg.maxFragments) :
    inSpace (s.tdAddr i + 12) (8 * n) = true := by
  refine inSpace_sub (State.td_inSpace hs hi) ?_
  rw [Config.tdSize]
  omega

/-- The slots of the array lie apart. -/
theorem State.td_apart {i j : Nat} (hij : i ≠ j) :
    s.tdAddr i + s.cfg.tdSize ≤ s.tdAddr j ∨ s.tdAddr j + s.cfg.tdSize ≤ s.tdAddr i :=
  (Nat.lt_or_gt_of_ne hij).imp s.tdAddr_add_tdSize_le s.tdAddr_add_tdSize_le

theorem Config.prev_lt {c : Config} {i : Nat} (hi : i < c.numTcb) : c.prev i < c.numTcb := Nat.mod_lt _ (by omega)

/-! ## Fragment pairs -/

theorem readTdFragAddr_eq {i k : Nat} (hs : inSpace (s.tdAddr i + 12 + 8 * k) 8 = true) :
    readTdFragAddr i k s = .ok (s.tdFragAddr i k, s) := by
  simp [readTdFragAddr, State.tdFragAddr, memRead32_eq (inSpace_sub hs (b := s.tdAddr i + 12 + 8 * k) (k := 4) (by omega))]

theorem readTdFragLen_eq {i k : Nat} (hs : inSpace (s.tdAddr i + 12 + 8 * k) 8 = true) :
    readTdFragLen i k s = .ok (s.tdFragLen i k, s) := by
  simp [readTdFragLen, State.tdFragLen, memRead32_eq (inSpace_sub hs (b := s.tdAddr i + 16 + 8 * k) (k := 4) (by omega))]

theorem writeTdFragAddr_eq {i k : Nat} {v : Word} (hs : inSpace (s.tdAddr i + 12 + 8 * k) 8 = true) :
    writeTdFragAddr i k v s = .ok ((), s.mapMem (fun m => m.write32 (s.tdAddr i + 12 + 8 * k) v)) := by
  simp [writeTdFragAddr, memWrite32_eq (inSpace_sub hs (b := s.tdAddr i + 12 + 8 * k) (k := 4) (by omega))]

theorem writeTdFragLen_eq {i k : Nat} {v : Word} (hs : inSpace (s.tdAddr i + 12 + 8 * k) 8 = true) :
    writeTdFragLen i k v s = .ok ((), s.mapMem (fun m => m.write32 (s.tdAddr i + 16 + 8 * k) v)) := by
  simp [writeTdFragLen, memWrite32_eq (inSpace_sub hs (b := s.tdAddr i + 16 + 8 * k) (k := 4) (by omega))]

/-- The memory with the pairs of `fs` from `b` up. -/
def pairsWritten : Nat → List Fragment → Memory → Memory
  | _, [], m => m
  | b, f :: fs, m => pairsWritten (b + 8) fs ((m.write32 b f.addr).write32 (b + 4) f.len)

theorem pairsWritten_wf {m : Memory} (hm : m.wf = true) (b : Nat) (fs : List Fragment) :
    (pairsWritten b fs m).wf = true := by
  induction fs generalizing b m with
  | nil => exact hm
  | cons f fs ih => exact ih (Memory.wf_write32 (Memory.wf_write32 hm _ _) _ _) _

theorem pairsWritten_outside (m : Memory) (b : Nat) (fs : List Fragment) {x : Nat} (hx : x < b ∨ b + 8 * fs.length ≤ x) :
    (pairsWritten b fs m).byte x = m.byte x := by
  induction fs generalizing b m with
  | nil => rfl
  | cons f fs ih =>
    rw [List.length_cons] at hx
    rw [pairsWritten, ih _ _ (by omega), Memory.byte_write32_outside _ _ _ (by omega),
      Memory.byte_write32_outside _ _ _ (by omega)]

/-- Each pair reads back: the later pairs are written to other bytes. -/
theorem pairsWritten_read {m : Memory} (hm : m.wf = true) (b : Nat) {fs : List Fragment} {k : Nat} {f : Fragment}
    (hf : fs[k]? = some f) :
    (pairsWritten b fs m).read32 (b + 8 * k) = f.addr ∧ (pairsWritten b fs m).read32 (b + 8 * k + 4) = f.len := by
  induction fs generalizing b k m with
  | nil => simp at hf
  | cons g fs ih =>
    have h1 := Memory.wf_write32 hm b g.addr
    cases k with
    | zero =>
      obtain rfl : g = f := by simpa using hf
      have later {a : Nat} (ha : a + 4 ≤ b + 8) : (pairsWritten b (g :: fs) m).read32 a = _ :=
        Memory.read32_congr a fun x _ _ => pairsWritten_outside _ (b + 8) fs (by omega)
      have first : ((m.write32 b g.addr).write32 (b + 4) g.len).read32 b = g.addr :=
        (Memory.read32_congr b fun x _ _ => Memory.byte_write32_outside _ (b + 4) _ (by omega)).trans
          (Memory.read32_write32 hm b _)
      exact ⟨(later (by omega)).trans first, (later (by omega)).trans (Memory.read32_write32 h1 _ _)⟩
    | succ k =>
      have := ih (Memory.wf_write32 h1 (b + 4) g.len) (b + 8) (k := k) (by simpa using hf)
      rwa [show b + 8 + 8 * k = b + 8 * (k + 1) by omega] at this

/-- With nothing scheduled inside, the zero-copy path writes the pairs and nothing else. -/
theorem writeFragments_eq {t b k : Nat} (fs : List Fragment) (hi : s.ports.interleaved = [])
    (hb : s.tdAddr t + 12 + 8 * k = b) (hs : inSpace b (8 * fs.length) = true) :
    writeFragments h t k fs s = .ok ((), s.mapMem (pairsWritten b fs)) := by
  induction fs generalizing s k b with
  | nil => rfl
  | cons f fs ih =>
    rw [List.length_cons] at hs
    have hb' : s.tdAddr t + 16 + 8 * k = b + 4 := by omega
    have hp : inSpace (s.tdAddr t + 12 + 8 * k) 8 = true := inSpace_sub hs (by omega)
    have hq : ∀ g, (s.mapMem g).ports.interleaved = [] := fun _ => hi
    have hp' : ∀ g, inSpace ((s.mapMem g).tdAddr t + 12 + 8 * k) 8 = true := fun _ => hp
    have hb'' : ∀ g, (s.mapMem g).tdAddr t + 12 + 8 * (k + 1) = b + 8 := fun _ => by simp only [State.tdAddr_mapMem]; omega
    simp only [writeFragments, Op.bind_apply, host_nil hi, host_nil (hq _), writeTdFragAddr_eq hp, writeTdFragLen_eq (hp' _),
      State.mapMem_mapMem, State.tdAddr_mapMem, hb, hb', ih (hq _) (hb'' _) (inSpace_sub hs (by omega)), pairsWritten]

/-! ## A placed descriptor -/

/-- The memory with the payload fields of the descriptor at `a` filled: the count, then the pairs. -/
def filledDescriptor (a : Nat) (fs : List Fragment) (m : Memory) : Memory :=
  pairsWritten (a + 12) fs (m.setByte (a + 8) (BitVec.ofNat 8 fs.length))

/-- The memory with the descriptor at `a` made the end of the chain and given to the hardware. -/
def handedOver (a : Nat) (m : Memory) : Memory := (m.write16 (a + 2) (tdCommandWord true)).write16 a (tdStatusWord false)

/-- Both, as PLACE does it (R141, R313 steps 1 to 3). -/
def placedDescriptor (a : Nat) (fs : List Fragment) (m : Memory) : Memory := handedOver a (filledDescriptor a fs m)

/-- The descriptor at `a` is the hardware's and holds the fragments `fs`. -/
structure Memory.TdHolds (m : Memory) (a : Nat) (fs : List Fragment) : Prop where
  status : (m.read16 a).getLsbD 15 = false
  count : (m.byte (a + 8)).toNat = fs.length
  pairs : ∀ k f, fs[k]? = some f → m.read32 (a + 12 + 8 * k) = f.addr ∧ m.read32 (a + 16 + 8 * k) = f.len

/-- What a descriptor holds is read off its status halfword and the bytes from its count on. -/
theorem Memory.TdHolds.congr {m m' : Memory} {a : Nat} {fs : List Fragment} (hm : m.TdHolds a fs)
    (he : ∀ x, (a ≤ x ∧ x < a + 2 ∨ a + 8 ≤ x ∧ x < a + 12 + 8 * fs.length) → m'.byte x = m.byte x) : m'.TdHolds a fs where
  status := by rw [Memory.read16_congr a fun x _ _ => he x (by omega), hm.status]
  count := by rw [he (a + 8) (by omega), hm.count]
  pairs k f hf := by
    obtain ⟨hk, -⟩ := List.getElem?_eq_some_iff.1 hf
    rw [Memory.read32_congr _ fun x _ _ => he x (by omega), Memory.read32_congr (a + 16 + 8 * k) fun x _ _ => he x (by omega)]
    exact hm.pairs k f hf

theorem filledDescriptor_wf {m : Memory} (hm : m.wf = true) (a : Nat) (fs : List Fragment) :
    (filledDescriptor a fs m).wf = true := pairsWritten_wf (Memory.wf_setByte hm _ _) _ _

theorem placedDescriptor_wf {m : Memory} (hm : m.wf = true) (a : Nat) (fs : List Fragment) :
    (placedDescriptor a fs m).wf = true := Memory.wf_write16 (Memory.wf_write16 (filledDescriptor_wf hm a fs) _ _) _ _

/-- Nothing outside the written part of the descriptor changes, nor does its link. -/
theorem placedDescriptor_outside (m : Memory) (a : Nat) (fs : List Fragment) {x : Nat}
    (hx : x < a ∨ a + 4 ≤ x ∧ x < a + 8 ∨ a + 12 + 8 * fs.length ≤ x) : (placedDescriptor a fs m).byte x = m.byte x := by
  rw [placedDescriptor, handedOver, Memory.byte_write16_outside _ _ _ (by omega), Memory.byte_write16_outside _ _ _ (by omega),
    filledDescriptor, pairsWritten_outside _ _ _ (by omega), Memory.byte_setByte_ne _ _ (by omega)]

theorem placedDescriptor_link (m : Memory) (a : Nat) (fs : List Fragment) :
    (placedDescriptor a fs m).read32 (a + 4) = m.read32 (a + 4) :=
  Memory.read32_congr _ fun x _ _ => placedDescriptor_outside m a fs (by omega)

/-- The handoff writes the first four bytes only. -/
theorem handedOver_outside (m : Memory) (a : Nat) {x : Nat} (hx : x < a ∨ a + 4 ≤ x) :
    (handedOver a m).byte x = m.byte x := by
  rw [handedOver, Memory.byte_write16_outside _ _ _ (by omega), Memory.byte_write16_outside _ _ _ (by omega)]

theorem placedDescriptor_tdHolds {m : Memory} (hm : m.wf = true) (a : Nat) {fs : List Fragment} (hn : fs.length ≤ 255) :
    (placedDescriptor a fs m).TdHolds a fs where
  status := by
    rw [placedDescriptor, handedOver, Memory.read16_write16 (Memory.wf_write16 (filledDescriptor_wf hm a fs) _ _)]
    rfl
  count := by
    rw [placedDescriptor, handedOver_outside _ _ (by omega), filledDescriptor, pairsWritten_outside _ _ _ (by omega),
      Memory.byte_setByte_same hm, BitVec.toNat_ofNat]
    omega
  pairs k f hf := by
    have unchanged {b : Nat} (hb : a + 4 ≤ b) : (placedDescriptor a fs m).read32 b = (filledDescriptor a fs m).read32 b :=
      Memory.read32_congr b fun x _ _ => handedOver_outside _ a (by omega)
    rw [unchanged (by omega), unchanged (by omega), show a + 16 + 8 * k = a + 12 + 8 * k + 4 by omega]
    exact pairsWritten_read (Memory.wf_setByte hm _ _) (a + 12) hf

/-- The descriptor ends the chain. -/
theorem placedDescriptor_suspends {m : Memory} (hm : m.wf = true) (a : Nat) (fs : List Fragment) :
    ((placedDescriptor a fs m).read16 (a + 2)).getLsbD 14 = true := by
  rw [placedDescriptor, handedOver, Memory.read16_congr (a + 2) fun x _ _ => Memory.byte_write16_outside _ a _ (by omega),
    Memory.read16_write16 (filledDescriptor_wf hm a fs)]
  rfl

end Sys2Proof.Machine
end

