-- ==== Sys2Proof/Proofs/Coalesce.lean ====
section
/-!
PROOF. COALESCE (spec/41_transmit_ring.md R142): the memory it leaves, as a function of the memory before; and, where the
packet's fragments do not overlap the buffer, that memory as one write of the frame.
-/
namespace Sys2Proof.Machine

variable {h : Handler} {s : State}

/-! ## Memory -/

/-- One write of two runs of bytes is a write of each. -/
theorem Memory.writeBytes_append (m : Memory) (a : Nat) (xs ys : List Byte) :
    m.writeBytes a (xs ++ ys) = (m.writeBytes a xs).writeBytes (a + xs.length) ys := by
  induction xs generalizing m a with
  | nil => rfl
  | cons x xs ih =>
    rw [List.cons_append, Memory.writeBytes, ih, Memory.writeBytes, List.length_cons]
    congr 1
    omega

/-- How many bytes the fragments have. -/
def fragmentBytes (fs : List Fragment) : Nat := (fs.map (fun f => f.len.toNat)).sum

@[simp] theorem fragmentBytes_cons (f : Fragment) (fs : List Fragment) :
    fragmentBytes (f :: fs) = f.len.toNat + fragmentBytes fs := by simp [fragmentBytes]

/-- The bytes of the fragments, in order. -/
def Memory.gather (m : Memory) (fs : List Fragment) : List Byte := fs.flatMap (fun f => m.readBytes f.addr.toNat f.len.toNat)

@[simp] theorem Memory.length_gather (m : Memory) (fs : List Fragment) : (m.gather fs).length = fragmentBytes fs := by
  simp [Memory.gather, fragmentBytes, List.length_flatMap]

/-- The memory with the fragments copied from `dst` up, one after the other. -/
def fragmentsCopied : Nat → List Fragment → Memory → Memory
  | _, [], m => m
  | dst, f :: fs, m => fragmentsCopied (dst + f.len.toNat) fs (m.writeBytes dst (m.readBytes f.addr.toNat f.len.toNat))

theorem fragmentsCopied_wf {m : Memory} (hm : m.wf = true) (dst : Nat) (fs : List Fragment) :
    (fragmentsCopied dst fs m).wf = true := by
  induction fs generalizing dst m with
  | nil => exact hm
  | cons f fs ih => exact ih (Memory.wf_writeBytes hm _ _) _

theorem fragmentsCopied_outside (m : Memory) (dst : Nat) (fs : List Fragment) {x : Nat}
    (hx : x < dst ∨ dst + fragmentBytes fs ≤ x) : (fragmentsCopied dst fs m).byte x = m.byte x := by
  induction fs generalizing dst m with
  | nil => rfl
  | cons f fs ih =>
    rw [fragmentBytes_cons] at hx
    rw [fragmentsCopied, ih _ _ (by omega), Memory.byte_writeBytes_outside _ _ _ (by rw [Memory.length_readBytes]; omega)]

/-- Fragments that do not overlap the bytes `[a, c)` the copy goes to are read as they were before it. -/
theorem fragmentsCopied_eq_writeBytes (m : Memory) {a c : Nat} (dst : Nat) (fs : List Fragment) (ha : a ≤ dst)
    (hc : dst + fragmentBytes fs ≤ c)
    (hf : ∀ f ∈ fs, f.addr.toNat + f.len.toNat ≤ a ∨ c ≤ f.addr.toNat) :
    fragmentsCopied dst fs m = m.writeBytes dst (m.gather fs) := by
  induction fs generalizing dst m with
  | nil => rfl
  | cons f fs ih =>
    obtain ⟨-, hfs⟩ := List.forall_mem_cons.1 hf
    rw [fragmentBytes_cons] at hc
    have same : (m.writeBytes dst (m.readBytes f.addr.toNat f.len.toNat)).gather fs = m.gather fs :=
      List.flatMap_congr fun g hg => Memory.readBytes_congr _ _ fun x _ _ =>
        Memory.byte_writeBytes_outside _ _ _ (by rw [Memory.length_readBytes]; have := hfs g hg; omega)
    rw [fragmentsCopied, ih _ _ (by omega) (by omega) hfs, same]
    have := m.writeBytes_append dst (m.readBytes f.addr.toNat f.len.toNat) (m.gather fs)
    rw [Memory.length_readBytes] at this
    exact this.symm

/-- The memory with the packet copied to `dst` up and padded to `minimum` bytes. -/
def coalesced (dst minimum : Nat) (p : Packet) (m : Memory) : Memory :=
  (fragmentsCopied dst p.frags m).writeBytes (dst + p.totalLen) (List.replicate (minimum - p.totalLen) 0)

/-- The frame of a packet: its fragments' bytes, padded to `minimum`. -/
def Memory.frame (m : Memory) (minimum : Nat) (p : Packet) : List Byte :=
  m.gather p.frags ++ List.replicate (minimum - p.totalLen) 0

section
variable {p : Packet} (hp : p.totalLen = fragmentBytes p.frags)

theorem coalesced_wf {m : Memory} (hm : m.wf = true) (dst minimum : Nat) : (coalesced dst minimum p m).wf = true :=
  Memory.wf_writeBytes (fragmentsCopied_wf hm _ _) _ _

include hp

theorem Memory.length_frame (m : Memory) (minimum : Nat) : (m.frame minimum p).length = max p.totalLen minimum := by
  rw [Memory.frame, List.length_append, Memory.length_gather, List.length_replicate, ← hp]
  omega

theorem coalesced_outside (m : Memory) (dst minimum : Nat) {x : Nat} (hx : x < dst ∨ dst + max p.totalLen minimum ≤ x) :
    (coalesced dst minimum p m).byte x = m.byte x := by
  rw [coalesced, Memory.byte_writeBytes_outside _ _ _ (by rw [List.length_replicate]; omega),
    fragmentsCopied_outside _ _ _ (by omega)]

/-- Where no fragment overlaps the buffer, the buffer holds the frame. -/
theorem coalesced_eq_writeBytes (m : Memory) (dst minimum : Nat)
    (hf : ∀ f ∈ p.frags, f.addr.toNat + f.len.toNat ≤ dst ∨ dst + max p.totalLen minimum ≤ f.addr.toNat) :
    coalesced dst minimum p m = m.writeBytes dst (m.frame minimum p) := by
  rw [coalesced, fragmentsCopied_eq_writeBytes m dst p.frags (Nat.le_refl _) (by omega) hf, Memory.frame,
    Memory.writeBytes_append, Memory.length_gather, hp]

end

/-! ## The operation -/

/-- With nothing scheduled inside, the copy changes memory only. -/
theorem copyFragments_eq (fs : List Fragment) (dst : Nat) (hi : s.ports.interleaved = [])
    (hs : inSpace dst (fragmentBytes fs) = true) (hf : ∀ f ∈ fs, inSpace f.addr.toNat f.len.toNat = true) :
    copyFragments h dst fs s = .ok ((), s.mapMem (fragmentsCopied dst fs)) := by
  induction fs generalizing s dst with
  | nil => rfl
  | cons f fs ih =>
    obtain ⟨hread, hfs⟩ := List.forall_mem_cons.1 hf
    rw [fragmentBytes_cons] at hs
    have hwrite : inSpace dst (s.mem.readBytes f.addr.toNat f.len.toNat).length = true := by
      rw [Memory.length_readBytes]
      exact inSpace_sub hs (by omega)
    simp only [copyFragments, Op.bind_apply, host_nil hi, memRead_eq hread, memWrite_eq hwrite]
    rw [ih _ (by exact hi) (inSpace_sub hs (by omega)) hfs]
    rfl

/-- So does the padding. -/
theorem zeroPad_eq (n dst : Nat) (hi : s.ports.interleaved = []) (hs : inSpace dst n = true) :
    zeroPad h dst n s = .ok ((), s.mapMem (fun m => m.writeBytes dst (List.replicate n 0))) := by
  induction n generalizing s dst with
  | zero => rfl
  | succ n ih =>
    have hwrite : inSpace dst [(0 : Byte)].length = true := inSpace_sub hs (by simp)
    simp only [zeroPad, Op.bind_apply, host_nil hi, memWrite_eq hwrite]
    rw [ih _ (by exact hi) (inSpace_sub hs (by omega))]
    rfl

/-- With nothing scheduled inside, COALESCE changes memory only. -/
theorem coalesceInto_eq {p : Packet} (b : Nat) (hi : s.ports.interleaved = []) (hp : p.totalLen = fragmentBytes p.frags)
    (hs : inSpace (s.bufAddr b) (max p.totalLen s.cfg.minFrameSize) = true)
    (hf : ∀ f ∈ p.frags, inSpace f.addr.toNat f.len.toNat = true) :
    coalesceInto h b p s = .ok ((), s.mapMem (coalesced (s.bufAddr b) s.cfg.minFrameSize p)) := by
  have hcopy := copyFragments_eq (h := h) p.frags (s.bufAddr b) hi (inSpace_sub hs (by omega)) hf
  have hpad := zeroPad_eq (h := h) (s := s.mapMem (fragmentsCopied (s.bufAddr b) p.frags)) (s.cfg.minFrameSize - p.totalLen)
    (s.bufAddr b + p.totalLen) hi (inSpace_sub hs (by omega))
  simp only [coalesceInto, Op.bind_apply, read_apply, hcopy, hpad]
  rfl

end Sys2Proof.Machine
end

