-- ==== Sys2Proof/Proofs/Place.lean ====
section
/-!
PROOF. PLACE (spec/41_transmit_ring.md R141) with nothing scheduled inside it: the state it leaves on the start path, on the
resume path, and where the wait for the command register runs out.
-/
namespace Sys2Proof.Machine

variable {h : Handler} {s u v : State} {p : Packet}

/-! ## The ring's own fields -/

namespace TxRing
variable {x : TxRing} {i : Nat}

theorem shadowAt_mapShadow_same (hi : i < x.shadow.length) (f : TxShadow → TxShadow) :
    (x.mapShadow i f).shadowAt i = f (x.shadowAt i) := by
  simp [mapShadow, shadowAt, List.getD_eq_getElem?_getD, hi]

theorem shadowAt_mapShadow_ne {j : Nat} (hij : j ≠ i) (f : TxShadow → TxShadow) :
    (x.mapShadow i f).shadowAt j = x.shadowAt j := by
  simp [mapShadow, shadowAt, List.getD_eq_getElem?_getD, hij.symm]

/-- Two changes of one record are one. -/
theorem mapShadow_mapShadow (hi : i < x.shadow.length) (f g : TxShadow → TxShadow) :
    (x.mapShadow i f).mapShadow i g = x.mapShadow i (fun sh => g (f sh)) := by
  rw [mapShadow, shadowAt_mapShadow_same hi]
  simp [mapShadow]

/-- A record that is written as it stands. -/
theorem mapShadow_self (hi : i < x.shadow.length) {f : TxShadow → TxShadow} (hf : f (x.shadowAt i) = x.shadowAt i) :
    x.mapShadow i f = x := by
  rw [mapShadow, hf, shadowAt, List.getD_eq_getElem _ _ hi, List.set_getElem_self]

/-- A local buffer is taken for the tail slot. -/
def buffered (b : Nat) (more : List Nat) (x : TxRing) : TxRing :=
  { x.mapShadow x.tail (fun sh => { sh with usesLocalBuf := true, localBuf := some b }) with localBufFree := more }

/-- Slot `i` is to hold the packet. -/
def addressed (i : Nat) (p : Packet) (x : TxRing) : TxRing :=
  x.mapShadow i (fun sh => { sh with packet := some p, retryCount := 0 })

/-- The tail slot holds the packet, the tail and the count advance. -/
def occupied (c : Config) (p : Packet) (x : TxRing) : TxRing :=
  { x.mapShadow x.tail (fun sh => { sh with inUse := true, packet := some p, retryCount := 0 }) with
    tail := c.next x.tail, busyCount := x.busyCount + 1 }

/-- A buffer the slot uses goes back, the slot's record is clear (ROLLBACK, R141). -/
def rolledBack (x : TxRing) (i : Nat) : TxRing :=
  { x.mapShadow i (fun _ => TxShadow.clear) with
    localBufFree := match (x.shadowAt i).usesLocalBuf, (x.shadowAt i).localBuf with
      | true, some b => insertSorted b x.localBufFree
      | _, _ => x.localBufFree }

end TxRing

theorem insertSorted_of_lt {b : Nat} {l : List Nat} (hl : (b :: l).Pairwise (· < ·)) : insertSorted b l = b :: l := by
  cases l with
  | nil => rfl
  | cons x xs => rw [insertSorted, if_pos ((List.pairwise_cons.1 hl).1 x (List.mem_cons_self ..))]

/-! ## What PLACE relies on -/

/-- Nothing is scheduled inside, the sticky error is clear, lock `cmd` is to be had, and the tail slot has its descriptor. -/
structure State.Placeable (s : State) : Prop where
  inside : s.ports.interleaved = []
  error : s.dev.hardwareError = false
  mine : s.locks.mine.cmd = false
  others : s.locks.others.cmd = false
  laidOut : s.txLaidOut = true
  tail : s.tx.tail < s.cfg.numTcb

namespace State.Placeable

theorem mapMem (hs : s.Placeable) (f : Memory → Memory) : (s.mapMem f).Placeable :=
  ⟨hs.inside, hs.error, hs.mine, hs.others, hs.laidOut, hs.tail⟩

theorem tail_lt_length (hs : s.Placeable) : s.tx.tail < s.tx.shadow.length :=
  (State.txLaidOut_iff.1 hs.laidOut).2 ▸ hs.tail

/-- A change of the ring that leaves the slots in place. -/
theorem mapTx (hs : s.Placeable) {f : TxRing → TxRing} (hb : (f s.tx).base = s.tx.base) (ht : (f s.tx).tail = s.tx.tail)
    (hl : (f s.tx).shadow.length = s.tx.shadow.length) : (s.mapTx f).Placeable where
  inside := hs.inside
  error := hs.error
  mine := hs.mine
  others := hs.others
  laidOut := by
    rw [State.txLaidOut_iff] at *
    exact ⟨by simpa [hb] using (State.txLaidOut_iff.1 hs.laidOut).1, hl.trans (State.txLaidOut_iff.1 hs.laidOut).2⟩
  tail := ht ▸ hs.tail

theorem buffered (hs : s.Placeable) (b : Nat) (more : List Nat) : (s.mapTx (TxRing.buffered b more)).Placeable :=
  hs.mapTx rfl rfl (by simp [TxRing.buffered, TxRing.mapShadow])

theorem addressed (hs : s.Placeable) (i : Nat) (p : Packet) : (s.mapTx (TxRing.addressed i p)).Placeable :=
  hs.mapTx rfl rfl (by simp [TxRing.addressed, TxRing.mapShadow])

end State.Placeable

/-! ## Filling the slot -/

/-- The one pair of a slot whose packet is coalesced. -/
def State.bufferPair (s : State) (b : Nat) (p : Packet) : Fragment :=
  ⟨addrWord (s.bufAddr b), addrWord (max p.totalLen s.cfg.minFrameSize)⟩

/-- The tail slot filled from the packet's own fragments. -/
def State.filledDirect (s : State) (p : Packet) : State :=
  s.mapMem (filledDescriptor (s.tdAddr s.tx.tail) p.frags)

/-- The tail slot filled from local buffer `b`, which holds the packet. -/
def State.filledFrom (s : State) (b : Nat) (more : List Nat) (p : Packet) : State :=
  (s.mapMem (fun m => filledDescriptor (s.tdAddr s.tx.tail) [s.bufferPair b p]
    (coalesced (s.bufAddr b) s.cfg.minFrameSize p m))).mapTx (TxRing.buffered b more)

theorem frags_le_of_mustCoalesce {c : Config} (hc : Config.mustCoalesce c p = false) : p.frags.length ≤ c.maxFragments := by
  simp only [Config.mustCoalesce, Bool.or_eq_false_iff, decide_eq_false_iff_not] at hc
  omega

theorem placeFill_direct (hs : s.Placeable) (hc : Config.mustCoalesce s.cfg p = false) :
    placeFill h s.tx.tail p s = .ok (true, s.filledDirect p) := by
  have hcount := State.tdHeader_inSpace hs.laidOut hs.tail
  have hpairs := State.tdPairs_inSpace hs.laidOut hs.tail (frags_le_of_mustCoalesce hc)
  have hw := writeFragments_eq (h := h) (t := s.tx.tail) (k := 0) p.frags
    (s := s.mapMem (fun m => m.setByte (s.tdAddr s.tx.tail + 8) (BitVec.ofNat 8 p.frags.length))) hs.inside rfl hpairs
  simp only [placeFill, Op.bind_apply, read_apply, hc, Bool.false_eq_true, if_false, host_nil hs.inside,
    writeTdFragCount_eq hcount, hw, Op.pure_apply]
  rfl

theorem placeFill_exhausted (hc : Config.mustCoalesce s.cfg p = true) (hf : s.tx.localBufFree = []) (t : Nat) :
    placeFill h t p s = .ok (false, s) := by
  simp only [placeFill, Op.bind_apply, read_apply, hc, if_true, hf, Op.pure_apply]

theorem placeFill_coalesced {b : Nat} {more : List Nat} (hs : s.Placeable) (hc : Config.mustCoalesce s.cfg p = true)
    (hf : s.tx.localBufFree = b :: more) (hm : 1 ≤ s.cfg.maxFragments) (hp : p.totalLen = fragmentBytes p.frags)
    (hb : inSpace (s.bufAddr b) (max p.totalLen s.cfg.minFrameSize) = true)
    (hr : ∀ f ∈ p.frags, inSpace f.addr.toNat f.len.toNat = true) :
    placeFill h s.tx.tail p s = .ok (true, s.filledFrom b more p) := by
  have hcopy := coalesceInto_eq (h := h) (s := s.mapTx (fun x => { x with localBufFree := more })) b hs.inside hp hb hr
  have hi : ∀ f g k, (((s.mapTx k).mapMem f).mapTx g).ports.interleaved = [] := fun _ _ _ => hs.inside
  have hq : ∀ f g k l, ((((s.mapTx k).mapMem f).mapTx g).mapMem l).ports.interleaved = [] := fun _ _ _ _ => hs.inside
  have hcount : inSpace (s.tdAddr s.tx.tail) 12 = true := State.tdHeader_inSpace hs.laidOut hs.tail
  have hpair : inSpace (s.tdAddr s.tx.tail + 12 + 8 * 0) 8 = true := State.tdPairs_inSpace hs.laidOut hs.tail hm
  simp only [placeFill, Op.bind_apply, read_apply, hc, if_true, hf, updateTx_apply, hcopy, host_nil (hi _ _ _),
    Op.pure_apply]
  rw [writeTdFragCount_eq (by exact hcount)]
  simp only [host_nil (hq _ _ _ _)]
  rw [writeTdFragAddr_eq (by exact hpair)]
  simp only [State.mapMem_mapMem, host_nil (hq _ _ _ _)]
  rw [writeTdFragLen_eq (by exact hpair)]
  rfl

/-! ## Issuing the command -/

/-- A resume over a clear register or over another resume. -/
theorem issueLocked_resume (hi : s.ports.interleaved = []) (he : s.dev.hardwareError = false)
    (hc : commandCode s.regs.command = 0 ∨ commandCode s.regs.command = codeCuResume) (pointer : Word) :
    issueLocked h codeCuResume false pointer s = .ok (.ok, (s.mapRegs (fun r => { r with command := 2 })).mapTx (fun t =>
      { t with resumeWaitNeeded := false })) := by
  have hw : writeCommand (codeCuResume.setWidth 32) s = .ok ((), s.mapRegs (fun r => { r with command := 2 })) := by
    refine writeCommand_ok.2 ⟨.inl (by decide), ?_, rfl⟩
    rcases hc with hc | hc <;> rw [hc] <;> decide
  simp only [issueLocked, writeCommandLocked, Op.bind_apply, read_apply, he, Bool.false_eq_true, if_false, Op.pure_apply,
    Bool.not_true, Bool.or_false, ne_eq, not_true, host_nil hi, regWrite_command, hw, updateTx_apply, bne_self_eq_false]

/-- Where the wait runs out, the flag is set and no register is written. -/
theorem issueLocked_stuck (hi : s.ports.interleaved = []) (he : s.dev.hardwareError = false)
    (hc : commandCode s.regs.command ≠ 0) (code : Byte) (pointer : Word) :
    issueLocked h code true pointer s = .ok (.hardError, s.mapDev (fun d => { d with hardwareError := true })) := by
  simp [issueLocked, writeCommandLocked, he, waitAcceptLocked_stuck _ hi hc]

/-- The start path's command. -/
def State.startIssued (t : Nat) (s : State) : State :=
  (s.mapRegs (fun r => { r with pointer := addrWord (s.tdAddr t), command := 1 })).mapTx
    (fun x => { x with resumeWaitNeeded := true, transmitIdle := false })

/-- The resume path's two writes: the slot before `t` no longer ends the chain, a resume is pending. -/
def State.resumeIssued (t : Nat) (s : State) : State :=
  ((s.mapMem (fun m => m.write16 (s.tdAddr (s.cfg.prev t) + 2) (tdCommandWord false))).mapRegs
    (fun r => { r with command := 2 })).mapTx (fun x => { x with resumeWaitNeeded := false })

section
variable {t : Nat} (hi : s.ports.interleaved = []) (he : s.dev.hardwareError = false)
include hi he

theorem placeCommand_start (hidle : s.tx.transmitIdle = true) (hc : commandCode s.regs.command = 0)
    (hb : 1 ≤ s.cfg.acceptPollBudget) : placeCommand h t s = .ok (true, s.startIssued t) := by
  have hr := issueLocked_start (hd := h) (pointer := addrWord (s.tdAddr t)) hi he hb hc (.inl rfl)
  simp only [placeCommand, Op.bind_apply, read_apply, hidle, if_true, hr, reduceCtorEq, if_false, updateTx_apply, Op.pure_apply]
  rfl

/-- The resume is preceded by a wait unless the command before it was a resume (R198). -/
theorem placeCommand_resume (hs : inSpace (s.tdAddr (s.cfg.prev t)) 12 = true) (hidle : s.tx.transmitIdle = false)
    (hc : commandCode s.regs.command = 0 ∨
      (s.tx.resumeWaitNeeded = false ∧ commandCode s.regs.command = codeCuResume))
    (hb : 1 ≤ s.cfg.acceptPollBudget) : placeCommand h t s = .ok (true, s.resumeIssued t) := by
  have hwait : s.tx.resumeWaitNeeded = true → waitAcceptLocked h s.cfg.acceptPollBudget s = .ok (true, s) := fun hw => by
    obtain ⟨n, hn⟩ : ∃ n, s.cfg.acceptPollBudget = n + 1 := ⟨s.cfg.acceptPollBudget - 1, by omega⟩
    rw [hn, waitAcceptLocked_clear hi (hc.resolve_right (by simp [hw]))]
  have hr := issueLocked_resume (h := h) (s := s.mapMem (fun m => m.write16 (s.tdAddr (s.cfg.prev t) + 2) (tdCommandWord false)))
    hi he (hc.imp_right (·.2)) 0
  simp only [placeCommand, Op.bind_apply, read_apply, hidle, Bool.false_eq_true, if_false, Op.ite_apply]
  split
  · next hw => simp only [hwait hw, Bool.not_true, Bool.false_eq_true, if_false, host_nil hi, writeTdS_eq hs, hr, Op.pure_apply]; rfl
  · simp only [Bool.not_true, Bool.false_eq_true, if_false, host_nil hi, writeTdS_eq hs, hr, Op.pure_apply]; rfl

/-- Where the command register does not clear, neither path gets further than its wait. -/
theorem placeCommand_stuck (hw : s.tx.transmitIdle = true ∨ s.tx.resumeWaitNeeded = true)
    (hc : commandCode s.regs.command ≠ 0) :
    placeCommand h t s = .ok (false, s.mapDev (fun d => { d with hardwareError := true })) := by
  cases hidle : s.tx.transmitIdle with
  | true =>
    simp only [placeCommand, Op.bind_apply, read_apply, hidle, if_true, issueLocked_stuck hi he hc, Op.pure_apply]
  | false =>
    have hwait : s.tx.resumeWaitNeeded = true := hw.resolve_left (by simp [hidle])
    simp only [placeCommand, Op.bind_apply, read_apply, hidle, hwait, if_true, waitAcceptLocked_stuck _ hi hc,
      Bool.false_eq_true, if_false, Bool.not_false, Op.pure_apply]

end

/-- PLACE takes lock `cmd` around its command part and leaves the locks as they were. -/
theorem placeIssue_eq {t : Nat} {b : Bool} {f : State → State} (hs : s.Placeable)
    (hf : ∀ g, f (s.mapLocks g) = (f s).mapLocks g) (hl : (f s).locks = s.locks)
    (hr : placeCommand h t (s.mapLocks (fun x => x.put .cmd true)) = .ok (b, f (s.mapLocks (fun x => x.put .cmd true)))) :
    placeIssue h t s = .ok (b, f s) := by
  have hput : (s.locks.put .cmd true).put .cmd false = s.locks := Locks.put_put hs.mine
  have hlock : lock .cmd s = .ok ((), s.mapLocks (fun x => x.put .cmd true)) :=
    lock_eq (by simp [Held.mayTake, hs.mine]) (by simp [Held.has, hs.others])
  simp only [placeIssue, Op.bind_apply, point_nil hs.inside, hlock, hr, unlock_apply, Op.pure_apply, hf, State.mapLocks_mapLocks]
  simp only [State.mapLocks, hl, hput]
  rw [← hl]

theorem placeIssue_start {t : Nat} (hs : s.Placeable) (hidle : s.tx.transmitIdle = true)
    (hc : commandCode s.regs.command = 0) (hb : 1 ≤ s.cfg.acceptPollBudget) :
    placeIssue h t s = .ok (true, s.startIssued t) :=
  placeIssue_eq (f := State.startIssued t) hs (fun _ => rfl) rfl (placeCommand_start hs.inside hs.error hidle hc hb)

theorem placeIssue_resume {t : Nat} (hs : s.Placeable) (ht : t < s.cfg.numTcb) (hidle : s.tx.transmitIdle = false)
    (hc : commandCode s.regs.command = 0 ∨
      (s.tx.resumeWaitNeeded = false ∧ commandCode s.regs.command = codeCuResume))
    (hb : 1 ≤ s.cfg.acceptPollBudget) : placeIssue h t s = .ok (true, s.resumeIssued t) :=
  placeIssue_eq (f := State.resumeIssued t) hs (fun _ => rfl) rfl
    (placeCommand_resume hs.inside hs.error (State.tdHeader_inSpace hs.laidOut (Config.prev_lt ht)) hidle hc hb)

theorem placeIssue_stuck {t : Nat} (hs : s.Placeable) (hw : s.tx.transmitIdle = true ∨ s.tx.resumeWaitNeeded = true)
    (hc : commandCode s.regs.command ≠ 0) :
    placeIssue h t s = .ok (false, s.mapDev (fun d => { d with hardwareError := true })) :=
  placeIssue_eq (f := State.mapDev fun d => { d with hardwareError := true }) hs (fun _ => rfl) rfl
    (placeCommand_stuck hs.inside hs.error hw hc)

/-! ## The whole operation -/

/-- Slot `t` addressed to the packet and handed over. -/
def State.handed (t : Nat) (p : Packet) (s : State) : State :=
  (s.mapTx (TxRing.addressed t p)).mapMem (handedOver (s.tdAddr t))

theorem State.Placeable.handed (hs : s.Placeable) (t : Nat) (p : Packet) : (s.handed t p).Placeable :=
  (hs.addressed t p).mapMem _

/-- PLACE from the filled slot on: what the command part decides. -/
theorem place_filled {b : Bool} {t : Nat} (hs : s.tx.tail = t) (hf : placeFill h t p s = .ok (true, u)) (hu : u.Placeable)
    (ht : t < u.cfg.numTcb) (hv : placeIssue h t (u.handed t p) = .ok (b, v)) :
    place h p s = (if b then (do
        updateTx (fun x => x.mapShadow t (fun sh => { sh with inUse := true }))
        update (fun s => s.mapTx (fun x => { x with tail := s.cfg.next t, busyCount := x.busyCount + 1 }))
        pure Status.sent)
      else (do rollback h t; pure Status.hardError) : Op Status) v := by
  have hi : (u.mapTx (TxRing.addressed t p)).ports.interleaved = [] := hu.inside
  have hd : inSpace ((u.mapTx (TxRing.addressed t p)).tdAddr t) 12 = true := State.tdHeader_inSpace hu.laidOut ht
  have hq : ∀ f, ((u.mapTx (TxRing.addressed t p)).mapMem f).ports.interleaved = [] := fun _ => hu.inside
  have he : ∀ f, ((u.mapTx (TxRing.addressed t p)).mapMem f).dev.hardwareError = false := fun _ => hu.error
  have hd' : ∀ f, inSpace (((u.mapTx (TxRing.addressed t p)).mapMem f).tdAddr t) 12 = true := fun _ => hd
  have haddress : updateTx (fun x => x.mapShadow t (fun sh => { sh with packet := some p, retryCount := 0 })) =
    updateTx (TxRing.addressed t p) := rfl
  have hhanded : ((u.mapTx (TxRing.addressed t p)).mapMem fun m =>
      (m.write16 ((u.mapTx (TxRing.addressed t p)).tdAddr t + 2) (tdCommandWord true)).write16
        ((u.mapTx (TxRing.addressed t p)).tdAddr t) (tdStatusWord false)) = u.handed t p := rfl
  simp only [place, Op.bind_apply, read_apply, hs, hf, Bool.not_true, Bool.false_eq_true, if_false, haddress, updateTx_apply,
    host_nil hi, writeTdS_eq hd, host_nil (hq _), handOver_apply, he, writeTdC_eq (hd' _), State.mapMem_mapMem,
    State.tdAddr_mapMem, hhanded, if_true, hv]
  cases b <;> rfl

/-- Giving slot `t` back changes its status halfword and the ring's own fields. -/
theorem rollback_eq {t : Nat} (hi : s.ports.interleaved = []) (hs : inSpace (s.tdAddr t) 12 = true) :
    rollback h t s = .ok ((), (s.mapMem fun m => m.write16 (s.tdAddr t) (tdStatusWord true)).mapTx ((TxRing.rolledBack · t))) := by
  simp only [rollback, Op.bind_apply, host_nil hi, writeTdC_eq hs, updateTx_apply]
  rfl

/-- The filled slot `t` handed over and in use, with the start path's command. -/
def State.started (p : Packet) (u : State) : State :=
  { u with
    regs := { u.regs with pointer := addrWord (u.tdAddr u.tx.tail), command := 1 }
    mem := handedOver (u.tdAddr u.tx.tail) u.mem
    tx := { u.tx.occupied u.cfg p with transmitIdle := false, resumeWaitNeeded := true } }

/-- The same with the resume path's writes. -/
def State.resumed (p : Packet) (u : State) : State :=
  { u with
    regs := { u.regs with command := 2 }
    mem := (handedOver (u.tdAddr u.tx.tail) u.mem).write16 (u.tdAddr (u.cfg.prev u.tx.tail) + 2) (tdCommandWord false)
    tx := { u.tx.occupied u.cfg p with resumeWaitNeeded := false } }

/-- The filled slot handed over, and given back because the wait for the command register ran out. -/
def State.timedOut (p : Packet) (u : State) : State :=
  { u with
    dev := { u.dev with hardwareError := true }
    mem := (handedOver (u.tdAddr u.tx.tail) u.mem).write16 (u.tdAddr u.tx.tail) (tdStatusWord true)
    tx := (u.tx.addressed u.tx.tail p).rolledBack u.tx.tail }

/-- Marking the addressed slot as used is the commit. -/
theorem TxRing.addressed_occupied {x : TxRing} (hx : x.tail < x.shadow.length) (c : Config) :
    { (x.addressed x.tail p).mapShadow x.tail (fun sh => { sh with inUse := true }) with
      tail := c.next x.tail, busyCount := x.busyCount + 1 } = x.occupied c p := by
  rw [addressed, mapShadow_mapShadow hx]
  rfl

section
variable (hf : placeFill h s.tx.tail p s = .ok (true, u)) (ht : u.tx.tail = s.tx.tail) (hu : u.Placeable)
include hf ht hu

theorem place_starts (hidle : u.tx.transmitIdle = true) (hc : commandCode u.regs.command = 0)
    (hb : 1 ≤ u.cfg.acceptPollBudget) : place h p s = .ok (.sent, u.started p) := by
  rw [← ht] at hf
  have hv := placeIssue_start (h := h) (t := u.tx.tail) (hu.handed u.tx.tail p) hidle hc hb
  rw [place_filled ht.symm hf hu hu.tail hv, if_pos rfl]
  simp only [Op.bind_apply, updateTx_apply, update_apply, Op.pure_apply]
  rw [State.started, ← TxRing.addressed_occupied hu.tail_lt_length]
  rfl

theorem place_resumes (hidle : u.tx.transmitIdle = false)
    (hc : commandCode u.regs.command = 0 ∨ (u.tx.resumeWaitNeeded = false ∧ commandCode u.regs.command = codeCuResume))
    (hb : 1 ≤ u.cfg.acceptPollBudget) : place h p s = .ok (.sent, u.resumed p) := by
  rw [← ht] at hf
  have hv := placeIssue_resume (h := h) (t := u.tx.tail) (hu.handed u.tx.tail p) hu.tail hidle hc hb
  rw [place_filled ht.symm hf hu hu.tail hv, if_pos rfl]
  simp only [Op.bind_apply, updateTx_apply, update_apply, Op.pure_apply]
  rw [State.resumed, ← TxRing.addressed_occupied hu.tail_lt_length]
  rfl

theorem place_timesOut (hw : u.tx.transmitIdle = true ∨ u.tx.resumeWaitNeeded = true)
    (hc : commandCode u.regs.command ≠ 0) : place h p s = .ok (.hardError, u.timedOut p) := by
  rw [← ht] at hf
  have hv := placeIssue_stuck (h := h) (t := u.tx.tail) (hu.handed u.tx.tail p) hw hc
  have hr := rollback_eq (h := h) (t := u.tx.tail)
    (s := (u.handed u.tx.tail p).mapDev (fun d => { d with hardwareError := true }))
    hu.inside (State.tdHeader_inSpace hu.laidOut hu.tail)
  rw [place_filled ht.symm hf hu hu.tail hv, if_neg (by decide)]
  simp only [Op.bind_apply, hr, Op.pure_apply]
  rfl

end

/-- Without a free local buffer PLACE changes nothing. -/
theorem place_exhausted (hc : Config.mustCoalesce s.cfg p = true) (hf : s.tx.localBufFree = []) :
    place h p s = .ok (.resourcesExhausted, s) := by
  simp only [place, Op.bind_apply, read_apply, placeFill_exhausted hc hf, Bool.not_false, if_true, Op.pure_apply]

/-! ## A slot given back -/

/-- The record of a slot that holds the packet in local buffer `b`. -/
def TxShadow.bufferedFor (b : Nat) (p : Packet) (sh : TxShadow) : TxShadow :=
  { sh with usesLocalBuf := true, localBuf := some b, packet := some p, retryCount := 0 }

namespace TxRing
variable {x : TxRing}

/-- The buffer that the slot of a roll-back uses goes back among the free ones. -/
theorem rolledBack_of_buffer {i b : Nat} (hu : (x.shadowAt i).usesLocalBuf = true) (hb : (x.shadowAt i).localBuf = some b) :
    x.rolledBack i = { x.mapShadow i (fun _ => TxShadow.clear) with localBufFree := insertSorted b x.localBufFree } := by
  rw [rolledBack, hu, hb]

section
variable (hx : x.tail < x.shadow.length) (hclear : x.shadowAt x.tail = TxShadow.clear)
include hx hclear

/-- A roll-back leaves the ring as it was, if the slot was free. -/
theorem rolledBack_addressed (p : Packet) : (x.addressed x.tail p).rolledBack x.tail = x := by
  have hfree : (x.addressed x.tail p).shadowAt x.tail = { x.shadowAt x.tail with packet := some p, retryCount := 0 } :=
    shadowAt_mapShadow_same hx _
  have hring : (x.addressed x.tail p).mapShadow x.tail (fun _ => TxShadow.clear) = x :=
    (mapShadow_mapShadow hx _ _).trans (mapShadow_self hx hclear.symm)
  rw [rolledBack, hring, hfree, hclear]
  rfl

omit hclear in
theorem addressed_buffered (b : Nat) (more : List Nat) (p : Packet) : (x.buffered b more).addressed x.tail p =
    { x.mapShadow x.tail (TxShadow.bufferedFor b p) with localBufFree := more } :=
  congrArg (fun y : TxRing => { y with localBufFree := more }) (mapShadow_mapShadow hx
    (fun sh => { sh with usesLocalBuf := true, localBuf := some b }) (fun sh => { sh with packet := some p, retryCount := 0 }))

/-- So does one that gives the local buffer back too. -/
theorem rolledBack_buffered {b : Nat} {more : List Nat} (hfree : x.localBufFree = b :: more)
    (hsorted : x.localBufFree.Pairwise (· < ·)) (p : Packet) :
    ((x.buffered b more).addressed x.tail p).rolledBack x.tail = x := by
  have hrecord : ((x.buffered b more).addressed x.tail p).shadowAt x.tail = TxShadow.bufferedFor b p TxShadow.clear := by
    rw [addressed_buffered hx, ← hclear]
    exact shadowAt_mapShadow_same hx (TxShadow.bufferedFor b p)
  have hring : ((x.buffered b more).addressed x.tail p).mapShadow x.tail (fun _ => TxShadow.clear) =
      { x with localBufFree := more } := by
    rw [addressed_buffered hx]
    exact congrArg (fun y : TxRing => { y with localBufFree := more })
      ((mapShadow_mapShadow hx (TxShadow.bufferedFor b p) (fun _ => TxShadow.clear)).trans (mapShadow_self hx hclear.symm))
  rw [rolledBack_of_buffer (b := b) (by rw [hrecord]; rfl) (by rw [hrecord]; rfl), hring]
  show { x with localBufFree := insertSorted b more } = x
  rw [insertSorted_of_lt (hfree ▸ hsorted), ← hfree]

end

end TxRing

end Sys2Proof.Machine
end

