-- ==== Sys2Proof/Proofs/Submit.lean ====
section
/-!
PROOF. SUBMIT (spec/41_transmit_ring.md R140) from a quiet state: its gates, and what it leaves where PLACE is reached.
-/
namespace Sys2Proof.Machine

variable {h : Handler} {s t : State} {p : Packet}

/-! ## From a quiet state -/

/-- In a quiet state no lock is held, nothing is scheduled inside an operation and no completion is due. -/
theorem State.of_quiet (hq : s.quiet = true) :
    s.locks = Locks.free ∧ s.ports.interleaved = [] ∧ s.ports.completions = [] := by
  simp only [State.quiet, State.settled, Bool.and_eq_true, decide_eq_true_eq, List.isEmpty_iff] at hq
  exact ⟨hq.1.1.1.1.1.1.1, hq.2, hq.1.1.1.2⟩

/-- In a quiet state lock `tx` is to be had. -/
theorem lock_tx_of_free {f : Ports → Ports} (hl : s.locks = Locks.free) :
    lock .tx (s.mapPorts f) = .ok ((), (s.mapPorts f).mapLocks (fun x => x.put .tx true)) :=
  lock_eq (by simp [hl, Locks.free, Held.none, Held.mayTake]) (by simp [hl, Locks.free, Held.none, Held.has])

/-- A SUBMIT is under way. -/
def State.counted (s : State) : State := s.mapPorts fun x => { x with submits := x.submits + 1 }

/-- The state in which SUBMIT's locked part runs. -/
def State.submitting (s : State) : State := s.counted.mapLocks fun x => x.put .tx true

/-- What SUBMIT leaves, `t` being what its locked part left. -/
def State.submitted (s t : State) (r : Status) : State := { t with locks := s.locks, ports := s.ports, result := some r }

/-! ## The gates -/

theorem exec_submit_not_running {handle : Word} (hl : s.dev.lifecycle ≠ .running) : exec (.submit handle) s =
    .next { s with result := some (if s.dev.lifecycle = .withdrawn then .nonRecoverable else .invalidRequest) } := by
  show answer (submit (handlerOf s) handle) s = _
  simp only [answer, submit, Op.bind_apply, read_apply, id, hl, ne_eq, not_false_eq_true, if_true, Op.pure_apply]
  rfl

/-- SUBMIT counts itself for as long as it is under way. -/
theorem exec_submit_counted {handle : Word} {r : Status} (hl : s.dev.lifecycle = .running)
    (hr : submitAdmitted (handlerOf s) handle s.counted = .ok (r, t))
    (hlocks : t.locks = s.locks) (hports : t.ports = s.counted.ports) :
    exec (.submit handle) s = .next (s.submitted t r) := by
  show answer (submit (handlerOf s) handle) s = _
  have hc : updatePorts (fun x => { x with submits := x.submits + 1 }) s = .ok ((), s.counted) := rfl
  simp only [answer, submit, Op.bind_apply, read_apply, id, hl, ne_eq, not_true_eq_false, if_false, hc, hr, updatePorts_apply,
    Op.pure_apply]
  simp only [State.mapPorts, State.withResult, State.submitted, hports, ← hlocks]
  rfl

/-- A link that is not up, or is down while sends are queued, or a ring that is behind or full: the packet is queued. -/
theorem submitLocked_queues (hg : s.link.phase ≠ .done ∨ (s.link.media = .disconnected ∧ s.cfg.noLinkSendPolicy = .queueSends) ∨
    (s.link.media = .connected ∧ (s.tx.waitQueue ≠ [] ∨ s.tx.busyCount = s.cfg.numTcb))) :
    submitLocked h p s = enqueue p s := by
  simp only [submitLocked, Op.bind_apply, read_apply, id, Op.ite_apply]
  split
  · rfl
  · next hph =>
    rcases hg.resolve_left hph with ⟨hm, hpol⟩ | ⟨hm, hfull⟩
    · rw [if_pos hm, if_neg (by rw [hpol]; decide)]
    · rw [if_neg (by rw [hm]; decide), if_pos hfull]

theorem submitLocked_linkDown (hph : s.link.phase = .done) (hm : s.link.media = .disconnected)
    (hpol : s.cfg.noLinkSendPolicy = .failSends) : submitLocked h p s = .ok (.linkDown, s) := by
  simp only [submitLocked, Op.bind_apply, read_apply, id, Op.ite_apply, hph, hm, hpol, ne_eq, not_true_eq_false, if_false, if_true,
    Op.pure_apply]

/-- Past every gate SUBMIT places the packet. -/
theorem submitLocked_places (hph : s.link.phase = .done) (hm : s.link.media = .connected) (hw : s.tx.waitQueue = [])
    (hb : s.tx.busyCount < s.cfg.numTcb) : submitLocked h p s = place h p s := by
  simp only [submitLocked, Op.bind_apply, read_apply, id, Op.ite_apply, hph, hm, hw, hb.ne, ne_eq, not_true_eq_false, if_false,
    reduceCtorEq, or_self]

section
variable {handle : Word} (hp : s.packetOf? handle = some p) (ha : Config.packetAllowed s.cfg p = true) (hq : s.quiet = true)
include hp ha hq

/-- SUBMIT past its check of `deviceState`: the sticky error refuses, else the locked part runs. -/
theorem submitAdmitted_eq : submitAdmitted h handle s.counted =
    if s.dev.hardwareError then .ok (.hardError, s.counted)
    else (do let r ← submitLocked h p; unlock .tx; pure r : Op Status) s.submitting := by
  obtain ⟨hfree, hi, -⟩ := State.of_quiet hq
  have hi' : s.counted.ports.interleaved = [] := hi
  have hp' : s.counted.packetOf? handle = some p := hp
  have ha' : Config.packetAllowed s.counted.cfg p = true := ha
  have hlock : lock .tx s.counted = .ok ((), s.submitting) := lock_tx_of_free hfree
  have he : s.counted.dev = s.dev := rfl
  simp only [submitAdmitted, Op.bind_apply, read_apply, id, hp', ha', Bool.not_true, Bool.false_eq_true, if_false, point_nil hi',
    he, Op.ite_apply, Op.pure_apply, hlock]

variable (hl : s.dev.lifecycle = .running)
include hl

theorem exec_submit_hardError (he : s.dev.hardwareError = true) :
    exec (.submit handle) s = .next { s with result := some .hardError } :=
  exec_submit_counted (t := s.counted) hl (by rw [submitAdmitted_eq hp ha hq, he, if_pos rfl]) rfl rfl

/-- Past the gates that are tested without a lock, SUBMIT is its locked part. -/
theorem exec_submit (he : s.dev.hardwareError = false) {r : Status} (hr : submitLocked (handlerOf s) p s.submitting = .ok (r, t))
    (hlocks : t.locks = s.submitting.locks) (hports : t.ports = s.submitting.ports) :
    exec (.submit handle) s = .next (s.submitted t r) := by
  have hfree : s.submitting.locks.put .tx false = s.locks := by
    show (s.locks.put .tx true).put .tx false = _
    rw [(State.of_quiet hq).1]
    rfl
  refine exec_submit_counted (t := t.mapLocks fun x => x.put .tx false) hl ?_ (by rw [← hfree, ← hlocks]; rfl) hports
  rw [submitAdmitted_eq hp ha hq, he, if_neg (by decide)]
  simp only [Op.bind_apply, hr, unlock_apply, Op.pure_apply]

end

/-- Settles O30: each gate in its order. -/
theorem submitQueuesAndRefuses : Obligations.SubmitQueuesAndRefuses := by
  intro s handle p hq hp ha
  refine ⟨fun hl => ?withdrawn, fun hr hw => ?outOfService, fun hl he => exec_submit_hardError hp ha hq hl he,
    fun hl he hph hm hpol => ?linkDown, fun hl he hgate => ?queued⟩
  case withdrawn => rw [exec_submit_not_running (by rw [hl]; decide), if_pos hl]
  case outOfService => rw [exec_submit_not_running hr, if_neg hw]
  case linkDown =>
    exact exec_submit (t := s.submitting) hp ha hq hl he (submitLocked_linkDown hph hm hpol) rfl rfl
  case queued =>
    exact exec_submit (t := s.submitting.mapTx fun x => { x with waitQueue := x.waitQueue ++ [p] }) hp ha hq hl he
      (submitLocked_queues hgate) rfl rfl

/-! ## Placing -/

/-- In a quiet state without the sticky error PLACE has what it relies on. -/
theorem State.placeable_submitting (hq : s.quiet = true) (he : s.dev.hardwareError = false) (hs : s.txLaidOut = true)
    (ht : s.tx.tail < s.cfg.numTcb) : s.submitting.Placeable := by
  obtain ⟨hfree, hi, -⟩ := State.of_quiet hq
  exact ⟨hi, he, by simp [submitting, counted, hfree, Locks.put, Held.put, Locks.free, Held.none],
    by simp [submitting, counted, hfree, Locks.put, Locks.free, Held.none], hs, ht⟩

/-- Past every gate SUBMIT leaves what PLACE leaves. -/
theorem exec_submit_places {handle : Word} {r : Status} (hp : s.packetOf? handle = some p)
    (ha : Config.packetAllowed s.cfg p = true) (hq : s.quiet = true) (hl : s.dev.lifecycle = .running)
    (he : s.dev.hardwareError = false) (hph : s.link.phase = .done) (hm : s.link.media = .connected)
    (hw : s.tx.waitQueue = []) (hb : s.tx.busyCount < s.cfg.numTcb) (hr : place (handlerOf s) p s.submitting = .ok (r, t))
    (hlocks : t.locks = s.submitting.locks) (hports : t.ports = s.submitting.ports) :
    exec (.submit handle) s = .next (s.submitted t r) :=
  exec_submit hp ha hq hl he ((submitLocked_places (s := s.submitting) hph hm hw hb).trans hr) hlocks hports

/-! ## What PLACE leaves, between steps -/

/-- A start is pending, over memory `m` and ring `x`. -/
def State.startedWith (s : State) (m : Memory) (x : TxRing) (r : Status) : State :=
  { s with
    regs := { s.regs with pointer := addrWord (s.tdAddr s.tx.tail), command := 1 }
    mem := m
    tx := { x with transmitIdle := false, resumeWaitNeeded := true }
    result := some r }

/-- A resume is pending, over memory `m` and ring `x`. -/
def State.resumedWith (s : State) (m : Memory) (x : TxRing) (r : Status) : State :=
  { s with
    regs := { s.regs with command := 2 }
    mem := m
    tx := { x with resumeWaitNeeded := false }
    result := some r }

/-- The sticky error is set, over memory `m`. -/
def State.brokenWith (s : State) (m : Memory) (r : Status) : State :=
  { s with dev := { s.dev with hardwareError := true }, mem := m, result := some r }

section
variable {f : Memory → Memory} {g : TxRing → TxRing} (hb : (g s.tx).base = s.tx.base) (ht : (g s.tx).tail = s.tx.tail)
include hb

theorem State.tdAddr_filled (i : Nat) : ((s.submitting.mapMem f).mapTx g).tdAddr i = s.tdAddr i := State.tdAddr_congr hb rfl

include ht

theorem State.submitted_started (r : Status) : s.submitted (((s.submitting.mapMem f).mapTx g).started p) r =
    s.startedWith (handedOver (s.tdAddr s.tx.tail) (f s.mem)) ((g s.tx).occupied s.cfg p) r := by
  have htail : ((s.submitting.mapMem f).mapTx g).tx.tail = s.tx.tail := ht
  rw [State.started, State.tdAddr_filled hb, htail]
  rfl

theorem State.submitted_resumed (r : Status) : s.submitted (((s.submitting.mapMem f).mapTx g).resumed p) r =
    s.resumedWith ((handedOver (s.tdAddr s.tx.tail) (f s.mem)).write16 (s.tdAddr (s.cfg.prev s.tx.tail) + 2)
      (tdCommandWord false)) ((g s.tx).occupied s.cfg p) r := by
  have htail : ((s.submitting.mapMem f).mapTx g).tx.tail = s.tx.tail := ht
  rw [State.resumed, State.tdAddr_filled hb, State.tdAddr_filled hb, htail]
  rfl

/-- A roll-back that gives the slot back leaves the ring alone. -/
theorem State.submitted_timedOut (hr : ((g s.tx).addressed s.tx.tail p).rolledBack s.tx.tail = s.tx) (r : Status) :
    s.submitted (((s.submitting.mapMem f).mapTx g).timedOut p) r =
      s.brokenWith ((handedOver (s.tdAddr s.tx.tail) (f s.mem)).write16 (s.tdAddr s.tx.tail) (tdStatusWord true)) r := by
  have htail : ((s.submitting.mapMem f).mapTx g).tx.tail = s.tx.tail := ht
  have hring : ((((s.submitting.mapMem f).mapTx g).tx.addressed s.tx.tail p).rolledBack s.tx.tail) = s.tx := hr
  rw [State.timedOut, State.tdAddr_filled hb, htail, hring]
  rfl

end

/-! ## The packet's own fragments -/

/-- The tail slot whose descriptor PLACE has written over memory `m` (R141): what it reads as, and what has not changed. -/
theorem State.td_of_placed {fs : List Fragment} {m : Memory} {x : TxRing} {r : Status} (hw : m.wf = true)
    (hn : fs.length ≤ 255) (hb : x.base = s.tx.base)
    (ht : t = s.startedWith (placedDescriptor (s.tdAddr s.tx.tail) fs m) x r) :
    t.tdC s.tx.tail = false ∧ t.tdS s.tx.tail = true ∧ (t.tdFragCount s.tx.tail).toNat = fs.length ∧
      (∀ k f, fs[k]? = some f → t.tdFragAddr s.tx.tail k = f.addr ∧ t.tdFragLen s.tx.tail k = f.len) ∧
      t.tdLink s.tx.tail = m.read32 (s.tdAddr s.tx.tail + 4) ∧
      ∀ x, (x < s.tdAddr s.tx.tail ∨ s.tdAddr s.tx.tail + 12 + 8 * fs.length ≤ x) → t.mem.byte x = m.byte x := by
  obtain ⟨hC, hcount, hpairs⟩ := placedDescriptor_tdHolds hw (s.tdAddr s.tx.tail) hn
  have ha : t.tdAddr s.tx.tail = s.tdAddr s.tx.tail := State.tdAddr_congr (ht ▸ hb) (ht ▸ rfl)
  have hm : t.mem = placedDescriptor (s.tdAddr s.tx.tail) fs m := ht ▸ rfl
  simp only [State.tdC, State.tdS, State.tdFragCount, State.tdFragAddr, State.tdFragLen, State.tdLink, ha, hm]
  exact ⟨hC, placedDescriptor_suspends hw _ _, hcount, hpairs, placedDescriptor_link _ _ _,
    fun x hx => placedDescriptor_outside _ _ _ (by omega)⟩

/-- Settles O27: the start path of PLACE on the packet's own fragments. -/
theorem submitStartsAnIdleTransmitter : Obligations.SubmitStartsAnIdleTransmitter := by
  intro s handle p hq hl hp ha he hph hm hw hb hco hidle hc hbudget hmax hmem hs htail
  have hP := State.placeable_submitting hq he hs htail
  have hplace := place_starts (h := handlerOf s) (placeFill_direct hP hco) rfl (hP.mapMem _) hidle hc hbudget
  have hexec : exec (.submit handle) s = .next (s.startedWith (placedDescriptor (s.tdAddr s.tx.tail) p.frags s.mem)
      (s.tx.occupied s.cfg p) .sent) :=
    (exec_submit_places hp ha hq hl he hph hm hw hb hplace rfl rfl).trans
      (congrArg _ (State.submitted_started (f := filledDescriptor (s.tdAddr s.tx.tail) p.frags) (g := fun x => x) rfl rfl _))
  obtain ⟨hC, hS, hcount, hpairs, hlink, hframe⟩ := State.td_of_placed (x := s.tx.occupied s.cfg p) (r := .sent) hmem
    ((frags_le_of_mustCoalesce hco).trans hmax) rfl rfl
  exact ⟨_, hexec, rfl, rfl, rfl, hC, hS, hcount, hpairs, hlink, hframe, rfl, rfl, rfl, rfl, rfl, rfl, rfl, rfl⟩

/-- The slot before the tail is the tail slot itself or lies outside its descriptor. -/
theorem State.prev_apart (i : Nat) : s.tdAddr (s.cfg.prev i) = s.tdAddr i ∨
    s.tdAddr i + s.cfg.tdSize ≤ s.tdAddr (s.cfg.prev i) ∨ s.tdAddr (s.cfg.prev i) + s.cfg.tdSize ≤ s.tdAddr i :=
  (em (s.cfg.prev i = i)).imp (congrArg _) fun hne => State.td_apart (Ne.symm hne)

/-- A placed slot `i` behind a chain that is no longer ended by the slot before it. -/
theorem State.td_of_appended {i : Nat} {fs : List Fragment} {x : TxRing} {r : Status} (hw : s.mem.wf = true)
    (hn : fs.length ≤ 255) (hfs : fs.length ≤ s.cfg.maxFragments) (hb : x.base = s.tx.base)
    (ht : t = s.resumedWith ((placedDescriptor (s.tdAddr i) fs s.mem).write16 (s.tdAddr (s.cfg.prev i) + 2)
      (tdCommandWord false)) x r) :
    t.tdC i = false ∧ t.tdS (s.cfg.prev i) = false ∧ (s.cfg.prev i ≠ i → t.tdS i = true) ∧
      (t.tdFragCount i).toNat = fs.length ∧
      (∀ k f, fs[k]? = some f → t.tdFragAddr i k = f.addr ∧ t.tdFragLen i k = f.len) ∧ t.tdLink i = s.tdLink i ∧
      ∀ x, (x < s.tdAddr i ∨ s.tdAddr i + 12 + 8 * fs.length ≤ x) →
        (x < s.tdAddr (s.cfg.prev i) + 2 ∨ s.tdAddr (s.cfg.prev i) + 4 ≤ x) → t.mem.byte x = s.mem.byte x := by
  have ha (j : Nat) : t.tdAddr j = s.tdAddr j := State.tdAddr_congr (ht ▸ hb) (ht ▸ rfl)
  have hm : t.mem = (placedDescriptor (s.tdAddr i) fs s.mem).write16 (s.tdAddr (s.cfg.prev i) + 2) (tdCommandWord false) :=
    ht ▸ rfl
  have hsize : 12 + 8 * fs.length ≤ s.cfg.tdSize := by rw [Config.tdSize]; omega
  have hwf := placedDescriptor_wf hw (s.tdAddr i) fs
  have hout {x : Nat} (hx : x < s.tdAddr (s.cfg.prev i) + 2 ∨ s.tdAddr (s.cfg.prev i) + 4 ≤ x) :
      t.mem.byte x = (placedDescriptor (s.tdAddr i) fs s.mem).byte x := hm ▸ Memory.byte_write16_outside _ _ _ hx
  have hapart := s.prev_apart i
  obtain ⟨hC, hcount, hpairs⟩ := (placedDescriptor_tdHolds hw (s.tdAddr i) hn).congr (m' := t.mem) fun x hx => hout (by omega)
  simp only [State.tdC, State.tdS, State.tdFragCount, State.tdFragAddr, State.tdFragLen, State.tdLink, ha]
  refine ⟨hC, ?before, fun hne => ?ends, hcount, hpairs, ?link, fun x hx hx' => ?frame⟩
  case before =>
    rw [hm, Memory.read16_write16 hwf]
    rfl
  case ends =>
    rw [Memory.read16_congr _ fun x _ _ => hout ?_, placedDescriptor_suspends hw]
    have := s.td_apart hne
    omega
  case link =>
    rw [Memory.read32_congr _ fun x _ _ => hout (by omega), placedDescriptor_link]
  case frame => rw [hout hx', placedDescriptor_outside _ _ _ (by omega)]

/-- Settles O28: the resume path of PLACE. -/
theorem submitAppendsAndResumes : Obligations.SubmitAppendsAndResumes := by
  intro s handle p hq hl hp ha he hph hm hw hb hco hidle hc hbudget hmax hmem hs htail
  have hP := State.placeable_submitting hq he hs htail
  have hfs := frags_le_of_mustCoalesce hco
  have hplace := place_resumes (h := handlerOf s) (placeFill_direct hP hco) rfl (hP.mapMem _) hidle hc hbudget
  have hexec : exec (.submit handle) s = .next (s.resumedWith ((placedDescriptor (s.tdAddr s.tx.tail) p.frags s.mem).write16
      (s.tdAddr (s.cfg.prev s.tx.tail) + 2) (tdCommandWord false)) (s.tx.occupied s.cfg p) .sent) :=
    (exec_submit_places hp ha hq hl he hph hm hw hb hplace rfl rfl).trans
      (congrArg _ (State.submitted_resumed (f := filledDescriptor (s.tdAddr s.tx.tail) p.frags) (g := fun x => x) rfl rfl _))
  obtain ⟨hC, hbefore, hends, hcount, hpairs, hlink, hframe⟩ := State.td_of_appended (i := s.tx.tail)
    (x := s.tx.occupied s.cfg p) (r := .sent) hmem (hfs.trans hmax) hfs rfl rfl
  exact ⟨_, hexec, rfl, rfl, rfl, hC, hbefore, hends, hcount, hpairs, hlink, hframe, rfl, rfl, rfl, rfl, rfl, rfl, rfl, rfl⟩

end Sys2Proof.Machine
end

