-- ==== Sys2Proof/Proofs/SubmitCoalesced.lean ====
section
/-!
PROOF. SUBMIT of a packet that needs a local buffer (spec/41_transmit_ring.md R141, R142), and SUBMIT whose wait for the command
register runs out (R191, R282).
-/
namespace Sys2Proof.Machine

variable {s t : State} {p : Packet} {b : Nat} {more : List Nat}

theorem totalLen_of_packetAllowed {c : Config} (ha : Config.packetAllowed c p = true) : p.totalLen = fragmentBytes p.frags := by
  simp only [Config.packetAllowed, Bool.and_eq_true, beq_iff_eq] at ha
  exact ha.1.2

/-! ## The buffer and the slot -/

/-- The memory in which the packet lies in local buffer `b` and the tail slot is handed over with that one pair. -/
def State.coalescedMem (s : State) (b : Nat) (p : Packet) : Memory :=
  placedDescriptor (s.tdAddr s.tx.tail) [s.bufferPair b p] (coalesced (s.bufAddr b) s.cfg.minFrameSize p s.mem)

/-- Only the buffer and the first 20 bytes of the slot are written. -/
theorem State.coalescedMem_outside (hp : p.totalLen = fragmentBytes p.frags) {x : Nat}
    (hb : x < s.bufAddr b ∨ s.bufAddr b + max p.totalLen s.cfg.minFrameSize ≤ x)
    (ht : x < s.tdAddr s.tx.tail ∨ s.tdAddr s.tx.tail + 20 ≤ x) : (s.coalescedMem b p).byte x = s.mem.byte x := by
  rw [coalescedMem, placedDescriptor_outside _ _ _ (by simp only [List.length_singleton]; omega), coalesced_outside hp _ _ _ hb]

/-- A buffer outside the TD array shares no byte with a slot. -/
theorem State.buf_apart {n i : Nat} (hi : i < s.cfg.numTcb)
    (hb : s.bufAddr b + n ≤ s.tx.base ∨ s.tx.base + s.cfg.numTcb * s.cfg.tdSize ≤ s.bufAddr b) :
    s.bufAddr b + n ≤ s.tdAddr i ∨ s.tdAddr i + s.cfg.tdSize ≤ s.bufAddr b := by
  have hend : s.tdAddr i + s.cfg.tdSize ≤ s.tx.base + s.cfg.numTcb * s.cfg.tdSize := s.tdAddr_add_tdSize_le hi
  have hbase : s.tx.base ≤ s.tdAddr i := Nat.le_add_right _ _
  omega

/-- The buffer holds the frame. -/
theorem State.coalescedMem_frame (hw : s.mem.wf = true) (hp : p.totalLen = fragmentBytes p.frags) (hm : 1 ≤ s.cfg.maxFragments)
    (ha : s.bufAddr b + max p.totalLen s.cfg.minFrameSize ≤ s.tdAddr s.tx.tail ∨
      s.tdAddr s.tx.tail + s.cfg.tdSize ≤ s.bufAddr b)
    (hf : ∀ f ∈ p.frags, f.addr.toNat + f.len.toNat ≤ s.bufAddr b ∨
      s.bufAddr b + max p.totalLen s.cfg.minFrameSize ≤ f.addr.toNat) :
    (s.coalescedMem b p).readBytes (s.bufAddr b) (max p.totalLen s.cfg.minFrameSize) = s.mem.frame s.cfg.minFrameSize p := by
  have hsize : 20 ≤ s.cfg.tdSize := by rw [Config.tdSize]; omega
  rw [coalescedMem, Memory.readBytes_congr _ _ fun x _ _ =>
      placedDescriptor_outside _ _ _ (by simp only [List.length_singleton]; omega),
    coalesced_eq_writeBytes hp _ _ _ hf, ← Memory.length_frame hp s.mem]
  exact Memory.readBytes_writeBytes hw _ _

/-- The ring's own fields with the tail slot in use from the buffer. -/
theorem TxRing.occupied_buffered {x : TxRing} (hx : x.tail < x.shadow.length) (c : Config) :
    (x.buffered b more).occupied c p =
      { x with
        shadow := x.shadow.set x.tail
          { x.shadowAt x.tail with inUse := true, usesLocalBuf := true, localBuf := some b, packet := some p, retryCount := 0 },
        localBufFree := more, tail := c.next x.tail, busyCount := x.busyCount + 1 } :=
  congrArg (fun y : TxRing => { y with localBufFree := more, tail := c.next x.tail, busyCount := x.busyCount + 1 })
    (mapShadow_mapShadow hx (fun sh => { sh with usesLocalBuf := true, localBuf := some b })
      (fun sh => { sh with inUse := true, packet := some p, retryCount := 0 }))

/-- Settles O31: PLACE fills the slot from the buffer or, with none free, changes nothing. -/
theorem submitCoalescesThroughALocalBuffer : Obligations.SubmitCoalescesThroughALocalBuffer := by
  intro s handle p hq hl hp ha he hph hm hw hb hco
  have htotal := totalLen_of_packetAllowed ha
  refine ⟨fun hfree => ?exhausted, fun b n more hfree hn hidle hc hbudget hmax hmem hs htail hbuf hapart hfrags => ?placed⟩
  case exhausted =>
    exact exec_submit_places (t := s.submitting) hp ha hq hl he hph hm hw hb (place_exhausted hco hfree) rfl rfl
  case placed =>
    subst hn
    have hP := State.placeable_submitting hq he hs htail
    have hbuf_apart := State.buf_apart htail hapart
    have hsize : 20 ≤ s.cfg.tdSize := by rw [Config.tdSize]; omega
    have hfill := placeFill_coalesced (h := handlerOf s) hP hco hfree hmax htotal hbuf fun f hf => (hfrags f hf).1
    have hplace := place_starts hfill rfl ((hP.mapMem _).buffered b more) hidle hc hbudget
    have hexec : exec (.submit handle) s =
        .next (s.startedWith (s.coalescedMem b p) ((s.tx.buffered b more).occupied s.cfg p) .sent) :=
      (exec_submit_places hp ha hq hl he hph hm hw hb hplace rfl rfl).trans (congrArg _ (State.submitted_started
        (f := fun m => filledDescriptor (s.tdAddr s.tx.tail) [s.bufferPair b p] (coalesced (s.bufAddr b) s.cfg.minFrameSize p m))
        (g := TxRing.buffered b more) rfl rfl _))
    obtain ⟨hC, hS, hcount, hpairs, hlink, -⟩ := State.td_of_placed (x := (s.tx.buffered b more).occupied s.cfg p) (r := .sent)
      (coalesced_wf hmem (s.bufAddr b) s.cfg.minFrameSize) (fs := [s.bufferPair b p]) (by simp) rfl rfl
    obtain ⟨haddr, hlen⟩ := hpairs 0 _ rfl
    refine ⟨_, hexec, rfl, rfl, ?ring, hC, hS, BitVec.eq_of_toNat_eq hcount, haddr, hlen, hlink.trans ?link, ?frame, ?outside,
      rfl, rfl, rfl, rfl, rfl, rfl, rfl, rfl⟩
    case ring =>
      exact congrArg (fun x : TxRing => { x with transmitIdle := false, resumeWaitNeeded := true })
        (TxRing.occupied_buffered (x := s.tx) hP.tail_lt_length s.cfg)
    case link => exact Memory.read32_congr _ fun x _ _ => coalesced_outside htotal _ _ _ (by omega)
    case frame => exact State.coalescedMem_frame hmem htotal hmax hbuf_apart fun f hf => (hfrags f hf).2
    case outside => exact fun x hxb hxt => State.coalescedMem_outside htotal hxb hxt

/-! ## A wait that runs out -/

/-- A slot given back is software's (R131). -/
theorem State.tdC_of_givenBack {m : Memory} {i : Nat} {r : Status} (hw : m.wf = true) :
    (s.brokenWith (m.write16 (s.tdAddr i) (tdStatusWord true)) r).tdC i = true := by
  have ha : (s.brokenWith (m.write16 (s.tdAddr i) (tdStatusWord true)) r).tdAddr i = s.tdAddr i := State.tdAddr_congr rfl rfl
  rw [tdC, ha]
  show ((m.write16 (s.tdAddr i) (tdStatusWord true)).read16 (s.tdAddr i)).getLsbD 15 = true
  rw [Memory.read16_write16 hw]
  rfl

/-- Settles O29: PLACE's roll-back, with and without a local buffer. -/
theorem submitTimeoutRollsTheSlotBack : Obligations.SubmitTimeoutRollsTheSlotBack := by
  intro s handle p hq hl hp ha he hph hm hw hb hwait hc hmin hmax hmem hs htail hclear
  have hP := State.placeable_submitting hq he hs htail
  refine ⟨fun hco => ?direct, fun b n more hco hfree hsorted hn hbuf hfrags => ?buffered⟩
  case direct =>
    have hplace := place_timesOut (h := handlerOf s) (placeFill_direct hP hco) rfl (hP.mapMem _) hwait hc
    have hexec : exec (.submit handle) s = .next (s.brokenWith ((placedDescriptor (s.tdAddr s.tx.tail) p.frags s.mem).write16
        (s.tdAddr s.tx.tail) (tdStatusWord true)) .hardError) :=
      (exec_submit_places hp ha hq hl he hph hm hw hb hplace rfl rfl).trans (congrArg _ (State.submitted_timedOut
        (f := filledDescriptor (s.tdAddr s.tx.tail) p.frags) (g := fun x => x) rfl rfl
        (TxRing.rolledBack_addressed (x := s.tx) hP.tail_lt_length hclear p) _))
    refine ⟨_, hexec, rfl, rfl, State.tdC_of_givenBack (placedDescriptor_wf hmem _ _), fun x hx => ?_, rfl⟩
    exact (Memory.byte_write16_outside _ _ _ (by omega)).trans (placedDescriptor_outside _ _ _ (by omega))
  case buffered =>
    subst hn
    have htotal := totalLen_of_packetAllowed ha
    have hfill := placeFill_coalesced (h := handlerOf s) hP hco hfree hmin htotal hbuf hfrags
    have hplace := place_timesOut hfill rfl ((hP.mapMem _).buffered b more) hwait hc
    have hexec : exec (.submit handle) s =
        .next (s.brokenWith ((s.coalescedMem b p).write16 (s.tdAddr s.tx.tail) (tdStatusWord true)) .hardError) :=
      (exec_submit_places hp ha hq hl he hph hm hw hb hplace rfl rfl).trans (congrArg _ (State.submitted_timedOut
        (f := fun m => filledDescriptor (s.tdAddr s.tx.tail) [s.bufferPair b p] (coalesced (s.bufAddr b) s.cfg.minFrameSize p m))
        (g := TxRing.buffered b more) rfl rfl (TxRing.rolledBack_buffered (x := s.tx) hP.tail_lt_length hclear hfree hsorted p) _))
    refine ⟨_, hexec, rfl, rfl, State.tdC_of_givenBack (placedDescriptor_wf (coalesced_wf hmem _ _) _ _), fun x hxb hxt => ?_, rfl⟩
    exact (Memory.byte_write16_outside _ _ _ (by omega)).trans (State.coalescedMem_outside htotal hxb hxt)

end Sys2Proof.Machine
end

