-- ==== Sys2Proof/Proofs/WaitQueue.lean ====
section
/-!
PROOF. The wait queue from a quiet state: CANCEL (spec/41_transmit_ring.md R145), and DRAIN (R144) of its oldest packet.
-/
namespace Sys2Proof.Machine

variable {h : Handler} {s t : State} {p : Packet}

/-! ## Under lock `tx` -/

/-- The state under lock `tx`. -/
def State.lockedTx (s : State) : State := s.mapLocks fun x => x.put .tx true

theorem lock_tx_eq (hl : s.locks = Locks.free) : lock .tx s = .ok ((), s.lockedTx) :=
  lock_tx_of_free (f := fun x => x) hl

/-- The lock is given back after a part that left the locks alone. -/
theorem unlock_tx_eq (hl : s.locks = Locks.free) (ht : t.locks = s.lockedTx.locks) :
    unlock .tx t = .ok ((), t.mapLocks fun _ => s.locks) := by
  have hback : t.locks.put .tx false = s.locks := by
    rw [ht, State.lockedTx, State.mapLocks_locks, hl]
    rfl
  rw [unlock_apply, ← hback]
  rfl

/-! ## CANCEL -/

/-- Settles O33: the matching packets are taken off the queue under the lock and completed after it. -/
theorem cancelCompletesMatchingPackets : Obligations.CancelCompletesMatchingPackets := by
  intro s tag hq
  obtain ⟨hfree, hi, -⟩ := State.of_quiet hq
  refine ⟨fun hl => ?inService, fun hr hw => ?refused⟩ <;> show answer (cancel (handlerOf s) tag) s = _
  case inService =>
    have hserved : ¬ (s.dev.lifecycle ≠ .running ∧ s.dev.lifecycle ≠ .withdrawn) := fun hn => hl.elim hn.1 hn.2
    simp only [answer, cancel, Op.bind_apply, read_apply, hserved, if_false, point_nil hi, lock_tx_eq hfree, updateTx_apply]
    rw [unlock_tx_eq (t := s.lockedTx.mapTx _) hfree rfl]
    simp only [Op.pure_apply]
    rw [callbacks_eq _ (by exact congrArg Locks.mine hfree) (by exact hi)]
    rfl
  case refused =>
    simp only [answer, cancel, Op.bind_apply, read_apply, hr, hw, ne_eq, not_false_eq_true, and_self, if_true, Op.pure_apply]
    rfl

/-! ## DRAIN -/

/-- DRAIN is its loop under the lock, where every placement succeeds. -/
theorem drain_eq (hl : s.dev.lifecycle = .running) (hfree : s.locks = Locks.free) (hi : s.ports.interleaved = [])
    (hr : drainLoop h s.tx.waitQueue.length s.lockedTx = .ok ([], t)) (ht : t.locks = s.lockedTx.locks) :
    drain h s = .ok (.ok, t.mapLocks fun _ => s.locks) := by
  have hr' : drainLoop h s.lockedTx.tx.waitQueue.length s.lockedTx = .ok ([], t) := hr
  simp only [drain, Op.bind_apply, read_apply, hl, decide_true, Bool.not_true, Bool.false_eq_true, if_false, point_nil hi,
    lock_tx_eq hfree, hr', unlock_tx_eq hfree ht, List.map_nil, callbacks, Op.pure_apply]

/-- With nothing in the queue DRAIN does nothing. -/
theorem drain_empty (hl : s.dev.lifecycle = .running) (hfree : s.locks = Locks.free) (hi : s.ports.interleaved = [])
    (hw : s.tx.waitQueue = []) : drain h s = .ok (.ok, s) :=
  drain_eq (t := s.lockedTx) hl hfree hi (by rw [hw]; rfl) rfl

/-- The loop places the oldest packet and goes on. -/
theorem drainLoop_places {n : Nat} {rest : List Packet} (hi : s.ports.interleaved = []) (hm : s.mayDrain = true)
    (hw : s.tx.waitQueue = p :: rest) (hp : place h p s = .ok (.sent, t)) :
    drainLoop h (n + 1) s = drainLoop h n (t.mapTx fun x => { x with waitQueue := x.waitQueue.tail }) := by
  simp only [drainLoop, Op.bind_apply, point_nil hi, read_apply, id, hm, if_true, hw, hp, popWaitQueue_apply]

/-- It stops where nothing may be placed. -/
theorem drainLoop_stops (n : Nat) (hi : s.ports.interleaved = []) (hm : s.mayDrain = false) :
    drainLoop h n s = .ok ([], s) := by
  cases n with
  | zero => rfl
  | succ n => simp only [drainLoop, Op.bind_apply, point_nil hi, read_apply, id, hm, Bool.false_eq_true, if_false, Op.pure_apply]

/-- In a quiet state without the sticky error DRAIN's section has what PLACE relies on. -/
theorem State.placeable_lockedTx (hq : s.quiet = true) (he : s.dev.hardwareError = false) (hs : s.txLaidOut = true)
    (ht : s.tx.tail < s.cfg.numTcb) : s.lockedTx.Placeable := by
  have hp := State.placeable_submitting hq he hs ht
  exact ⟨hp.inside, hp.error, hp.mine, hp.others, hs, ht⟩

/-- What one placement of the oldest packet by the start path leaves. -/
def State.drained (p : Packet) (s : State) : State :=
  ((s.filledDirect p).started p).mapTx fun x => { x with waitQueue := x.waitQueue.tail }

/-- After the last packet, and after the last free slot, nothing more may be placed. -/
theorem mayDrain_drained {rest : List Packet} (hw : s.tx.waitQueue = p :: rest)
    (hone : rest = [] ∨ s.tx.busyCount + 1 = s.cfg.numTcb) : (s.drained p).mayDrain = false := by
  have hqueue : (s.drained p).tx.waitQueue = rest := congrArg List.tail hw
  have hbusy : (s.drained p).tx.busyCount = s.tx.busyCount + 1 := rfl
  have hcfg : (s.drained p).cfg = s.cfg := rfl
  rw [State.mayDrain, hqueue, hbusy, hcfg]
  rcases hone with rfl | hfull
  · rfl
  · simp [hfull]

/-- Settles O34: one placement by the start path, after which the queue is empty or the ring full. -/
theorem drainPlacesTheOldestPacket : Obligations.DrainPlacesTheOldestPacket := by
  intro s p rest hq hl hw hone hb he hph hm hco hidle hc hbudget hmax hmem hs htail
  obtain ⟨hfree, hi, -⟩ := State.of_quiet hq
  have hP := State.placeable_lockedTx hq he hs htail
  have hplace := place_starts (h := handlerOf s) (placeFill_direct hP hco) rfl (hP.mapMem _) hidle hc hbudget
  have hmay : s.lockedTx.mayDrain = true := by simp [State.mayDrain, State.lockedTx, hw, hb, he, hph, hm]
  have hloop : drainLoop (handlerOf s) s.tx.waitQueue.length s.lockedTx = .ok ([], s.lockedTx.drained p) := by
    rw [hw]
    exact (drainLoop_places (s := s.lockedTx) hi hmay hw hplace).trans
      (drainLoop_stops rest.length hi (mayDrain_drained (s := s.lockedTx) hw hone))
  have hexec : exec .drain s = .next (s.startedWith (placedDescriptor (s.tdAddr s.tx.tail) p.frags s.mem)
      { s.tx.occupied s.cfg p with waitQueue := rest } .ok) := by
    show answer (drain (handlerOf s)) s = _
    have haddr : (s.lockedTx.filledDirect p).tdAddr s.tx.tail = s.tdAddr s.tx.tail := State.tdAddr_congr rfl rfl
    have htail : (s.lockedTx.filledDirect p).tx.tail = s.tx.tail := rfl
    have hrest : rest = s.lockedTx.tx.waitQueue.tail := (congrArg List.tail hw).symm
    rw [answer, drain_eq hl hfree hi hloop rfl, State.drained, State.started, htail, haddr, hrest]
    rfl
  obtain ⟨hC, hS, hcount, hpairs, hlink, hframe⟩ := State.td_of_placed
    (x := { s.tx.occupied s.cfg p with waitQueue := rest }) (r := .ok) hmem ((frags_le_of_mustCoalesce hco).trans hmax) rfl rfl
  exact ⟨_, hexec, rfl, rfl, rfl, hC, hS, hcount, hlink, hpairs, hframe, rfl, rfl, rfl, rfl, rfl, rfl, rfl, rfl⟩

end Sys2Proof.Machine
end

