-- ==== Sys2Proof/Proofs/Reclaim.lean ====
section
/-!
PROOF. RECLAIM (spec/41_transmit_ring.md R143) from a quiet state with an empty wait queue: the ring after `k` slots have been
retired from the head on, and the walk that gets there.
-/
namespace Sys2Proof.Machine

variable {h : Handler} {s : State}

/-! ## The ring after slots have been retired -/

theorem mem_insertSorted {a b : Nat} {l : List Nat} : b ∈ insertSorted a l ↔ b = a ∨ b ∈ l := by
  induction l with
  | nil => simp [insertSorted]
  | cons x xs ih =>
    rw [insertSorted]
    split
    · simp
    · split
      · next he => simp [he]
      · simp [ih, or_left_comm]

namespace TxRing
variable {x : TxRing} {n k : Nat}

/-- The slot at distance `j` from the head, in a ring of `n` slots. -/
def slotFrom (x : TxRing) (n j : Nat) : Nat := (x.head + j) % n

/-- The head slot's record is clear, its buffer free, the head and the count have moved by one (R143). -/
def retired (n : Nat) (x : TxRing) : TxRing :=
  { x.mapShadow x.head (fun _ => TxShadow.clear) with
    localBufFree := (match (x.shadowAt x.head).usesLocalBuf, (x.shadowAt x.head).localBuf with
      | true, some b => insertSorted b x.localBufFree
      | _, _ => x.localBufFree)
    head := (x.head + 1) % n
    busyCount := x.busyCount - 1 }

theorem shadowAt_retired (i : Nat) :
    (x.retired n).shadowAt i = if i = x.head then TxShadow.clear else x.shadowAt i := by
  show (x.mapShadow x.head fun _ => TxShadow.clear).shadowAt i = _
  split
  · next he =>
    rw [he]
    by_cases hx : x.head < x.shadow.length
    · exact shadowAt_mapShadow_same hx _
    · simp [shadowAt, mapShadow, List.getD_eq_getElem?_getD, hx]
  · next hne => exact shadowAt_mapShadow_ne hne _

theorem mem_localBufFree_retired {b : Nat} : b ∈ (x.retired n).localBufFree ↔
    b ∈ x.localBufFree ∨ ((x.shadowAt x.head).usesLocalBuf = true ∧ (x.shadowAt x.head).localBuf = some b) := by
  simp only [retired]
  split
  · next c hu hl => simp [hu, hl, mem_insertSorted, or_comm, eq_comm]
  · next hn => 
    refine ⟨.inl, fun hb => hb.resolve_right ?_⟩
    rintro ⟨hu, hl⟩
    exact hn b hu hl

theorem head_iterate_retired (hx : x.head < n) (k : Nat) : ((retired n)^[k] x).head = x.slotFrom n k := by
  induction k with
  | zero => exact (Nat.mod_eq_of_lt hx).symm
  | succ k ih =>
    rw [Function.iterate_succ_apply']
    show (((retired n)^[k] x).head + 1) % n = _
    rw [ih, slotFrom, Nat.mod_add_mod]
    rfl

theorem busyCount_iterate_retired (k : Nat) : ((retired n)^[k] x).busyCount = x.busyCount - k := by
  induction k with
  | zero => rfl
  | succ k ih =>
    rw [Function.iterate_succ_apply']
    show ((retired n)^[k] x).busyCount - 1 = _
    rw [ih]
    rfl

/-- Retiring changes neither the array nor the tail, the queue and the flags. -/
theorem iterate_retired_same (k : Nat) :
    ((retired n)^[k] x).base = x.base ∧ ((retired n)^[k] x).bufs = x.bufs ∧ ((retired n)^[k] x).tail = x.tail ∧
    ((retired n)^[k] x).waitQueue = x.waitQueue ∧ ((retired n)^[k] x).transmitIdle = x.transmitIdle ∧
    ((retired n)^[k] x).resumeWaitNeeded = x.resumeWaitNeeded := by
  induction k with
  | zero => exact ⟨rfl, rfl, rfl, rfl, rfl, rfl⟩
  | succ k ih =>
    rw [Function.iterate_succ_apply']
    exact ih

theorem shadowAt_iterate_retired_of_ne (hx : x.head < n) {i : Nat} (hi : ∀ j < k, i ≠ x.slotFrom n j) :
    ((retired n)^[k] x).shadowAt i = x.shadowAt i := by
  induction k with
  | zero => rfl
  | succ k ih =>
    rw [Function.iterate_succ_apply', shadowAt_retired, head_iterate_retired hx, if_neg (hi k (Nat.lt_succ_self k)),
      ih fun j hj => hi j (hj.trans (Nat.lt_succ_self k))]

theorem shadowAt_iterate_retired_of_lt (hx : x.head < n) {j : Nat} (hj : j < k) :
    ((retired n)^[k] x).shadowAt (x.slotFrom n j) = TxShadow.clear := by
  induction k with
  | zero => exact absurd hj (Nat.not_lt_zero j)
  | succ k ih =>
    rw [Function.iterate_succ_apply', shadowAt_retired, head_iterate_retired hx]
    split
    · rfl
    · next hne => exact ih (lt_of_le_of_ne (Nat.le_of_lt_succ hj) fun he => hne (he ▸ rfl))

/-- The record the walk finds at distance `k` is the one that was there. -/
theorem shadowAt_head_iterate_retired (hx : x.head < n) (hk : k < n) :
    ((retired n)^[k] x).shadowAt (x.slotFrom n k) = x.shadowAt (x.slotFrom n k) :=
  shadowAt_iterate_retired_of_ne hx fun _ hj he => absurd (slot_injective hk (hj.trans hk) he) hj.ne'

theorem mem_localBufFree_iterate_retired (hx : x.head < n) (hk : k ≤ n) {b : Nat} :
    b ∈ ((retired n)^[k] x).localBufFree ↔ b ∈ x.localBufFree ∨ ∃ j < k,
      (x.shadowAt (x.slotFrom n j)).usesLocalBuf = true ∧ (x.shadowAt (x.slotFrom n j)).localBuf = some b := by
  induction k with
  | zero => simp
  | succ k ih =>
    rw [Function.iterate_succ_apply', mem_localBufFree_retired, head_iterate_retired hx, shadowAt_head_iterate_retired hx hk,
      ih (Nat.le_of_succ_le hk), or_assoc]
    refine or_congr_right ⟨?_, ?_⟩
    · rintro (⟨j, hj, hb⟩ | hb)
      · exact ⟨j, hj.trans (Nat.lt_succ_self k), hb⟩
      · exact ⟨k, Nat.lt_succ_self k, hb⟩
    · rintro ⟨j, hj, hb⟩
      rcases Nat.lt_succ_iff_lt_or_eq.1 hj with hlt | rfl
      · exact .inl ⟨j, hlt, hb⟩
      · exact .inr hb

end TxRing

/-! ## The walk -/

/-- The first `k` slots of the ring are complete, and the walk stops after them. -/
structure State.Completed (s : State) (k : Nat) : Prop where
  inside : s.ports.interleaved = []
  laidOut : s.txLaidOut = true
  head : s.tx.head < s.cfg.numTcb
  le_busy : k ≤ s.tx.busyCount
  busy_le : s.tx.busyCount ≤ s.cfg.numTcb
  done : ∀ j < k, (s.tx.shadowAt (s.tx.slotFrom s.cfg.numTcb j)).inUse = true ∧ s.tdC (s.tx.slotFrom s.cfg.numTcb j) = true
  stop : k = s.tx.busyCount ∨ s.tdC (s.tx.slotFrom s.cfg.numTcb k) = false

/-- The state after `k` slots have been retired. -/
def State.retired (k : Nat) (s : State) : State := s.mapTx (TxRing.retired s.cfg.numTcb)^[k]

/-- The packet at distance `j` from the head. -/
def State.packetFrom (s : State) (j : Nat) : Option Packet := (s.tx.shadowAt (s.tx.slotFrom s.cfg.numTcb j)).packet

theorem retire_head : retire s.tx.head s =
    .ok ((s.tx.shadowAt s.tx.head).packet.toList, s.mapTx (TxRing.retired s.cfg.numTcb)) := retire_eq _ _

namespace State.Completed
variable {k j : Nat} (hs : s.Completed k)
include hs

/-- The walk reads `C` of the slot at distance `j` as it stands in memory. -/
theorem readTdC_retired (j : Nat) :
    host h (readTdC (s.tx.slotFrom s.cfg.numTcb j)) (s.retired j) =
      .ok (s.tdC (s.tx.slotFrom s.cfg.numTcb j), s.retired j) := by
  have hlt : s.tx.slotFrom s.cfg.numTcb j < s.cfg.numTcb := Nat.mod_lt _ (Nat.zero_lt_of_lt hs.head)
  have haddr : (s.retired j).tdAddr (s.tx.slotFrom s.cfg.numTcb j) = s.tdAddr (s.tx.slotFrom s.cfg.numTcb j) :=
    State.tdAddr_congr (TxRing.iterate_retired_same j).1 rfl
  have hC : (s.retired j).tdC (s.tx.slotFrom s.cfg.numTcb j) = s.tdC (s.tx.slotFrom s.cfg.numTcb j) := by
    rw [State.tdC, haddr]
    rfl
  rw [host_nil (s := s.retired j) hs.inside, readTdC_eq (haddr ▸ State.tdHeader_inSpace hs.laidOut hlt), hC]

/-- The walk stops at a slot that is not complete. -/
theorem reclaimLoop_stops (n : Nat) (hC : s.tdC (s.tx.slotFrom s.cfg.numTcb j) = false) :
    reclaimLoop h (n + 1) (s.retired j) = .ok ([], s.retired j) := by
  have hhead : (s.retired j).tx.head = s.tx.slotFrom s.cfg.numTcb j := TxRing.head_iterate_retired hs.head j
  simp only [reclaimLoop, Op.bind_apply, read_apply, hhead, Op.ite_apply, hs.readTdC_retired j, hC, Bool.false_eq_true, if_false,
    Op.pure_apply, ite_self]

/-- Else it retires the slot and goes on. -/
theorem reclaimLoop_retires {n : Nat} {rest : List Packet} {t : State} (hj : j < k)
    (hr : reclaimLoop h n (s.retired (j + 1)) = .ok (rest, t)) :
    reclaimLoop h (n + 1) (s.retired j) = .ok ((s.packetFrom j).toList ++ rest, t) := by
  have hlt : j < s.tx.busyCount := hj.trans_le hs.le_busy
  have hhead : (s.retired j).tx.head = s.tx.slotFrom s.cfg.numTcb j := TxRing.head_iterate_retired hs.head j
  have hbusy : (s.retired j).tx.busyCount = s.tx.busyCount - j := TxRing.busyCount_iterate_retired j
  have hrecord : (s.retired j).tx.shadowAt (s.tx.slotFrom s.cfg.numTcb j) = s.tx.shadowAt (s.tx.slotFrom s.cfg.numTcb j) :=
    TxRing.shadowAt_head_iterate_retired hs.head (hlt.trans_le hs.busy_le)
  have hretire : retire (s.tx.slotFrom s.cfg.numTcb j) (s.retired j) = .ok ((s.packetFrom j).toList, s.retired (j + 1)) := by
    rw [← hhead, retire_head, hhead, hrecord, State.retired, State.retired, Function.iterate_succ']
    rfl
  obtain ⟨hused, hC⟩ := hs.done j hj
  have hpos : 0 < s.tx.busyCount - j := by omega
  simp only [reclaimLoop, Op.bind_apply, read_apply, hhead, hbusy, hpos, decide_true, Bool.true_and, hrecord, hused, if_true,
    hs.readTdC_retired j, hC, hretire, hr, Op.pure_apply]

/-- From the slot at distance `j` on, the walk retires `m` slots. -/
theorem reclaimLoop_eq (m : Nat) : ∀ j, j + m = k → reclaimLoop h (s.tx.busyCount - j) (s.retired j) =
    .ok ((List.range' j m).filterMap s.packetFrom, s.retired k) := by
  have hle := hs.le_busy
  induction m with
  | zero =>
    rintro j rfl
    rcases hs.stop with he | hC
    · rw [show s.tx.busyCount - j = 0 by omega]
      rfl
    · cases hn : s.tx.busyCount - j with
      | zero => rfl
      | succ n => exact hs.reclaimLoop_stops n hC
  | succ m ih =>
    intro j hj
    obtain ⟨n, hn⟩ : ∃ n, s.tx.busyCount - j = n + 1 := ⟨s.tx.busyCount - j - 1, by omega⟩
    have hrest := ih (j + 1) (by omega)
    rw [show s.tx.busyCount - (j + 1) = n by omega] at hrest
    rw [hn, hs.reclaimLoop_retires (by omega) hrest, List.range'_succ]
    cases hp : s.packetFrom j <;> simp [hp]

end State.Completed

/-! ## The operation -/

/-- The retired packets are due. -/
def State.owing (done : List Packet) (s : State) : State := s.mapPorts fun x => { x with completions := x.completions ++ done }

/-- The packets are completed in order, and nothing is due any more. -/
theorem completionsDue_owing {done : List Packet} (hfree : s.locks = Locks.free) (hi : s.ports.interleaved = [])
    (hnone : s.ports.completions = []) :
    callbacksDue h Ports.nextCompletion (s.owing done).ports.completions.length (s.owing done) =
      .ok ((), s.mapEvents fun es => es ++ done.map fun p => .completeSend p .success) := by
  have hdue : (s.owing done).ports.completions = done := congrArg (· ++ done) hnone
  have hports : { s.ports with completions := [] } = s.ports := by rw [← hnone]
  have hpaid : ∀ g, ((s.owing done).mapEvents g).mapPorts (fun x => { x with completions := [] }) = s.mapEvents g := fun g => by
    show { s.mapEvents g with ports := { s.ports with completions := [] } } = s.mapEvents g
    rw [hports]
    rfl
  rw [completions_eq (s := s.owing done) _ (congrArg Locks.mine hfree) hi rfl, hdue, hpaid]

/-- RECLAIM from a state with no completion due, where the walk leaves nothing to drain. -/
theorem reclaim_eq {done : List Packet} {f : TxRing → TxRing} (hl : s.dev.lifecycle = .running) (hfree : s.locks = Locks.free)
    (hi : s.ports.interleaved = []) (hnone : s.ports.completions = [])
    (hr : reclaimLoop h s.tx.busyCount s.lockedTx = .ok (done, s.lockedTx.mapTx f)) (hw : (f s.tx).waitQueue = []) :
    reclaim h s = .ok (.ok, (s.mapTx f).mapEvents fun es => es ++ done.map fun p => .completeSend p .success) := by
  have hr' : reclaimLoop h s.lockedTx.tx.busyCount s.lockedTx = .ok (done, s.lockedTx.mapTx f) := hr
  have howe : updatePorts (fun p => { p with completions := p.completions ++ done }) (s.lockedTx.mapTx f) =
    .ok ((), (s.lockedTx.mapTx f).owing done) := rfl
  have hunlock : unlock .tx ((s.lockedTx.mapTx f).owing done) = .ok ((), (s.mapTx f).owing done) := unlock_tx_eq hfree rfl
  have hports : ((s.lockedTx.mapTx f).owing done).ports = ((s.mapTx f).owing done).ports := rfl
  have hdue := completionsDue_owing (h := h) (s := s.mapTx f) (done := done) hfree hi hnone
  have hi' : ∀ g, ((s.mapTx f).mapEvents g).ports.interleaved = [] := fun _ => hi
  have hdrain : ∀ g, drain h ((s.mapTx f).mapEvents g) = .ok (.ok, (s.mapTx f).mapEvents g) := fun _ =>
    drain_empty hl hfree hi hw
  simp only [reclaim, Op.bind_apply, read_apply, hl, decide_true, Bool.not_true, Bool.false_eq_true, if_false, point_nil hi,
    lock_tx_eq hfree, hr', howe, hunlock, hports, hdue, point_nil (hi' _), hdrain, Op.pure_apply]

/-- Settles O32: the walk retires the first `k` slots, and the queue being empty nothing is drained. -/
theorem reclaimRetiresCompletedSlots : Obligations.ReclaimRetiresCompletedSlots := by
  intro s k hq hl hw hlaid hhead hle hbusy hdone hstop
  obtain ⟨hfree, hi, hnone⟩ := State.of_quiet hq
  have hs : s.lockedTx.Completed k := ⟨hi, hlaid, hhead, hle, hbusy, hdone, hstop⟩
  obtain ⟨hbase, hbufs, htail, hqueue, hidle, hresume⟩ := TxRing.iterate_retired_same (x := s.tx) (n := s.cfg.numTcb) k
  have hreclaim := reclaim_eq (h := handlerOf s) hl hfree hi hnone (hs.reclaimLoop_eq k 0 (Nat.zero_add k))
    (hqueue.trans hw)
  have hexec : exec .reclaim s = .next (((s.retired k).mapEvents fun es => es ++
      ((List.range k).filterMap s.packetFrom).map fun p => .completeSend p .success).withResult (some .ok)) := by
    show answer (reclaim (handlerOf s)) s = _
    rw [answer, hreclaim, List.range_eq_range']
    rfl
  exact ⟨_, hexec, rfl, TxRing.head_iterate_retired hhead k, TxRing.busyCount_iterate_retired k, htail,
    fun j hj => TxRing.shadowAt_iterate_retired_of_lt hhead hj, fun i hi => TxRing.shadowAt_iterate_retired_of_ne hhead hi,
    fun b => TxRing.mem_localBufFree_iterate_retired hhead (hle.trans hbusy), hqueue.trans hw, hbase, hbufs, hidle, hresume,
    rfl, rfl, rfl, rfl, rfl, rfl, rfl, rfl, rfl, rfl⟩

end Sys2Proof.Machine
end

