-- ==== Sys2Proof/Proofs/CommandUnit.lean ====
section
/-!
PROOF. CU_EXECUTE (spec/41_transmit_ring.md R146): the frame it sends, and what it does after handing the slot back.
-/
namespace Sys2Proof.Machine

variable {s : State} {i : Nat}

/-! ## The frame -/

/-- The bytes of fragments `ks` of slot `i`, in order (R80). -/
def State.fragments (s : State) (i : Nat) (ks : List Nat) : List Byte :=
  ks.flatMap fun k => s.mem.readBytes (s.tdFragAddr i k).toNat (s.tdFragLen i k).toNat

/-- Gathering reads only. -/
theorem gatherFragments_eq {ks : List Nat} (hp : ∀ k ∈ ks, inSpace (s.tdAddr i + 12 + 8 * k) 8 = true)
    (hf : ∀ k ∈ ks, inSpace (s.tdFragAddr i k).toNat (s.tdFragLen i k).toNat = true) :
    gatherFragments i ks s = .ok (s.fragments i ks, s) := by
  induction ks with
  | nil => rfl
  | cons k ks ih =>
    obtain ⟨hpk, hpks⟩ := List.forall_mem_cons.1 hp
    obtain ⟨hfk, hfks⟩ := List.forall_mem_cons.1 hf
    simp only [gatherFragments, Op.bind_apply, readTdFragAddr_eq hpk, readTdFragLen_eq hpk, memRead_eq hfk, ih hpks hfks,
      Op.pure_apply]
    rfl

/-- The frame of slot `i`. -/
def State.frameOf (s : State) (i : Nat) : List Byte := s.fragments i (List.range (s.tdFragCount i).toNat)

/-! ## The step -/

/-- The frame is on the wire, the slot is software's, `CX` is raised. -/
def State.transmitted (i : Nat) (s : State) : State :=
  ((s.mapEvents fun es => es ++ [.wireTx (s.frameOf i)]).mapMem fun m => m.write16 (s.tdAddr i) (tdStatusWord true)).mapRegs
    (raiseCauses causeCX)

theorem State.transmitted_outside {x : Nat} (hx : x < s.tdAddr i ∨ s.tdAddr i + 2 ≤ x) :
    (s.transmitted i).mem.byte x = s.mem.byte x := Memory.byte_write16_outside _ _ _ hx

/-- The slot's `C` is set; its `S` and its link are as they were. -/
theorem State.td_transmitted (hw : s.mem.wf = true) : (s.transmitted i).tdAddr i = s.tdAddr i ∧ (s.transmitted i).tdC i = true ∧
    (s.transmitted i).tdS i = s.tdS i ∧ (s.transmitted i).tdLink i = s.tdLink i := by
  have ha : (s.transmitted i).tdAddr i = s.tdAddr i := State.tdAddr_congr rfl rfl
  refine ⟨ha, ?C, ?S, ?link⟩
  case C =>
    rw [State.tdC, ha]
    show ((s.mem.write16 (s.tdAddr i) (tdStatusWord true)).read16 (s.tdAddr i)).getLsbD 15 = true
    rw [Memory.read16_write16 hw]
    rfl
  case S => rw [State.tdS, State.tdS, ha, Memory.read16_congr _ fun x _ _ => State.transmitted_outside (by omega)]
  case link => rw [State.tdLink, State.tdLink, ha, Memory.read32_congr _ fun x _ _ => State.transmitted_outside (by omega)]

/-- The slots lie where they did. -/
theorem State.slotGiven?_transmitted (a : Nat) : (s.transmitted i).slotGiven? a = s.slotGiven? a := by
  have ha : (s.transmitted i).tdAddr = s.tdAddr := funext fun _ => State.tdAddr_congr rfl rfl
  rw [State.slotGiven?, State.slotAt?, ha]
  rfl

/-- The command unit can execute slot `i` (R147), whose descriptor and fragments lie in the address space. -/
structure State.Executable (s : State) (i : Nat) : Prop where
  wf : s.mem.wf = true
  laidOut : s.txLaidOut = true
  cursor : s.units.cuCursor = i
  slot : i < s.cfg.numTcb
  active : statusCus s.regs.status = unitActive
  hardware : s.tdC i = false
  count : (s.tdFragCount i).toNat ≤ s.cfg.maxFragments
  fragments : ∀ k < (s.tdFragCount i).toNat, inSpace (s.tdFragAddr i k).toNat (s.tdFragLen i k).toNat = true

/-- Following a link to the slot it names, or to none (R74). -/
def cuTurnTo : Option Nat → Op Unit
  | none => fault .danglingLink
  | some j => updateUnits (fun u => { u with cuCursor := j })

/-- What the step does once it has handed slot `i` back. -/
def cuMoveOn (i : Nat) : Op Unit := do
  let stop ← readTdS i
  if stop then
    updateRegs (fun r => raiseCauses causeCNA { r with status := withCus unitSuspended r.status })
  else do
    let l ← readTdLink i
    let slot ← read (fun s => s.slotGiven? l.toNat)
    cuTurnTo slot

namespace State.Executable
variable (hs : s.Executable i)
include hs

theorem header_inSpace : inSpace (s.tdAddr i) 12 = true := State.tdHeader_inSpace hs.laidOut hs.slot

theorem gatherFragments_eq_frameOf : gatherFragments i (List.range (s.tdFragCount i).toNat) s = .ok (s.frameOf i, s) := by
  have hpairs := State.tdPairs_inSpace hs.laidOut hs.slot hs.count
  refine gatherFragments_eq (fun k hk => ?_) fun k hk => hs.fragments k (List.mem_range.1 hk)
  have := List.mem_range.1 hk
  exact inSpace_sub hpairs (by omega)

theorem cuExecuteSlot_eq : cuExecuteSlot i s = cuMoveOn i (s.transmitted i) := by
  have hheader := hs.header_inSpace
  rw [cuExecuteSlot, Op.bind_apply, readTdFragCount_eq hheader]
  show (do
    let frame ← gatherFragments i (List.range (s.tdFragCount i).toNat)
    record (.wireTx frame)
    writeTdC i true
    updateRegs (raiseCauses causeCX)
    cuMoveOn i : Op Unit) s = _
  rw [Op.bind_apply, hs.gatherFragments_eq_frameOf]
  simp only [Op.bind_apply, record_apply, writeTdC_eq (s := s.mapEvents _) hheader, updateRegs_apply]
  rfl

theorem cuExecute_eq : cuExecute s = cuMoveOn i (s.transmitted i) := by
  have hlength : i < s.tx.shadow.length := (State.txLaidOut_iff.1 hs.laidOut).2 ▸ hs.slot
  simp only [cuExecute, Op.bind_apply, read_apply, hs.cursor, hs.active, hlength, decide_true, Bool.and_self, if_true,
    readTdC_eq hs.header_inSpace, hs.hardware, Bool.false_eq_true, if_false, hs.cuExecuteSlot_eq]

/-- The header is where it was. -/
theorem header_inSpace_transmitted : inSpace ((s.transmitted i).tdAddr i) 12 = true :=
  (State.td_transmitted hs.wf).1 ▸ hs.header_inSpace

theorem cuExecute_suspends (hS : s.tdS i = true) : cuExecute s = .ok ((), (s.transmitted i).mapRegs fun r =>
    raiseCauses causeCNA { r with status := withCus unitSuspended r.status }) := by
  obtain ⟨-, -, hS', -⟩ := State.td_transmitted (i := i) hs.wf
  simp only [hs.cuExecute_eq, cuMoveOn, Op.bind_apply, readTdS_eq hs.header_inSpace_transmitted, hS', hS, if_true,
    updateRegs_apply]

/-- With `S` clear the unit reads the link. -/
theorem cuExecute_of_tdS (hS : s.tdS i = false) :
    cuExecute s = cuTurnTo (s.slotGiven? (s.tdLink i).toNat) (s.transmitted i) := by
  obtain ⟨-, -, hS', hlink⟩ := State.td_transmitted (i := i) hs.wf
  simp only [hs.cuExecute_eq, cuMoveOn, Op.bind_apply, readTdS_eq hs.header_inSpace_transmitted, hS', hS, Bool.false_eq_true,
    if_false, readTdLink_eq hs.header_inSpace_transmitted, hlink, read_apply, State.slotGiven?_transmitted]

end State.Executable

theorem State.slotGiven?_eq_none {a : Nat} (h : Config.aligned s.cfg a = false ∨ s.slotAt? a = none) :
    s.slotGiven? a = none := by
  obtain h | h := h <;> simp [State.slotGiven?, h]

/-- Settles O36: the step up to the handback is one function of the state, and what follows it is `S` set, a link to a
slot, or a link to none. -/
theorem commandUnitTransmitsTheSlot : Obligations.CommandUnitTransmitsTheSlot := by
  intro s i hw hlaid hcur hi hact hC hn hf
  have hs : s.Executable i := ⟨hw, hlaid, hcur, hi, hact, hC, hn, hf⟩
  obtain ⟨-, hC', -, -⟩ := State.td_transmitted (i := i) hw
  have outside := fun x (hx : x < s.tdAddr i ∨ s.tdAddr i + 2 ≤ x) => State.transmitted_outside hx
  refine ⟨fun hS hlost => ?dangles, fun hmoves => ?sent⟩
  case dangles =>
    show cuExecute s = _
    rw [hs.cuExecute_of_tdS hS, State.slotGiven?_eq_none hlost]
    rfl
  case sent =>
    cases hS : s.tdS i with
    | true => exact ⟨_, hs.cuExecute_suspends hS, rfl, hC', fun _ => ⟨rfl, rfl⟩, nofun, outside, rfl⟩
    | false =>
      obtain ⟨haligned, j, hj⟩ := hmoves.resolve_left (by simp [hS])
      have hfollows : cuExecute s = .ok ((), (s.transmitted i).mapUnits fun u => { u with cuCursor := j }) := by
        rw [hs.cuExecute_of_tdS hS, State.slotGiven?_eq_some.2 ⟨haligned, hj⟩]
        rfl
      refine ⟨_, hfollows, rfl, hC', nofun, fun _ => ⟨fun j' hj' => ?cursor, rfl⟩, outside, rfl⟩
      case cursor =>
        obtain rfl : j = j' := Option.some.inj (hj.symm.trans hj')
        rfl

end Sys2Proof.Machine
end

