-- ==== Sys2Proof/Proofs/RxDescriptor.lean ====
section
/-!
PROOF. The receive descriptor in memory (spec/30_encoding.md R111): where the headers of a laid-out pool are, and what the
header writes of POOL_ALLOC_RX and RECYCLE (spec/40_descriptor_pool.md R135, spec/42_receive_ring.md R163) leave, as functions
of the memory before.
-/
namespace Sys2Proof.Machine

variable {s t : State} {m m' : Memory} {a b d q x : Nat}

/-! ## Where a header lies -/

theorem RxRing.mem_of_shadow? {r : RxRing} {sh : RxShadow} (h : r.shadow? d = some sh) : (d, sh) ∈ r.shadows := by
  obtain ⟨⟨k, y⟩, he, rfl⟩ := Option.map_eq_some_iff.1 h
  obtain rfl : k = d := by simpa using List.find?_some he
  exact List.mem_of_find?_eq_some he

theorem State.rdAddr?_eq_some : s.rdAddr? d = some a ↔ ∃ sh, s.rx.shadow? d = some sh ∧ sh.hwAddress = some a :=
  Option.bind_eq_some_iff

/-- Where a header lies is read off its shadow record. -/
theorem State.rdAddr?_congr (h : t.rx.shadow? d = s.rx.shadow? d) : t.rdAddr? d = s.rdAddr? d :=
  congrArg (fun o => o.bind (·.hwAddress)) h

/-- A change of a record that leaves its address alone moves no header. -/
theorem State.rdAddr?_mapShadow {f : RxShadow → RxShadow} (hf : ∀ sh, (f sh).hwAddress = sh.hwAddress)
    (h : t.rx.shadows = (s.rx.mapShadow d f).shadows) (x : Nat) : t.rdAddr? x = s.rdAddr? x := by
  have ht : t.rx.shadow? x = (s.rx.mapShadow d f).shadow? x := RxRing.shadow?_congr h x
  by_cases hx : x = d
  · subst hx
    rw [State.rdAddr?, State.rdAddr?, ht, RxRing.shadow?_mapShadow_same, Option.bind_map]
    exact congrArg _ (funext fun sh => hf sh)
  · exact State.rdAddr?_congr (ht.trans (RxRing.shadow?_mapShadow_ne _ _ hx))

theorem separateHeaders_comm (x y : Option Nat) : separateHeaders x y = separateHeaders y x := by
  cases x <;> cases y <;> simp [separateHeaders, Bool.or_comm]

theorem separateHeaders_some : separateHeaders (some a) (some b) = true ↔ a + 16 ≤ b ∨ b + 16 ≤ a := by
  show (decide (a + 16 ≤ b) || decide (b + 16 ≤ a)) = true ↔ _
  simp only [Bool.or_eq_true, decide_eq_true_eq]

section
variable (hs : s.rxLaidOut = true)
include hs

theorem State.rd_inSpace (ha : s.rdAddr? d = some a) : inSpace a 16 = true := by
  simp only [State.rxLaidOut, Bool.and_eq_true, List.all_eq_true] at hs
  obtain ⟨⟨-, hspace⟩, -⟩ := hs
  obtain ⟨sh, hd, hsh⟩ := State.rdAddr?_eq_some.1 ha
  have := hspace _ (RxRing.mem_of_shadow? hd)
  rwa [hsh] at this

/-- The headers of two descriptors share no byte. -/
theorem State.rd_apart (hdq : d ≠ q) (ha : s.rdAddr? d = some a) (hb : s.rdAddr? q = some b) : a + 16 ≤ b ∨ b + 16 ≤ a := by
  simp only [State.rxLaidOut, Bool.and_eq_true, decide_eq_true_eq] at hs
  obtain ⟨⟨hpair, -⟩, -⟩ := hs
  have : Std.Symm fun e f : Nat × RxShadow => separateHeaders e.2.hwAddress f.2.hwAddress = true :=
    ⟨fun e f h => (separateHeaders_comm _ _).trans h⟩
  obtain ⟨sh, hd, hsh⟩ := State.rdAddr?_eq_some.1 ha
  obtain ⟨sh', hq, hsh'⟩ := State.rdAddr?_eq_some.1 hb
  have := hpair.forall (RxRing.mem_of_shadow? hd) (RxRing.mem_of_shadow? hq)
    fun he => hdq (congrArg Prod.fst he)
  rw [hsh, hsh'] at this
  exact separateHeaders_some.1 this

/-- Every posted descriptor has a header. -/
theorem State.rdAddr?_of_mem_readyList (hd : d ∈ s.rx.readyList) : ∃ a, s.rdAddr? d = some a := by
  simp only [State.rxLaidOut, Bool.and_eq_true, List.all_eq_true] at hs
  exact Option.isSome_iff_exists.1 (hs.2 d hd)

end

/-! ## Fields of a header -/

theorem Memory.rdC_congr (h : ∀ x, a ≤ x → x < a + 2 → m'.byte x = m.byte x) : m'.rdC a = m.rdC a := by
  rw [Memory.rdC, Memory.rdC, Memory.read16_congr a h]

theorem Memory.rdOK_congr (h : ∀ x, a ≤ x → x < a + 2 → m'.byte x = m.byte x) : m'.rdOK a = m.rdOK a := by
  rw [Memory.rdOK, Memory.rdOK, Memory.read16_congr a h]

theorem Memory.rdEL_congr (h : ∀ x, a + 2 ≤ x → x < a + 4 → m'.byte x = m.byte x) : m'.rdEL a = m.rdEL a := by
  rw [Memory.rdEL, Memory.rdEL, Memory.read16_congr (a + 2) h]

theorem Memory.rdLink_congr (h : ∀ x, a + 4 ≤ x → x < a + 8 → m'.byte x = m.byte x) : m'.rdLink a = m.rdLink a :=
  Memory.read32_congr (a + 4) h

theorem Memory.rdPayloadPtr_congr (h : ∀ x, a + 8 ≤ x → x < a + 12 → m'.byte x = m.byte x) :
    m'.rdPayloadPtr a = m.rdPayloadPtr a := Memory.read32_congr (a + 8) h

theorem Memory.rdCount_congr (h : ∀ x, a + 12 ≤ x → x < a + 14 → m'.byte x = m.byte x) : m'.rdCount a = m.rdCount a := by
  rw [Memory.rdCount, Memory.rdCount, Memory.read16_congr (a + 12) h]

theorem Memory.rdV_congr (h : ∀ x, a + 12 ≤ x → x < a + 14 → m'.byte x = m.byte x) : m'.rdV a = m.rdV a := by
  rw [Memory.rdV, Memory.rdV, Memory.read16_congr (a + 12) h]

theorem Memory.rdCapacity_congr (h : ∀ x, a + 14 ≤ x → x < a + 16 → m'.byte x = m.byte x) :
    m'.rdCapacity a = m.rdCapacity a := by
  rw [Memory.rdCapacity, Memory.rdCapacity, Memory.read16_congr (a + 14) h]

/-- A count halfword holds its count, if that has 14 bits, and `V`. -/
theorem rdCountWord_fields {n : Nat} (hn : n < 16384) (v : Bool) :
    ((rdCountWord n v).extractLsb' 0 14).toNat = n ∧ (rdCountWord n v).getLsbD 15 = v := by
  have hlow : (rdCountWord n v).extractLsb' 0 14 = BitVec.ofNat 14 n := by
    apply BitVec.eq_of_getLsbD_eq
    intro i hi
    have hflag : ((if v then 0x8000 else 0 : Halfword)).getLsbD i = false := by
      cases v
      · simp
      · revert i; decide
    rw [rdCountWord, BitVec.getLsbD_extractLsb', Nat.zero_add, BitVec.getLsbD_or, hflag]
    simp [hi, show i < 16 by omega]
  refine ⟨?_, ?_⟩
  · rw [hlow, BitVec.toNat_ofNat]
    omega
  · rw [rdCountWord, BitVec.getLsbD_or]
    cases v <;> simp

/-! ## A header that RECYCLE has re-armed -/

/-- The header at `a` is as RECYCLE leaves it (R163). -/
structure Memory.RdRearmed (m : Memory) (a : Nat) : Prop where
  C : m.rdC a = false
  OK : m.rdOK a = false
  V : m.rdV a = false
  count : m.rdCount a = 0
  EL : m.rdEL a = true
  link : m.rdLink a = 0

theorem Memory.RdRearmed.congr (hm : m.RdRearmed a) (he : ∀ x, a ≤ x → x < a + 14 → m'.byte x = m.byte x) :
    m'.RdRearmed a where
  C := (Memory.rdC_congr fun x _ _ => he x (by omega) (by omega)).trans hm.C
  OK := (Memory.rdOK_congr fun x _ _ => he x (by omega) (by omega)).trans hm.OK
  V := (Memory.rdV_congr fun x _ _ => he x (by omega) (by omega)).trans hm.V
  count := (Memory.rdCount_congr fun x _ _ => he x (by omega) (by omega)).trans hm.count
  EL := (Memory.rdEL_congr fun x _ _ => he x (by omega) (by omega)).trans hm.EL
  link := (Memory.rdLink_congr fun x _ _ => he x (by omega) (by omega)).trans hm.link

/-- Each field reads back, the later writes being to other bytes. -/
theorem rearmed_rdRearmed (hm : m.wf = true) (a : Nat) : (rearmed a m).RdRearmed a := by
  have h1 := Memory.wf_write16 hm (a + 12) (rdCountWord 0 false)
  have h2 := Memory.wf_write16 h1 (a + 2) (rdCommandWord true)
  have h3 := Memory.wf_write32 h2 (a + 4) 0
  have hstatus : (rearmed a m).read16 a = rdStatusWord false false := Memory.read16_write16 h3 a _
  have hlink : (rearmed a m).read32 (a + 4) = 0 :=
    (Memory.read32_congr _ fun x _ _ => Memory.byte_write16_outside _ a _ (by omega)).trans (Memory.read32_write32 h2 _ _)
  have hcommand : (rearmed a m).read16 (a + 2) = rdCommandWord true := by
    refine (Memory.read16_congr _ fun x _ _ => ?_).trans (Memory.read16_write16 h1 (a + 2) (rdCommandWord true))
    rw [rearmed, Memory.byte_write16_outside _ a _ (by omega), Memory.byte_write32_outside _ (a + 4) _ (by omega)]
  have hcount : (rearmed a m).read16 (a + 12) = rdCountWord 0 false := by
    refine (Memory.read16_congr _ fun x _ _ => ?_).trans (Memory.read16_write16 hm (a + 12) (rdCountWord 0 false))
    rw [rearmed, Memory.byte_write16_outside _ a _ (by omega), Memory.byte_write32_outside _ (a + 4) _ (by omega),
      Memory.byte_write16_outside _ (a + 2) _ (by omega)]
  exact ⟨by rw [Memory.rdC, hstatus]; rfl, by rw [Memory.rdOK, hstatus]; rfl, by rw [Memory.rdV, hcount]; rfl,
    by rw [Memory.rdCount, hcount]; rfl, by rw [Memory.rdEL, hcommand]; rfl, hlink⟩

/-- The previous tail leads to `a` and no longer ends the list. -/
theorem gateOpened_read (hm : m.wf = true) (b a : Nat) :
    (gateOpened b a m).rdLink b = addrWord a ∧ (gateOpened b a m).rdEL b = false := by
  have hlink : (gateOpened b a m).rdLink b = addrWord a :=
    (Memory.read32_congr _ fun x _ _ => Memory.byte_write16_outside _ (b + 2) _ (by omega)).trans
      (Memory.read32_write32 hm (b + 4) _)
  refine ⟨hlink, ?_⟩
  rw [Memory.rdEL, gateOpened, Memory.read16_write16 (Memory.wf_write32 hm _ _)]
  rfl

/-- The memory after RECYCLE of the descriptor at `a`, the previous tail, if there is one, being at `b?`. -/
def recycled (a : Nat) (b? : Option Nat) (m : Memory) : Memory :=
  match b? with
  | none => rearmed a m
  | some b => gateOpened b a (rearmed a m)

/-- RECYCLE writes the header's own fields but the payload pointer and the capacity, and the previous tail's link and gate. -/
theorem recycled_outside {b? : Option Nat} (hx : x < a ∨ a + 14 ≤ x ∨ (a + 8 ≤ x ∧ x < a + 12))
    (hb : ∀ b ∈ b?, x < b + 2 ∨ b + 8 ≤ x) : (recycled a b? m).byte x = m.byte x := by
  cases b? with
  | none => exact rearmed_outside m a hx
  | some b => exact (gateOpened_outside _ b a (hb b rfl)).trans (rearmed_outside m a hx)

theorem recycled_rdRearmed {b? : Option Nat} (hm : m.wf = true) (hb : ∀ b ∈ b?, a + 16 ≤ b ∨ b + 16 ≤ a) :
    (recycled a b? m).RdRearmed a := by
  cases b? with
  | none => exact rearmed_rdRearmed hm a
  | some b =>
    have hab := hb b rfl
    exact (rearmed_rdRearmed hm a).congr fun x _ _ => gateOpened_outside _ b a (by omega)

theorem recycled_tail (hm : m.wf = true) (a b : Nat) :
    (recycled a (some b) m).rdLink b = addrWord a ∧ (recycled a (some b) m).rdEL b = false :=
  gateOpened_read (rearmed_wf hm a) b a

/-- Where the last of a list lies. -/
def State.lastAddr? (s : State) (ds : List Nat) : Option Nat := ds.getLast?.bind s.rdAddr?

/-- A memory that RECYCLE has left is as R163 says. -/
theorem RecycledAt.of_recycled {rest : List Nat} (hw : s.mem.wf = true) (hm : t.mem = recycled a (s.lastAddr? rest) s.mem)
    (hapart : ∀ b ∈ s.lastAddr? rest, a + 16 ≤ b ∨ b + 16 ≤ a) : RecycledAt s t a rest := by
  obtain ⟨hC, hOK, hV, hcount, hEL, hlink⟩ := hm ▸ recycled_rdRearmed hw hapart
  refine ⟨hC, hOK, hV, hcount, hEL, hlink, fun q b hq hb => ?tail, fun x hx hlast => ?frame⟩
  case tail =>
    have hlast : s.lastAddr? rest = some b := by rw [State.lastAddr?, hq, Option.bind_some, hb]
    rw [hm, hlast]
    exact recycled_tail hw a b
  case frame =>
    rw [hm]
    refine recycled_outside hx fun b hb => ?_
    obtain ⟨q, hq, hb⟩ := Option.bind_eq_some_iff.1 hb
    exact hlast q b hq hb

end Sys2Proof.Machine
end

