-- ==== Sys2Proof/Proofs/ReceiveUnit.lean ====
section
/-!
PROOF. The receive unit (spec/42_receive_ring.md R175 to R179): what RU_STATUS and RU_COUNT write, and RU_ADVANCE after
whichever of them comes second.
-/
namespace Sys2Proof.Machine

variable {s : State} {d a : Nat}

/-! ## The descriptor at the cursor -/

theorem ruTarget_eq_none (hr : statusRus s.regs.status ≠ unitActive) : ruTarget s = none := if_neg hr

/-- Without a descriptor to act on, neither step does anything. -/
theorem ruSteps_of_no_target (ht : ruTarget s = none) (bytes : List Byte) (okBit : Bool) :
    ruCount bytes s = .ok ((), s) ∧ ruStatus okBit s = .ok ((), s) := by
  simp only [ruCount, ruStatus, Op.bind_apply, read_apply, ht, Op.pure_apply, and_self]

/-- The unit's cursor names `d`, whose header lies at `a`, in the address space. -/
structure State.RuCursorAt (s : State) (d a : Nat) : Prop where
  cursor : s.units.ruCursor = some d
  addr : s.rdAddr? d = some a
  inSpace : inSpace a 16 = true

namespace State.RuCursorAt
variable (hs : s.RuCursorAt d a)
include hs

theorem ruTarget_eq (hr : statusRus s.regs.status = unitActive) : ruTarget s = some d := by
  simp [ruTarget, hr, hs.cursor, hs.addr]

theorem ruTarget_cases : ruTarget s = none ∨ ruTarget s = some d :=
  (em (statusRus s.regs.status = unitActive)).elim (fun hr => .inr (hs.ruTarget_eq hr)) fun hr => .inl (ruTarget_eq_none hr)

/-- The phase and `C` decide whether the unit may take a step. -/
theorem ruMay_eq (blocked : RuPhase) : ruMay d blocked s =
    .ok (if s.units.ruPhase = .none then !s.mem.rdC a else s.units.ruPhase != blocked, s) := by
  simp only [ruMay, Op.bind_apply, read_apply, Op.ite_apply, readRdC_eq hs.addr hs.inSpace, Op.pure_apply]
  split <;> rfl

/-- A descriptor that is not the hardware's takes no first half. -/
theorem ruMay_eq_false (hp : s.units.ruPhase = .none) (hC : s.mem.rdC a = true) (blocked : RuPhase) :
    ruMay d blocked s = .ok (false, s) := by rw [hs.ruMay_eq, if_pos hp, hC]; rfl

/-- The first half on a descriptor of the hardware, the second after the other half. -/
theorem ruMay_eq_true {blocked : RuPhase}
    (hp : (s.units.ruPhase = .none ∧ s.mem.rdC a = false) ∨ (s.units.ruPhase ≠ .none ∧ s.units.ruPhase ≠ blocked)) :
    ruMay d blocked s = .ok (true, s) := by
  rw [hs.ruMay_eq]
  rcases hp with ⟨hp, hC⟩ | ⟨hp, hb⟩
  · rw [if_pos hp, hC]; rfl
  · rw [if_neg hp, bne_iff_ne.2 hb]

/-- A write to memory moves neither the cursor nor the header. -/
theorem mapMem (f : Memory → Memory) : (s.mapMem f).RuCursorAt d a := ⟨hs.cursor, hs.addr, hs.inSpace⟩

/-! ## RU_ADVANCE -/

theorem ruAdvance_stops (hEL : s.mem.rdEL a = true) : ruAdvance d s = .ok ((), { s with
    units := { s.units with ruPhase := .none, ruCursor := none },
    regs := { s.regs with status := withRus unitIdle (s.regs.status ||| causeFR) ||| causeRNR } }) := by
  simp only [ruAdvance, Op.bind_apply, updateUnits_apply, updateRegs_apply,
    readRdEL_eq (s := (s.mapUnits _).mapRegs _) hs.addr hs.inSpace, State.mapRegs_mem, State.mapUnits_mem, hEL, if_true]
  rfl

theorem ruAdvance_of_link (hEL : s.mem.rdEL a = false) : ruAdvance d s =
    match s.postedGiven? (s.mem.rdLink a).toNat with
    | none => .error (.fault .danglingLink)
    | some e => .ok ((), { s with
        units := { s.units with ruPhase := .none, ruCursor := some e },
        regs := { s.regs with status := s.regs.status ||| causeFR } }) := by
  have hposted : ∀ f g l, ((s.mapUnits f).mapRegs g).postedGiven? l = s.postedGiven? l := fun _ _ _ => rfl
  simp only [ruAdvance, Op.bind_apply, updateUnits_apply, updateRegs_apply,
    readRdEL_eq (s := (s.mapUnits _).mapRegs _) hs.addr hs.inSpace, State.mapRegs_mem, State.mapUnits_mem, hEL,
    Bool.false_eq_true, if_false, readRdLink_eq (s := (s.mapUnits _).mapRegs _) hs.addr hs.inSpace, read_apply, hposted]
  cases s.postedGiven? (s.mem.rdLink a).toNat <;> rfl

theorem ruAdvance_follows {e : Nat} (hEL : s.mem.rdEL a = false) (he : s.postedGiven? (s.mem.rdLink a).toNat = some e) :
    ruAdvance d s = .ok ((), { s with
      units := { s.units with ruPhase := .none, ruCursor := some e },
      regs := { s.regs with status := s.regs.status ||| causeFR } }) := by rw [hs.ruAdvance_of_link hEL, he]

theorem ruAdvance_dangles (hEL : s.mem.rdEL a = false) (he : s.postedGiven? (s.mem.rdLink a).toNat = none) :
    ruAdvance d s = .error (.fault .danglingLink) := by rw [hs.ruAdvance_of_link hEL, he]

/-! ## RU_STATUS -/

section
variable (hr : statusRus s.regs.status = unitActive) {okBit : Bool}
include hr

theorem ruStatus_first (hp : s.units.ruPhase = .none) (hC : s.mem.rdC a = false) :
    ruStatus okBit s = .ok ((), { s with
      mem := s.mem.write16 a (rdStatusWord true okBit), units := { s.units with ruPhase := .statusDone } }) := by
  simp only [ruStatus, Op.bind_apply, read_apply, hs.ruTarget_eq hr, hs.ruMay_eq_true (.inl ⟨hp, hC⟩), if_true,
    writeRdStatus_eq hs.addr hs.inSpace, State.mapMem_units, hp, updateUnits_apply]
  rfl

theorem ruStatus_second (hp : s.units.ruPhase = .countDone) :
    ruStatus okBit s = ruAdvance d (s.mapMem fun m => m.write16 a (rdStatusWord true okBit)) := by
  have hmay := hs.ruMay_eq_true (blocked := .statusDone) (.inr (by simp [hp]))
  simp only [ruStatus, Op.bind_apply, read_apply, hs.ruTarget_eq hr, hmay, if_true,
    writeRdStatus_eq hs.addr hs.inSpace, State.mapMem_units, hp, reduceCtorEq, if_false]

end

/-! ## RU_COUNT -/

/-- A frame over the capacity is lost. -/
theorem ruCount_lost {bytes : List Byte} (hn : s.mem.rdCapacity a < bytes.length) : ruCount bytes s = .ok ((), s) := by
  rcases hs.ruTarget_cases with ht | ht
  · exact (ruSteps_of_no_target ht bytes true).1
  · simp only [ruCount, Op.bind_apply, read_apply, ht, hs.ruMay_eq, readRdCapacity_eq hs.addr hs.inSpace, hn.not_ge,
      decide_false, Bool.and_false, Bool.false_eq_true, if_false, Op.pure_apply]

end State.RuCursorAt

/-- The memory after RU_COUNT on the header at `a`: the payload, then the count halfword with `V` (R177). -/
def frameStored (a : Nat) (bytes : List Byte) (m : Memory) : Memory :=
  (m.writeBytes (m.rdPayloadPtr a).toNat bytes).write16 (a + 12) (rdCountWord bytes.length true)

theorem frameStored_outside {m : Memory} {bytes : List Byte} {x : Nat}
    (hp : x < (m.rdPayloadPtr a).toNat ∨ (m.rdPayloadPtr a).toNat + bytes.length ≤ x) (hx : x < a + 12 ∨ a + 14 ≤ x) :
    (frameStored a bytes m).byte x = m.byte x := by
  rw [frameStored, Memory.byte_write16_outside _ (a + 12) _ (by omega), Memory.byte_writeBytes_outside _ _ _ hp]

/-- The capacity field has 14 bits. -/
theorem Memory.rdCapacity_lt (m : Memory) (a : Nat) : m.rdCapacity a < 16384 := BitVec.isLt _

/-- RU_COUNT of these bytes finds its header, its payload area apart from the header, and room in it. -/
structure State.Receivable (s : State) (d a : Nat) (bytes : List Byte) : Prop extends s.RuCursorAt d a where
  wf : s.mem.wf = true
  active : statusRus s.regs.status = unitActive
  nonempty : 1 ≤ bytes.length
  fits : bytes.length ≤ s.mem.rdCapacity a
  payload : Machine.inSpace (s.mem.rdPayloadPtr a).toNat bytes.length = true
  apart : (s.mem.rdPayloadPtr a).toNat + bytes.length ≤ a ∨ a + 16 ≤ (s.mem.rdPayloadPtr a).toNat

namespace State.Receivable
variable {bytes : List Byte} (hs : s.Receivable d a bytes)
include hs

/-- The frame reads back, and the other fields of the header are as they were. -/
theorem frameStored_read :
    (frameStored a bytes s.mem).readBytes (s.mem.rdPayloadPtr a).toNat bytes.length = bytes ∧
    (frameStored a bytes s.mem).rdCount a = bytes.length ∧ (frameStored a bytes s.mem).rdV a = true ∧
    (frameStored a bytes s.mem).rdC a = s.mem.rdC a ∧ (frameStored a bytes s.mem).rdEL a = s.mem.rdEL a ∧
    (frameStored a bytes s.mem).rdLink a = s.mem.rdLink a := by
  have hapart := hs.apart
  have hcount : (frameStored a bytes s.mem).read16 (a + 12) = rdCountWord bytes.length true :=
    Memory.read16_write16 (Memory.wf_writeBytes hs.wf _ _) _ _
  obtain ⟨hn, hV⟩ := rdCountWord_fields (hs.fits.trans_lt (s.mem.rdCapacity_lt a)) true
  refine ⟨?payload, by rw [Memory.rdCount, hcount, hn], by rw [Memory.rdV, hcount, hV],
    Memory.rdC_congr fun x _ _ => ?C, Memory.rdEL_congr fun x _ _ => ?EL, Memory.rdLink_congr fun x _ _ => ?link⟩
  case payload =>
    refine (Memory.readBytes_congr _ _ fun x _ _ => ?_).trans (Memory.readBytes_writeBytes hs.wf _ bytes)
    exact Memory.byte_write16_outside _ (a + 12) _ (by omega)
  all_goals exact frameStored_outside (by omega) (by omega)

/-- A step that is due writes the frame, and is the first half or goes on to RU_ADVANCE. -/
theorem ruCount_eq (hp : (s.units.ruPhase = .none ∧ s.mem.rdC a = false) ∨ s.units.ruPhase = .statusDone) :
    ruCount bytes s = (if s.units.ruPhase = .none then updateUnits (fun u => { u with ruPhase := .countDone })
      else ruAdvance d) (s.mapMem (frameStored a bytes)) := by
  have hmay := hs.ruMay_eq_true (blocked := .countDone) (hp.imp_right fun hp => by simp [hp])
  simp only [ruCount, Op.bind_apply, read_apply, hs.ruTarget_eq hs.active, hmay, readRdCapacity_eq hs.addr hs.inSpace,
    hs.nonempty, hs.fits, decide_true, Bool.and_self, if_true, readRdPayloadPtr_eq hs.addr hs.inSpace, memWrite_eq hs.payload,
    writeRdCount_eq (s := s.mapMem _) hs.addr hs.inSpace, State.mapMem_mapMem, State.mapMem_units, Op.ite_apply]
  rfl

end State.Receivable

theorem State.postedGiven?_eq_none {l : Nat} (h : Config.aligned s.cfg l = false ∨ s.postedAt? l = none) :
    s.postedGiven? l = none := by
  obtain h | h := h <;> simp [State.postedGiven?, h]

/-! ## The statements -/

/-- Settles O46: no target, a descriptor that is not the hardware's, or no room in it. -/
theorem framesWithNoDescriptorAreLost : Obligations.FramesWithNoDescriptorAreLost := by
  intro s bytes okBit
  refine ⟨fun hr => ruSteps_of_no_target (ruTarget_eq_none hr) bytes okBit, fun d a hcur haddr hspace => ?_⟩
  have hs : s.RuCursorAt d a := ⟨hcur, haddr, hspace⟩
  refine ⟨fun hp hC => ?notHardware, fun hn => hs.ruCount_lost hn⟩
  case notHardware =>
    show ruCount bytes s = _ ∧ ruStatus okBit s = _
    rcases hs.ruTarget_cases with ht | ht
    · exact ruSteps_of_no_target ht bytes okBit
    · simp only [ruCount, ruStatus, Op.bind_apply, read_apply, ht, hs.ruMay_eq_false hp hC,
        readRdCapacity_eq hs.addr hs.inSpace, Bool.false_and, Bool.false_eq_true, if_false, Op.pure_apply, and_self]

/-- Settles O44: the status halfword alone as the first half, RU_ADVANCE on the memory with it as the second. -/
theorem receiveUnitWritesTheStatus : Obligations.ReceiveUnitWritesTheStatus := by
  intro s d a okBit _ hr hcur haddr hspace
  have hs : s.RuCursorAt d a := ⟨hcur, haddr, hspace⟩
  have hw := hs.mapMem fun m => m.write16 a (rdStatusWord true okBit)
  have hEL : (s.mem.write16 a (rdStatusWord true okBit)).rdEL a = s.mem.rdEL a :=
    Memory.rdEL_congr fun x _ _ => Memory.byte_write16_outside _ a _ (by omega)
  have hlink : (s.mem.write16 a (rdStatusWord true okBit)).rdLink a = s.mem.rdLink a :=
    Memory.rdLink_congr fun x _ _ => Memory.byte_write16_outside _ a _ (by omega)
  refine ⟨fun hp hC => hs.ruStatus_first hr hp hC, fun hp hend => ?stops, fun hp hend hlost => ?dangles,
    fun e hp hend halign he => ?follows⟩ <;> show ruStatus okBit s = _ <;> rw [hs.ruStatus_second hr hp]
  case stops => exact hw.ruAdvance_stops (hEL.trans hend)
  case dangles =>
    refine hw.ruAdvance_dangles (hEL.trans hend) ?_
    rw [State.mapMem_mem, hlink]
    exact State.postedGiven?_eq_none (s := s) hlost
  case follows =>
    refine hw.ruAdvance_follows (hEL.trans hend) ?_
    rw [State.mapMem_mem, hlink]
    exact State.postedGiven?_eq_some.2 ⟨halign, he⟩

/-- Settles O45: the frame is stored, and then the step is the first half, or RU_ADVANCE at the end of the list or before the
next descriptor. -/
theorem receiveUnitWritesThePayloadAndCount : Obligations.ReceiveUnitWritesThePayloadAndCount := by
  intro s d a bytes hw hr hcur haddr hspace hone hfits hpay hapart hphase
  have hs : s.Receivable d a bytes := ⟨⟨hcur, haddr, hspace⟩, hw, hr, hone, hfits, hpay, hapart⟩
  obtain ⟨hbytes, hcount, hV, hC, hEL, hlink⟩ := hs.frameStored_read
  have hstep := hs.ruCount_eq (hphase.imp_right (·.1))
  have hm := hs.toRuCursorAt.mapMem (frameStored a bytes)
  have outside := fun x hp hx => frameStored_outside (m := s.mem) (a := a) (bytes := bytes) (x := x) hp hx
  rcases hphase with ⟨hp, -⟩ | ⟨hp, hturn⟩
  · rw [if_pos hp] at hstep
    exact ⟨_, hstep, hbytes, hcount, hV, hC, outside, fun _ => ⟨rfl, rfl⟩, by simp [hp], by simp [hp], rfl⟩
  · rw [if_neg (by simp [hp])] at hstep
    cases hend : s.mem.rdEL a with
    | true =>
      exact ⟨_, hstep.trans (hm.ruAdvance_stops (hEL.trans hend)), hbytes, hcount, hV, hC, outside, by simp [hp],
        fun _ _ => ⟨rfl, rfl⟩, nofun, rfl⟩
    | false =>
      obtain ⟨halign, e, he⟩ := hturn.resolve_left (by simp [hend])
      have hgiven : (s.mapMem (frameStored a bytes)).postedGiven? ((frameStored a bytes s.mem).rdLink a).toNat = some e := by
        rw [hlink]
        exact State.postedGiven?_eq_some.2 ⟨halign, he⟩
      refine ⟨_, hstep.trans (hm.ruAdvance_follows (hEL.trans hend) hgiven), hbytes, hcount, hV, hC, outside, by simp [hp],
        nofun, fun e' _ _ he' => ?follows, rfl⟩
      case follows =>
        obtain rfl : e = e' := Option.some.inj (he.symm.trans he')
        exact ⟨rfl, rfl⟩

end Sys2Proof.Machine
end

