-- ==== Sys2Proof/Proofs/ReturnBuffer.lean ====
section
/-!
PROOF. The return of a receive descriptor (spec/42_receive_ring.md R163, R169, R170) from a quiet state: RECYCLE_LOCKED as one
function of the state, SHRINK_LOCKED, and the frame that RECYCLE, RX_RETURN and SHRINK put around them.
-/
namespace Sys2Proof.Machine

variable {α β : Type} {h : Handler} {s t u : State} {d a : Nat}

/-- What follows an operation that answered. -/
theorem Op.bind_of_ok {m : Op α} {f : α → Op β} {x : α} (hm : m s = .ok (x, t)) : (m >>= f) s = f x t := by
  rw [Op.bind_apply, hm]

/-! ## Under lock `rx` -/

/-- The state under lock `rx`. -/
def State.lockedRx (s : State) : State := s.mapLocks fun x => x.put .rx true

theorem lock_rx_eq (hl : s.locks = Locks.free) : lock .rx s = .ok ((), s.lockedRx) :=
  lock_eq (by simp [hl, Locks.free, Held.none, Held.mayTake]) (by simp [hl, Locks.free, Held.none, Held.has])

/-- The lock is given back after a part that left the locks alone. -/
theorem unlock_rx_eq (hl : s.locks = Locks.free) (ht : t.locks = s.lockedRx.locks) :
    unlock .rx t = .ok ((), t.mapLocks fun _ => s.locks) := by
  have hback : t.locks.put .rx false = s.locks := by
    rw [ht, State.lockedRx, State.mapLocks_locks, hl]
    rfl
  rw [unlock_apply, ← hback]
  rfl

/-! ## RECYCLE_LOCKED -/

/-- RECYCLE of `d`, whose header lies at `a`, finds that header and the one of the previous tail, and nothing is scheduled
inside. -/
structure State.Recyclable (s : State) (d a : Nat) : Prop where
  inside : s.ports.interleaved = []
  addr : s.rdAddr? d = some a
  inSpace : inSpace a 16 = true
  tail : ∀ q, s.rx.readyList.getLast? = some q → ∃ b, s.rdAddr? q = some b ∧ Machine.inSpace b 16 = true

/-- What RECYCLE leaves. -/
def State.recycled (d a : Nat) (s : State) : State :=
  (s.mapMem (Machine.recycled a (s.lastAddr? s.rx.readyList))).mapRx (appended d)

theorem recycleLocked_eq (hs : s.Recyclable d a) : recycleLocked h d s = .ok ((), s.recycled d a) := by
  rcases List.eq_nil_or_concat s.rx.readyList with hl | ⟨pre, q, hl⟩
  · rw [recycleLocked_empty hs.inside hs.addr hs.inSpace hl, State.recycled, State.lastAddr?, hl]
    rfl
  · have hq : s.rx.readyList.getLast? = some q := by simp [hl]
    obtain ⟨b, hb, hspace⟩ := hs.tail q hq
    rw [recycleLocked_append hs.inside hs.addr hs.inSpace (by simpa using hl) hb hspace, State.recycled, State.lastAddr?, hq,
      Option.bind_some, hb]
    rfl

/-- Where the last of a list lies is read off where its members lie. -/
theorem State.lastAddr?_congr {ds : List Nat} (hu : ∀ x ∈ ds, u.rdAddr? x = s.rdAddr? x) :
    u.lastAddr? ds = s.lastAddr? ds := by
  rw [State.lastAddr?, State.lastAddr?]
  cases hq : ds.getLast? with
  | none => rfl
  | some q => exact hu q (List.mem_of_getLast? hq)

section
variable (hs : s.rxLaidOut = true) (ha : s.rdAddr? d = some a)
include hs ha

/-- In a state with the headers of a laid-out one, and no more descriptors posted, RECYCLE finds what it needs. -/
theorem State.recyclable_of_rxLaidOut (hi : u.ports.interleaved = []) (hu : ∀ x, u.rdAddr? x = s.rdAddr? x)
    (hl : ∀ q ∈ u.rx.readyList, q ∈ s.rx.readyList) : u.Recyclable d a where
  inside := hi
  addr := (hu d).trans ha
  inSpace := State.rd_inSpace hs ha
  tail q hq := by
    obtain ⟨b, hb⟩ := State.rdAddr?_of_mem_readyList hs (hl q (List.mem_of_getLast? hq))
    exact ⟨b, (hu q).trans hb, State.rd_inSpace hs hb⟩

/-- The last of other descriptors has its header apart from that of `d`. -/
theorem State.lastAddr?_apart {ds : List Nat} (hd : d ∉ ds) : ∀ b ∈ s.lastAddr? ds, a + 16 ≤ b ∨ b + 16 ≤ a := by
  intro b hb
  obtain ⟨q, hq, hb⟩ := Option.bind_eq_some_iff.1 hb
  refine State.rd_apart hs ?_ ha hb
  rintro rfl
  exact hd (List.mem_of_getLast? hq)

end

/-! ## SHRINK_LOCKED -/

theorem shrinkLocked_eq {base : Nat} (hb : (s.rx.shadow? d).bind (·.allocBase) = some base) : shrinkLocked d s =
    .ok ((), (s.mapPorts fun p => { p with liveRegions := p.liveRegions.filter (fun r => r.base != base) }).mapRx
      (RxRing.shrunk d)) := by
  simp only [shrinkLocked, poolFreeRx, Op.bind_apply, read_apply, hb, freeRegion_apply, updateRx_apply]
  rfl

/-! ## How a return ends -/

/-- What the three operations do once the descriptor has been put away: POWER_CHECK, then the signal outside the lock. -/
def endReturn (h : Handler) : Op Status := do
  let due ← powerCheck
  unlock .rx
  powerSignal h due
  pure .ok

/-- The descriptor put away, under the lock. -/
def State.putAway (s : State) (m : Memory) (r : RxRing) (p : Ports) : State :=
  { s.lockedRx with mem := m, rx := r, ports := p }

/-- A power transition is pending, and in the ring `r` no buffer is held any more (R169). -/
def State.powerDue (s : State) (r : RxRing) : Bool := s.dev.powerTransitionPending && r.outstandingReceives == 0

/-- What a return leaves: the last held buffer of a pending power transition completes it with its event. -/
def State.returned (s : State) (m : Memory) (r : RxRing) (p : Ports) : State :=
  { s with
    mem := m
    rx := r
    ports := p
    dev := if s.powerDue r then { s.dev with powerTransitionPending := false } else s.dev
    events := if s.powerDue r then s.events ++ [.powerTransitionComplete] else s.events
    result := some .ok }

section
variable {m : Memory} {r : RxRing} {p : Ports}

@[simp] theorem State.putAway_mapRx (f : RxRing → RxRing) : (s.putAway m r p).mapRx f = s.putAway m (f r) p := rfl

theorem answer_endReturn (hfree : s.locks = Locks.free) (hi : p.interleaved = []) :
    answer (endReturn h) (s.putAway m r p) = .next (s.returned m r p) := by
  have hdue : ((s.putAway m r p).dev.powerTransitionPending && (s.putAway m r p).rx.outstandingReceives == 0) =
    s.powerDue r := rfl
  rw [State.returned]
  cases hd : s.powerDue r with
  | false =>
    simp only [answer, endReturn, Op.bind_apply, powerCheck_eq, hdue, hd, Bool.false_eq_true, if_false,
      unlock_rx_eq (t := s.putAway m r p) hfree rfl, powerSignal, Op.pure_apply]
    rfl
  | true =>
    simp only [answer, endReturn, Op.bind_apply, powerCheck_eq, hdue, hd, if_true,
      unlock_rx_eq (t := (s.putAway m r p).mapDev _) hfree rfl, powerSignal]
    rw [callbacks_eq _ (by exact congrArg Locks.mine hfree) (by exact hi)]
    rfl

/-- A return changes neither the registers, the units, the transmit ring and the link nor the configuration and the locks. -/
theorem State.returned_same : (s.returned m r p).regs = s.regs ∧ (s.returned m r p).units = s.units ∧
    (s.returned m r p).tx = s.tx ∧ (s.returned m r p).link = s.link ∧ (s.returned m r p).ports = p ∧
    (s.returned m r p).cfg = s.cfg ∧ (s.returned m r p).locks = s.locks := ⟨rfl, rfl, rfl, rfl, rfl, rfl, rfl⟩

theorem State.returned_power {n : Nat} (hn : r.outstandingReceives = n) :
    if s.dev.powerTransitionPending = true ∧ n = 0
      then (s.returned m r p).dev = { s.dev with powerTransitionPending := false } ∧
        (s.returned m r p).events = s.events ++ [.powerTransitionComplete]
      else (s.returned m r p).dev = s.dev ∧ (s.returned m r p).events = s.events := by
  subst hn
  have hdue : s.powerDue r = true ↔ s.dev.powerTransitionPending = true ∧ r.outstandingReceives = 0 := by
    rw [State.powerDue, Bool.and_eq_true, beq_iff_eq]
  split
  · next hc => exact ⟨if_pos (hdue.2 hc), if_pos (hdue.2 hc)⟩
  · next hc => exact ⟨if_neg (mt hdue.1 hc), if_neg (mt hdue.1 hc)⟩

end

/-! ## The three operations -/

/-- The state in which the descriptor is put away: under the lock, `d` taken back from the upper layer. -/
def State.takenBack (d : Nat) (s : State) : State := s.lockedRx.mapRx (RxRing.detached d)

theorem recycleLocked_takenBack (hi : s.ports.interleaved = []) (hs : s.rxLaidOut = true) (ha : s.rdAddr? d = some a) :
    recycleLocked h d (s.takenBack d) = .ok ((), s.putAway (recycled a (s.lastAddr? s.rx.readyList) s.mem)
      (appended d (s.rx.detached d)) s.ports) :=
  recycleLocked_eq (State.recyclable_of_rxLaidOut hs ha hi (fun _ => rfl) fun _ hx => hx)

theorem shrinkLocked_takenBack {base : Nat} (hb : (s.rx.shadow? d).bind (·.allocBase) = some base) :
    shrinkLocked d (s.takenBack d) = .ok ((), s.putAway s.mem ((s.rx.detached d).shrunk d)
      { s.ports with liveRegions := s.ports.liveRegions.filter (fun r => r.base != base) }) :=
  shrinkLocked_eq (s := s.takenBack d) hb

/-- What follows an operation that answered, as an outcome. -/
theorem answer_bind_of_ok {m : Op α} {f : α → Op Status} {x : α} (hm : m s = .ok (x, t)) :
    answer (m >>= f) s = answer (f x) t := by
  rw [answer, answer, Op.bind_of_ok hm]

section
variable {w : Word} {m : Memory} {r : RxRing} {p : Ports} (hq : s.quiet = true) (hd : s.isHanded w.toNat = true)
  (hi : p.interleaved = [])
include hq hd hi

/-- The part that the three operations have in common. -/
theorem answer_detach {body : Op Unit} (hb : body (s.takenBack w.toNat) = .ok ((), s.putAway m r p)) :
    answer (do detachPending w.toNat; body; endReturn h) s.lockedRx = .next (s.returned m r p) := by
  have hdetach : detachPending w.toNat s.lockedRx = .ok ((), s.takenBack w.toNat) := detachPending_ok.2 ⟨hd, rfl⟩
  rw [answer_bind_of_ok hdetach, answer_bind_of_ok hb, answer_endReturn (State.of_quiet hq).1 hi]

theorem exec_recycle (hb : recycleLocked (handlerOf s) w.toNat (s.takenBack w.toNat) = .ok ((), s.putAway m r p)) :
    exec (.recycle w) s = .next (s.returned m r p) := by
  obtain ⟨hfree, hin, -⟩ := State.of_quiet hq
  show answer (recycle (handlerOf s) w.toNat) s = _
  rw [recycle, answer_bind_of_ok (read_apply _ s), hd, if_neg (by decide), answer_bind_of_ok (point_nil hin),
    answer_bind_of_ok (lock_rx_eq hfree)]
  exact answer_detach hq hd hi hb

/-- RX_RETURN puts the descriptor away as SHRINK does where the pool may shrink, and as RECYCLE does where it may not. -/
theorem exec_rxReturn (hb : if s.shrinkEligible = true
      then shrinkLocked w.toNat (s.takenBack w.toNat) = .ok ((), s.putAway m r p)
      else recycleLocked (handlerOf s) w.toNat (s.takenBack w.toNat) = .ok ((), s.putAway m r p)) :
    exec (.rxReturn w) s = .next (s.returned m r p) := by
  obtain ⟨hfree, hin, -⟩ := State.of_quiet hq
  have hdetach : detachPending w.toNat s.lockedRx = .ok ((), s.takenBack w.toNat) := detachPending_ok.2 ⟨hd, rfl⟩
  have heligible : (s.takenBack w.toNat).shrinkEligible = s.shrinkEligible := rfl
  show answer (rxReturn (handlerOf s) w.toNat) s = _
  rw [rxReturn, answer_bind_of_ok (read_apply _ s), hd, if_neg (by decide), answer_bind_of_ok (point_nil hin),
    answer_bind_of_ok (lock_rx_eq hfree), answer_bind_of_ok hdetach, answer_bind_of_ok (read_apply _ _), heligible]
  split at hb
  · next he =>
    rw [he, if_pos rfl, answer_bind_of_ok hb]
    exact answer_endReturn hfree hi
  · next he =>
    rw [if_neg he, answer_bind_of_ok hb]
    exact answer_endReturn hfree hi

theorem exec_shrink (he : s.shrinkEligible = true)
    (hb : shrinkLocked w.toNat (s.takenBack w.toNat) = .ok ((), s.putAway m r p)) :
    exec (.shrink w) s = .next (s.returned m r p) := by
  obtain ⟨hfree, hin, -⟩ := State.of_quiet hq
  have heligible : s.lockedRx.shrinkEligible = true := he
  show answer (shrink (handlerOf s) w.toNat) s = _
  rw [shrink, answer_bind_of_ok (read_apply _ s), hd, if_neg (by decide), answer_bind_of_ok (point_nil hin),
    answer_bind_of_ok (lock_rx_eq hfree), answer_bind_of_ok (read_apply _ _), heligible, if_neg (by decide)]
  exact answer_detach hq hd hi hb

end

/-- A descriptor that is not handed up is refused. -/
theorem return_refused (hd : s.isHanded d = false) : recycle h d s = .ok (.invalidRequest, s) ∧
    rxReturn h d s = .ok (.invalidRequest, s) ∧ shrink h d s = .ok (.invalidRequest, s) := by
  simp only [recycle, rxReturn, shrink, Op.bind_apply, read_apply, hd, Bool.not_false, if_true, Op.pure_apply, and_self]

/-- So is SHRINK while the pool may not shrink. -/
theorem shrink_refused (hq : s.quiet = true) (he : s.shrinkEligible = false) : shrink h d s = .ok (.invalidRequest, s) := by
  obtain ⟨hfree, hin, -⟩ := State.of_quiet hq
  have heligible : s.lockedRx.shrinkEligible = false := he
  cases hd : s.isHanded d with
  | false => exact (return_refused hd).2.2
  | true =>
    rw [shrink, Op.bind_of_ok (read_apply _ s), hd, if_neg (by decide), Op.bind_of_ok (point_nil hin),
      Op.bind_of_ok (lock_rx_eq hfree), Op.bind_of_ok (read_apply _ _), heligible, if_pos (by decide),
      Op.bind_of_ok (unlock_rx_eq hfree rfl)]
    rfl

/-! ## The statements -/

/-- A request whose operation answered. -/
theorem answer_of_ok {m : Op Status} {r : Status} (hm : m s = .ok (r, t)) : answer m s = .next (t.withResult (some r)) :=
  answer_eq_next.2 ⟨r, t, hm, rfl⟩

/-- Settles O39: both operations take the descriptor back, RECYCLE it and end alike. -/
theorem returnedDescriptorIsRecycled : Obligations.ReturnedDescriptorIsRecycled := by
  intro s d a i hinstr hq hw hlaid hhanded ha hposted
  have hin : s.ports.interleaved = [] := (State.of_quiet hq).2.1
  have hrecycle := recycleLocked_takenBack (h := handlerOf s) hin hlaid ha
  have hexec : exec i s = .next (s.returned (recycled a (s.lastAddr? s.rx.readyList) s.mem)
      (appended d.toNat (s.rx.detached d.toNat)) s.ports) := by
    rcases hinstr with rfl | ⟨rfl, he⟩
    · exact exec_recycle hq hhanded hin hrecycle
    · exact exec_rxReturn hq hhanded hin (by rwa [if_neg (by simp [he])])
  exact ⟨_, hexec, rfl, RecycledAt.of_recycled hw rfl (State.lastAddr?_apart hlaid ha hposted), rfl,
    State.returned_power rfl, State.returned_same⟩

/-- Settles O40: both operations take the descriptor back, drop it and end alike; each gate refuses before anything is
changed. -/
theorem returnedDescriptorIsFreedOrRefused : Obligations.ReturnedDescriptorIsFreedOrRefused := by
  intro s d hq
  have hin : s.ports.interleaved = [] := (State.of_quiet hq).2.1
  refine ⟨fun base i hinstr hhanded he hbase => ?freed, fun hd => ?refused, fun he => answer_of_ok (shrink_refused hq he)⟩
  case freed =>
    have hshrink := shrinkLocked_takenBack (s := s) hbase
    have hexec : exec i s = .next (s.returned s.mem ((s.rx.detached d.toNat).shrunk d.toNat)
        { s.ports with liveRegions := s.ports.liveRegions.filter (fun r => r.base != base) }) := by
      rcases hinstr with rfl | rfl
      · exact exec_shrink hq hhanded hin he hshrink
      · exact exec_rxReturn hq hhanded hin (by rwa [if_pos he])
    exact ⟨_, hexec, State.returned_power rfl, rfl⟩
  case refused =>
    obtain ⟨hrecycle, hreturn, hshrink⟩ := return_refused (h := handlerOf s) hd
    exact ⟨answer_of_ok hrecycle, answer_of_ok hreturn, answer_of_ok hshrink⟩

end Sys2Proof.Machine
end

