-- ==== Sys2Proof/Proofs/Grow.lean ====
section
/-!
PROOF. GROW and GROW_COMPLETE (spec/42_receive_ring.md R167, R168) from a quiet state: the id that is reserved, the descriptor
that POOL_ALLOC_RX (spec/40_descriptor_pool.md R135) fills, and the ways a completion gives its id up.
-/
namespace Sys2Proof.Machine

variable {α β : Type} {h : Handler} {s t : State} {d a : Nat}

/-! ## The map of shadow records -/

theorem putShadow_find_ne {x : Nat} (hx : x ≠ d) (sh : RxShadow) (l : List (Nat × RxShadow)) :
    ((putShadow d sh l).find? (fun e => e.1 == x)).map (·.2) = (l.find? (fun e => e.1 == x)).map (·.2) := by
  induction l with
  | nil => simp [putShadow, hx.symm]
  | cons e l ih =>
    obtain ⟨k, y⟩ := e
    simp only [putShadow]
    split
    · simp [List.find?_cons, hx.symm]
    · split
      · next hk => simp [← hk, hx.symm]
      · rw [List.find?_cons, List.find?_cons]
        split
        · rfl
        · exact ih

/-- The smallest id that is not used is what is reserved. -/
theorem freshId_eq {used : List Nat} (hd : d ∉ used) (hbelow : ∀ e < d, e ∈ used) : freshId used = d := by
  have hle : d ≤ used.length := by
    have := (List.nodup_range.subperm fun e he => hbelow e (List.mem_range.1 he)).length_le
    rwa [List.length_range] at this
  have hfind : (List.range (used.length + 1)).find? (fun d => !used.contains d) = some d :=
    List.find?_range_eq_some.2 ⟨by simpa using hd, List.mem_range.2 (by omega), fun e he => by simpa using hbelow e he⟩
  rw [freshId, hfind]
  rfl

theorem RxRing.shadow?_eq_none {r : RxRing} : r.shadow? d = none ↔ d ∉ r.shadows.map (·.1) := by
  rw [← stateIn_eq_none, stateIn, Option.map_eq_none_iff]
  rfl

/-! ## GROW -/

theorem growLocked_nothing (hn : s.cfg.rxMaxCount ≤ s.rx.currentCount ∨ s.rx.allocState ≠ .idle) :
    growLocked s = .ok (.ok, s) := by
  simp only [growLocked, Op.bind_apply, read_apply, id, Op.ite_apply, if_pos hn, Op.pure_apply]

/-- Without a shadow record GROW is refused. -/
theorem growLocked_exhausted (hc : s.rx.currentCount < s.cfg.rxMaxCount) (ha : s.rx.allocState = .idle)
    (hr : allocShadow s = .ok (false, t)) : growLocked s = .ok (.resourcesExhausted, t) := by
  have hn : ¬ (s.cfg.rxMaxCount ≤ s.rx.currentCount ∨ s.rx.allocState ≠ .idle) := by simp [ha, hc]
  simp only [growLocked, Op.bind_apply, read_apply, id, Op.ite_apply, if_neg hn, hr, Bool.not_false, if_true, Op.pure_apply]

theorem allocShadow_nil (hr : s.ports.lookasideReplies = []) : allocShadow s = .ok (false, s) := by
  simp only [allocShadow, Op.bind_apply, read_apply, hr, Op.pure_apply]

theorem allocShadow_cons {ok : Bool} {more : List Bool} (hr : s.ports.lookasideReplies = ok :: more) :
    allocShadow s = .ok (ok, s.mapPorts fun p => { p with lookasideReplies := more }) := by
  simp only [allocShadow, Op.bind_apply, read_apply, hr, updatePorts_apply, Op.pure_apply]

/-- GROW is its locked part, which leaves the locks alone. -/
theorem exec_grow {r : Status} (hq : s.quiet = true) (hl : s.dev.lifecycle = .running)
    (hr : growLocked s.lockedRx = .ok (r, t)) (ht : t.locks = s.lockedRx.locks) :
    exec .grow s = .next { t with locks := s.locks, result := some r } := by
  obtain ⟨hfree, hin, -⟩ := State.of_quiet hq
  show answer (grow (handlerOf s)) s = _
  rw [grow, answer_bind_of_ok (read_apply _ s), hl, if_neg (by decide), answer_bind_of_ok (point_nil hin),
    answer_bind_of_ok (lock_rx_eq hfree), answer_bind_of_ok hr, answer_bind_of_ok (unlock_rx_eq hfree ht)]
  rfl

/-! ## How a completion ends -/

/-- A request whose operation stopped. -/
theorem answer_bind_of_error {m : Op α} {f : α → Op Status} {e : Stop} (hm : m s = .error e) :
    answer (m >>= f) s = .fault e.toFault := by
  rw [answer, Op.bind_apply, hm]

/-- What GROW_COMPLETE does once the descriptor is appended or given up. -/
def endGrow (h : Handler) : Op Status := do
  updateRx (fun r => { r with allocState := .idle })
  unlock .rx
  point h
  release
  pure .ok

/-- What GROW_COMPLETE leaves: no allocation in flight, and its reference released. -/
def State.grown (s : State) (m : Memory) (r : RxRing) (p : Ports) : State :=
  { s with
    mem := m
    rx := { r with allocState := .idle }
    ports := p
    dev := { s.dev with refCount := s.dev.refCount - 1 }
    result := some .ok }

theorem answer_endGrow {m : Memory} {r : RxRing} {p : Ports} (hfree : s.locks = Locks.free) (hi : p.interleaved = []) :
    answer (endGrow h) (s.putAway m r p) = .next (s.grown m r p) := by
  rw [endGrow, answer_bind_of_ok (updateRx_apply _ _), answer_bind_of_ok (unlock_rx_eq (t := State.mapRx _ _) hfree rfl),
    answer_bind_of_ok (point_nil hi), answer_bind_of_ok (release_apply _)]
  rfl

/-! ## The region -/

/-- A region is entered among the live ones. -/
def Ports.withRegion (r : Region) (p : Ports) : Ports := { p with liveRegions := p.liveRegions ++ [r] }

section
variable {base : Nat}

theorem takeRegion_eq (hr : regionAllowed s.ports.liveRegions ⟨base, s.cfg.rxRegionSize⟩ = true)
    (ha : Config.aligned s.cfg (base + s.cfg.rxAlignShift) = true) :
    takeRegion base s = .ok ((), s.mapPorts (Ports.withRegion ⟨base, s.cfg.rxRegionSize⟩)) := by
  rw [takeRegion, Op.bind_of_ok (read_apply _ s), Op.bind_of_ok (addRegion_ok.2 ⟨hr, rfl⟩)]
  exact requireAligned_ok.2 ⟨ha, rfl⟩

/-- Whether or not the allocator may deliver the region, a descriptor in it must be aligned. -/
theorem takeRegion_misaligned (ha : Config.aligned s.cfg (base + s.cfg.rxAlignShift) = false) :
    takeRegion base s = .error (.fault .badAllocation) := by
  rw [takeRegion, Op.bind_of_ok (read_apply _ s)]
  cases hr : regionAllowed s.ports.liveRegions ⟨base, s.cfg.rxRegionSize⟩ with
  | false => simp [addRegion, hr]
  | true =>
    rw [Op.bind_of_ok (addRegion_ok.2 ⟨hr, rfl⟩)]
    simp [requireAligned, ha]

/-- A region that goes back leaves the others. -/
theorem Ports.withRegion_freed (p : Ports) (n : Nat) :
    { p.withRegion ⟨base, n⟩ with liveRegions := (p.withRegion ⟨base, n⟩).liveRegions.filter (fun r => r.base != base) } =
      { p with liveRegions := p.liveRegions.filter (fun r => r.base != base) } := by
  simp [Ports.withRegion]

end

/-! ## POOL_ALLOC_RX -/

section
variable (ha : s.rdAddr? d = some a) (hs : inSpace a 16 = true)
include ha hs

theorem writeRdPayloadPtr_eq (v : Word) : writeRdPayloadPtr d v s = .ok ((), s.mapMem (fun m => m.write32 (a + 8) v)) := by
  simp [writeRdPayloadPtr, rdAddrOf_eq ha, memWrite32_eq (inSpace_sub hs (b := a + 8) (k := 4) (by omega))]

theorem writeRdCapacity_eq (n : Nat) :
    writeRdCapacity d n s = .ok ((), s.mapMem (fun m => m.write16 (a + 14) (rdCapacityWord n))) := by
  simp [writeRdCapacity, rdAddrOf_eq ha, memWrite16_eq (inSpace_sub hs (b := a + 14) (k := 2) (by omega))]

end

/-- The memory with the header at `a` software-initialised, in the order of R135. -/
def initialised (a capacity : Nat) (m : Memory) : Memory :=
  (((((m.write16 a (rdStatusWord true false)).write16 (a + 2) (rdCommandWord false)).write32 (a + 4) 0).write32 (a + 8)
    (addrWord (a + rdSize))).write16 (a + 12) (rdCountWord 0 false)).write16 (a + 14) (rdCapacityWord capacity)

theorem initialised_wf {m : Memory} (hm : m.wf = true) (a n : Nat) : (initialised a n m).wf = true :=
  Memory.wf_write16 (Memory.wf_write16 (Memory.wf_write32 (Memory.wf_write32 (Memory.wf_write16 (Memory.wf_write16 hm _ _)
    _ _) _ _) _ _) _ _) _ _

theorem initialised_outside (m : Memory) (n : Nat) {x : Nat} (hx : x < a ∨ a + 16 ≤ x) :
    (initialised a n m).byte x = m.byte x := by
  rw [initialised, Memory.byte_write16_outside _ (a + 14) _ (by omega), Memory.byte_write16_outside _ (a + 12) _ (by omega),
    Memory.byte_write32_outside _ (a + 8) _ (by omega), Memory.byte_write32_outside _ (a + 4) _ (by omega),
    Memory.byte_write16_outside _ (a + 2) _ (by omega), Memory.byte_write16_outside _ a _ (by omega)]

/-- The two fields that RECYCLE leaves alone. -/
theorem initialised_read {m : Memory} (hm : m.wf = true) (a : Nat) {n : Nat} (hn : n ≤ 16383) :
    (initialised a n m).rdPayloadPtr a = addrWord (a + rdSize) ∧ (initialised a n m).rdCapacity a = n := by
  have h3 := Memory.wf_write32 (Memory.wf_write16 (Memory.wf_write16 hm a (rdStatusWord true false)) (a + 2)
    (rdCommandWord false)) (a + 4) 0
  have h5 := Memory.wf_write16 (Memory.wf_write32 h3 (a + 8) (addrWord (a + rdSize))) (a + 12) (rdCountWord 0 false)
  have hword : rdCapacityWord n = rdCountWord n false := by simp [rdCapacityWord, rdCountWord]
  refine ⟨?pointer, ?capacity⟩
  case pointer =>
    refine (Memory.read32_congr (a + 8) fun x _ _ => ?_).trans (Memory.read32_write32 h3 (a + 8) _)
    rw [initialised, Memory.byte_write16_outside _ (a + 14) _ (by omega), Memory.byte_write16_outside _ (a + 12) _ (by omega)]
  case capacity =>
    rw [Memory.rdCapacity, initialised, Memory.read16_write16 h5, hword]
    exact (rdCountWord_fields (by omega) false).1

/-- A record is entered under `d`. -/
def RxRing.entered (d : Nat) (sh : RxShadow) (r : RxRing) : RxRing := { r with shadows := putShadow d sh r.shadows }

theorem RxRing.shadow?_entered_same (r : RxRing) (d : Nat) (sh : RxShadow) : (r.entered d sh).shadow? d = some sh :=
  putShadow_find_same d sh r.shadows

theorem RxRing.shadow?_entered_ne (r : RxRing) {x : Nat} (hx : x ≠ d) (sh : RxShadow) :
    (r.entered d sh).shadow? x = r.shadow? x := putShadow_find_ne hx sh r.shadows

/-- The record of a descriptor whose region has arrived (R135). -/
def Config.pendingShadow (c : Config) (base : Nat) : RxShadow :=
  ⟨.allocationPending, some base, some (base + c.rxAlignShift), c.rxBufferCapacity, 0⟩

/-- The header writes of POOL_ALLOC_RX. -/
def writeHeader (h : Handler) (d : Nat) (payload : Word) (capacity : Nat) : Op Unit := do
  host h (writeRdStatus d true false)
  host h (writeRdEL d false)
  host h (writeRdLink d 0)
  host h (writeRdPayloadPtr d payload)
  host h (writeRdCount d 0 false)
  host h (writeRdCapacity d capacity)

theorem writeHeader_eq (hi : s.ports.interleaved = []) (ha : s.rdAddr? d = some a) (hs : inSpace a 16 = true) (n : Nat) :
    writeHeader h d (addrWord (a + rdSize)) n s = .ok ((), s.mapMem (initialised a n)) := by
  have hi' : ∀ f, (s.mapMem f).ports.interleaved = [] := fun _ => hi
  have ha' : ∀ f, (s.mapMem f).rdAddr? d = some a := fun _ => ha
  simp only [writeHeader, Op.bind_apply, host_nil hi, host_nil (hi' _), writeRdStatus_eq ha hs, writeRdEL_eq (ha' _) hs,
    writeRdLink_eq (ha' _) hs, writeRdPayloadPtr_eq (ha' _) hs, writeRdCount_eq (ha' _) hs, writeRdCapacity_eq (ha' _) hs,
    State.mapMem_mapMem]
  rfl

/-- With nothing scheduled inside, POOL_ALLOC_RX enters the record and initialises the header. -/
theorem poolAllocRx_eq {base : Nat} (hi : s.ports.interleaved = []) (ha : base + s.cfg.rxAlignShift = a)
    (hs : inSpace a 16 = true) : poolAllocRx h d base s = .ok ((),
      (s.mapRx (RxRing.entered d (Config.pendingShadow s.cfg base))).mapMem (initialised a s.cfg.rxBufferCapacity)) := by
  subst ha
  have hd : (s.mapRx (RxRing.entered d (Config.pendingShadow s.cfg base))).rdAddr? d = some (base + s.cfg.rxAlignShift) :=
    State.rdAddr?_eq_some.2 ⟨_, RxRing.shadow?_entered_same _ _ _, rfl⟩
  rw [poolAllocRx, Op.bind_of_ok (read_apply _ s), Op.bind_of_ok (updateRx_apply _ s)]
  exact writeHeader_eq (s := s.mapRx _) hi hd hs _

/-! ## GROW_COMPLETE -/

/-- The descriptor in flight is given up. -/
def giveUp (h : Handler) (d : Nat) : Op Status := do
  updateRx (fun r => r.dropShadow d)
  endGrow h

/-- The descriptor in flight is filled, counted and appended. -/
def adopt (h : Handler) (d base : Nat) : Op Status := do
  poolAllocRx h d base
  updateRx (fun r => { r with currentCount := r.currentCount + 1 })
  recycleLocked h d
  endGrow h

/-- What GROW_COMPLETE does with a region: it is wanted while the device runs and is below the cap. -/
def resolve (h : Handler) (d base : Nat) (wanted : Bool) : Op Status := do
  takeRegion base
  if wanted then adopt h d base
  else do
    freeRegion base
    giveUp h d

/-- The device runs and is below the cap. -/
def State.wantsRegion (s : State) : Bool :=
  decide (s.dev.lifecycle = .running) && decide (s.rx.currentCount < s.cfg.rxMaxCount)

theorem exec_growComplete_idle {ok : Bool} {w : Word} (hidle : s.rx.allocState = .idle) :
    exec (.growComplete ok w) s = .next { s with result := some .invalidRequest } := by
  show answer (growComplete (handlerOf s) ok w.toNat) s = _
  rw [growComplete, answer_bind_of_ok (read_apply _ s), hidle, if_pos (by decide)]
  rfl

section
variable {w : Word} (hq : s.quiet = true) (hd : s.rx.allocState = .allocationInFlight d)
include hq hd

/-- With an allocation in flight GROW_COMPLETE gives up its id, or does with the region what becomes of it. -/
theorem exec_growComplete (ok : Bool) : exec (.growComplete ok w) s =
    answer (if ok then resolve (handlerOf s) d w.toNat s.wantsRegion else giveUp (handlerOf s) d) s.lockedRx := by
  obtain ⟨hfree, hin, -⟩ := State.of_quiet hq
  have hd' : s.lockedRx.rx.allocState = .allocationInFlight d := hd
  show answer (growComplete (handlerOf s) ok w.toNat) s = _
  rw [growComplete, answer_bind_of_ok (read_apply _ s), hd, if_neg (by simp), answer_bind_of_ok (point_nil hin),
    answer_bind_of_ok (lock_rx_eq hfree), answer_bind_of_ok (read_apply _ _)]
  simp only [id, hd']
  cases ok <;> rfl

theorem exec_growComplete_failure : exec (.growComplete false w) s = .next (s.grown s.mem (s.rx.dropShadow d) s.ports) := by
  obtain ⟨hfree, hin, -⟩ := State.of_quiet hq
  rw [exec_growComplete hq hd, if_neg (by decide), giveUp, answer_bind_of_ok (updateRx_apply _ _)]
  exact answer_endGrow hfree hin

theorem exec_growComplete_misaligned (ha : Config.aligned s.cfg (w.toNat + s.cfg.rxAlignShift) = false) :
    exec (.growComplete true w) s = .fault .badAllocation := by
  rw [exec_growComplete hq hd, if_pos rfl, resolve, answer_bind_of_error (takeRegion_misaligned (s := s.lockedRx) ha)]
  rfl

variable (hr : regionAllowed s.ports.liveRegions ⟨w.toNat, s.cfg.rxRegionSize⟩ = true)
  (ha : Config.aligned s.cfg (w.toNat + s.cfg.rxAlignShift) = true)
include hr ha

theorem exec_growComplete_unwanted (hn : s.wantsRegion = false) : exec (.growComplete true w) s =
    .next (s.grown s.mem (s.rx.dropShadow d)
      { s.ports with liveRegions := s.ports.liveRegions.filter (fun r => r.base != w.toNat) }) := by
  obtain ⟨hfree, hin, -⟩ := State.of_quiet hq
  rw [exec_growComplete hq hd, if_pos rfl, resolve, answer_bind_of_ok (takeRegion_eq (s := s.lockedRx) hr ha), hn,
    if_neg (by decide), answer_bind_of_ok (freeRegion_apply _ _), giveUp, answer_bind_of_ok (updateRx_apply _ _),
    ← Ports.withRegion_freed s.ports s.cfg.rxRegionSize]
  exact answer_endGrow hfree hin

/-- The ring of GROW_COMPLETE with the record of `d` entered and counted. -/
def State.filledRing (s : State) (d base : Nat) : RxRing :=
  { s.rx.entered d (Config.pendingShadow s.cfg base) with currentCount := s.rx.currentCount + 1 }

omit hq hd hr ha in
/-- The filled descriptor is appended behind a tail that lies where it did. -/
theorem recycleLocked_filled {m : Memory} {p : Ports} (hi : p.interleaved = []) (hs : s.rxLaidOut = true)
    (hfresh : d ∉ s.rx.readyList) {base : Nat} (ha : base + s.cfg.rxAlignShift = a) (hspace : inSpace a 16 = true) :
    recycleLocked h d (s.putAway m (s.filledRing d base) p) = .ok ((),
      s.putAway (recycled a (s.lastAddr? s.rx.readyList) m) (appended d (s.filledRing d base)) p) := by
  have hlist : (s.putAway m (s.filledRing d base) p).rx.readyList = s.rx.readyList := rfl
  have hother : ∀ q ∈ s.rx.readyList, (s.putAway m (s.filledRing d base) p).rdAddr? q = s.rdAddr? q := fun q hq =>
    State.rdAddr?_congr (RxRing.shadow?_entered_ne s.rx (ne_of_mem_of_not_mem hq hfresh) _)
  have hrecycle : (s.putAway m (s.filledRing d base) p).Recyclable d a :=
    { inside := hi
      addr := State.rdAddr?_eq_some.2 ⟨_, RxRing.shadow?_entered_same _ _ _, congrArg some ha⟩
      inSpace := hspace
      tail := fun q hlast => by
        have hq : q ∈ s.rx.readyList := List.mem_of_getLast? hlast
        obtain ⟨b, hb⟩ := State.rdAddr?_of_mem_readyList hs hq
        exact ⟨b, (hother q hq).trans hb, State.rd_inSpace hs hb⟩ }
  rw [recycleLocked_eq hrecycle, State.recycled, hlist, State.lastAddr?_congr hother]
  rfl

/-- A region that is wanted becomes a descriptor at the end of the ready list. -/
theorem exec_growComplete_wanted (hn : s.wantsRegion = true) (hs : s.rxLaidOut = true) (hfresh : d ∉ s.rx.readyList)
    (hwa : w.toNat + s.cfg.rxAlignShift = a) : exec (.growComplete true w) s = .next (s.grown
      (recycled a (s.lastAddr? s.rx.readyList) (initialised a s.cfg.rxBufferCapacity s.mem))
      (appended d (s.filledRing d w.toNat)) (s.ports.withRegion ⟨w.toNat, s.cfg.rxRegionSize⟩)) := by
  obtain ⟨hfree, hin, -⟩ := State.of_quiet hq
  have hspace : inSpace a 16 = true := by
    simp only [regionAllowed, Bool.and_eq_true] at hr
    exact inSpace_sub hr.1.2 (by rw [← hwa, Config.rxRegionSize, rdSize]; omega)
  have htake : takeRegion w.toNat s.lockedRx =
    .ok ((), s.putAway s.mem s.rx (s.ports.withRegion ⟨w.toNat, s.cfg.rxRegionSize⟩)) := takeRegion_eq hr ha
  have hpool : poolAllocRx (handlerOf s) d w.toNat (s.putAway s.mem s.rx (s.ports.withRegion ⟨w.toNat, s.cfg.rxRegionSize⟩)) =
    .ok ((), s.putAway (initialised a s.cfg.rxBufferCapacity s.mem) (s.rx.entered d (Config.pendingShadow s.cfg w.toNat))
      (s.ports.withRegion ⟨w.toNat, s.cfg.rxRegionSize⟩)) :=
    poolAllocRx_eq (s := s.putAway s.mem s.rx (s.ports.withRegion ⟨w.toNat, s.cfg.rxRegionSize⟩)) hin hwa hspace
  have hports : (s.ports.withRegion ⟨w.toNat, s.cfg.rxRegionSize⟩).interleaved = [] := hin
  rw [exec_growComplete hq hd, if_pos rfl, resolve, answer_bind_of_ok htake, hn, if_pos rfl, adopt, answer_bind_of_ok hpool,
    answer_bind_of_ok (updateRx_apply _ _), State.putAway_mapRx]
  exact (answer_bind_of_ok (recycleLocked_filled hports hs hfresh hwa hspace)).trans (answer_endGrow hfree hports)

end

theorem shadow?_appended (r : RxRing) (x : Nat) : (appended d r).shadow? x =
    (r.mapShadow d (fun sh => { sh with state := .posted, actualBytes := 0 })).shadow? x := RxRing.shadow?_congr rfl x

theorem State.shadow?_filledRing (s : State) (base x : Nat) : (s.filledRing d base).shadow? x =
    (s.rx.entered d (Config.pendingShadow s.cfg base)).shadow? x := RxRing.shadow?_congr rfl x

/-- The filled descriptor, appended, is posted over its region. -/
theorem State.shadow?_appended_filledRing (s : State) (d base : Nat) : (appended d (s.filledRing d base)).shadow? d =
    some ⟨.posted, some base, some (base + s.cfg.rxAlignShift), s.cfg.rxBufferCapacity, 0⟩ := by
  rw [shadow?_appended, RxRing.shadow?_mapShadow_same, State.shadow?_filledRing, RxRing.shadow?_entered_same]
  rfl

/-- The other records are as they were. -/
theorem State.shadow?_appended_filledRing_ne {x : Nat} (hx : x ≠ d) (base : Nat) :
    (appended d (s.filledRing d base)).shadow? x = s.rx.shadow? x := by
  rw [shadow?_appended, RxRing.shadow?_mapShadow_ne _ _ hx, State.shadow?_filledRing, RxRing.shadow?_entered_ne _ hx]

/-! ## The statements -/

/-- Settles O42: what GROW reserves or leaves alone, and each way a completion does not keep its id. -/
theorem growReservesOneDescriptor : Obligations.GrowReservesOneDescriptor := by
  intro s hq
  refine ⟨fun d more hl hc ha hr hnone hbelow => ?reserves, fun hl hn => ?nothing, fun hl hc ha hr => ?none,
    fun more hl hc ha hr => ?refused, fun d hd => exec_growComplete_failure hq hd, fun d w hd hn hr ha => ?unwanted,
    fun d w hd ha => exec_growComplete_misaligned hq hd ha, fun ok w hidle => exec_growComplete_idle hidle⟩
  case reserves =>
    have hid : freshId (s.lockedRx.rx.shadows.map (·.1)) = d := freshId_eq (RxRing.shadow?_eq_none.1 hnone) fun e he =>
      not_not.1 (mt RxRing.shadow?_eq_none.2 (hbelow e he))
    rw [exec_grow hq hl (growLocked_reserves (s := s.lockedRx) hc ha hr) rfl, hid]
    rfl
  case nothing => exact exec_grow (t := s.lockedRx) hq hl (growLocked_nothing hn) rfl
  case none => exact exec_grow (t := s.lockedRx) hq hl (growLocked_exhausted hc ha (allocShadow_nil hr)) rfl
  case refused => exact exec_grow hq hl (growLocked_exhausted (s := s.lockedRx) hc ha (allocShadow_cons (s := s.lockedRx) hr)) rfl
  case unwanted =>
    refine exec_growComplete_unwanted hq hd hr ha ?_
    rw [State.wantsRegion, Bool.and_eq_false_iff, decide_eq_false_iff_not, decide_eq_false_iff_not, Nat.not_lt]
    exact hn

/-- Settles O43: the header as POOL_ALLOC_RX initialises it and RECYCLE arms it, behind the previous tail. -/
theorem growCompleteAppendsTheDescriptor : Obligations.GrowCompleteAppendsTheDescriptor := by
  intro s d w a hq hl hw hlaid hd hc hr hfresh hcap ha halign hsep
  have hn : s.wantsRegion = true := by simp [State.wantsRegion, hl, hc]
  have hexec := exec_growComplete_wanted hq hd hr (ha ▸ halign) hn hlaid hfresh ha.symm
  have hapart : ∀ b ∈ s.lastAddr? s.rx.readyList, a + 16 ≤ b ∨ b + 16 ≤ a := fun b hb => by
    obtain ⟨q, hq, hb⟩ := Option.bind_eq_some_iff.1 hb
    exact separateHeaders_some.1 (hb ▸ hsep q hq)
  have hinit := initialised_wf hw a s.cfg.rxBufferCapacity
  obtain ⟨hC, hOK, hV, hcount, hEL, hlink⟩ := recycled_rdRearmed hinit hapart
  obtain ⟨hpointer, hcapacity⟩ := initialised_read hw a hcap
  refine ⟨_, hexec, rfl, rfl, rfl, rfl, rfl, ha ▸ s.shadow?_appended_filledRing d w.toNat,
    fun e he => State.shadow?_appended_filledRing_ne he _, rfl, rfl, rfl, rfl, hC, hOK, hV, hcount, hEL, hlink,
    (Memory.rdPayloadPtr_congr fun x _ _ => recycled_outside (by omega) fun b hb => ?pointer).trans hpointer,
    (Memory.rdCapacity_congr fun x _ _ => recycled_outside (by omega) fun b hb => ?capacity).trans hcapacity,
    fun q b hq hb => ?tail, fun x hx hlast => ?frame, rfl, rfl, rfl, rfl, rfl, rfl, rfl, rfl, rfl⟩
  case pointer => have := hapart b hb; omega
  case capacity => have := hapart b hb; omega
  case tail =>
    have hlast : s.lastAddr? s.rx.readyList = some b := by rw [State.lastAddr?, hq, Option.bind_some, hb]
    show (recycled a (s.lastAddr? s.rx.readyList) _).rdLink b = _ ∧ (recycled a (s.lastAddr? s.rx.readyList) _).rdEL b = _
    rw [hlast]
    exact recycled_tail hinit a b
  case frame =>
    refine (recycled_outside (by rw [rdSize] at hx; omega) fun b hb => ?_).trans (initialised_outside _ _ hx)
    obtain ⟨q, hq, hb⟩ := Option.bind_eq_some_iff.1 hb
    exact hlast q b hq hb

end Sys2Proof.Machine
end

