-- ==== Sys2Proof/Proofs/EnsureStarted.lean ====
section
/-!
PROOF. ENSURE_STARTED (spec/42_receive_ring.md R164) from a quiet state: the walk to the first untouched descriptor, and the
start it issues there.
-/
namespace Sys2Proof.Machine

variable {h : Handler} {s : State} {d a : Nat}

/-! ## The walk -/

theorem State.rxUntouched_eq (ha : s.rdAddr? d = some a) : s.rxUntouched d = (!s.mem.rdC a && !s.mem.rdV a) := by
  rw [State.rxUntouched, ha]

/-- An untouched descriptor ends the walk. -/
theorem firstUntouched_found {post : List Nat} (hi : s.ports.interleaved = []) (ha : s.rdAddr? d = some a)
    (hs : inSpace a 16 = true) (hd : s.rxUntouched d = true) : firstUntouched h (d :: post) s = .ok (some d, s) := by
  rw [State.rxUntouched_eq ha, Bool.and_eq_true, Bool.not_eq_true', Bool.not_eq_true'] at hd
  obtain ⟨hC, hV⟩ := hd
  simp only [firstUntouched, Op.bind_apply, host_nil hi, readRdC_eq ha hs, hC, Bool.false_eq_true, if_false,
    readRdV_eq ha hs, hV, Op.pure_apply]

/-- Any other descriptor is passed. -/
theorem firstUntouched_passes {post : List Nat} (hi : s.ports.interleaved = []) (ha : s.rdAddr? d = some a)
    (hs : inSpace a 16 = true) (hd : s.rxUntouched d = false) :
    firstUntouched h (d :: post) s = firstUntouched h post s := by
  rw [State.rxUntouched_eq ha] at hd
  cases hC : s.mem.rdC a with
  | true => simp only [firstUntouched, Op.bind_apply, host_nil hi, readRdC_eq ha hs, hC, if_true]
  | false =>
    have hV : s.mem.rdV a = true := by simpa [hC] using hd
    simp only [firstUntouched, Op.bind_apply, host_nil hi, readRdC_eq ha hs, hC, Bool.false_eq_true, if_false,
      readRdV_eq ha hs, hV, if_true]

/-- The walk finds the first untouched descriptor of a list of posted ones. -/
theorem firstUntouched_eq {pre post : List Nat} (hi : s.ports.interleaved = []) (hs : s.rxLaidOut = true)
    (hposted : ∀ x ∈ pre ++ d :: post, x ∈ s.rx.readyList) (hpre : ∀ x ∈ pre, s.rxUntouched x = false)
    (hd : s.rxUntouched d = true) : firstUntouched h (pre ++ d :: post) s = .ok (some d, s) := by
  induction pre with
  | nil =>
    obtain ⟨a, ha⟩ := State.rdAddr?_of_mem_readyList hs (hposted d (by simp))
    exact firstUntouched_found hi ha (State.rd_inSpace hs ha) hd
  | cons x pre ih =>
    obtain ⟨hx, hpre⟩ := List.forall_mem_cons.1 hpre
    obtain ⟨b, hb⟩ := State.rdAddr?_of_mem_readyList hs (hposted x (by simp))
    rw [List.cons_append, firstUntouched_passes hi hb (State.rd_inSpace hs hb) hx]
    exact ih (fun y hy => hposted y (List.mem_cons_of_mem x hy)) hpre

/-! ## The start -/

/-- A start of the receive unit at `a` is pending. -/
def State.receiveStarted (a : Nat) (s : State) : State :=
  { s with regs := { s.regs with pointer := addrWord a, command := 3 }, tx := { s.tx with resumeWaitNeeded := true } }

/-- With the command register clear, the start of the receive unit at `d` is written. -/
theorem startAt_eq (hfree : s.locks = Locks.free) (hi : s.ports.interleaved = []) (he : s.dev.hardwareError = false)
    (hb : 1 ≤ s.cfg.acceptPollBudget) (hc : commandCode s.regs.command = 0) (ha : s.rdAddr? d = some a) :
    startAt h (some d) s.lockedRx = .ok (.ok, s.receiveStarted a) := by
  have haddr : rdAddrOf d s.lockedRx = .ok (a, s.lockedRx) := rdAddrOf_eq ha
  have hlock : lock .cmd s.lockedRx = .ok ((), s.lockedRx.mapLocks (fun x => x.put .cmd true)) :=
    lock_eq (by rw [State.lockedRx, State.mapLocks_locks, hfree]; rfl) (by rw [State.lockedRx, State.mapLocks_locks, hfree]; rfl)
  have hissue := issueLocked_start (hd := h) (code := codeRuStart) (pointer := addrWord a)
    (s := s.lockedRx.mapLocks (fun x => x.put .cmd true)) hi he hb hc (.inr rfl)
  have hback : (((s.locks.put .rx true).put .cmd true).put .cmd false).put .rx false = s.locks := by
    rw [hfree]
    rfl
  rw [startAt, Op.bind_of_ok haddr, Op.bind_of_ok (point_nil (s := s.lockedRx) hi), Op.bind_of_ok hlock, Op.bind_of_ok hissue,
    Op.bind_of_ok (unlock_apply _ _), Op.bind_of_ok (unlock_apply _ _), Op.pure_apply]
  exact congrArg (fun x => Except.ok (Status.ok, (s.receiveStarted a).mapLocks fun _ => x)) hback

/-! ## The statement -/

section
variable (hq : s.quiet = true) (hl : s.dev.lifecycle = .running) (he : s.dev.hardwareError = false)
include hq hl he

/-- Past its two refusals. -/
theorem ensureStarted_eq : ensureStarted h s = ensureStartedChecked h s := by
  obtain ⟨-, hi, -⟩ := State.of_quiet hq
  rw [ensureStarted, Op.bind_of_ok (read_apply _ s), hl, if_neg (by decide), Op.bind_of_ok (point_nil hi),
    Op.bind_of_ok (read_apply _ s), he, if_neg (by decide)]

theorem ensureStarted_ready (hr : statusRus s.regs.status = unitActive) : ensureStarted h s = .ok (.ok, s) := by
  obtain ⟨-, hi, -⟩ := State.of_quiet hq
  rw [ensureStarted_eq hq hl he, ensureStartedChecked, Op.bind_of_ok (by rw [host_nil hi, regRead_status]), if_pos hr]
  rfl

/-- With the unit not ready, what the walk finds is started. -/
theorem ensureStarted_startAt {found : Option Nat} (hr : statusRus s.regs.status ≠ unitActive)
    (hf : firstUntouched h s.rx.readyList s.lockedRx = .ok (found, s.lockedRx))
    (hfound : found = none → s.rx.readyList = []) : ensureStarted h s = startAt h found s.lockedRx := by
  obtain ⟨hfree, hi, -⟩ := State.of_quiet hq
  have hf' : firstUntouched h s.lockedRx.rx.readyList s.lockedRx = .ok (found, s.lockedRx) := hf
  rw [ensureStarted_eq hq hl he, ensureStartedChecked, Op.bind_of_ok (by rw [host_nil hi, regRead_status]), if_neg hr,
    Op.bind_of_ok (point_nil hi), Op.bind_of_ok (lock_rx_eq hfree), Op.bind_of_ok (read_apply _ _), Op.bind_of_ok hf',
    if_neg fun hn => hn.2 (hfound hn.1)]

end

/-- Settles O41: with nothing posted the walk finds nothing, else the first untouched descriptor. -/
theorem ensureStartedStartsAtTheFirstUntouched : Obligations.EnsureStartedStartsAtTheFirstUntouched := by
  intro s hq hl he
  obtain ⟨hfree, hi, -⟩ := State.of_quiet hq
  have hready := fun hr => answer_of_ok (ensureStarted_ready (h := handlerOf s) hq hl he hr)
  refine ⟨hready, fun hempty => ?empty, fun pre post d a hr hs hlist hpre hd ha hc hb => ?starts⟩
  case empty =>
    by_cases hr : statusRus s.regs.status = unitActive
    · exact hready hr
    · refine answer_of_ok (m := ensureStarted (handlerOf s)) (t := s) ?_
      rw [ensureStarted_startAt (found := none) hq hl he hr (by rw [hempty]; rfl) fun _ => hempty, startAt,
        Op.bind_of_ok (unlock_rx_eq hfree rfl)]
      rfl
  case starts =>
    have hwalk : firstUntouched (handlerOf s) s.rx.readyList s.lockedRx = .ok (some d, s.lockedRx) := by
      rw [hlist]
      exact firstUntouched_eq (s := s.lockedRx) hi hs (fun x hx => hlist ▸ hx) hpre hd
    exact answer_of_ok ((ensureStarted_startAt hq hl he hr hwalk nofun).trans (startAt_eq hfree hi he hb hc ha))

end Sys2Proof.Machine
end

