-- ==== Sys2Proof/Proofs/Harvest.lean ====
section
/-!
PROOF. HARVEST (spec/42_receive_ring.md R162, R165, R166) from a quiet state with one completed descriptor at the head of the
ready list: what is done with its frame, and the loop that stops behind it.
-/
namespace Sys2Proof.Machine

variable {h : Handler} {s t u v : State} {d a n : Nat} {rest : List Nat} {low : Bool}

/-! ## The ring's own fields -/

namespace RxRing
variable {r : RxRing}

/-- Two changes of one record are one. -/
theorem mapShadow_mapShadow (r : RxRing) (d : Nat) (f g : RxShadow → RxShadow) :
    (r.mapShadow d f).mapShadow d g = r.mapShadow d (fun sh => g (f sh)) := by
  rw [mapShadow, mapShadow, mapShadow, List.map_map]
  congr 2
  funext e
  by_cases he : e.1 = d <;> simp [he]

/-- The length of the frame is noted. -/
def measured (d n : Nat) (r : RxRing) : RxRing := r.mapShadow d (fun sh => { sh with actualBytes := n })

/-- A measured descriptor handed up is one change of its record. -/
theorem handedUp_measured : (r.measured d n).handedUp d =
    { r.mapShadow d (fun sh => { sh with state := .handedToUpperLayer, actualBytes := n }) with
      pendingList := r.pendingList ++ [d], outstandingReceives := r.outstandingReceives + 1 } := by
  rw [handedUp, measured, mapShadow_mapShadow]
  rfl

/-- A measured descriptor lent is one change of its record. -/
theorem kept_measured_shadows : ((r.popped.measured d n).kept d).shadows =
    (r.mapShadow d fun sh => { sh with state := .lowResource, actualBytes := n }).shadows := by
  rw [kept, measured, mapShadow_mapShadow]
  rfl

/-- What a record held before RECYCLE does not matter. -/
theorem appended_measured : appended d (r.measured d n) = appended d r := by
  rw [appended, measured, mapShadow_mapShadow]
  rfl

theorem appended_kept : appended d (r.kept d) = appended d r := by
  rw [appended, kept, mapShadow_mapShadow]
  rfl

/-- The head of the list recycled to its tail. -/
theorem appended_popped (hl : r.readyList = d :: rest) (hn : 1 ≤ r.readyCount) : appended d r.popped =
    { r.mapShadow d (fun sh => { sh with state := .posted, actualBytes := 0 }) with readyList := rest ++ [d] } := by
  have hcount : r.readyCount - 1 + 1 = r.readyCount := Nat.sub_add_cancel hn
  rw [appended, popped, hl, hcount]
  rfl

end RxRing

/-! ## HARVEST's section -/

/-- The machine inside HARVEST's section: lock `rx` alone is held, nothing is scheduled inside, no indication is due. -/
structure State.Harvesting (s : State) : Prop where
  inside : s.ports.interleaved = []
  locks : s.locks = Locks.free.put .rx true
  indications : s.ports.indications = []

/-- Where the state has changed inside the section. -/
def State.underway (s : State) (m : Memory) (r : RxRing) (es : List Event) : State :=
  { s.lockedRx with mem := m, rx := r, events := es }

section
variable {m : Memory} {r : RxRing} {es : List Event}

@[simp] theorem State.underway_mapRx (f : RxRing → RxRing) : (s.underway m r es).mapRx f = s.underway m (f r) es := rfl

theorem State.harvesting_underway (hq : s.quiet = true) : (s.underway m r es).Harvesting where
  inside := (State.of_quiet hq).2.1
  locks := congrArg (·.put .rx true) (State.of_quiet hq).1
  indications := by
    simp only [State.quiet, State.settled, Bool.and_eq_true, List.isEmpty_iff] at hq
    exact hq.1.1.2

end

/-! ## The head of the ready list -/

theorem readCompleted_eq (hi : s.ports.interleaved = []) (ha : s.rdAddr? d = some a) (hs : inSpace a 16 = true) :
    readCompleted h d s = .ok (s.rxCompleted d, s) := by
  rw [State.rxCompleted, ha]
  cases hC : s.mem.rdC a <;>
    simp [readCompleted, host_nil hi, readRdC_eq ha hs, hC, readRdV_eq ha hs]

theorem State.nothingToHarvest_iff : s.nothingToHarvest = true ↔
    ∀ e, s.rx.readyList.head? = some e → (s.rdAddr? e).isSome = true ∧ s.rxCompleted e = false := by
  rw [State.nothingToHarvest]
  cases s.rx.readyList <;> simp

/-- Completion marks are read off two halfwords of the header. -/
theorem State.rxCompleted_congr {e : Nat} (he : t.rdAddr? e = s.rdAddr? e)
    (hm : ∀ c, s.rdAddr? e = some c → ∀ x, (c ≤ x ∧ x < c + 2 ∨ c + 12 ≤ x ∧ x < c + 14) → t.mem.byte x = s.mem.byte x) :
    t.rxCompleted e = s.rxCompleted e := by
  rw [State.rxCompleted, State.rxCompleted, he]
  cases hc : s.rdAddr? e with
  | none => rfl
  | some c =>
    show (t.mem.rdC c && t.mem.rdV c) = (s.mem.rdC c && s.mem.rdV c)
    rw [Memory.rdC_congr fun x _ _ => hm c hc x (by omega), Memory.rdV_congr fun x _ _ => hm c hc x (by omega)]

/-- HARVEST's loop is over. -/
structure State.Stopped (s : State) : Prop extends s.Harvesting where
  inSpace : ∀ x c, s.rdAddr? x = some c → Machine.inSpace c 16 = true
  nothing : s.nothingToHarvest = true

theorem State.Stopped.harvestLoop_eq (hs : s.Stopped) (n : Nat) (batch : List (Nat × Bool)) :
    harvestLoop h n batch s = .ok (batch, s) := by
  cases n with
  | zero => rfl
  | succ n =>
    rw [harvestLoop, Op.bind_of_ok (read_apply _ s)]
    cases hl : s.rx.readyList with
    | nil => rfl
    | cons e l =>
      obtain ⟨hsome, hnot⟩ := State.nothingToHarvest_iff.1 hs.nothing e (by rw [hl]; rfl)
      obtain ⟨c, hc⟩ := Option.isSome_iff_exists.1 hsome
      have hread := readCompleted_eq (h := h) hs.inside hc (hs.inSpace e c hc)
      rw [hnot] at hread
      show (readCompleted h e >>= _ : Op _) s = _
      rw [Op.bind_of_ok hread, if_neg (by decide)]
      rfl

/-- The loop takes a completed head off the list. -/
theorem harvestLoop_takes {batch : List (Nat × Bool)} (hi : s.ports.interleaved = []) (hl : s.rx.readyList = d :: rest)
    (ha : s.rdAddr? d = some a) (hs : inSpace a 16 = true) (hc : s.rxCompleted d = true) (n : Nat) :
    harvestLoop h (n + 1) batch s = (do
      let more ← dispose h d
      let batch' ← flushFull h (batch ++ more)
      harvestLoop h n batch' : Op (List (Nat × Bool))) (s.mapRx RxRing.popped) := by
  have hread := readCompleted_eq (h := h) hi ha hs
  rw [hc] at hread
  rw [harvestLoop, Op.bind_of_ok (read_apply _ s), hl]
  show (readCompleted h d >>= _ : Op _) s = _
  rw [Op.bind_of_ok hread, if_pos rfl, Op.bind_of_ok (popReady_apply s)]
  rfl

/-! ## The frame -/

/-- The frame is dropped: its status is bad, no filter is set, or the power is not full. -/
def State.drops (s : State) (a : Nat) : Bool :=
  !s.mem.rdOK a || s.dev.packetFilter == 0 || decide (s.dev.power ≠ .fullyPowered)

theorem State.drops_iff : s.drops a = true ↔
    s.mem.rdOK a = false ∨ s.dev.packetFilter = 0 ∨ s.dev.power ≠ .fullyPowered := by
  simp [State.drops, or_assoc]

section
variable (hi : s.ports.interleaved = []) (ha : s.rdAddr? d = some a) (hs : inSpace a 16 = true)
include hi ha hs

/-- What is done with the frame is decided on the state with its length noted. -/
theorem dispose_eq : dispose h d s =
    (if s.drops a then do recycleLocked h d; pure []
      else if s.cfg.rxMinReady < s.rx.readyCount then do updateRx (RxRing.handedUp d); pure [(d, false)]
      else do updateRx (RxRing.kept d); pure [(d, true)] : Op (List (Nat × Bool)))
    (s.mapRx (RxRing.measured d (s.mem.rdCount a))) := by
  have hi' : (s.mapRx (RxRing.measured d (s.mem.rdCount a))).ports.interleaved = [] := hi
  have ha' : (s.mapRx (RxRing.measured d (s.mem.rdCount a))).rdAddr? d = some a :=
    (State.rdAddr?_mapShadow (s := s) (d := d) (f := fun sh => { sh with actualBytes := s.mem.rdCount a }) (fun _ => rfl) rfl
      d).trans ha
  have hOK : host h (readRdOK d) (s.mapRx (RxRing.measured d (s.mem.rdCount a))) = .ok (s.mem.rdOK a, _) :=
    (host_nil hi').trans (readRdOK_eq ha' hs)
  rw [dispose, Op.bind_of_ok ((host_nil hi).trans (readRdCount_eq ha hs)), Op.bind_of_ok (updateRx_apply _ s)]
  show (host h (readRdOK d) >>= _ : Op _) (s.mapRx (RxRing.measured d (s.mem.rdCount a))) = _
  rw [Op.bind_of_ok hOK, Op.bind_of_ok ((host_nil hi').trans (read_apply _ _)), Op.bind_of_ok (read_apply _ _)]
  rfl

theorem dispose_drops (hdrop : s.drops a = true)
    (hr : recycleLocked h d (s.mapRx (RxRing.measured d (s.mem.rdCount a))) = .ok ((), t)) :
    dispose h d s = .ok ([], t) := by
  rw [dispose_eq hi ha hs, if_pos hdrop, Op.bind_of_ok hr]
  rfl

theorem dispose_hands (hdrop : s.drops a = false) (hn : s.cfg.rxMinReady < s.rx.readyCount) : dispose h d s =
    .ok ([(d, false)], s.mapRx fun r => (r.measured d (s.mem.rdCount a)).handedUp d) := by
  rw [dispose_eq hi ha hs, hdrop, if_neg (by decide), if_pos hn, Op.bind_of_ok (updateRx_apply _ _)]
  rfl

theorem dispose_lends (hdrop : s.drops a = false) (hn : s.rx.readyCount ≤ s.cfg.rxMinReady) : dispose h d s =
    .ok ([(d, true)], s.mapRx fun r => (r.measured d (s.mem.rdCount a)).kept d) := by
  rw [dispose_eq hi ha hs, hdrop, if_neg (by decide), if_neg hn.not_gt, Op.bind_of_ok (updateRx_apply _ _)]
  rfl

end

/-- The event of a batch of one frame. -/
def indication (d : Nat) (bytes : List Byte) (low : Bool) : Event := .indicateReceived [⟨d, bytes, low⟩] 1

/-- The frame of `d`, whose length is noted, can be read. -/
structure State.Readable (s : State) (d a n : Nat) : Prop where
  addr : s.rdAddr? d = some a
  header : inSpace a 16 = true
  length : (s.rx.shadow? d).map (·.actualBytes) = some n
  payload : inSpace (s.mem.rdPayloadPtr a).toNat n = true

theorem gatherFrames_one (hi : s.ports.interleaved = []) (hd : s.Readable d a n) : gatherFrames h [(d, low)] s =
    .ok ([⟨d, s.mem.readBytes (s.mem.rdPayloadPtr a).toNat n, low⟩], s) := by
  simp only [gatherFrames, Op.bind_apply, host_nil hi, readRdPayloadPtr_eq hd.addr hd.header, read_apply, hd.length,
    Option.getD_some, memRead_eq hd.payload, Op.pure_apply]

/-- Where the indication of `frames` is made: they wait alone, and the section is left. -/
def State.indicating (s : State) (frames : List IndicatedFrame) : State :=
  (s.mapPorts fun p => { p with indications := [frames] }).mapLocks fun _ => Locks.free

/-- Back in the section, only the event is left. -/
theorem State.Harvesting.indicated (hs : s.Harvesting) (frames : List IndicatedFrame) (f : List Event → List Event) :
    (((s.indicating frames).mapEvents f).mapPorts fun p => { p with indications := [] }).lockedRx = s.mapEvents f := by
  have hself : s = { s with locks := Locks.free.put .rx true, ports := { s.ports with indications := [] } } := by
    rw [← hs.locks, ← hs.indications]
  conv_rhs => rw [hself]
  rfl

/-- A batch of one frame is indicated outside the section, and then RECYCLE has it if it was lent. -/
theorem flush_one (hs : s.Harvesting) (hd : s.Readable d a n) : flush h [(d, low)] s = recycleLow h [(d, low)]
    (s.mapEvents fun es => es ++ [indication d (s.mem.readBytes (s.mem.rdPayloadPtr a).toNat n) low]) := by
  rw [flush, Op.bind_of_ok (gatherFrames_one hs.inside hd)]
  generalize s.mem.readBytes (s.mem.rdPayloadPtr a).toNat n = bytes
  have hwaits : updatePorts (fun p => { p with indications := p.indications ++ [[⟨d, bytes, low⟩]] }) s =
      .ok ((), s.mapPorts fun p => { p with indications := [[⟨d, bytes, low⟩]] }) := by
    rw [updatePorts_apply, State.mapPorts, State.mapPorts, hs.indications]
    rfl
  have hleft : unlock .rx (s.mapPorts fun p => { p with indications := [[⟨d, bytes, low⟩]] }) =
      .ok ((), s.indicating [⟨d, bytes, low⟩]) := unlock_rx_eq (s := s.indicating [⟨d, bytes, low⟩]) rfl hs.locks
  have hmade := indications_eq (hd := h) 1 (s := s.indicating [⟨d, bytes, low⟩]) rfl hs.inside rfl
  rw [Op.bind_of_ok hwaits, Op.bind_of_ok (read_apply _ _), Op.bind_of_ok hleft]
  refine (Op.bind_of_ok hmade).trans ?_
  rw [Op.bind_of_ok (lock_rx_eq rfl), hs.indicated]
  rfl

/-! ## The whole operation -/

/-- HARVEST up to the thresholds. -/
def gather (h : Handler) (n : Nat) : Op Unit := do
  let batch ← harvestLoop h n []
  if batch ≠ [] then flush h batch else pure ()

theorem updateThresholds_over (hn : s.cfg.rxLowWater ≤ s.rx.readyCount) :
    updateThresholds s = .ok ((), s.mapRx (RxRing.overSupplied s.cfg)) := by
  simp only [updateThresholds, Op.bind_apply, read_apply, id, Op.ite_apply, if_neg hn.not_gt, updateRx_apply]
  rfl

theorem exec_harvest {m : Memory} {r : RxRing} {es : List Event} (hq : s.quiet = true) (hl : s.dev.lifecycle = .running)
    (hg : gather (handlerOf s) s.cfg.harvestIterationMax s.lockedRx = .ok ((), s.underway m r es))
    (hn : s.cfg.rxLowWater ≤ r.readyCount) : exec .harvest s =
      .next { s with mem := m, rx := RxRing.overSupplied s.cfg r, events := es, result := some .ok } := by
  obtain ⟨hfree, hi, -⟩ := State.of_quiet hq
  obtain ⟨batch, v, hloop, hflush⟩ := Op.bind_eq_ok.1 hg
  have hend : answer (do updateThresholds; unlock .rx; pure .ok) (s.underway m r es) =
      .next { s with mem := m, rx := RxRing.overSupplied s.cfg r, events := es, result := some .ok } := by
    rw [answer_bind_of_ok (updateThresholds_over (s := s.underway m r es) hn), State.underway_mapRx,
      answer_bind_of_ok (unlock_rx_eq (t := s.underway m _ es) hfree rfl)]
    rfl
  show answer (harvest (handlerOf s)) s = _
  rw [harvest, answer_bind_of_ok (read_apply _ s), hl, if_neg (by decide), answer_bind_of_ok (point_nil hi),
    answer_bind_of_ok (lock_rx_eq hfree), answer_bind_of_ok (read_apply _ _)]
  refine (answer_bind_of_ok hloop).trans ?_
  split at hflush
  · next hb =>
    rw [if_pos hb]
    exact (answer_bind_of_ok hflush).trans hend
  · next hb =>
    rw [if_neg hb]
    obtain rfl : v = s.underway m r es := by simpa using hflush
    exact hend

/-- Where the head is completed and disposed of, and the loop stops behind it, what is left is one batch. -/
structure State.TakesOne (s : State) (h : Handler) (d a : Nat) (rest : List Nat) (batch : List (Nat × Bool)) (v : State) :
    Prop where
  inside : s.ports.interleaved = []
  list : s.rx.readyList = d :: rest
  addr : s.rdAddr? d = some a
  inSpace : inSpace a 16 = true
  completed : s.rxCompleted d = true
  disposed : dispose h d (s.mapRx RxRing.popped) = .ok (batch, v)
  stopped : v.Stopped

namespace State.TakesOne

theorem gather_of_dropped (hs : s.TakesOne h d a rest [] v) (hcap : 1 ≤ v.cfg.indicateBatchMax) (n : Nat) :
    gather h (n + 1) s = .ok ((), v) := by
  have hfull : flushFull h [] v = .ok ([], v) := by
    rw [flushFull, Op.bind_of_ok (read_apply _ v), if_neg (by simp only [List.length_nil]; omega)]
    rfl
  rw [gather, Op.bind_of_ok (t := v) (x := [])]
  · rfl
  · rw [harvestLoop_takes hs.inside hs.list hs.addr hs.inSpace hs.completed, Op.bind_of_ok hs.disposed]
    exact (Op.bind_of_ok hfull).trans (hs.stopped.harvestLoop_eq n [])

/-- The batch is flushed when it is full or when the loop has stopped. -/
theorem gather_of_batch {w : State} (hs : s.TakesOne h d a rest [(d, low)] v) (hf : flush h [(d, low)] v = .ok ((), w))
    (hw : w.Stopped) (n : Nat) : gather h (n + 1) s = .ok ((), w) := by
  by_cases hcap : v.cfg.indicateBatchMax = 1
  · have hfull : flushFull h [(d, low)] v = .ok ([], w) := by
      rw [flushFull, Op.bind_of_ok (read_apply _ v), if_pos (show [(d, low)].length = _ from hcap.symm), Op.bind_of_ok hf]
      rfl
    rw [gather, Op.bind_of_ok (t := w) (x := [])]
    · rfl
    · rw [harvestLoop_takes hs.inside hs.list hs.addr hs.inSpace hs.completed, Op.bind_of_ok hs.disposed]
      exact (Op.bind_of_ok hfull).trans (hw.harvestLoop_eq n [])
  · have hfull : flushFull h [(d, low)] v = .ok ([(d, low)], v) := by
      rw [flushFull, Op.bind_of_ok (read_apply _ v), if_neg (show ¬[(d, low)].length = _ from Ne.symm hcap)]
      rfl
    rw [gather, Op.bind_of_ok (t := v) (x := [(d, low)])]
    · exact hf
    · rw [harvestLoop_takes hs.inside hs.list hs.addr hs.inSpace hs.completed, Op.bind_of_ok hs.disposed]
      exact (Op.bind_of_ok hfull).trans (hs.stopped.harvestLoop_eq n [(d, low)])

end State.TakesOne

/-! ## One completed head -/

/-- The head of the ready list is completed and its frame can be read; the one behind it is not completed. -/
structure State.HeadCompleted (s : State) (d a : Nat) (rest : List Nat) : Prop where
  quiet : s.quiet = true
  laid : s.rxLaidOut = true
  list : s.rx.readyList = d :: rest
  addr : s.rdAddr? d = some a
  completed : s.rxCompleted d = true
  next : ∀ e, rest.head? = some e → s.rxCompleted e = false
  payload : Machine.inSpace (s.mem.rdPayloadPtr a).toNat (s.mem.rdCount a) = true

namespace State.HeadCompleted

variable {m : Memory} {r : RxRing} {es : List Event} {f : RxShadow → RxShadow}

theorem inside (hs : s.HeadCompleted d a rest) : s.ports.interleaved = [] := (State.of_quiet hs.quiet).2.1

/-- The loop stops where the headers lie as before and the list's head is not completed. -/
theorem stopped (hs : s.HeadCompleted d a rest) (haddr : ∀ x, (s.underway m r es).rdAddr? x = s.rdAddr? x)
    (hhead : ∀ e, r.readyList.head? = some e →
      e ∈ s.rx.readyList ∧ (s.underway m r es).rxCompleted e = false) : (s.underway m r es).Stopped where
  toHarvesting := State.harvesting_underway hs.quiet
  inSpace x c hc := State.rd_inSpace hs.laid ((haddr x).symm.trans hc)
  nothing := State.nothingToHarvest_iff.2 fun e he => by
    obtain ⟨hmem, hnot⟩ := hhead e he
    obtain ⟨c, hc⟩ := State.rdAddr?_of_mem_readyList hs.laid hmem
    exact ⟨by rw [haddr, hc]; rfl, hnot⟩

/-- Behind the head it stops as long as no byte of memory has changed. -/
theorem stopped_behind (hs : s.HeadCompleted d a rest) (haddr : ∀ x, (s.underway s.mem r es).rdAddr? x = s.rdAddr? x)
    (hr : r.readyList = rest) : (s.underway s.mem r es).Stopped :=
  hs.stopped haddr fun e he => by
    rw [hr] at he
    exact ⟨hs.list ▸ List.mem_cons_of_mem d (List.mem_of_head? he),
      (State.rxCompleted_congr (haddr e) fun _ _ _ _ => rfl).trans (hs.next e he)⟩

/-- The frame is read off the shadow record and the header. -/
theorem readable (hs : s.HeadCompleted d a rest) (haddr : ∀ x, (s.underway s.mem r es).rdAddr? x = s.rdAddr? x)
    (hr : r.shadows = (s.rx.mapShadow d f).shadows) (hf : ∀ sh, (f sh).actualBytes = s.mem.rdCount a) :
    (s.underway s.mem r es).Readable d a (s.mem.rdCount a) where
  addr := (haddr d).trans hs.addr
  header := State.rd_inSpace hs.laid hs.addr
  length := by
    obtain ⟨sh, hsh, -⟩ := State.rdAddr?_eq_some.1 hs.addr
    have hread : r.shadow? d = some (f sh) := by
      rw [RxRing.shadow?_congr hr d, RxRing.shadow?_mapShadow_same, hsh]
      rfl
    show (r.shadow? d).map _ = _
    rw [hread, Option.map_some, hf]
  payload := hs.payload

/-- The head is taken, and the loop stops. -/
theorem takesOne {batch : List (Nat × Bool)} (hs : s.HeadCompleted d a rest)
    (hdisp : dispose h d (s.underway s.mem s.rx.popped s.events) = .ok (batch, v)) (hv : v.Stopped) :
    s.lockedRx.TakesOne h d a rest batch v :=
  ⟨hs.inside, hs.list, hs.addr, State.rd_inSpace hs.laid hs.addr, hs.completed, hdisp, hv⟩

end State.HeadCompleted

/-- What HARVEST's gathering has done where it allows any. -/
theorem gather_of_pos {n : Nat} (hn : 1 ≤ n) (hg : ∀ k, gather h (k + 1) s = .ok ((), t)) :
    gather h n s = .ok ((), t) := by
  obtain ⟨k, rfl⟩ := Nat.exists_eq_add_of_le' hn
  exact hg k

/-! ## A frame handed up -/

/-- The ring with its head handed up, `n` bytes long. -/
def RxRing.delivered (r : RxRing) (d n : Nat) (rest : List Nat) : RxRing :=
  { r.mapShadow d (fun sh => { sh with state := .handedToUpperLayer, actualBytes := n }) with
    readyList := rest, readyCount := r.readyCount - 1, pendingList := r.pendingList ++ [d],
    outstandingReceives := r.outstandingReceives + 1 }

theorem RxRing.handedUp_popped {r : RxRing} (hl : r.readyList = d :: rest) :
    (r.popped.measured d n).handedUp d = r.delivered d n rest := by
  rw [handedUp_measured, popped, hl]
  rfl

/-- Settles O37: the head is handed up, its batch of one frame is indicated, and the loop stops behind it. -/
theorem harvestDeliversAFrame : Obligations.HarvestDeliversAFrame := by
  intro s d a rest hq hl hlaid hlist ha hcompleted hOK hfilter hpower hmin hnext hpayload hlow hmax
  have hs : s.HeadCompleted d a rest := ⟨hq, hlaid, hlist, ha, hcompleted, hnext, hpayload⟩
  have hkept : s.drops a = false := by
    rw [← Bool.not_eq_true, State.drops_iff]
    simp only [hOK, hfilter, hpower, ne_eq, not_true, or_self, Bool.true_eq_false, not_false_eq_true]
  have haddr (es : List Event) (x : Nat) :
      (s.underway s.mem (s.rx.delivered d (s.mem.rdCount a) rest) es).rdAddr? x = s.rdAddr? x :=
    State.rdAddr?_mapShadow (s := s) (d := d)
      (f := fun sh => { sh with state := .handedToUpperLayer, actualBytes := s.mem.rdCount a }) (fun _ => rfl) rfl x
  have hdisp : dispose (handlerOf s) d (s.underway s.mem s.rx.popped s.events) =
      .ok ([(d, false)], s.underway s.mem (s.rx.delivered d (s.mem.rdCount a) rest) s.events) := by
    rw [← RxRing.handedUp_popped hlist]
    exact dispose_hands (s := s.underway s.mem s.rx.popped s.events) hs.inside ha (State.rd_inSpace hlaid ha) hkept hmin
  have hflush : flush (handlerOf s) [(d, false)] (s.underway s.mem (s.rx.delivered d (s.mem.rdCount a) rest) s.events) =
      .ok ((), s.underway s.mem (s.rx.delivered d (s.mem.rdCount a) rest)
        (s.events ++ [indication d (s.mem.readBytes (s.mem.rdPayloadPtr a).toNat (s.mem.rdCount a)) false])) :=
    flush_one (State.harvesting_underway hq) (hs.readable (haddr _)
      (f := fun sh => { sh with state := .handedToUpperLayer, actualBytes := s.mem.rdCount a }) rfl fun _ => rfl)
  have htakes := hs.takesOne hdisp (hs.stopped_behind (haddr _) rfl)
  exact exec_harvest hq hl
    (gather_of_pos hmax (htakes.gather_of_batch hflush (hs.stopped_behind (haddr _) rfl))) hlow

/-! ## A frame not kept -/

/-- The ring with its head at its tail. -/
def RxRing.rotated (r : RxRing) (d : Nat) (rest : List Nat) : RxRing :=
  { r.mapShadow d (fun sh => { sh with state := .posted, actualBytes := 0 }) with readyList := rest ++ [d] }

namespace State.HeadCompleted

variable {r : RxRing} {es : List Event}

/-- RECYCLE of the head, taken off the list before. -/
theorem recycleLocked_underway (hs : s.HeadCompleted d a rest)
    (haddr : ∀ x, (s.underway s.mem r es).rdAddr? x = s.rdAddr? x) (hr : r.readyList = rest) :
    recycleLocked h d (s.underway s.mem r es) =
      .ok ((), s.underway (Machine.recycled a (s.lastAddr? rest) s.mem) (appended d r) es) := by
  have hable : (s.underway s.mem r es).Recyclable d a := State.recyclable_of_rxLaidOut hs.laid hs.addr hs.inside haddr
    fun q hq => hs.list ▸ List.mem_cons_of_mem d (hr ▸ hq)
  have hlast : (s.underway s.mem r es).lastAddr? r.readyList = s.lastAddr? rest := by
    rw [hr]
    exact State.lastAddr?_congr fun x _ => haddr x
  rw [recycleLocked_eq hable, State.recycled, ← hlast]
  rfl

/-- The loop stops at the next head, or at the re-armed descriptor if it is the only one. -/
theorem stopped_rotated (hs : s.HeadCompleted d a rest) (hw : s.mem.wf = true) (hd : d ∉ rest) :
    (s.underway (Machine.recycled a (s.lastAddr? rest) s.mem) (s.rx.rotated d rest) es).Stopped := by
  have hapart := State.lastAddr?_apart hs.laid hs.addr hd
  generalize hm : Machine.recycled a (s.lastAddr? rest) s.mem = m
  have haddr (x : Nat) : (s.underway m (s.rx.rotated d rest) es).rdAddr? x = s.rdAddr? x :=
    State.rdAddr?_mapShadow (s := s) (d := d) (f := fun sh => { sh with state := .posted, actualBytes := 0 })
      (fun _ => rfl) rfl x
  refine hs.stopped haddr fun e he => ?_
  have hhead : (rest ++ [d]).head? = some e := he
  by_cases hrest : rest = []
  · obtain rfl : d = e := by simpa [hrest] using hhead
    have hC : m.rdC a = false := hm ▸ (recycled_rdRearmed hw hapart).C
    refine ⟨by simp [hs.list], ?_⟩
    rw [State.rxCompleted, (haddr d).trans hs.addr]
    show (m.rdC a && m.rdV a) = false
    rw [hC, Bool.false_and]
  · rw [List.head?_append_of_ne_nil _ hrest] at hhead
    have hmem : e ∈ rest := List.mem_of_head? hhead
    have hde : d ≠ e := fun h => hd (h ▸ hmem)
    refine ⟨by simp [hs.list, hmem], (State.rxCompleted_congr (haddr e) fun c hc y hy => ?_).trans (hs.next e hhead)⟩
    have hac := State.rd_apart hs.laid hde hs.addr hc
    show m.byte y = _
    rw [← hm]
    refine recycled_outside (by omega) fun b hb => ?_
    obtain ⟨q, -, hq⟩ := Option.bind_eq_some_iff.1 hb
    by_cases hqe : q = e
    · subst hqe
      obtain rfl : c = b := Option.some.inj (hc.symm.trans hq)
      omega
    · have := State.rd_apart hs.laid hqe hq hc
      omega

end State.HeadCompleted

/-- What HARVEST has left when the head went to the tail, the events being `es`. -/
def State.rotated (s : State) (d a : Nat) (rest : List Nat) (es : List Event) : State :=
  s.underway (Machine.recycled a (s.lastAddr? rest) s.mem) (s.rx.rotated d rest) es

section
variable (hs : s.HeadCompleted d a rest) (hw : s.mem.wf = true) (hd : d ∉ rest) (hn : 1 ≤ s.rx.readyCount) {k : Nat}
  (hk : 1 ≤ k)
include hs hw hd hn hk

/-- A dropped frame's descriptor is recycled at once. -/
theorem State.HeadCompleted.gather_dropped (hdrop : s.drops a = true) (hcap : 1 ≤ s.cfg.indicateBatchMax) :
    gather h k s.lockedRx = .ok ((), s.rotated d a rest s.events) := by
  have haddr (x : Nat) :
      (s.underway s.mem (s.rx.popped.measured d (s.mem.rdCount a)) s.events).rdAddr? x = s.rdAddr? x :=
    State.rdAddr?_mapShadow (s := s) (d := d) (f := fun sh => { sh with actualBytes := s.mem.rdCount a }) (fun _ => rfl)
      rfl x
  have hrecycle : recycleLocked h d (s.underway s.mem (s.rx.popped.measured d (s.mem.rdCount a)) s.events) =
      .ok ((), s.rotated d a rest s.events) := by
    rw [hs.recycleLocked_underway haddr (congrArg List.tail hs.list), RxRing.appended_measured, RxRing.appended_popped hs.list hn]
    rfl
  have hdisp : dispose h d (s.underway s.mem s.rx.popped s.events) = .ok ([], s.rotated d a rest s.events) :=
    dispose_drops (s := s.underway s.mem s.rx.popped s.events) hs.inside hs.addr (State.rd_inSpace hs.laid hs.addr) hdrop
      hrecycle
  exact gather_of_pos hk ((hs.takesOne hdisp (hs.stopped_rotated hw hd)).gather_of_dropped hcap)

/-- A lent frame is indicated with the low mark before its descriptor is recycled. -/
theorem State.HeadCompleted.gather_lent (hkept : s.drops a = false) (hmin : s.rx.readyCount - 1 ≤ s.cfg.rxMinReady) :
    gather h k s.lockedRx = .ok ((), s.rotated d a rest (s.events ++
      [indication d (s.mem.readBytes (s.mem.rdPayloadPtr a).toNat (s.mem.rdCount a)) true])) := by
  have haddr (es : List Event) (x : Nat) :
      (s.underway s.mem ((s.rx.popped.measured d (s.mem.rdCount a)).kept d) es).rdAddr? x = s.rdAddr? x :=
    State.rdAddr?_mapShadow (s := s) (d := d) (f := fun sh => { sh with state := .lowResource, actualBytes := s.mem.rdCount a })
      (fun _ => rfl) RxRing.kept_measured_shadows x
  have hlist : ((s.rx.popped.measured d (s.mem.rdCount a)).kept d).readyList = rest := congrArg List.tail hs.list
  have hdisp : dispose h d (s.underway s.mem s.rx.popped s.events) =
      .ok ([(d, true)], s.underway s.mem ((s.rx.popped.measured d (s.mem.rdCount a)).kept d) s.events) :=
    dispose_lends (s := s.underway s.mem s.rx.popped s.events) hs.inside hs.addr (State.rd_inSpace hs.laid hs.addr) hkept
      hmin
  have hrecycle (es : List Event) :
      recycleLocked h d (s.underway s.mem ((s.rx.popped.measured d (s.mem.rdCount a)).kept d) es) =
        .ok ((), s.rotated d a rest es) := by
    rw [hs.recycleLocked_underway (haddr es) hlist, RxRing.appended_kept, RxRing.appended_measured,
      RxRing.appended_popped hs.list hn]
    rfl
  have hflush : flush h [(d, true)] (s.underway s.mem ((s.rx.popped.measured d (s.mem.rdCount a)).kept d) s.events) =
      .ok ((), s.rotated d a rest (s.events ++
        [indication d (s.mem.readBytes (s.mem.rdPayloadPtr a).toNat (s.mem.rdCount a)) true])) := by
    rw [flush_one (State.harvesting_underway hs.quiet) (hs.readable (haddr _)
      (f := fun sh => { sh with state := .lowResource, actualBytes := s.mem.rdCount a }) RxRing.kept_measured_shadows
      fun _ => rfl)]
    exact Op.bind_of_ok (hrecycle _)
  exact gather_of_pos hk ((hs.takesOne hdisp (hs.stopped_behind (haddr _) hlist)).gather_of_batch hflush
    (hs.stopped_rotated hw hd))

end

/-- Settles O38: dropped or lent, the head ends at the tail; only the events tell which it was. -/
theorem harvestRecyclesWhatIsNotKept : Obligations.HarvestRecyclesWhatIsNotKept := by
  intro s d a rest hq hl hw hlaid hlist hd ha hcompleted hnext hpayload hlow hn hmax hcap hwhy
  have hs : s.HeadCompleted d a rest := ⟨hq, hlaid, hlist, ha, hcompleted, hnext, hpayload⟩
  have hgather : gather (handlerOf s) s.cfg.harvestIterationMax s.lockedRx = .ok ((), s.rotated d a rest
      (if s.mem.rdOK a = false ∨ s.dev.packetFilter = 0 ∨ s.dev.power ≠ .fullyPowered then s.events
        else s.events ++
          [indication d (s.mem.readBytes (s.mem.rdPayloadPtr a).toNat (s.mem.rdCount a)) true])) := by
    split
    · next hdrop => exact hs.gather_dropped hw hd hn hmax (State.drops_iff.2 hdrop) hcap
    · next hkept =>
      have hmin : s.rx.readyCount - 1 ≤ s.cfg.rxMinReady := by tauto
      exact hs.gather_lent hw hd hn hmax (Bool.eq_false_iff.2 (mt State.drops_iff.1 hkept)) hmin
  exact ⟨_, exec_harvest hq hl hgather hlow, rfl,
    RecycledAt.of_recycled hw rfl (State.lastAddr?_apart hlaid ha hd), rfl, rfl, rfl, rfl, rfl, rfl, rfl, rfl, rfl, rfl⟩

end Sys2Proof.Machine
end

