-- ==== Sys2Proof/Proofs/Accept.lean ====
section
/-!
PROOF. What the Acceptor makes of the three commands (spec/43_command_coordinator.md R195 to R197), and what the two port codes
do (R199, R200).
-/
namespace Sys2Proof.Machine

variable {s t : State} {i j d : Nat}

/-! ## Outcomes of device steps -/

theorem outcome_of_ok {m : Op Unit} (hm : m s = .ok ((), t)) : outcome m s = .next t := outcome_eq_next.2 hm

theorem outcome_of_fault {m : Op Unit} {f : Fault} (hm : m s = .error (.fault f)) : outcome m s = .fault f := by
  rw [outcome, hm]
  rfl

/-! ## Addresses that name nothing (R74, U4) -/

theorem State.rdGiven?_eq_none {a : Nat} (hbad : Config.aligned s.cfg a = false ∨ s.rdAt? a = none) :
    s.rdGiven? a = none := by
  obtain hbad | hbad := hbad <;> simp [State.rdGiven?, hbad]

/-! ## The two starts -/

/-- The command register reads clear. -/
def State.commandTaken (s : State) : State := { s with regs := { s.regs with command := 0 } }

/-- The command is taken, the command unit active at slot `i`. -/
def State.cuActivated (i : Nat) (s : State) : State :=
  { s with units := { s.units with cuCursor := i },
           regs := { s.regs with status := withCus unitActive s.regs.status, command := 0 } }

/-- The command is taken, the receive unit ready at descriptor `d`. -/
def State.ruReadied (d : Nat) (s : State) : State :=
  { s with units := { s.units with ruCursor := some d, ruPhase := .none },
           regs := { s.regs with status := withRus unitActive s.regs.status, command := 0 } }

theorem acceptCuStart_activates (hi : s.slotGiven? s.regs.pointer.toNat = some i) :
    acceptCuStart s = .ok ((), s.cuActivated i) := by
  rw [acceptCuStart, Op.bind_of_ok (read_apply _ s), hi]
  rfl

theorem acceptCuStart_faults (hi : s.slotGiven? s.regs.pointer.toNat = none) :
    acceptCuStart s = .error (.fault .badStartPointer) := by
  rw [acceptCuStart, Op.bind_of_ok (read_apply _ s), hi]
  rfl

theorem acceptRuStart_readies (hd : s.rdGiven? s.regs.pointer.toNat = some d) :
    acceptRuStart s = .ok ((), s.ruReadied d) := by
  rw [acceptRuStart, Op.bind_of_ok (read_apply _ s), hd]
  rfl

theorem acceptRuStart_faults (hd : s.rdGiven? s.regs.pointer.toNat = none) :
    acceptRuStart s = .error (.fault .badStartPointer) := by
  rw [acceptRuStart, Op.bind_of_ok (read_apply _ s), hd]
  rfl

/-- Settles O50: the slot that `POINTER` names, or a fault. -/
theorem cuStartActivatesAtThePointer : Obligations.CuStartActivatesAtThePointer := fun _ =>
  ⟨fun _ ha hi => outcome_of_ok (acceptCuStart_activates (State.slotGiven?_eq_some.2 ⟨ha, hi⟩)),
    fun hbad => outcome_of_fault (acceptCuStart_faults (State.slotGiven?_eq_none hbad))⟩

/-- Settles O52: the receive descriptor that `POINTER` names, or a fault. -/
theorem ruStartReadiesAtThePointer : Obligations.RuStartReadiesAtThePointer := fun _ =>
  ⟨fun _ ha hd => outcome_of_ok (acceptRuStart_readies (State.rdGiven?_eq_some.2 ⟨ha, hd⟩)),
    fun hbad => outcome_of_fault (acceptRuStart_faults (State.rdGiven?_eq_none hbad))⟩

/-! ## The resume -/

/-- A unit that is not suspended stays as it is. -/
theorem acceptCuResume_awake (hc : statusCus s.regs.status ≠ unitSuspended) :
    acceptCuResume s = .ok ((), s.commandTaken) := by
  rw [acceptCuResume, Op.bind_of_ok (read_apply _ s), if_neg hc]
  rfl

section
variable (hc : statusCus s.regs.status = unitSuspended) (ha : inSpace (s.tdAddr s.units.cuCursor) 12 = true)
include hc ha

/-- So does one whose descriptor still ends the chain. -/
theorem acceptCuResume_stopped (hS : s.tdS s.units.cuCursor = true) : acceptCuResume s = .ok ((), s.commandTaken) := by
  rw [acceptCuResume, Op.bind_of_ok (read_apply _ s), if_pos hc, Op.bind_of_ok (read_apply _ s),
    Op.bind_of_ok (readTdS_eq ha), if_pos hS]
  rfl

variable (hS : s.tdS s.units.cuCursor = false)
include hS

theorem acceptCuResume_follows (hj : s.slotGiven? (s.tdLink s.units.cuCursor).toNat = some j) :
    acceptCuResume s = .ok ((), s.cuActivated j) := by
  rw [acceptCuResume, Op.bind_of_ok (read_apply _ s), if_pos hc, Op.bind_of_ok (read_apply _ s),
    Op.bind_of_ok (readTdS_eq ha), hS, if_neg (by decide), Op.bind_of_ok (readTdLink_eq ha),
    Op.bind_of_ok (read_apply _ s), hj]
  rfl

theorem acceptCuResume_dangles (hj : s.slotGiven? (s.tdLink s.units.cuCursor).toNat = none) :
    acceptCuResume s = .error (.fault .danglingLink) := by
  rw [acceptCuResume, Op.bind_of_ok (read_apply _ s), if_pos hc, Op.bind_of_ok (read_apply _ s),
    Op.bind_of_ok (readTdS_eq ha), hS, if_neg (by decide), Op.bind_of_ok (readTdLink_eq ha),
    Op.bind_of_ok (read_apply _ s), hj]
  rfl

end

/-- Accepted a second time, a resume finds its unit awake, or still at a descriptor that ends the chain. -/
theorem acceptCuResume_idempotent (ha : inSpace (s.tdAddr s.units.cuCursor) 12 = true)
    (hr : acceptCuResume s = .ok ((), t)) : acceptCuResume t = .ok ((), t) := by
  by_cases hc : statusCus s.regs.status = unitSuspended
  · cases hS : s.tdS s.units.cuCursor with
    | true =>
      obtain rfl : s.commandTaken = t := by simpa [acceptCuResume_stopped hc ha hS] using hr
      exact acceptCuResume_stopped (s := s.commandTaken) hc ha hS
    | false =>
      cases hj : s.slotGiven? (s.tdLink s.units.cuCursor).toNat with
      | none => simp [acceptCuResume_dangles hc ha hS hj] at hr
      | some j =>
        obtain rfl : s.cuActivated j = t := by simpa [acceptCuResume_follows hc ha hS hj] using hr
        have hactive : statusCus (s.cuActivated j).regs.status = unitActive := statusCus_withCus _ _
        exact acceptCuResume_awake (by rw [hactive]; decide)
  · obtain rfl : s.commandTaken = t := by simpa [acceptCuResume_awake hc] using hr
    exact acceptCuResume_awake (s := s.commandTaken) hc

/-- Settles O51: the cursor follows the link only where the unit is suspended and `S` is 0. -/
theorem cuResumeIsIdempotent : Obligations.CuResumeIsIdempotent := by
  intro s hlaid hcursor
  have ha := State.tdHeader_inSpace hlaid hcursor
  exact ⟨fun hc => outcome_of_ok (acceptCuResume_awake hc),
    fun hc hS => outcome_of_ok (acceptCuResume_stopped hc ha hS),
    fun hc hS hbad => outcome_of_fault (acceptCuResume_dangles hc ha hS (State.slotGiven?_eq_none hbad)),
    fun j hc hS hal hj => outcome_of_ok (acceptCuResume_follows hc ha hS (State.slotGiven?_eq_some.2 ⟨hal, hj⟩)),
    fun t hr => outcome_of_ok (acceptCuResume_idempotent ha (outcome_eq_next.1 hr))⟩

/-! ## The port codes -/

/-- STATUS with both units idle. -/
def idled (w : Word) : Word := withRus unitIdle (withCus unitIdle w)

theorem statusCus_idled (w : Word) : statusCus (idled w) = unitIdle := by
  rw [idled, statusCus_withRus, statusCus_withCus]

theorem statusRus_idled (w : Word) : statusRus (idled w) = unitIdle := statusRus_withRus _ _

/-- The units' codes lie outside the cause bits. -/
theorem causesOf_withCus (v : BitVec 2) (w : Word) : causesOf (withCus v w) = causesOf w := by
  have hv : ∀ v : BitVec 2, v.setWidth 32 &&& causeMask = 0#32 := by decide
  have hmask : 0xFFFFFFFC#32 &&& causeMask = causeMask := by decide
  rw [causesOf, withCus, BitVec.and_or_distrib_right, hv, BitVec.or_zero, BitVec.and_assoc, hmask, causesOf]

theorem causesOf_withRus (v : BitVec 2) (w : Word) : causesOf (withRus v w) = causesOf w := by
  have hv : ∀ v : BitVec 2, (v.setWidth 32 <<< 2) &&& causeMask = 0#32 := by decide
  have hmask : 0xFFFFFFF3#32 &&& causeMask = causeMask := by decide
  rw [causesOf, withRus, BitVec.and_or_distrib_right, hv, BitVec.or_zero, BitVec.and_assoc, hmask, causesOf]

theorem causesOf_idled (w : Word) : causesOf (idled w) = causesOf w := by
  rw [idled, causesOf_withRus, causesOf_withCus]

theorem causesOf_cleared (w : Word) : causesOf (w &&& ~~~causeMask) = 0#32 := by
  have hmask : ~~~causeMask &&& causeMask = 0#32 := by decide
  rw [causesOf, BitVec.and_assoc, hmask, BitVec.and_zero]

/-- `INTMASK` has no bit but `M`, so that setting it leaves 1. -/
theorem or_one_of_le_one {w : Word} (hw : w.toNat ≤ 1) : w ||| 1 = 1 := by
  obtain rfl | rfl : w = 0#32 ∨ w = 1#32 := by bv_omega
  · rfl
  · rfl

/-- Settles O53: the units' codes are replaced, the causes lie outside them. -/
theorem selectiveResetIdlesTheUnits : Obligations.SelectiveResetIdlesTheUnits := fun s =>
  ⟨idled s.regs.status, outcome_of_ok (selectiveReset_apply s), statusCus_idled _, statusRus_idled _, causesOf_idled _⟩

/-- Settles O54: clearing the causes does not touch the units' codes. -/
theorem fullResetRestoresTheRegisters : Obligations.FullResetRestoresTheRegisters := by
  intro s hs
  obtain ⟨-, -, hmask, -⟩ := (Registers.legal_iff _).1 hs
  have hcauses : causesOf causeMask = causeMask := by decide
  refine ⟨idled s.regs.status &&& ~~~causeMask, ?next, ?cus, ?rus, causesOf_cleared _⟩
  case next =>
    refine outcome_of_ok ((fullReset_apply s).trans ?_)
    rw [State.mapRegs, or_one_of_le_one hmask]
    rfl
  case cus => rw [← hcauses, statusCus_acknowledge, statusCus_idled]
  case rus => rw [← hcauses, statusRus_acknowledge, statusRus_idled]

end Sys2Proof.Machine
end

