-- ==== Sys2Proof/Proofs/IssueCommand.lean ====
section
/-!
PROOF. ISSUE_COMMAND (spec/43_command_coordinator.md R190) from a quiet state: its refusals, and its writes under lock `cmd`.
-/
namespace Sys2Proof.Machine

variable {h : Handler} {s t : State} {code : BitVec 7} {c : Byte} {wait : Bool} {pointer : Word}

/-! ## Under lock `cmd` -/

/-- The state under lock `cmd`. -/
def State.lockedCmd (s : State) : State := s.mapLocks fun x => x.put .cmd true

theorem lock_cmd_eq (hl : s.locks = Locks.free) : lock .cmd s = .ok ((), s.lockedCmd) :=
  lock_eq (by rw [hl]; rfl) (by rw [hl]; rfl)

/-- The lock is given back after a part that left the locks alone. -/
theorem unlock_cmd_eq (hl : s.locks = Locks.free) (ht : t.locks = s.lockedCmd.locks) :
    unlock .cmd t = .ok ((), t.mapLocks fun _ => s.locks) := by
  have hback : t.locks.put .cmd false = s.locks := by
    rw [ht, State.lockedCmd, State.mapLocks_locks, hl]
    rfl
  rw [unlock_apply, ← hback]
  rfl

theorem answer_of_fault {m : Op Status} {f : Fault} (hm : m s = .error (.fault f)) : answer m s = .fault f := by
  rw [answer, hm]
  rfl

/-! ## The gates -/

/-- The codes that ISSUE_COMMAND writes (R190). -/
theorem legalCode_setWidth_iff : legalCode (code.setWidth 8) = true ↔ code = 1 ∨ code = 2 ∨ code = 3 := by
  revert code
  decide

theorem setWidth_eq_codeCuResume_iff : code.setWidth 8 = codeCuResume ↔ code = 2 := by
  revert code
  decide

/-- A request that passes: a start, or a resume without a pointer. -/
def Commandable (code : BitVec 7) (pointer : Word) : Prop := code = 1 ∨ code = 3 ∨ (code = 2 ∧ pointer = 0)

theorem issueRequest_refused
    (hbad : s.dev.lifecycle ≠ .running ∨ code = 0 ∨ 3 < code.toNat ∨ (code = 2 ∧ pointer ≠ 0)) :
    issueRequest h wait code pointer s = .ok (.invalidRequest, s) := by
  simp only [issueRequest, Op.bind_apply, read_apply, Op.ite_apply, Op.pure_apply]
  split
  · rfl
  · next hlegal =>
    split
    · rfl
    · next hresume =>
      rw [if_pos]
      rw [Bool.not_eq_true', Bool.not_eq_false, legalCode_setWidth_iff] at hlegal
      rw [setWidth_eq_codeCuResume_iff] at hresume
      have hcode : ¬ (code = 0 ∨ 3 < code.toNat) := by
        rcases hlegal with rfl | rfl | rfl <;> decide
      simp only [Bool.not_eq_true', decide_eq_false_iff_not]
      tauto

/-- Past the refusals: the sticky flag, else the writes under the lock. -/
theorem issueRequest_eq (hq : s.quiet = true) (hl : s.dev.lifecycle = .running) (hcode : Commandable code pointer) :
    issueRequest h wait code pointer s = if s.dev.hardwareError then .ok (.hardError, s) else
      (writeCommandLocked h (code.setWidth 8) wait pointer >>= fun r => unlock .cmd >>= fun _ => pure r) s.lockedCmd := by
  obtain ⟨hfree, hi, -⟩ := State.of_quiet hq
  have hlegal : legalCode (code.setWidth 8) = true := by
    rw [legalCode_setWidth_iff]
    exact hcode.elim .inl fun hc => hc.elim (.inr ∘ .inr) fun hc => .inr (.inl hc.1)
  have hresume : ¬ (code.setWidth 8 = codeCuResume ∧ pointer ≠ 0) := by
    rw [setWidth_eq_codeCuResume_iff]
    rintro ⟨rfl, hp⟩
    exact hp (by simpa [Commandable] using hcode)
  simp only [issueRequest, Op.bind_apply, read_apply, hlegal, Bool.not_true, Bool.false_eq_true, if_false, hresume, hl,
    decide_true, point_nil hi, lock_cmd_eq hfree, Op.ite_apply, Op.pure_apply]

section
variable (hq : s.quiet = true) (hl : s.dev.lifecycle = .running) (hcode : Commandable code pointer)
include hq hl hcode

theorem exec_issueCommand_hardError (he : s.dev.hardwareError = true) :
    exec (.issueCommand wait code pointer) s = .next { s with result := some .hardError } :=
  answer_of_ok (m := issueRequest (handlerOf s) wait code pointer) <| by rw [issueRequest_eq hq hl hcode, he, if_pos rfl]

variable (he : s.dev.hardwareError = false)
include he

/-- What the part under the lock leaves, the locks given back. -/
theorem exec_issueCommand {r : Status}
    (hr : writeCommandLocked (handlerOf s) (code.setWidth 8) wait pointer s.lockedCmd = .ok (r, t))
    (ht : t.locks = s.lockedCmd.locks) :
    exec (.issueCommand wait code pointer) s = .next { t with locks := s.locks, result := some r } := by
  refine answer_of_ok (m := issueRequest (handlerOf s) wait code pointer) (t := t.mapLocks fun _ => s.locks) ?_
  rw [issueRequest_eq hq hl hcode, he, if_neg (by decide), Op.bind_of_ok hr,
    Op.bind_of_ok (unlock_cmd_eq (State.of_quiet hq).1 ht), Op.pure_apply]

theorem exec_issueCommand_fault {f : Fault}
    (hr : writeCommandLocked (handlerOf s) (code.setWidth 8) wait pointer s.lockedCmd = .error (.fault f)) :
    exec (.issueCommand wait code pointer) s = .fault f := by
  refine answer_of_fault (m := issueRequest (handlerOf s) wait code pointer) ?_
  rw [issueRequest_eq hq hl hcode, he, if_neg (by decide), Op.bind_apply, hr]

end

/-! ## The writes -/

/-- A legal code over a command that it would lose. -/
theorem writeCommand_overruns {v : Word} (hv : legalCode (commandCode v) = true)
    (ho : overruns (commandCode s.regs.command) (commandCode v) = true) :
    writeCommand v s = .error (.fault .commandOverrun) := by
  rw [writeCommand, Op.bind_of_ok (regRead_command s), hv, Bool.true_or, if_neg (by decide), if_pos ho, fault_apply]

/-- With the register clear the wait changes nothing. -/
theorem writeCommandLocked_waited (hi : s.ports.interleaved = []) (hc : commandCode s.regs.command = 0)
    (hb : wait = true → 1 ≤ s.cfg.acceptPollBudget) :
    writeCommandLocked h c wait pointer s = writeCommandLocked h c false pointer s := by
  cases wait with
  | false => rfl
  | true =>
    obtain ⟨n, hn⟩ : ∃ n, s.cfg.acceptPollBudget = n + 1 := ⟨s.cfg.acceptPollBudget - 1, by have := hb rfl; omega⟩
    simp only [writeCommandLocked, Op.bind_apply, read_apply, if_true, hn, waitAcceptLocked_clear hi hc, Bool.false_eq_true,
      if_false, Op.pure_apply]

section
variable (hi : s.ports.interleaved = []) (he : s.dev.hardwareError = false)
include hi he

/-- Without a wait: `POINTER` for a start, then `COMMAND`. -/
theorem writeCommandLocked_start (hk : c = codeCuStart ∨ c = codeRuStart) :
    writeCommandLocked h c false pointer s =
      (writeCommand (c.setWidth 32) >>= fun _ => updateTx (fun x => { x with resumeWaitNeeded := true }) >>= fun _ =>
        pure Status.ok) (s.mapRegs fun r => { r with pointer := pointer }) := by
  have hne : c ≠ codeCuResume := by rcases hk with rfl | rfl <;> decide
  have hnb : (c != codeCuResume) = true := bne_iff_ne.2 hne
  have hi' : ∀ f, (s.mapRegs f).ports.interleaved = [] := fun _ => hi
  simp only [writeCommandLocked, Op.bind_apply, read_apply, Op.pure_apply, he, Bool.not_true, Bool.or_false, Bool.false_eq_true,
    if_false, hne, ne_eq, not_false_eq_true, if_true, host_nil hi, regWrite_pointer, host_nil (hi' _), regWrite_command, hnb]

theorem writeCommandLocked_start_clear (hk : c = codeCuStart ∨ c = codeRuStart) (hc : commandCode s.regs.command = 0) :
    writeCommandLocked h c false pointer s = .ok (.ok, { s with
      regs := { s.regs with pointer := pointer, command := c.setWidth 32 }, tx := { s.tx with resumeWaitNeeded := true } }) := by
  have hw : writeCommand (c.setWidth 32) (s.mapRegs fun r => { r with pointer := pointer }) =
      .ok ((), s.mapRegs fun r => { r with pointer := pointer, command := c.setWidth 32 }) := by
    have hand : (c.setWidth 32 &&& 0xFF : Word) = c.setWidth 32 := by rcases hk with rfl | rfl <;> decide
    have hlegal : legalCode (commandCode (c.setWidth 32)) = true := by rcases hk with rfl | rfl <;> decide
    refine writeCommand_ok.2 ⟨.inl hlegal, ?_, by rw [hand]; rfl⟩
    rw [State.mapRegs_regs, hc]
    rfl
  rw [writeCommandLocked_start hi he hk, Op.bind_of_ok hw]
  rfl

/-- Over a pending command a start is an overrun (R198, U5). -/
theorem writeCommandLocked_start_overruns (hk : c = codeCuStart ∨ c = codeRuStart) (hc : commandCode s.regs.command ≠ 0) :
    writeCommandLocked h c false pointer s = .error (.fault .commandOverrun) := by
  have hcode : commandCode (c.setWidth 32) = c := by rcases hk with rfl | rfl <;> decide
  have hlegal : legalCode c = true := by rcases hk with rfl | rfl <;> decide
  have hnb : (c == codeCuResume) = false := by rcases hk with rfl | rfl <;> decide
  have hover : overruns (commandCode s.regs.command) c = true := by
    rw [overruns, hnb, Bool.and_false, bne_iff_ne.2 hc]
    rfl
  rw [writeCommandLocked_start hi he hk, Op.bind_apply, writeCommand_overruns (by rwa [hcode]) (by rwa [hcode])]

theorem writeCommandLocked_resume_clear (hc : commandCode s.regs.command = 0) :
    writeCommandLocked h codeCuResume false pointer s = .ok (.ok, { s with
      regs := { s.regs with command := 2 }, tx := { s.tx with resumeWaitNeeded := false } }) := by
  have hr := issueLocked_resume (h := h) hi he (.inl hc) pointer
  rwa [issueLocked, Op.bind_of_ok (read_apply _ s), he, if_neg (by decide)] at hr

/-- A wait that runs out sets the flag, and no register is written. -/
theorem writeCommandLocked_stuck (hc : commandCode s.regs.command ≠ 0) :
    writeCommandLocked h c true pointer s = .ok (.hardError, s.mapDev fun d => { d with hardwareError := true }) := by
  have hr := issueLocked_stuck (h := h) hi he hc c pointer
  rwa [issueLocked, Op.bind_of_ok (read_apply _ s), he, if_neg (by decide)] at hr

end

/-! ## The statements -/

/-- Settles O47: with the register clear, the wait if any changes nothing, and the writes overrun nothing. -/
theorem issueCommandWritesTheCommand : Obligations.IssueCommandWritesTheCommand := by
  intro s wait pointer hq hl he hc hb
  obtain ⟨-, hi, -⟩ := State.of_quiet hq
  have hstart {c : Byte} (hk : c = codeCuStart ∨ c = codeRuStart) :=
    (writeCommandLocked_waited (h := handlerOf s) (s := s.lockedCmd) (pointer := pointer) hi hc hb).trans
      (writeCommandLocked_start_clear hi he hk hc)
  have hresume := (writeCommandLocked_waited (h := handlerOf s) (s := s.lockedCmd) hi hc hb).trans
    (writeCommandLocked_resume_clear hi he hc (pointer := 0))
  exact ⟨exec_issueCommand hq hl (.inl rfl) he (hstart (.inl rfl)) rfl,
    exec_issueCommand hq hl (.inr (.inl rfl)) he (hstart (.inr rfl)) rfl,
    exec_issueCommand hq hl (.inr (.inr ⟨rfl, rfl⟩)) he hresume rfl⟩

/-- Settles O48: the gates in their order, then the wait, then the write. -/
theorem issueCommandRefusesAndTimesOut : Obligations.IssueCommandRefusesAndTimesOut := by
  intro s wait code pointer hq
  obtain ⟨-, hi, -⟩ := State.of_quiet hq
  refine ⟨fun hbad => answer_of_ok (issueRequest_refused hbad), fun hl hcode => exec_issueCommand_hardError hq hl hcode,
    fun hl hcode he hwait hc => ?timeout, fun hl hcode he hwait hc => ?overrun⟩
  case timeout =>
    subst hwait
    exact exec_issueCommand hq hl hcode he (writeCommandLocked_stuck (s := s.lockedCmd) hi he hc) rfl
  case overrun =>
    subst hwait
    have hk : code.setWidth 8 = codeCuStart ∨ code.setWidth 8 = codeRuStart := by
      rcases hcode with rfl | rfl <;> decide
    exact exec_issueCommand_fault hq hl (hcode.imp_right .inl) he
      (writeCommandLocked_start_overruns (s := s.lockedCmd) hi he hk hc)

end Sys2Proof.Machine
end

