-- ==== Sys2Proof/Proofs/WaitAccept.lean ====
section
/-!
PROOF. WAIT_ACCEPT (spec/43_command_coordinator.md R191, R201): its polls, and what comes of a command that the Acceptor takes
at one point of the operation. Where that point lies among the polls decides the answer.
-/
namespace Sys2Proof.Machine

variable {α β : Type} {h : Handler} {s t u : State}

/-! ## Operations that look at no lock -/

/-- Where the operation answers, it does so under any locks, with the same answer, and leaves those. -/
def IgnoresLocks (m : Op α) : Prop := ∀ f s a t, m s = .ok (a, t) → m (s.mapLocks f) = .ok (a, t.mapLocks f)

namespace IgnoresLocks

theorem pure (a : α) : IgnoresLocks (pure a) := by
  rintro f s b t hr
  obtain ⟨rfl, rfl⟩ : a = b ∧ s = t := by simpa using hr
  rfl

theorem bind {m : Op α} {k : α → Op β} (hm : IgnoresLocks m) (hk : ∀ a, IgnoresLocks (k a)) : IgnoresLocks (m >>= k) := by
  intro f s b u hr
  obtain ⟨a, t, h1, h2⟩ := Op.bind_eq_ok.1 hr
  exact Op.bind_eq_ok.2 ⟨a, t.mapLocks f, hm f s a t h1, hk a f t b u h2⟩

theorem ite {c : Prop} [Decidable c] {m n : Op α} (hm : IgnoresLocks m) (hn : IgnoresLocks n) :
    IgnoresLocks (if c then m else n) := by
  split
  · exact hm
  · exact hn

theorem fault (x : Fault) : IgnoresLocks (fault x : Op α) := fun _ _ _ _ hr => nomatch hr

theorem read {v : State → α} (hv : ∀ s f, v (s.mapLocks f) = v s := by exact fun _ _ => rfl) : IgnoresLocks (read v) := by
  intro f s a t hr
  obtain ⟨rfl, rfl⟩ : v s = a ∧ s = t := by simpa using hr
  rw [read_apply, hv]

theorem update {g : State → State} (hg : ∀ s f, g (s.mapLocks f) = (g s).mapLocks f := by exact fun _ _ => rfl) :
    IgnoresLocks (update g) := by
  intro f s a t hr
  obtain rfl : g s = t := by simpa using hr
  rw [update_apply, hg]

theorem readTdS (i : Nat) : IgnoresLocks (readTdS i) := bind read fun _ => bind (ite read (fault _)) fun _ => pure _

theorem readTdLink (i : Nat) : IgnoresLocks (readTdLink i) := bind read fun _ => ite read (fault _)

/-- The end of accepting a start: the cursor, the unit's state, the command register. -/
theorem accepted (f : Units → Units) (k : Registers → Registers) :
    IgnoresLocks (updateUnits f >>= fun _ => updateRegs k >>= fun _ => clearCommand) :=
  bind update fun _ => bind update fun _ => update

theorem acceptCuStart : IgnoresLocks acceptCuStart :=
  bind read fun
    | none => fault _
    | some _ => accepted _ _

theorem acceptRuStart : IgnoresLocks acceptRuStart :=
  bind read fun
    | none => fault _
    | some _ => accepted _ _

theorem acceptCuResume : IgnoresLocks acceptCuResume :=
  bind read fun _ => ite
    (bind read fun _ => bind (readTdS _) fun _ => ite update <| bind (readTdLink _) fun _ => bind read fun
      | none => fault _
      | some _ => accepted _ _)
    update

theorem accept : IgnoresLocks accept :=
  bind read fun _ => ite (pure _) <| ite acceptCuStart <| ite acceptCuResume <| ite acceptRuStart (fault _)

end IgnoresLocks

/-! ## A command taken -/

/-- In `t` the command register reads clear; locks and ports are those of `s`. -/
structure Taken (s t : State) : Prop where
  command : t.regs.command = 0
  locks : t.locks = s.locks
  ports : t.ports = s.ports

theorem Taken.clear (ht : Taken s t) : commandCode t.regs.command = 0 := by
  rw [ht.command]
  rfl

theorem acceptCuResume_taken (hr : acceptCuResume s = .ok ((), t)) : Taken s t := by
  have hclear : Leads (fun x => x = s) clearCommand fun _ => Taken s := .update fun x hx => hx ▸ ⟨rfl, rfl, rfl⟩
  suffices hleads : Leads (fun x => x = s) acceptCuResume fun _ => Taken s from hleads s () t rfl hr
  refine Keeps.then (.read _) fun _ => .either ?_ hclear
  refine Keeps.then (.read _) fun i => Keeps.then (.readTdS i) fun _ => .either hclear ?_
  refine Keeps.then (.readTdLink i) fun _ => Keeps.then (.read _) fun j => ?_
  cases j with
  | none => exact .fault
  | some j =>
    rintro _ _ _ rfl hr
    cases hr
    exact ⟨rfl, rfl, rfl⟩

/-- A pending command that is accepted is taken. -/
theorem accept_taken (hc : commandCode s.regs.command ≠ 0) (hr : accept s = .ok ((), t)) : Taken s t := by
  rw [accept, Op.bind_of_ok (read_apply _ s), if_neg hc] at hr
  split at hr
  · obtain ⟨i, -, rfl⟩ := acceptCuStart_ok hr
    exact ⟨rfl, rfl, rfl⟩
  · split at hr
    · exact acceptCuResume_taken hr
    · split at hr
      · obtain ⟨d, -, rfl⟩ := acceptRuStart_ok hr
        exact ⟨rfl, rfl, rfl⟩
      · cases hr

/-! ## The point at which it is taken -/

/-- The schedule inside the operation replaced. -/
def State.withInside (l : List (List Stimulus)) (s : State) : State := s.mapPorts fun p => { p with interleaved := l }

/-- A command is pending, and an Acceptor that has the last point to itself takes it and leaves `u`. -/
structure Accepts (h : Handler) (s u : State) : Prop where
  pending : commandCode s.regs.command ≠ 0
  handled : h (.device .accept) = accept
  accepted : accept (s.withInside []) = .ok ((), u)

namespace Accepts
variable (hs : Accepts h s u)
include hs

theorem taken : Taken (s.withInside []) u := accept_taken hs.pending hs.accepted

theorem inside : u.ports.interleaved = [] := congrArg Ports.interleaved hs.taken.ports

theorem withInside (l : List (List Stimulus)) : Accepts h (s.withInside l) u := ⟨hs.pending, hs.handled, hs.accepted⟩

theorem lockedCmd : Accepts h s.lockedCmd u.lockedCmd :=
  ⟨hs.pending, hs.handled, IgnoresLocks.accept (fun x => x.put .cmd true) _ _ _ hs.accepted⟩

/-- The Acceptor's step inside the operation leaves what it leaves outside. -/
theorem point_eq (hi : s.ports.interleaved = [[.device .accept]]) : point h s = .ok ((), u) := by
  have hstep := IgnoresLocks.accept Locks.inside _ _ _ hs.accepted
  have hback : (u.mapLocks Locks.inside).mapLocks (fun _ => s.locks) = u := by
    have hlocks : u.locks = s.locks := hs.taken.locks
    rw [← hlocks]
    rfl
  have hintrude : intrude h (.device .accept) (s.withInside []) = .ok ((), u) := by
    simp only [intrude, hs.handled, hstep]
    exact congrArg (fun x => Except.ok ((), x)) hback
  rw [point, Op.bind_of_ok (read_apply _ s), hi]
  exact (Op.bind_of_ok (updatePorts_apply _ s)).trans (Op.bind_of_ok hintrude)

end Accepts

/-! ## The polls -/

/-- An access at a point where nothing is scheduled. -/
theorem host_cons_nil {m : Op α} {rest : List (List Stimulus)} (hi : s.ports.interleaved = [] :: rest) :
    host h m s = m (s.withInside rest) := Op.bind_of_ok (point_cons_nil hi)

/-- A poll that finds the register clear ends the wait. -/
theorem waitAcceptLocked_accepts {n : Nat} (hp : point h s = .ok ((), t)) (hc : commandCode t.regs.command = 0) :
    waitAcceptLocked h (n + 1) s = .ok (true, t) := by
  have hread : host h (regRead .command) s = .ok (t.regs.command, t) := Op.bind_of_ok hp
  rw [waitAcceptLocked, Op.bind_of_ok hread, if_pos hc, Op.pure_apply]

section
variable {rest : List (List Stimulus)} (hi : s.ports.interleaved = [] :: rest) (hc : commandCode s.regs.command ≠ 0)
include hi hc

/-- The last poll in vain: the flag is set. -/
theorem waitAcceptLocked_fails (hp : point h (s.withInside rest) = .ok ((), t)) :
    waitAcceptLocked h 1 s = .ok (false, t.mapDev fun d => { d with hardwareError := true }) := by
  have hread : host h (regRead .command) s = .ok (s.regs.command, s.withInside rest) := host_cons_nil hi
  have hentry : host h errorEntry (s.withInside rest) = .ok ((), t.mapDev fun d => { d with hardwareError := true }) :=
    Op.bind_of_ok hp
  rw [waitAcceptLocked, Op.bind_of_ok hread, if_neg hc, if_pos rfl, Op.bind_of_ok hentry, Op.pure_apply]

/-- Any other poll in vain: the yield, then the next poll. -/
theorem waitAcceptLocked_yields {n : Nat} (hp : point h (s.withInside rest) = .ok ((), t)) :
    waitAcceptLocked h (n + 2) s = waitAcceptLocked h (n + 1) t := by
  have hread : host h (regRead .command) s = .ok (s.regs.command, s.withInside rest) := host_cons_nil hi
  rw [waitAcceptLocked, Op.bind_of_ok hread, if_neg hc, if_neg n.succ_ne_zero, Op.bind_of_ok hp]

end

/-- A poll and a yield at which nothing is scheduled. -/
theorem waitAcceptLocked_skips {n : Nat} {rest : List (List Stimulus)} (hi : s.ports.interleaved = [] :: [] :: rest)
    (hc : commandCode s.regs.command ≠ 0) :
    waitAcceptLocked h (n + 2) s = waitAcceptLocked h (n + 1) (s.withInside rest) :=
  waitAcceptLocked_yields hi hc (point_cons_nil rfl)

/-- After `n` empty points under the lock: up to the last poll the command is taken in time. -/
theorem Accepts.waitAcceptLocked_inTime {k n : Nat} (hs : Accepts h s u)
    (hi : s.ports.interleaved = List.replicate n [] ++ [[.device .accept]]) (hn : n ≤ 2 * k) :
    waitAcceptLocked h (k + 1) s = .ok (true, u) := by
  induction k generalizing s n with
  | zero =>
    obtain rfl : n = 0 := by omega
    exact waitAcceptLocked_accepts (hs.point_eq hi) hs.taken.clear
  | succ k ih =>
    match n with
    | 0 => exact waitAcceptLocked_accepts (hs.point_eq hi) hs.taken.clear
    | 1 =>
      rw [waitAcceptLocked_yields hi hs.pending ((hs.withInside _).point_eq rfl)]
      exact waitAcceptLocked_clear hs.inside hs.taken.clear
    | n + 2 =>
      rw [waitAcceptLocked_skips hi hs.pending]
      exact ih (hs.withInside _) rfl (by omega)

/-- At the point after the last poll it is taken, but too late. -/
theorem Accepts.waitAcceptLocked_late {k : Nat} (hs : Accepts h s u)
    (hi : s.ports.interleaved = List.replicate (2 * k + 1) [] ++ [[.device .accept]]) :
    waitAcceptLocked h (k + 1) s = .ok (false, u.mapDev fun d => { d with hardwareError := true }) := by
  induction k generalizing s with
  | zero => exact waitAcceptLocked_fails hi hs.pending ((hs.withInside _).point_eq rfl)
  | succ k ih =>
    rw [waitAcceptLocked_skips hi hs.pending]
    exact ih (hs.withInside _) rfl

/-- With nothing scheduled up to there, it is not taken. -/
theorem waitAcceptLocked_inVain {k : Nat} {rest : List (List Stimulus)} (hc : commandCode s.regs.command ≠ 0)
    (hi : s.ports.interleaved = List.replicate (2 * k + 2) [] ++ rest) :
    waitAcceptLocked h (k + 1) s =
      .ok (false, (s.withInside rest).mapDev fun d => { d with hardwareError := true }) := by
  induction k generalizing s with
  | zero => exact waitAcceptLocked_fails hi hc (point_cons_nil rfl)
  | succ k ih =>
    rw [waitAcceptLocked_skips hi hc]
    exact ih (s := s.withInside _) hc rfl

/-! ## The request -/

/-- A budget that is not 0 holds a last poll. -/
theorem exists_toNat_eq_succ {budget : Word} (hb : budget ≠ 0) : ∃ k, budget.toNat = k + 1 :=
  Nat.exists_eq_succ_of_ne_zero fun h0 => hb (BitVec.eq_of_toNat_eq h0)

theorem exec_waitAccept_refused {budget : Word} (hbad : budget = 0 ∨ s.dev.lifecycle ≠ .running) :
    exec (.waitAccept budget) s = .next { s with result := some .invalidRequest } := by
  refine answer_of_ok (m := waitRequest (handlerOf s) budget) ?_
  rw [waitRequest, Op.bind_of_ok (read_apply _ s), if_pos (hbad.imp_right decide_eq_false), Op.pure_apply]

section
variable {budget : Word} (hb : budget ≠ 0) (hl : s.dev.lifecycle = .running)
include hb hl

/-- The wait under the lock, entered from what the first point leaves. -/
theorem exec_waitAccept {b : Bool} (hp : point (handlerOf s) s = .ok ((), t)) (ht : t.locks = Locks.free)
    (hw : waitAcceptLocked (handlerOf s) budget.toNat t.lockedCmd = .ok (b, u.lockedCmd)) (hu : u.locks = Locks.free) :
    exec (.waitAccept budget) s = .next { u with result := some (if b then .ok else .hardError) } := by
  refine answer_of_ok (m := waitRequest (handlerOf s) budget) (t := u) ?_
  have hgate : ¬ (budget = 0 ∨ decide (s.dev.lifecycle = .running) = false) := not_or.2 ⟨hb, by simp [hl]⟩
  rw [waitRequest, Op.bind_of_ok (read_apply _ s), if_neg hgate, Op.bind_of_ok hp, Op.bind_of_ok (lock_cmd_eq ht),
    Op.bind_of_ok hw, Op.bind_of_ok (unlock_cmd_eq hu rfl)]
  rfl

/-- With nothing scheduled inside, the first poll decides. -/
theorem exec_waitAccept_quiet (hq : s.quiet = true) :
    (commandCode s.regs.command = 0 → exec (.waitAccept budget) s = .next { s with result := some .ok }) ∧
    (commandCode s.regs.command ≠ 0 → exec (.waitAccept budget) s =
      .next { s with dev := { s.dev with hardwareError := true }, result := some .hardError }) := by
  obtain ⟨hfree, hi, -⟩ := State.of_quiet hq
  obtain ⟨k, hk⟩ := exists_toNat_eq_succ hb
  exact ⟨fun hc => exec_waitAccept (b := true) hb hl (point_nil hi) hfree
      (hk ▸ waitAcceptLocked_clear (s := s.lockedCmd) hi hc) hfree,
    fun hc => exec_waitAccept (u := s.mapDev fun d => { d with hardwareError := true }) hb hl (point_nil hi) hfree
      (waitAcceptLocked_stuck (s := s.lockedCmd) _ hi hc) hfree⟩

variable (hfree : s.locks = Locks.free)
include hfree

/-- Nothing is scheduled from the first point to the one after the last poll. -/
theorem exec_waitAccept_inVain {rest : List (List Stimulus)} (hc : commandCode s.regs.command ≠ 0)
    (hi : s.ports.interleaved = List.replicate (2 * budget.toNat + 1) [] ++ rest) :
    exec (.waitAccept budget) s = .next { s with
      dev := { s.dev with hardwareError := true }, ports := { s.ports with interleaved := rest },
      result := some .hardError } := by
  obtain ⟨k, hk⟩ := exists_toNat_eq_succ hb
  have hw := waitAcceptLocked_inVain (h := handlerOf s) (k := k) (rest := rest)
    (s := (s.withInside (List.replicate (2 * budget.toNat) [] ++ rest)).lockedCmd) hc (by rw [hk]; rfl)
  rw [← hk] at hw
  exact exec_waitAccept (u := (s.withInside rest).mapDev fun d => { d with hardwareError := true }) hb hl
    (point_cons_nil hi) hfree hw hfree

variable (hs : Accepts (handlerOf s) s u)
include hs

/-- The command is taken at the first point, or before one of the polls. -/
theorem exec_waitAccept_inTime {n : Nat} (hi : s.ports.interleaved = List.replicate n [] ++ [[.device .accept]])
    (hn : n < 2 * budget.toNat) : exec (.waitAccept budget) s = .next { u with result := some .ok } := by
  have hu : u.locks = Locks.free := hs.taken.locks.trans hfree
  obtain ⟨k, hk⟩ := exists_toNat_eq_succ hb
  cases n with
  | zero =>
    exact exec_waitAccept hb hl (hs.point_eq hi) hu
      (hk ▸ waitAcceptLocked_clear (s := u.lockedCmd) hs.inside hs.taken.clear) hu
  | succ n =>
    exact exec_waitAccept hb hl (point_cons_nil hi) hfree
      (hk ▸ (hs.withInside _).lockedCmd.waitAcceptLocked_inTime (n := n) rfl (by omega)) hu

/-- It is taken at the point after the last poll. -/
theorem exec_waitAccept_late (hi : s.ports.interleaved = List.replicate (2 * budget.toNat) [] ++ [[.device .accept]]) :
    exec (.waitAccept budget) s =
      .next { u with dev := { u.dev with hardwareError := true }, result := some .hardError } := by
  have hu : u.locks = Locks.free := hs.taken.locks.trans hfree
  obtain ⟨k, hk⟩ := exists_toNat_eq_succ hb
  rw [hk] at hi
  exact exec_waitAccept (u := u.mapDev fun d => { d with hardwareError := true }) hb hl (point_cons_nil hi) hfree
    (hk ▸ (hs.withInside _).lockedCmd.waitAcceptLocked_late rfl) hu

end

/-- The operation's handler runs the Acceptor's step if anything is scheduled at all. -/
theorem handlerOf_accept (hi : s.ports.interleaved ≠ []) : handlerOf s (.device .accept) = accept := by
  obtain ⟨es, rest, hi⟩ := List.exists_cons_of_ne_nil hi
  rw [handlerOf, hi]
  rfl

/-- Settles O49: the first point lies before the lock, then one before each poll, one at each yield and one after the last
poll; `n` says at which of them the Acceptor steps. -/
theorem waitAcceptEndsWithinItsBudget : Obligations.WaitAcceptEndsWithinItsBudget := by
  intro s budget
  refine ⟨fun _ hbad => exec_waitAccept_refused hbad, fun hq hb hl => (exec_waitAccept_quiet hb hl hq).1,
    fun hq hb hl => (exec_waitAccept_quiet hb hl hq).2, fun n u hset hb hl hc hi hacc => ?_⟩
  have hfree : s.locks = Locks.free := State.locks_of_settled hset
  have hs : Accepts (handlerOf s) s u := ⟨hc, handlerOf_accept (by simp [hi]), hacc⟩
  refine ⟨exec_waitAccept_inTime hb hl hfree hs hi, fun hn => ?late, fun hn => ?inVain⟩
  case late =>
    subst hn
    exact exec_waitAccept_late hb hl hfree hs hi
  case inVain =>
    obtain ⟨m, rfl⟩ := Nat.exists_eq_add_of_le (Nat.succ_le_of_lt hn)
    rw [Nat.succ_eq_add_one, List.replicate_add, List.append_assoc] at hi
    rw [exec_waitAccept_inVain hb hl hfree hc hi, hi, List.drop_left' List.length_replicate]

end Sys2Proof.Machine
end

