-- ==== Sys2Proof/Proofs/LinkRequests.lean ====
section
/-!
PROOF. The link requests other than the tick (spec/44_link_phy.md R211, R218 to R221) from a quiet state, and the PHY agent
(R223). The four requests enter lock `dev` and test alike whether detection runs.
-/
namespace Sys2Proof.Machine

-- The checker compiles the whole text as one: proofs elaborated one after the other keep that within its memory.
set_option Elab.async false

variable {α : Type} {h : Handler} {s t : State}

/-! ## Under lock `dev` -/

/-- The state under lock `dev`. -/
def State.lockedDev (s : State) : State := s.mapLocks fun x => x.put .dev true

theorem lock_dev_eq (hl : s.locks = Locks.free) : lock .dev s = .ok ((), s.lockedDev) :=
  lock_eq (by rw [hl]; rfl) (by rw [hl]; rfl)

/-- The lock is given back after a part that left the locks alone. -/
theorem unlock_dev_eq (hl : s.locks = Locks.free) (ht : t.locks = s.lockedDev.locks) :
    unlock .dev t = .ok ((), t.mapLocks fun _ => s.locks) := by
  have hback : t.locks.put .dev false = s.locks := by
    rw [ht, State.lockedDev, State.mapLocks_locks, hl]
    rfl
  rw [unlock_apply, ← hback]
  rfl

/-- From a quiet state a request comes to its test of the link machine, which falls as in that state. -/
theorem lockDev_inProgress (hq : s.quiet = true) (k : Bool → Op α) :
    (point h >>= fun _ => lock .dev >>= fun _ => read (fun x => x.link.phase.inProgress) >>= k) s =
      k s.link.phase.inProgress s.lockedDev := by
  obtain ⟨hfree, hi, -⟩ := State.of_quiet hq
  rw [Op.bind_of_ok (point_nil hi), Op.bind_of_ok (lock_dev_eq hfree), Op.bind_of_ok (read_apply _ _)]
  rfl

/-- A change under the lock, the lock given back, the answer. -/
theorem update_unlockDev (hq : s.quiet = true) {f : State → State} (hf : (f s.lockedDev).locks = s.lockedDev.locks) (a : α) :
    (update f >>= fun _ => unlock .dev >>= fun _ => pure a) s.lockedDev =
      .ok (a, (f s.lockedDev).mapLocks fun _ => s.locks) := by
  rw [Op.bind_of_ok (update_apply f _), Op.bind_of_ok (unlock_dev_eq (State.of_quiet hq).1 hf), Op.pure_apply]

/-! ## LINK_START -/

/-- Whatever is configured, LINK_START clears the search and arms the timer. -/
theorem Link.begin_eq (c : Config) (l : Link) : l.begin c =
    { l with candidateAddressIndex := 0, foundAddress := none, waitCounter := 0, waitingForNegotiation := false,
             timer := .armed, phase := (l.begin c).phase, selected := (l.begin c).selected } := by
  unfold Link.begin
  split <;> rfl

theorem linkStart_inProgress (hq : s.quiet = true) (hl : s.dev.lifecycle = .running)
    (hp : s.link.phase.inProgress = true) : linkStart h s = .ok (.ok, s) := by
  rw [linkStart, Op.bind_of_ok (read_apply _ s), hl, if_neg (by decide), lockDev_inProgress hq, hp, if_pos rfl,
    Op.bind_of_ok (unlock_dev_eq (State.of_quiet hq).1 rfl)]
  rfl

theorem linkStart_begins (hq : s.quiet = true) (hl : s.dev.lifecycle = .running)
    (hp : s.link.phase.inProgress = false) :
    linkStart h s = .ok (.ok, (s.mapLink (Link.begin s.cfg)).mapDev fun d => { d with refCount := d.refCount + 1 }) := by
  rw [linkStart, Op.bind_of_ok (read_apply _ s), hl, if_neg (by decide), lockDev_inProgress hq, hp, if_neg (by decide),
    Op.bind_of_ok (update_apply _ _), Op.bind_of_ok (retain_apply _)]
  exact Op.bind_of_ok (unlock_dev_eq (State.of_quiet hq).1 rfl)

/-- Settles O55: the test of the link machine decides, and what is configured picks the case of `Link.begin`. -/
theorem linkStartBeginsDetection : Obligations.LinkStartBeginsDetection := by
  intro s hq hl
  refine ⟨fun hp => answer_of_ok (linkStart_inProgress hq hl hp), fun hp => ⟨_, answer_of_ok (linkStart_begins hq hl hp), rfl,
    Link.begin_eq s.cfg s.link, fun a ha => ?address, fun c hnone hc => ?connector, fun hnone hnc => ?scan⟩⟩
  all_goals show (Link.begin s.cfg s.link).phase = _ ∧ (Link.begin s.cfg s.link).selected = _
  case address => rw [Link.begin, ha]; exact ⟨rfl, rfl⟩
  case connector => rw [Link.begin, hnone, hc]; exact ⟨rfl, rfl⟩
  case scan => rw [Link.begin, hnone, hnc]; exact ⟨rfl, rfl⟩

/-! ## Property reads -/

/-- `VALUE(prop)` (R218, R219). -/
def State.propertyValue (s : State) : Property → PropertyValue
  | .linkSpeed => .speed s.link.speed
  | .mediaState =>
    .media (if s.dev.hardwareError = true ∨ s.dev.lifecycle = .withdrawn then .disconnected else s.link.media)

theorem valueOf_eq_propertyValue (hi : s.ports.interleaved = []) (prop : Property) :
    valueOf h prop s = .ok (s.propertyValue prop, s) := by
  rw [valueOf_eq hi]
  cases prop with
  | linkSpeed => rfl
  | mediaState => simp only [State.propertyValue, Bool.or_eq_true, decide_eq_true_eq]

section
variable {q : Word} {prop : Property} (hl : s.dev.lifecycle = .running ∨ s.dev.lifecycle = .withdrawn)
include hl

/-- A property read is refused in neither `Running` nor `Withdrawn`. -/
theorem getProperty_gate : ¬ (s.dev.lifecycle ≠ .running ∧ s.dev.lifecycle ≠ .withdrawn) := fun hn => hl.elim hn.1 hn.2

variable (hq : s.quiet = true)
include hq

theorem getProperty_completes (hp : s.link.phase.inProgress = false) : getProperty h q prop s =
    .ok (.ok, s.mapEvents fun es => es ++ [.completeRequest q (s.propertyValue prop)]) := by
  obtain ⟨hfree, hi, -⟩ := State.of_quiet hq
  have hvalue : valueOf h prop s.lockedDev = .ok (s.propertyValue prop, s.lockedDev) :=
    valueOf_eq_propertyValue (s := s.lockedDev) hi prop
  have hlocks : ((s.lockedDev).mapLocks fun _ => s.locks).locks.mine = Held.none := congrArg Locks.mine hfree
  rw [getProperty, Op.bind_of_ok (read_apply _ s), if_neg (getProperty_gate hl), lockDev_inProgress hq, hp,
    if_neg (by decide), Op.bind_of_ok hvalue, Op.bind_of_ok (unlock_dev_eq hfree rfl),
    Op.bind_of_ok (callbacks_eq _ hlocks (by exact hi))]
  rfl

theorem getProperty_defers (hp : s.link.phase.inProgress = true) : getProperty h q prop s =
    .ok (.pending, s.mapLink fun k => { k with pendingPropertyReads := k.pendingPropertyReads ++ [(q, prop)] }) := by
  rw [getProperty, Op.bind_of_ok (read_apply _ s), if_neg (getProperty_gate hl), lockDev_inProgress hq, hp, if_pos rfl,
    updateLink, update_unlockDev hq rfl]
  rfl

end

/-- Settles O58: both requests are the one property read. -/
theorem propertyReadsCompleteOrDefer : Obligations.PropertyReadsCompleteOrDefer := fun _ _ hq hl =>
  ⟨fun hp => ⟨answer_of_ok (getProperty_completes hl hq hp), answer_of_ok (getProperty_completes hl hq hp)⟩,
    fun hp => ⟨answer_of_ok (getProperty_defers hl hq hp), answer_of_ok (getProperty_defers hl hq hp)⟩⟩

/-! ## The filter and the multicast list -/

section
variable {mask handle : Word} (hq : s.quiet = true) (hl : s.dev.lifecycle = .running)
include hq hl

theorem setFilter_eq : setFilter h mask s = if s.link.phase.inProgress
    then .ok (.pending, s.mapLink fun k => { k with pendingFilter := some mask })
    else .ok (.ok, s.mapDev fun d => { d with packetFilter := mask }) := by
  rw [setFilter, Op.bind_of_ok (read_apply _ s), hl, if_neg (by decide), lockDev_inProgress hq]
  split
  · exact update_unlockDev hq rfl _
  · exact update_unlockDev hq rfl _

theorem setMcast_eq {addresses : List Nat} (ha : s.mcastListOf? handle = some addresses) :
    setMcast h handle s = if s.link.phase.inProgress
      then .ok (.pending, s.mapLink fun k => { k with pendingMcast := some addresses })
      else .ok (.ok, s.mapDev fun d => { d with mcastList := addresses }) := by
  rw [setMcast, Op.bind_of_ok (read_apply _ s), Op.bind_of_ok (read_apply _ s), hl, ha, if_neg (by decide)]
  refine (lockDev_inProgress hq _).trans ?_
  split
  · exact update_unlockDev hq rfl _
  · exact update_unlockDev hq rfl _

omit hq in
theorem setMcast_refused (ha : s.mcastListOf? handle = none) : setMcast h handle s = .ok (.invalidRequest, s) := by
  rw [setMcast, Op.bind_of_ok (read_apply _ s), Op.bind_of_ok (read_apply _ s), hl, ha, if_neg (by decide)]
  rfl

end

/-- Settles O59: the test of the link machine picks between the two branches of each request. -/
theorem filterRequestsStoreOrDefer : Obligations.FilterRequestsStoreOrDefer := by
  intro s mask handle hq hl
  refine ⟨fun hp => answer_of_ok ((setFilter_eq hq hl).trans (if_neg (by rw [hp]; decide))),
    fun hp => answer_of_ok ((setFilter_eq hq hl).trans (if_pos hp)), fun addresses ha => ⟨fun hp => ?_, fun hp => ?_⟩,
    fun ha => answer_of_ok (setMcast_refused hl ha)⟩
  · exact answer_of_ok ((setMcast_eq hq hl ha).trans (if_neg (by rw [hp]; decide)))
  · exact answer_of_ok ((setMcast_eq hq hl ha).trans (if_pos hp))

/-! ## The PHY agent -/

/-- Settles O60: the register holds the record's word, which decodes to the record. -/
theorem phyChangeIsWhatAProbeReads : Obligations.PhyChangeIsWhatAProbeReads := by
  intro h s a r hi
  refine ⟨s.mapRegs fun g => { g with phystat := g.phystat.set a.val r.toWord }, rfl, ?probe, fun b hb => ?others, rfl⟩
  case probe =>
    have hword : (s.regs.phystat.set a.val r.toWord)[a] = r.toWord := Vector.getElem_set_self a.isLt
    rw [phyProbe_eq (by exact hi), State.mapRegs_regs, hword, phyRecordOf_toWord]
  case others => exact Vector.getElem_set_ne a.isLt b.isLt fun he => hb (Fin.ext he.symm)

end Sys2Proof.Machine
end

