-- ==== Sys2Proof/Proofs/ResetResult.lean ====
section
/-!
PROOF. Operations that commute with a change of the state: what they answer does not depend on it, and what they leave has it
as well. RESET (spec/45_device_control.md R242) commutes with a change of the last status, which the block never reads.
-/
namespace Sys2Proof.Machine

-- The checker compiles the whole text as one: proofs elaborated one after the other keep that within its memory.
set_option Elab.async false

variable {α β : Type} {h : Handler} {f : State → State}

/-- Where the operation answers, it does so after the change `f` too, with the same answer, and `f` has come to what it
leaves. -/
def Commutes (f : State → State) (m : Op α) : Prop := ∀ s a t, m s = .ok (a, t) → m (f s) = .ok (a, f t)

namespace Commutes

theorem pure (a : α) : Commutes f (pure a) := by
  rintro s b t hr
  obtain ⟨rfl, rfl⟩ : a = b ∧ s = t := by simpa using hr
  rfl

theorem bind {m : Op α} {k : α → Op β} (hm : Commutes f m) (hk : ∀ a, Commutes f (k a)) : Commutes f (m >>= k) := by
  intro s b u hr
  obtain ⟨a, t, h1, h2⟩ := Op.bind_eq_ok.1 hr
  exact Op.bind_eq_ok.2 ⟨a, f t, hm s a t h1, hk a t b u h2⟩

theorem ite {c : Prop} [Decidable c] {m n : Op α} (hm : Commutes f m) (hn : Commutes f n) :
    Commutes f (if c then m else n) := by
  split
  · exact hm
  · exact hn

theorem fault (x : Fault) : Commutes f (fault x : Op α) := fun _ _ _ hr => nomatch hr

theorem blocked : Commutes f (blocked : Op α) := fun _ _ _ hr => nomatch hr

theorem read {v : State → α} (hv : ∀ s, v (f s) = v s := by exact fun _ => rfl) : Commutes f (read v) := by
  intro s a t hr
  obtain ⟨rfl, rfl⟩ : v s = a ∧ s = t := by simpa using hr
  rw [read_apply, hv]

/-- Where the rest looks at the whole state, but not at what `f` changes. -/
theorem read_bind {k : State → Op β} (hk : ∀ s, Commutes f (k s))
    (hf : ∀ s, k (f s) = k s := by exact fun _ => rfl) : Commutes f (Machine.read id >>= k) := by
  intro s b t hr
  rw [Op.bind_of_ok (read_apply id s)] at hr
  rw [Op.bind_of_ok (read_apply id (f s)), id, hf]
  exact hk _ s b t hr

theorem update {g : State → State} (hg : ∀ s, g (f s) = f (g s) := by exact fun _ => rfl) : Commutes f (update g) := by
  intro s a t hr
  obtain rfl : g s = t := by simpa using hr
  rw [update_apply, hg]

/-- Steps of other agents that are all put off. -/
theorem intrudeAll_blocked (hg : ∀ s g, (f s).mapPorts g = f (s.mapPorts g)) :
    ∀ es, Commutes f (intrudeAll (fun _ => Machine.blocked) es)
  | [] => .pure _
  | e :: es => .bind (.update (g := State.postpone e) fun s => hg s _) fun _ => intrudeAll_blocked hg es

/-- A point of an operation that began with nothing scheduled inside. -/
theorem point_blocked (hp : ∀ s, (f s).ports = s.ports := by exact fun _ => rfl)
    (hg : ∀ s g, (f s).mapPorts g = f (s.mapPorts g) := by exact fun _ _ => rfl) :
    Commutes f (point fun _ => Machine.blocked) :=
  .bind (.read fun s => congrArg Ports.interleaved (hp s)) fun
    | [] => .pure _
    | es :: _ => .bind (.update fun s => hg s _) fun _ => intrudeAll_blocked hg es

theorem host {m : Op α} (hp : Commutes f (point h)) (hm : Commutes f m) : Commutes f (host h m) := .bind hp fun _ => hm

end Commutes

/-- The operation neither reads the last status nor writes it. -/
def IgnoresResult (r : Option Status) (m : Op α) : Prop := Commutes (State.withResult r) m

variable {r : Option Status}

namespace IgnoresResult

/-! ## Memory, locks, events -/

theorem memRead (a n : Nat) : IgnoresResult r (memRead a n) := .ite .read (.fault _)
theorem memRead16 (a : Nat) : IgnoresResult r (memRead16 a) := .ite .read (.fault _)
theorem memRead32 (a : Nat) : IgnoresResult r (memRead32 a) := .ite .read (.fault _)
theorem memWrite8 (a : Nat) (v : Byte) : IgnoresResult r (memWrite8 a v) := .ite .update (.fault _)
theorem memWrite16 (a : Nat) (v : Halfword) : IgnoresResult r (memWrite16 a v) := .ite .update (.fault _)
theorem memWrite32 (a : Nat) (v : Word) : IgnoresResult r (memWrite32 a v) := .ite .update (.fault _)

theorem rdAddrOf (d : Nat) : IgnoresResult r (rdAddrOf d) :=
  .bind .read fun
    | some _ => .pure _
    | none => .fault _

/-- A field of a receive descriptor, read with its halfword. -/
theorem readRd16 {d : Nat} {place : Nat → Nat} {v : Halfword → α} :
    IgnoresResult r (Machine.rdAddrOf d >>= fun a => Machine.memRead16 (place a) >>= fun x => Pure.pure (v x)) :=
  .bind (rdAddrOf d) fun _ => .bind (memRead16 _) fun _ => .pure _

theorem readRdC (d : Nat) : IgnoresResult r (readRdC d) := readRd16 (place := id)
theorem readRdOK (d : Nat) : IgnoresResult r (readRdOK d) := readRd16 (place := id)
theorem readRdV (d : Nat) : IgnoresResult r (readRdV d) := readRd16
theorem readRdCount (d : Nat) : IgnoresResult r (readRdCount d) := readRd16
theorem readRdPayloadPtr (d : Nat) : IgnoresResult r (readRdPayloadPtr d) := .bind (rdAddrOf d) fun _ => memRead32 _

theorem writeRdStatus (d : Nat) (c o : Bool) : IgnoresResult r (writeRdStatus d c o) :=
  .bind (rdAddrOf d) fun _ => memWrite16 _ _
theorem writeRdEL (d : Nat) (e : Bool) : IgnoresResult r (writeRdEL d e) := .bind (rdAddrOf d) fun _ => memWrite16 _ _
theorem writeRdLink (d : Nat) (v : Word) : IgnoresResult r (writeRdLink d v) := .bind (rdAddrOf d) fun _ => memWrite32 _ _
theorem writeRdCount (d n : Nat) (v : Bool) : IgnoresResult r (writeRdCount d n v) :=
  .bind (rdAddrOf d) fun _ => memWrite16 _ _

theorem writeTdC (i : Nat) (c : Bool) : IgnoresResult r (writeTdC i c) := .bind .read fun _ => memWrite16 _ _
theorem writeTdS (i : Nat) (b : Bool) : IgnoresResult r (writeTdS i b) := .bind .read fun _ => memWrite16 _ _
theorem writeTdLink (i : Nat) (v : Word) : IgnoresResult r (writeTdLink i v) := .bind .read fun _ => memWrite32 _ _
theorem writeTdFragCount (i : Nat) (n : Byte) : IgnoresResult r (writeTdFragCount i n) :=
  .bind .read fun _ => memWrite8 _ _

theorem lock (l : Lock) : IgnoresResult r (lock l) := .bind .read fun _ => .ite (.fault _) (.ite .blocked .update)
theorem unlock (l : Lock) : IgnoresResult r (unlock l) := .update
theorem emit (e : Event) : IgnoresResult r (emit e) := .bind .read fun _ => .ite .update (.fault _)
theorem retain : IgnoresResult r retain := .update

theorem writeCommand (v : Word) : IgnoresResult r (writeCommand v) :=
  .bind .read fun _ => .ite (.fault _) (.ite (.fault _) .update)

theorem fullReset : IgnoresResult r fullReset :=
  .bind (.bind .update fun _ => .update) fun _ => .bind .update fun _ => .update

theorem cancelLinkTimer : IgnoresResult r cancelLinkTimer :=
  .bind (.bind .read fun _ => .bind .update fun _ => .pure _) fun _ => .ite .update (.pure _)

theorem allocShadow : IgnoresResult r allocShadow :=
  .bind .read fun
    | [] => .pure _
    | _ :: _ => .bind .update fun _ => .pure _

/-! ## What runs at points where every other agent is put off -/

section
variable (hp : IgnoresResult r (point h))
include hp

theorem host {m : Op α} (hm : IgnoresResult r m) : IgnoresResult r (host h m) := Commutes.host hp hm

theorem callbacks : ∀ es, IgnoresResult r (callbacks h es)
  | [] => .pure _
  | e :: es => .bind hp fun _ => .bind (.bind (emit e) fun _ => hp) fun _ => callbacks es

theorem callbacksDue (next : Ports → Option (Event × Ports)) : ∀ n, IgnoresResult r (callbacksDue h next n)
  | 0 => .pure _
  | n + 1 => .bind hp fun _ => .bind .read fun
    | none => .pure _
    | some (e, _) => .bind .update fun _ => .bind (.bind (emit e) fun _ => hp) fun _ => callbacksDue next n

theorem setMask (v : Word) : IgnoresResult r (setMask h v) := .bind hp fun _ => .bind .read fun _ => .ite .blocked .update

/-! ### Commands -/

theorem waitAcceptLocked : ∀ n, IgnoresResult r (waitAcceptLocked h n)
  | 0 => .bind (host hp .update) fun _ => .pure _
  | n + 1 => .bind (host hp .read) fun _ => .ite (.pure _) <| .ite (.bind (host hp .update) fun _ => .pure _) <|
    .bind hp fun _ => waitAcceptLocked n

theorem writeCommandLocked (code : Byte) (wait : Bool) (pointer : Word) :
    IgnoresResult r (writeCommandLocked h code wait pointer) := by
  have written : IgnoresResult r (Machine.host h (regWrite .command (code.setWidth 32)) >>= fun _ =>
      updateTx (fun t => { t with resumeWaitNeeded := code != codeCuResume }) >>= fun _ => Pure.pure Status.ok) :=
    .bind (host hp (writeCommand _)) fun _ => .bind .update fun _ => .pure _
  refine .bind .read fun n => .ite (.bind (waitAcceptLocked hp n) ?rest) (.bind (.pure _) ?rest)
  exact fun _ => .bind .read fun _ => .ite (.pure _) <| .ite (.bind (host hp .update) fun _ => written) written

theorem issueLocked (code : Byte) (wait : Bool) (pointer : Word) : IgnoresResult r (issueLocked h code wait pointer) :=
  .bind .read fun _ => .ite (.pure _) (writeCommandLocked hp code wait pointer)

/-! ### The rings rebuilt -/

theorem initDescriptors : ∀ is, IgnoresResult r (initDescriptors h is)
  | [] => .pure _
  | i :: is => .bind (host hp (writeTdC i true)) fun _ => .bind (host hp (writeTdS i false)) fun _ => .bind .read fun _ =>
    .bind (host hp (writeTdLink i _)) fun _ => .bind (host hp (writeTdFragCount i 0)) fun _ => initDescriptors is

theorem abortHeld : IgnoresResult r (abortHeld h) :=
  .bind .read fun _ => .bind (.bind .read fun _ => .bind (initDescriptors hp _) fun _ => .bind .read fun _ => .update)
    fun _ => .pure _

theorem rearmPosted : ∀ ds, IgnoresResult r (rearmPosted h ds)
  | [] => .pure _
  | d :: ds => .bind (host hp (writeRdCount d 0 false)) fun _ => .bind (host hp (writeRdStatus d false false)) fun _ =>
    rearmPosted ds

theorem resetRings : IgnoresResult r (resetRings h) :=
  .bind (setMask hp 1) fun _ => .bind hp fun _ => .bind (lock .tx) fun _ => .bind hp fun _ => .bind (lock .rx) fun _ =>
    .bind (host hp fullReset) fun _ => .bind hp fun _ => .bind .update fun _ => .bind (abortHeld hp) fun _ =>
    .bind hp fun _ => .bind (lock .cmd) fun _ => .bind .update fun _ => .bind (unlock .cmd) fun _ => .bind .read fun _ =>
    .bind (rearmPosted hp _) fun _ => .bind (unlock .rx) fun _ => .bind (unlock .tx) fun _ => .bind (unlock .dev) fun _ =>
    .pure _

/-! ### HARVEST, which ENSURE_STARTED may run -/

theorem recycleLocked (d : Nat) : IgnoresResult r (recycleLocked h d) :=
  .bind (host hp (writeRdCount d _ _)) fun _ => .bind (host hp (writeRdEL d _)) fun _ =>
    .bind (host hp (writeRdLink d _)) fun _ => .bind (host hp (writeRdStatus d _ _)) fun _ => .bind .read fun
      | none => .bind (rdAddrOf d) fun _ => .update
      | some q => .bind (rdAddrOf d) fun _ =>
        .bind (.bind (host hp (writeRdLink q _)) fun _ => host hp (writeRdEL q _)) fun _ => .update

theorem recycleLow : ∀ batch, IgnoresResult r (recycleLow h batch)
  | [] => .pure _
  | (d, _) :: rest => .ite (.bind (recycleLocked hp d) fun _ => recycleLow rest) (recycleLow rest)

theorem gatherFrames : ∀ batch, IgnoresResult r (gatherFrames h batch)
  | [] => .pure _
  | (d, _) :: rest => .bind (host hp (readRdPayloadPtr d)) fun _ => .bind .read fun _ => .bind (host hp (memRead _ _)) fun _ =>
    .bind (gatherFrames rest) fun _ => .pure _

theorem flush (batch : List (Nat × Bool)) : IgnoresResult r (flush h batch) :=
  .bind (gatherFrames hp batch) fun _ => .bind .update fun _ => .bind .read fun _ => .bind (unlock .rx) fun _ =>
    .bind (callbacksDue hp _ _) fun _ => .bind (lock .rx) fun _ => recycleLow hp batch

theorem dispose (d : Nat) : IgnoresResult r (dispose h d) :=
  .bind (host hp (readRdCount d)) fun _ => .bind .update fun _ => .bind (host hp (readRdOK d)) fun _ =>
    .bind (host hp .read) fun _ => .read_bind fun _ => .ite (.bind (recycleLocked hp d) fun _ => .pure _) <|
    .ite (.bind .update fun _ => .pure _) (.bind .update fun _ => .pure _)

theorem flushFull (batch : List (Nat × Bool)) : IgnoresResult r (flushFull h batch) :=
  .bind .read fun _ => .ite (.bind (flush hp batch) fun _ => .pure _) (.pure _)

theorem harvestLoop : ∀ n batch, IgnoresResult r (harvestLoop h n batch)
  | 0, _ => .pure _
  | n + 1, batch => .bind .read fun
    | [] => .pure _
    | d :: _ => .bind (.bind (host hp (readRdC d)) fun _ => .ite (host hp (readRdV d)) (.pure _)) fun _ => .ite
      (.bind .update fun _ => .bind (dispose hp d) fun _ => .bind (flushFull hp _) fun _ => harvestLoop n _)
      (.pure _)

omit hp in
theorem growLocked : IgnoresResult r growLocked :=
  .read_bind fun _ => .ite (.pure _) <| .bind allocShadow fun _ => .ite (.pure _) <| .bind .update fun _ =>
    .bind retain fun _ => .pure _

omit hp in
theorem updateThresholds : IgnoresResult r updateThresholds :=
  .read_bind fun _ => .ite (.bind .update fun _ => .ite (.bind growLocked fun _ => .pure _) (.pure _)) .update

theorem harvest : IgnoresResult r (harvest h) := by
  refine .bind .read fun _ => .ite (.pure _) <| .bind hp fun _ => .bind (lock .rx) fun _ => .bind .read fun n =>
    .bind (harvestLoop hp n []) fun batch => .ite (.bind (flush hp batch) ?rest) (?rest ())
  exact fun _ => .bind updateThresholds fun _ => .bind (unlock .rx) fun _ => .pure _

/-! ### The restart -/

theorem firstUntouched : ∀ ds, IgnoresResult r (firstUntouched h ds)
  | [] => .pure _
  | d :: ds => .bind (host hp (readRdC d)) fun _ => .ite (firstUntouched ds) <| .bind (host hp (readRdV d)) fun _ =>
    .ite (firstUntouched ds) (.pure _)

theorem startAt : ∀ found, IgnoresResult r (startAt h found)
  | none => .bind (unlock .rx) fun _ => .pure _
  | some d => .bind (rdAddrOf d) fun _ => .bind hp fun _ => .bind (lock .cmd) fun _ => .bind (issueLocked hp _ _ _) fun _ =>
    .bind (unlock .cmd) fun _ => .bind (unlock .rx) fun _ => .pure _

theorem ensureStarted : IgnoresResult r (ensureStarted h) :=
  .bind .read fun _ => .ite (.pure _) <| .bind hp fun _ => .bind .read fun _ => .ite (.pure _) <|
    .bind (host hp .read) fun _ => .ite (.pure _) <| .bind hp fun _ => .bind (lock .rx) fun _ => .bind .read fun _ =>
    .bind (firstUntouched hp _) fun _ => .ite
      (.bind (unlock .rx) fun _ => .bind hp fun _ => .bind (harvest hp) fun _ => .bind hp fun _ => .bind (lock .rx) fun _ =>
        .bind .read fun _ => .bind (firstUntouched hp _) fun _ => startAt hp _)
      (startAt hp _)

theorem resetRestart : IgnoresResult r (resetRestart h) :=
  .bind (ensureStarted hp) fun _ => .ite
    (.bind hp fun _ => .bind .read fun _ => .bind (lock .cmd) fun _ => .bind (waitAcceptLocked hp _) fun _ =>
      .bind (unlock .cmd) fun _ => .pure _)
    (.pure _)

theorem resetFailed : IgnoresResult r (resetFailed h) :=
  .bind (lock .dev) fun _ => .bind .update fun _ => .read_bind fun _ => .ite (.bind (unlock .dev) fun _ => .pure _) <|
    .bind .update fun _ => .bind (unlock .dev) fun _ => .bind hp fun _ => .bind .update fun _ =>
    .bind (host hp cancelLinkTimer) fun _ => .pure _

theorem linkStart : IgnoresResult r (linkStart h) :=
  .bind .read fun _ => .ite (.pure _) <| .bind hp fun _ => .bind (lock .dev) fun _ => .bind .read fun _ => .ite
    (.bind (unlock .dev) fun _ => .pure _)
    (.bind .update fun _ => .bind retain fun _ => .bind (unlock .dev) fun _ => .pure _)

/-- RESET neither reads the last status nor writes it: that is the answer's. -/
theorem reset : IgnoresResult r (reset h) :=
  .bind .read fun _ => .ite (.pure _) <| .ite (.pure _) <| .bind hp fun _ => .bind (lock .dev) fun _ => .bind .read fun _ => .ite
    (.bind .update fun _ => .bind (unlock .dev) fun _ => .pure _)
    (.bind (resetRings hp) fun _ => .bind (callbacks hp _) fun _ => .bind hp fun _ => .bind (resetRestart hp) fun _ =>
      .bind hp fun _ => .ite (resetFailed hp) <| .bind (lock .dev) fun _ => .bind .update fun _ =>
      .bind (unlock .dev) fun _ => .bind (setMask hp 0) fun _ => .bind hp fun _ => .bind (linkStart hp) fun _ => .pure _)

end

end IgnoresResult

end Sys2Proof.Machine
end

