-- ==== Sys2Proof/Proofs/LinkTick.lean ====
section
/-!
PROOF. LINK_TICK (spec/44_link_phy.md R212 to R217) from a quiet state: its steps up to `Configuring`, CONFIGURE, and what it
releases at the end, a deferred reset among it.
-/
namespace Sys2Proof.Machine

-- The checker compiles the whole text as one: proofs elaborated one after the other keep that within its memory.
set_option Elab.async false

variable {h : Handler} {s t : State} {k l : Link} {a : PhyAddress} {x : Selection}

/-! ## The steps before `Configuring` -/

/-- The link once `n` absent candidates have been passed over. -/
def Link.passed (n : Nat) (l : Link) : Link := { l with candidateAddressIndex := l.candidateAddressIndex + n }

theorem Link.passed_passed (m n : Nat) (l : Link) : (l.passed m).passed n = l.passed (m + n) := by
  simp only [Link.passed, Nat.add_assoc]

/-- The link once `a` is waited for. -/
def Link.waitingFor (attempts : Nat) (a : PhyAddress) (l : Link) : Link :=
  { l with foundAddress := some (l.foundAddress.getD a), waitCounter := attempts, waitingForNegotiation := true,
           phase := .waitingForNegotiation }

/-- The link with the selection `x`, in `Configuring`. -/
def Link.chosen (x : Selection) (l : Link) : Link := { l with selected := x, phase := .configuring }

/-- The link after one more tick of the wait. -/
def Link.counted (l : Link) : Link := { l with waitCounter := l.waitCounter - 1 }

/-- The link with the wait over. -/
def Link.waited (l : Link) : Link := { l with waitingForNegotiation := false }

theorem linkAdvance_scanning (hp : s.link.phase = .scanningForLink) :
    linkAdvance h s = scan h (s.cfg.phyCandidates.drop s.link.candidateAddressIndex) s := by
  rw [linkAdvance, Op.bind_of_ok (read_apply id s), id, hp]

theorem linkAdvance_waiting (hp : s.link.phase = .waitingForNegotiation) : linkAdvance h s = waitStep h s := by
  rw [linkAdvance, Op.bind_of_ok (read_apply id s), id, hp]

theorem linkAdvance_configuring (hp : s.link.phase = .configuring) : linkAdvance h s = .ok (false, s) := by
  rw [linkAdvance, Op.bind_of_ok (read_apply id s), id, hp]
  rfl

/-- Where detection does not run, the tick has nothing to do (R212). -/
theorem linkAdvance_idle (hp : s.link.phase = .notStarted ∨ s.link.phase = .done) :
    linkAdvance h s = .error (.fault .assertionViolated) := by
  rw [linkAdvance, Op.bind_of_ok (read_apply id s), id]
  rcases hp with hp | hp <;> rw [hp] <;> rfl

section
variable (hi : s.ports.interleaved = [])
include hi

theorem scan_absent {rest : List PhyAddress} (ha : (phyRecordOf s.regs.phystat[a]).present = false) :
    scan h (a :: rest) s = scan h rest (s.mapLink (Link.passed 1)) := by
  rw [scan, Op.bind_of_ok (phyProbe_eq hi), ha, if_pos (by rfl)]
  rfl

theorem scan_linkUp {rest : List PhyAddress} (ha : (phyRecordOf s.regs.phystat[a]).present = true)
    (hup : (phyRecordOf s.regs.phystat[a]).linkUp = true) :
    scan h (a :: rest) s = .ok (false, s.mapLink (Link.chosen (.addr a))) := by
  rw [scan, Op.bind_of_ok (phyProbe_eq hi), ha, hup, if_neg (by decide), if_pos rfl]
  rfl

theorem scan_linkDown {rest : List PhyAddress} (ha : (phyRecordOf s.regs.phystat[a]).present = true)
    (hup : (phyRecordOf s.regs.phystat[a]).linkUp = false) :
    scan h (a :: rest) s = .ok (true, s.mapLink (Link.waitingFor s.cfg.negotiationAttemptsMax a)) := by
  rw [scan, Op.bind_of_ok (phyProbe_eq hi), ha, hup, if_neg (by decide), if_neg (by decide)]
  rfl

/-- Absent candidates are passed over. -/
theorem scan_passes {pre rest : List PhyAddress} (hpre : ∀ c ∈ pre, (phyRecordOf s.regs.phystat[c]).present = false) :
    scan h (pre ++ rest) s = scan h rest (s.mapLink (Link.passed pre.length)) := by
  induction pre generalizing s with
  | nil => rfl
  | cons c pre ih =>
    obtain ⟨hc, hpre⟩ := List.forall_mem_cons.1 hpre
    rw [List.cons_append, scan_absent hi hc, ih (s := s.mapLink _) hi hpre, State.mapLink_mapLink]
    simp only [Link.passed_passed, Nat.add_comm 1, List.length_cons]

/-- With every candidate absent the scan ends in FALLBACK. -/
theorem scan_fallsBack {cs : List PhyAddress} (hcs : ∀ c ∈ cs, (phyRecordOf s.regs.phystat[c]).present = false) :
    scan h cs s = .ok (false, s.mapLink fun l => (l.passed cs.length).chosen s.fallback) := by
  have hpass := scan_passes (h := h) (rest := []) hi hcs
  rw [List.append_nil] at hpass
  exact hpass.trans rfl

/-! ### The wait -/

theorem waitStep_eq (ha : s.cfg.phyCandidates[s.link.candidateAddressIndex]? = some a) : waitStep h s =
    if (phyRecordOf s.regs.phystat[a]).negotiationComplete then .ok (false, s.mapLink fun l => (l.chosen (.addr a)).waited)
    else if s.link.waitCounter - 1 = 0 then .ok (false, s.mapLink fun l => (l.counted.chosen s.fallback).waited)
    else .ok (true, s.mapLink Link.counted) := by
  rw [waitStep, Op.bind_of_ok (read_apply _ s), ha]
  refine (Op.bind_of_ok (phyProbe_eq hi)).trans ?_
  rw [Op.ite_apply, Op.bind_of_ok (updateLink_apply _ s), Op.bind_of_ok (read_apply _ _), State.mapLink_link, Op.ite_apply]
  rfl

omit hi in
theorem waitStep_noCandidate (ha : s.cfg.phyCandidates[s.link.candidateAddressIndex]? = none) :
    waitStep h s = .error (.fault .assertionViolated) := by
  rw [waitStep, Op.bind_of_ok (read_apply _ s), ha]
  rfl

end

/-! ### What every step leaves -/

/-- The same operations are deferred. -/
structure Link.SameDeferred (k l : Link) : Prop where
  reset : l.pendingReset = k.pendingReset
  filter : l.pendingFilter = k.pendingFilter
  mcast : l.pendingMcast = k.pendingMcast
  reads : l.pendingPropertyReads = k.pendingPropertyReads

/-- A step that answers changes the link machine only, and that not in what it defers; if the timer is to be armed again, it
waits. -/
def Advanced (b : Bool) (s t : State) : Prop :=
  ∃ l, t = s.mapLink (fun _ => l) ∧ s.link.SameDeferred l ∧ (b = true → l.phase = .waitingForNegotiation)

theorem scan_advanced {b : Bool} {cs : List PhyAddress} (hi : s.ports.interleaved = []) (hr : scan h cs s = .ok (b, t)) :
    Advanced b s t := by
  induction cs generalizing s with
  | nil =>
    cases hr
    exact ⟨_, rfl, ⟨rfl, rfl, rfl, rfl⟩, nofun⟩
  | cons a cs ih =>
    cases ha : (phyRecordOf s.regs.phystat[a]).present with
    | false =>
      rw [scan_absent hi ha] at hr
      obtain ⟨l, rfl, ⟨hreset, hfilter, hmcast, hreads⟩, hb⟩ := ih (s := s.mapLink _) hi hr
      exact ⟨l, rfl, ⟨hreset, hfilter, hmcast, hreads⟩, hb⟩
    | true =>
      cases hup : (phyRecordOf s.regs.phystat[a]).linkUp with
      | true =>
        rw [scan_linkUp hi ha hup] at hr
        cases hr
        exact ⟨_, rfl, ⟨rfl, rfl, rfl, rfl⟩, nofun⟩
      | false =>
        rw [scan_linkDown hi ha hup] at hr
        cases hr
        exact ⟨_, rfl, ⟨rfl, rfl, rfl, rfl⟩, fun _ => rfl⟩

theorem linkAdvance_advanced {b : Bool} (hi : s.ports.interleaved = []) (hr : linkAdvance h s = .ok (b, t)) :
    Advanced b s t := by
  cases hp : s.link.phase with
  | notStarted => rw [linkAdvance_idle (.inl hp)] at hr; cases hr
  | done => rw [linkAdvance_idle (.inr hp)] at hr; cases hr
  | configuring =>
    rw [linkAdvance_configuring hp] at hr
    cases hr
    exact ⟨_, rfl, ⟨rfl, rfl, rfl, rfl⟩, nofun⟩
  | scanningForLink => exact scan_advanced hi ((linkAdvance_scanning hp).symm.trans hr)
  | waitingForNegotiation =>
    rw [linkAdvance_waiting hp] at hr
    cases ha : s.cfg.phyCandidates[s.link.candidateAddressIndex]? with
    | none => rw [waitStep_noCandidate ha] at hr; cases hr
    | some a =>
      rw [waitStep_eq hi ha] at hr
      split at hr
      · cases hr
        exact ⟨_, rfl, ⟨rfl, rfl, rfl, rfl⟩, nofun⟩
      · split at hr <;> cases hr
        · exact ⟨_, rfl, ⟨rfl, rfl, rfl, rfl⟩, nofun⟩
        · exact ⟨_, rfl, ⟨rfl, rfl, rfl, rfl⟩, fun _ => hp⟩

/-! ## CONFIGURE -/

/-- CONFIGURE reads the results off the registers. -/
theorem configure_eq (hi : s.ports.interleaved = []) (hx : s.link.selected ≠ .none) :
    configure h s = .ok ((), { s with link := Link.configured s.cfg s.regs s.link.selected s.link }) := by
  rw [configure, Op.bind_of_ok (read_apply _ s)]
  cases hsel : s.link.selected with
  | addr a =>
    refine (Op.bind_of_ok (phyProbe_eq hi)).trans ?_
    rw [Op.ite_apply, host_nil hi, host_nil hi, Link.configured, ← hsel]
    split
    · rfl
    · rfl
  | connector c =>
    show setDefaults .connected s = _
    rw [Link.configured, ← hsel]
    rfl
  | alternateWiring =>
    show setDefaults .connected s = _
    rw [Link.configured, ← hsel]
    rfl
  | none => exact absurd hsel hx

/-- CONFIGURE without a selection meets no rule (R216). -/
theorem configure_unselected (hx : s.link.selected = .none) : configure h s = .error (.fault .assertionViolated) := by
  rw [configure, Op.bind_of_ok (read_apply _ s), hx]
  rfl

/-- The results are all that CONFIGURE writes. -/
theorem Link.sameDeferred_configured (c : Config) (g : Registers) (x : Selection) (l : Link) :
    l.SameDeferred (l.configured c g x) := by
  cases x with
  | addr a => rw [Link.configured]; split <;> exact ⟨rfl, rfl, rfl, rfl⟩
  | connector _ => exact ⟨rfl, rfl, rfl, rfl⟩
  | alternateWiring => exact ⟨rfl, rfl, rfl, rfl⟩
  | none => exact ⟨rfl, rfl, rfl, rfl⟩

/-- The results do not depend on whether a reset is deferred. -/
theorem Link.configured_pendingReset (c : Config) (g : Registers) (x : Selection) (l : Link) (b : Bool) :
    Link.configured c g x { l with pendingReset := b } = { l.configured c g x with pendingReset := b } := by
  cases x with
  | addr a => rw [Link.configured, Link.configured]; split <;> rfl
  | connector _ => rfl
  | alternateWiring => rfl
  | none => rfl

/-! ## RELEASE_DEFERRED -/

/-- The deferred reads as they are completed. -/
def State.answered (s : State) (reads : List (Word × Property)) : List Event :=
  reads.map fun e => .completeRequest e.1 (s.propertyValue e.2)

theorem completeReads_eq (hl : s.locks.mine = Held.none) (hi : s.ports.interleaved = []) (reads : List (Word × Property)) :
    completeReads h reads s = .ok ((), s.mapEvents fun es => es ++ s.answered reads) := by
  induction reads generalizing s with
  | nil => simp [completeReads, State.answered]
  | cons e reads ih =>
    obtain ⟨q, prop⟩ := e
    rw [completeReads, Op.bind_of_ok (point_nil hi), Op.bind_of_ok (valueOf_eq_propertyValue hi prop),
      Op.bind_of_ok (callbacks_eq _ hl hi), ih (by exact hl) (by exact hi), State.mapEvents_mapEvents]
    simp only [List.append_assoc]
    rfl

/-- The reference of the tick released (R24). -/
def State.released (s : State) : State := s.mapDev fun d => { d with refCount := d.refCount - 1 }

/-- What RELEASE_DEFERRED does before it turns to the wait queue or a deferred reset. -/
def State.relieved (s : State) : State :=
  s.released.applyDeferred.mapEvents fun es => es ++ s.released.applyDeferred.answered s.link.pendingPropertyReads

/-- The end of RELEASE_DEFERRED: a deferred reset, else the wait queue. -/
def resetOrDrain (h : Handler) (due : Bool) : Op Unit :=
  if due then reset h >>= fun _ => pure () else drain h >>= fun _ => pure ()

theorem releaseDeferred_eq (hfree : s.locks = Locks.free) (hi : s.ports.interleaved = []) :
    releaseDeferred h s = resetOrDrain h s.link.pendingReset s.relieved := by
  have hunlock : unlock .dev s.released.lockedDev.applyDeferred = .ok ((), s.released.applyDeferred) :=
    unlock_dev_eq (s := s.released) hfree rfl
  have hreads := completeReads_eq (h := h) (s := s.released.applyDeferred) (congrArg Locks.mine hfree) hi
    s.link.pendingPropertyReads
  rw [releaseDeferred, Op.bind_of_ok (release_apply s), Op.bind_of_ok (point_nil (by exact hi)),
    Op.bind_of_ok (lock_dev_eq (by exact hfree)), Op.bind_of_ok (read_apply _ _), Op.bind_of_ok (update_apply _ _)]
  refine (Op.bind_of_ok hunlock).trans ((Op.bind_of_ok hreads).trans ?_)
  exact Op.bind_of_ok (point_nil hi)

/-- With nothing in the queue DRAIN does nothing, in whatever state the device is. -/
theorem drain_nothing (hfree : s.locks = Locks.free) (hi : s.ports.interleaved = []) (hw : s.tx.waitQueue = []) :
    ∃ r, drain h s = .ok (r, s) := by
  by_cases hl : s.dev.lifecycle = .running
  · exact ⟨_, drain_empty hl hfree hi hw⟩
  · refine ⟨.invalidRequest, ?_⟩
    rw [drain, Op.bind_of_ok (read_apply _ s), decide_eq_false hl, if_pos (by rfl), Op.pure_apply]

/-! ## The tick -/

/-- The state in which the steps of a tick run: the timer taken, under lock `dev`. -/
def State.ticking (s : State) : State := (s.mapLink fun k => { k with timer := .idle }).lockedDev

/-- A tick that finds the timer armed takes its steps; then it arms the timer again, or configures and releases. -/
theorem linkTick_eq (hq : s.quiet = true) (hta : s.link.timer = .armed) : linkTick h s =
    (linkAdvance h >>= fun again =>
      if again then updateLink (fun l => { l with timer := .armed }) >>= fun _ => unlock .dev >>= fun _ => pure Status.ok
      else configure h >>= fun _ => updateLink (fun l => { l with phase := .done }) >>= fun _ => unlock .dev >>= fun _ =>
        point h >>= fun _ => releaseDeferred h >>= fun _ => pure Status.ok) s.ticking := by
  obtain ⟨hfree, hi, -⟩ := State.of_quiet hq
  have hpoint : point h (s.mapLink fun k => { k with timer := .idle }) = .ok ((), s.mapLink fun k => { k with timer := .idle }) :=
    point_nil hi
  have hlock : lock .dev (s.mapLink fun k => { k with timer := .idle }) = .ok ((), s.ticking) := lock_dev_eq hfree
  have htake : host h takeLinkTimer s = .ok (true, s.mapLink fun k => { k with timer := .idle }) := by
    rw [host_nil hi, takeLinkTimer_apply, hta, decide_eq_true rfl]
  rw [linkTick, Op.bind_of_ok (read_apply _ s), hta, if_neg (by decide), Op.bind_of_ok htake, if_pos rfl, linkStep,
    Op.bind_of_ok hpoint, Op.bind_of_ok hlock]

/-- The state after CONFIGURE, the link being `l` before it. -/
def State.configuredAs (s : State) (l : Link) : State :=
  { s with link := { Link.configured s.cfg s.regs l.selected l with phase := .done } }

section
variable (hq : s.quiet = true) (hta : s.link.timer = .armed)
include hq hta

/-- A tick of the wait arms the timer again. -/
theorem linkTick_rearms (hr : linkAdvance h s.ticking = .ok (true, s.ticking.mapLink fun _ => l)) :
    linkTick h s = .ok (.ok, { s with link := { l with timer := s.link.timer } }) := by
  rw [linkTick_eq hq hta, Op.bind_of_ok hr, if_pos rfl, Op.bind_of_ok (updateLink_apply _ _), hta]
  exact Op.bind_of_ok (unlock_dev_eq (State.of_quiet hq).1 rfl)

/-- Any other configures and releases. -/
theorem linkTick_configures (hr : linkAdvance h s.ticking = .ok (false, s.ticking.mapLink fun _ => l))
    (hx : l.selected ≠ .none) :
    linkTick h s = (resetOrDrain h l.pendingReset >>= fun _ => pure Status.ok) (s.configuredAs l).relieved := by
  obtain ⟨hfree, hi, -⟩ := State.of_quiet hq
  have hconfigure : configure h (s.ticking.mapLink fun _ => l) =
      .ok ((), { s.ticking with link := Link.configured s.cfg s.regs l.selected l }) := configure_eq hi hx
  have hunlock : unlock .dev (s.configuredAs l).lockedDev = .ok ((), s.configuredAs l) :=
    unlock_dev_eq (s := s.configuredAs l) hfree rfl
  have hpoint : point h (s.configuredAs l) = .ok ((), s.configuredAs l) := point_nil hi
  have hreset : (s.configuredAs l).link.pendingReset = l.pendingReset := (Link.sameDeferred_configured _ _ _ _).reset
  have hrelease : releaseDeferred h (s.configuredAs l) = resetOrDrain h l.pendingReset (s.configuredAs l).relieved :=
    hreset ▸ releaseDeferred_eq (s := s.configuredAs l) hfree hi
  rw [linkTick_eq hq hta, Op.bind_of_ok hr, if_neg (by decide), Op.bind_of_ok hconfigure, Op.bind_of_ok (updateLink_apply _ _)]
  refine (Op.bind_of_ok hunlock).trans ((Op.bind_of_ok hpoint).trans ?_)
  rw [Op.bind_apply, hrelease, Op.bind_apply]

/-- A tick does not end without a selection. -/
theorem linkTick_unselected (hr : linkAdvance h s.ticking = .ok (false, s.ticking.mapLink fun _ => l)) (hx : l.selected = .none) :
    linkTick h s = .error (.fault .assertionViolated) := by
  have hconfigure := configure_unselected (h := h) (s := s.ticking.mapLink fun _ => l) hx
  rw [linkTick_eq hq hta, Op.bind_of_ok hr, if_neg (by decide), Op.bind_apply, hconfigure]

/-- With no reset deferred and nothing in the queue, the tick ends there. -/
theorem linkTick_ends (hr : linkAdvance h s.ticking = .ok (false, s.ticking.mapLink fun _ => l)) (hx : l.selected ≠ .none)
    (hn : l.pendingReset = false) (hw : s.tx.waitQueue = []) : linkTick h s = .ok (.ok, (s.configuredAs l).relieved) := by
  obtain ⟨hfree, hi, -⟩ := State.of_quiet hq
  obtain ⟨r, hdrain⟩ := drain_nothing (h := h) (s := (s.configuredAs l).relieved) hfree hi hw
  rw [linkTick_configures hq hta hr hx, hn, resetOrDrain, if_neg (by decide), Op.bind_apply, Op.bind_of_ok hdrain]
  rfl

end

/-! ## The tick that reaches `Done` -/

/-- The link with the selection `x` as a tick takes it to CONFIGURE. -/
def Link.taken (x : Selection) (l : Link) : Link := { l with selected := x, phase := .configuring, timer := .idle }

theorem Link.configured_taken (c : Config) (g : Registers) (hx : x ≠ .none) :
    Link.configured c g x (k.taken x) = { k.configured c g x with phase := .configuring, timer := .idle } := by
  cases x with
  | addr a => rw [Link.configured, Link.configured]; split <;> rfl
  | connector _ => rfl
  | alternateWiring => rfl
  | none => exact absurd rfl hx

/-- Configured and relieved, the machine is as `State.detected` says, and the deferred reads are answered. -/
theorem State.relieved_configuredAs (hd : s.link.SameDeferred k) (hx : x ≠ .none) :
    (s.configuredAs (k.taken x)).relieved.withResult (some .ok) =
      { s.detected x k with events := s.events ++ (s.detected x k).answered s.link.pendingPropertyReads } := by
  obtain ⟨-, hfilter, hmcast, hreads⟩ := hd
  obtain ⟨-, hfilter', hmcast', hreads'⟩ := Link.sameDeferred_configured s.cfg s.regs x k
  have hconf : s.configuredAs (k.taken x) =
      { s with link := { k.configured s.cfg s.regs x with phase := .done, timer := .idle } } := by
    rw [State.configuredAs]
    show { s with link := { Link.configured s.cfg s.regs x (k.taken x) with phase := .done } } = _
    rw [Link.configured_taken _ _ hx]
  rw [hconf, State.relieved]
  simp only [State.released, State.applyDeferred, State.detected, State.mapDev, State.mapLink, State.mapEvents, State.withResult,
    hfilter, hmcast, hreads, hfilter', hmcast', hreads']
  rfl

theorem exec_linkTick_detected (hq : s.quiet = true) (hta : s.link.timer = .armed)
    (hr : linkAdvance (handlerOf s) s.ticking = .ok (false, s.ticking.mapLink fun _ => k.taken x))
    (hd : s.link.SameDeferred k) (hx : x ≠ .none) (hn : s.link.pendingReset = false) (hw : s.tx.waitQueue = []) :
    exec .linkTick s =
      .next { s.detected x k with events := s.events ++ (s.detected x k).answered s.link.pendingPropertyReads } := by
  rw [← State.relieved_configuredAs hd hx]
  exact answer_of_ok (linkTick_ends hq hta hr hx (hd.reset.trans hn) hw)

/-- The tick that comes to CONFIGURE where no read is deferred. -/
theorem exec_linkTick_detected_quietly (hq : s.quiet = true) (hta : s.link.timer = .armed)
    (hr : linkAdvance (handlerOf s) s.ticking = .ok (false, s.ticking.mapLink fun _ => k.taken x))
    (hd : s.link.SameDeferred k) (hx : x ≠ .none) (hn : s.link.pendingReset = false) (hw : s.tx.waitQueue = [])
    (hreads : s.link.pendingPropertyReads = []) : exec .linkTick s = .next (s.detected x k) := by
  rw [exec_linkTick_detected hq hta hr hd hx hn hw, hreads]
  simp only [State.answered, List.map_nil, List.append_nil]
  rfl

theorem linkAdvance_ticking {cs : List PhyAddress} (hp : s.link.phase = .scanningForLink)
    (hcs : s.cfg.phyCandidates.drop s.link.candidateAddressIndex = cs) : linkAdvance h s.ticking = scan h cs s.ticking := by
  rw [← hcs]
  exact linkAdvance_scanning hp

/-! ### A link found -/

section
variable (ha : (phyRecordOf s.regs.phystat[a]).present = true) (hup : (phyRecordOf s.regs.phystat[a]).linkUp = true)
include ha hup

theorem Link.configured_up : Link.configured s.cfg s.regs (.addr a) l =
    { l with selected := .addr a, speed := (phyRecordOf s.regs.phystat[a]).speed,
             duplex := (phyRecordOf s.regs.phystat[a]).duplex, media := .connected } :=
  if_pos (by rw [ha, hup]; rfl)

/-- The deferred reads are answered with the new results. -/
theorem State.answered_detected (hl : s.dev.lifecycle = .running) (reads : List (Word × Property)) :
    (s.detected (.addr a) l).answered reads = reads.map fun e => .completeRequest e.1
      (match e.2 with
        | .linkSpeed => .speed (phyRecordOf s.regs.phystat[a]).speed
        | .mediaState => .media (if s.dev.hardwareError then .disconnected else .connected)) := by
  refine List.map_congr_left fun e _ => congrArg (Event.completeRequest e.1) ?_
  cases e.2 with
  | linkSpeed => simp only [State.propertyValue, State.detected, Link.configured_up ha hup]
  | mediaState => simp only [State.propertyValue, State.detected, Link.configured_up ha hup, hl, reduceCtorEq, or_false]

end

/-- Settles O56: the scan ends at the first candidate with link, CONFIGURE probes it again, and what was deferred is
answered from that. -/
theorem linkTickTakesTheFirstLink : Obligations.LinkTickTakesTheFirstLink := by
  intro s pre post a hq hl hta hp hlist hpre ha hup hw hn
  obtain ⟨-, hi, -⟩ := State.of_quiet hq
  have hr : linkAdvance (handlerOf s) s.ticking =
      .ok (false, s.ticking.mapLink fun _ => (s.link.passed pre.length).taken (.addr a)) :=
    (linkAdvance_ticking hp hlist).trans ((scan_passes (s := s.ticking) hi hpre).trans (scan_linkUp (by exact hi) ha hup))
  rw [exec_linkTick_detected hq hta hr ⟨rfl, rfl, rfl, rfl⟩ nofun hn hw, State.answered_detected ha hup hl]
  simp only [State.detected, Link.configured_up ha hup, Link.passed, hn] <;> rfl

/-! ### No link found -/

theorem State.fallback_ne_none : s.fallback ≠ .none := by
  rw [State.fallback]
  split <;> nofun

section
variable (hq : s.quiet = true) (hta : s.link.timer = .armed)
include hq hta

/-- The first present candidate is without link. -/
theorem exec_linkTick_waits {pre post : List PhyAddress} (hp : s.link.phase = .scanningForLink)
    (hlist : s.cfg.phyCandidates.drop s.link.candidateAddressIndex = pre ++ a :: post)
    (hpre : ∀ c ∈ pre, (phyRecordOf s.regs.phystat[c]).present = false)
    (ha : (phyRecordOf s.regs.phystat[a]).present = true) (hup : (phyRecordOf s.regs.phystat[a]).linkUp = false) :
    exec .linkTick s = .next { s with
      link := (s.link.passed pre.length).waitingFor s.cfg.negotiationAttemptsMax a, result := some .ok } := by
  obtain ⟨-, hi, -⟩ := State.of_quiet hq
  have hr : linkAdvance (handlerOf s) s.ticking = .ok (true, s.ticking.mapLink fun l =>
      (l.passed pre.length).waitingFor s.cfg.negotiationAttemptsMax a) :=
    (linkAdvance_ticking hp hlist).trans ((scan_passes (s := s.ticking) hi hpre).trans (scan_linkDown (by exact hi) ha hup))
  exact answer_of_ok (linkTick_rearms hq hta hr)

/-- The wait goes on. -/
theorem exec_linkTick_counts (hp : s.link.phase = .waitingForNegotiation)
    (ha : s.cfg.phyCandidates[s.link.candidateAddressIndex]? = some a)
    (hc : (phyRecordOf s.regs.phystat[a]).negotiationComplete = false) (hwait : 2 ≤ s.link.waitCounter) :
    exec .linkTick s = .next { s with link := s.link.counted, result := some .ok } := by
  obtain ⟨-, hi, -⟩ := State.of_quiet hq
  have hleft : ¬ (s.link.waitCounter - 1 = 0) := by omega
  have hr : linkAdvance (handlerOf s) s.ticking = .ok (true, s.ticking.mapLink Link.counted) :=
    (linkAdvance_waiting (s := s.ticking) hp).trans ((waitStep_eq (s := s.ticking) hi ha).trans
      ((if_neg (by rw [Bool.not_eq_true]; exact hc)).trans (if_neg hleft)))
  exact answer_of_ok (linkTick_rearms hq hta hr)

variable (hn : s.link.pendingReset = false) (hreads : s.link.pendingPropertyReads = []) (hw : s.tx.waitQueue = [])
include hn hreads hw

/-- No candidate is present. -/
theorem exec_linkTick_fallsBack (hp : s.link.phase = .scanningForLink)
    (hcs : ∀ c ∈ s.cfg.phyCandidates.drop s.link.candidateAddressIndex, (phyRecordOf s.regs.phystat[c]).present = false) :
    exec .linkTick s = .next (s.detected s.fallback
      (s.link.passed (s.cfg.phyCandidates.length - s.link.candidateAddressIndex))) := by
  obtain ⟨-, hi, -⟩ := State.of_quiet hq
  have hr := (linkAdvance_ticking (h := handlerOf s) hp rfl).trans (scan_fallsBack (s := s.ticking) hi hcs)
  rw [List.length_drop] at hr
  exact exec_linkTick_detected_quietly hq hta hr ⟨rfl, rfl, rfl, rfl⟩ State.fallback_ne_none hn hw hreads

section
variable (hp : s.link.phase = .waitingForNegotiation) (ha : s.cfg.phyCandidates[s.link.candidateAddressIndex]? = some a)
include hp ha

/-- The negotiation is complete. -/
theorem exec_linkTick_negotiated (hc : (phyRecordOf s.regs.phystat[a]).negotiationComplete = true) :
    exec .linkTick s = .next (s.detected (.addr a) s.link.waited) := by
  obtain ⟨-, hi, -⟩ := State.of_quiet hq
  have hr : linkAdvance (handlerOf s) s.ticking = .ok (false, s.ticking.mapLink fun _ => s.link.waited.taken (.addr a)) :=
    (linkAdvance_waiting (s := s.ticking) hp).trans ((waitStep_eq (s := s.ticking) hi ha).trans (if_pos hc))
  exact exec_linkTick_detected_quietly hq hta hr ⟨rfl, rfl, rfl, rfl⟩ nofun hn hw hreads

/-- The wait ends in vain. -/
theorem exec_linkTick_expires (hc : (phyRecordOf s.regs.phystat[a]).negotiationComplete = false)
    (hwait : s.link.waitCounter = 1) : exec .linkTick s = .next (s.detected s.fallback s.link.counted.waited) := by
  obtain ⟨-, hi, -⟩ := State.of_quiet hq
  have hleft : s.link.waitCounter - 1 = 0 := by omega
  have hr : linkAdvance (handlerOf s) s.ticking =
      .ok (false, s.ticking.mapLink fun _ => s.link.counted.waited.taken s.fallback) :=
    (linkAdvance_waiting (s := s.ticking) hp).trans ((waitStep_eq (s := s.ticking) hi ha).trans
      ((if_neg (by rw [Bool.not_eq_true]; exact hc)).trans (if_pos hleft)))
  exact exec_linkTick_detected_quietly hq hta hr ⟨rfl, rfl, rfl, rfl⟩ State.fallback_ne_none hn hw hreads

end

/-- An override has made the selection. -/
theorem exec_linkTick_configures (hp : s.link.phase = .configuring) (hx : s.link.selected ≠ .none) :
    exec .linkTick s = .next (s.detected s.link.selected s.link) := by
  have hlink : s.ticking.mapLink (fun _ => s.link.taken s.link.selected) = s.ticking := by
    rw [Link.taken, ← hp]
    rfl
  have hr : linkAdvance (handlerOf s) s.ticking = .ok (false, s.ticking.mapLink fun _ => s.link.taken s.link.selected) := by
    rw [hlink]
    exact linkAdvance_configuring hp
  exact exec_linkTick_detected_quietly hq hta hr ⟨rfl, rfl, rfl, rfl⟩ hx hn hw hreads

end

/-! ## A deferred reset -/

/-- The state with a reset deferred or not, and `w` in the wait queue. -/
def State.deferring (p : Bool) (w : List Packet) (s : State) : State :=
  (s.mapTx fun x => { x with waitQueue := w }).mapLink fun k => { k with pendingReset := p }

section
variable {p : Bool} {w : List Packet}

theorem scan_commutes (hp : Commutes (State.deferring p w) (point h)) : ∀ cs, Commutes (State.deferring p w) (scan h cs)
  | [] => .bind .read fun _ => .bind .update fun _ => .pure _
  | _ :: cs => .bind (.bind (.host hp .read) fun _ => .pure _) fun _ => .ite (.bind .update fun _ => scan_commutes hp cs) <| .ite
    (.bind .update fun _ => .pure _)
    (.bind .read fun _ => .bind .update fun _ => .pure _)

theorem waitStep_commutes (hp : Commutes (State.deferring p w) (point h)) : Commutes (State.deferring p w) (waitStep h) :=
  .bind .read fun
    | none => .fault _
    | some _ => .bind (.bind (.host hp .read) fun _ => .pure _) fun _ => .ite
      (.bind .update fun _ => .bind .update fun _ => .pure _)
      (.bind .update fun _ => .bind .read fun _ => .ite
        (.bind .read fun _ => .bind .update fun _ => .bind .update fun _ => .pure _)
        (.pure _))

/-- The steps of the tick look neither at the wait queue nor at a deferred reset. -/
theorem linkAdvance_commutes (hp : Commutes (State.deferring p w) (point h)) : Commutes (State.deferring p w) (linkAdvance h) :=
  .read_bind fun s => by
    cases s.link.phase with
    | scanningForLink => exact scan_commutes hp _
    | waitingForNegotiation => exact waitStep_commutes hp
    | configuring => exact .pure _
    | notStarted => exact .fault _
    | done => exact .fault _

end

/-- The state with no reset deferred and nothing in the queue. -/
def State.undeferred (s : State) : State := s.deferring false []

/-- Where the tick ends detection without the deferred reset, with it RESET follows, from what it leaves there and the queue. -/
theorem linkTick_resets {r : Status} {u : State} (hq : s.quiet = true) (hta : s.link.timer = .armed)
    (hn : s.link.pendingReset = true) (hp : ∀ p w, Commutes (State.deferring p w) (point h))
    (hu : linkTick h s.undeferred = .ok (r, u)) (hdone : u.link.phase = .done) :
    linkTick h s = (reset h >>= fun _ => pure Status.ok) { u with tx := s.tx } ∧ u.ports = s.ports := by
  obtain ⟨-, hi, -⟩ := State.of_quiet hq
  obtain ⟨b, t, hr, -⟩ := Op.bind_eq_ok.1 ((linkTick_eq (s := s.undeferred) hq hta).symm.trans hu)
  obtain ⟨l, rfl, hd, hwaits⟩ := linkAdvance_advanced (s := s.undeferred.ticking) hi hr
  cases b with
  | true =>
    rw [linkTick_rearms (s := s.undeferred) hq hta hr] at hu
    cases hu
    exact absurd hdone (by rw [hwaits rfl]; nofun)
  | false =>
    by_cases hx : l.selected = .none
    · rw [linkTick_unselected (s := s.undeferred) hq hta hr hx] at hu
      cases hu
    · rw [linkTick_ends (s := s.undeferred) hq hta hr hx hd.reset rfl] at hu
      cases hu
      have hr' : linkAdvance h s.ticking =
          .ok (false, s.ticking.mapLink fun _ => { l with pendingReset := s.link.pendingReset }) :=
        linkAdvance_commutes (hp s.link.pendingReset s.tx.waitQueue) s.undeferred.ticking false _ hr
      have hleft : (s.configuredAs { l with pendingReset := s.link.pendingReset }).relieved =
          { (s.undeferred.configuredAs l).relieved with tx := s.tx } := by
        rw [State.configuredAs, Link.configured_pendingReset]
        rfl
      refine ⟨?_, rfl⟩
      rw [linkTick_configures hq hta hr' hx, hleft, hn, resetOrDrain, if_pos rfl, bind_assoc]
      rfl

/-- With nothing scheduled inside, every step of another agent is put off. -/
theorem handlerOf_quiet (hi : s.ports.interleaved = []) : handlerOf s = fun _ => blocked := by
  rw [handlerOf, hi]
  rfl

/-- RESET, run in place of the drain, does not see that no status has been recorded yet. -/
theorem exec_linkTick_resets {u : State} (hq : s.quiet = true) (hta : s.link.timer = .armed)
    (hn : s.link.pendingReset = true) (hu : exec .linkTick s.undeferred = .next u) (hdone : u.link.phase = .done)
    (ht : exec .reset { u with tx := s.tx } = .next t) : exec .linkTick s = .next { t with result := some .ok } := by
  obtain ⟨-, hi, -⟩ := State.of_quiet hq
  have hblocked := handlerOf_quiet hi
  obtain ⟨r, v, hv, rfl⟩ := answer_eq_next.1 hu
  obtain ⟨htick, hports⟩ := linkTick_resets (h := handlerOf s) hq hta hn
    (fun p w => by rw [hblocked]; exact Commutes.point_blocked) hv hdone
  obtain ⟨r', w, hw, rfl⟩ := answer_eq_next.1 ht
  have hsame : handlerOf { v.withResult (some r) with tx := s.tx } = handlerOf s := by
    rw [handlerOf, handlerOf, ← hports]
    rfl
  rw [hsame] at hw
  have hpoint : IgnoresResult v.result (point (handlerOf s)) := by
    rw [hblocked]
    exact Commutes.point_blocked
  have hreset : reset (handlerOf s) { v with tx := s.tx } = .ok (r', w.withResult v.result) :=
    IgnoresResult.reset hpoint _ _ _ hw
  exact answer_of_ok (t := w.withResult v.result) (htick.trans (Op.bind_of_ok hreset))

/-! ## The statement -/

/-- Settles O57: one lemma for each way the tick can go. -/
theorem linkTickWaitsAndFallsBack : Obligations.LinkTickWaitsAndFallsBack := by
  intro s hq hta
  refine ⟨fun hn hreads hw => ⟨fun pre post a hp hlist hpre ha hup => ?waits, fun hp hcs => ?fallsBack,
    fun a hp ha => ⟨fun hc => ?negotiated, fun hc hwait => ?counts, fun hc hwait => ?expires⟩, fun hp hx => ?configures⟩,
    fun u t hn hu hdone ht => ?resets⟩
  case waits => exact exec_linkTick_waits hq hta hp hlist hpre ha hup
  case fallsBack => exact exec_linkTick_fallsBack hq hta hn hreads hw hp hcs
  case negotiated => exact exec_linkTick_negotiated hq hta hn hreads hw hp ha hc
  case counts => exact exec_linkTick_counts hq hta hp ha hc hwait
  case expires =>
    rw [exec_linkTick_expires hq hta hn hreads hw hp ha hc hwait, Link.counted, hwait]
    rfl
  case configures => exact exec_linkTick_configures hq hta hn hreads hw hp hx
  case resets => exact exec_linkTick_resets hq hta hn hu hdone ht

end Sys2Proof.Machine
end
-- ==== Sys2Proof/Proofs/DeviceRequests.lean ====
section
/-!
PROOF. The small requests of device control (spec/45_device_control.md R245 to R248) and the two ways RESET does not run at once
(R242), from a quiet state.
-/
namespace Sys2Proof.Machine

-- The checker compiles the whole text as one: proofs elaborated one after the other keep that within its memory.
set_option Elab.async false

variable {α : Type} {h : Handler} {s : State} {ls : Locks} {l : Lock}

/-! ## Several locks -/

/-- The state with these locks held. -/
def State.holding (ls : Locks) (s : State) : State := s.mapLocks fun _ => ls

theorem State.holding_locks (hl : s.locks = ls) : s.holding ls = s := by
  subst hl
  rfl

theorem lock_holding (hm : ls.mine.mayTake l = true := by rfl) (ho : ls.others.has l = false := by rfl) :
    lock l (s.holding ls) = .ok ((), s.holding (ls.put l true)) := lock_eq hm ho

/-- The first lock of an operation. -/
theorem lock_first (hfree : s.locks = Locks.free) : lock l s = .ok ((), s.holding (Locks.free.put l true)) := by
  conv_lhs => rw [← State.holding_locks hfree]
  exact lock_holding (by cases l <;> rfl) (by cases l <;> rfl)

/-- The last lock of an operation given back. -/
theorem unlock_last (hfree : s.locks = Locks.free) : unlock l (s.holding (Locks.free.put l true)) = .ok ((), s) := by
  have hback : (Locks.free.put l true).put l false = Locks.free := by cases l <;> rfl
  rw [unlock_apply]
  show Except.ok ((), s.holding ((Locks.free.put l true).put l false)) = _
  rw [hback, State.holding_locks hfree]

/-! ## What is not under way in a quiet state -/

theorem State.idle_of_quiet (hq : s.quiet = true) : s.ports.isrActive = false ∧ s.ports.startActive = false := by
  simp only [State.quiet, State.settled, Bool.and_eq_true, Bool.not_eq_true'] at hq
  obtain ⟨⟨⟨⟨⟨⟨⟨-, hisr⟩, hstart⟩, -⟩, -⟩, -⟩, -⟩, -⟩ := hq
  exact ⟨hisr, hstart⟩

/-! ## RESET not run -/

theorem reset_withdrawn (hl : s.dev.lifecycle = .withdrawn) : reset h s = .ok (.nonRecoverable, s) := by
  rw [reset, Op.bind_of_ok (read_apply _ s), if_pos hl, Op.pure_apply]

theorem reset_refused (hl : s.dev.lifecycle ≠ .running) (hw : s.dev.lifecycle ≠ .withdrawn) :
    reset h s = .ok (.invalidRequest, s) := by
  rw [reset, Op.bind_of_ok (read_apply _ s), if_neg hw, if_pos hl, Op.pure_apply]

theorem reset_deferred (hq : s.quiet = true) (hl : s.dev.lifecycle = .running) (hp : s.link.phase.inProgress = true) :
    reset h s = .ok (.pending, s.mapLink fun k => { k with pendingReset := true }) := by
  rw [reset, Op.bind_of_ok (read_apply _ s), hl, if_neg (by decide), if_neg (by decide), lockDev_inProgress hq, hp, if_pos rfl,
    updateLink, update_unlockDev hq rfl]
  rfl

/-- Settles O20: the device state decides, and then whether detection runs. -/
theorem resetDefersAndRefuses : Obligations.ResetDefersAndRefuses := fun _ hq =>
  ⟨fun hl hp => answer_of_ok (reset_deferred hq hl hp), fun hl => answer_of_ok (reset_withdrawn hl),
    fun hl hw => answer_of_ok (reset_refused hl hw)⟩

/-! ## RESET_FAILED -/

/-- The failure counted. -/
def State.failedOnce (s : State) : State :=
  s.mapDev fun d => { d with consecutiveResetFailures := d.consecutiveResetFailures + 1 }

/-- The device out of service for good, its health timer cancelled. -/
def State.withdrawn (s : State) : State :=
  s.mapDev fun d => { d with nonRecoverable := true, lifecycle := .withdrawn, healthTimer := .idle }

section
variable (hfree : s.locks = Locks.free)
include hfree

theorem resetFailed_counts (hn : s.dev.consecutiveResetFailures + 1 < s.cfg.maxResetAttempts) :
    resetFailed h s = .ok (.hardError, s.failedOnce) := by
  rw [resetFailed, Op.bind_of_ok (lock_first hfree), Op.bind_of_ok (updateDev_apply _ _), Op.bind_of_ok (read_apply _ _),
    if_pos (by exact hn)]
  exact Op.bind_of_ok (unlock_last (s := s.failedOnce) hfree)

theorem resetFailed_withdraws (hi : s.ports.interleaved = [])
    (hn : s.cfg.maxResetAttempts ≤ s.dev.consecutiveResetFailures + 1) :
    resetFailed h s = .ok (.nonRecoverable, (s.failedOnce.withdrawn.mapLink fun k => { k with timer := .idle }).mapDev fun d =>
      { d with refCount := if s.link.timer = .armed then d.refCount - 1 else d.refCount }) := by
  have hunlock := unlock_last (l := .dev)
    (s := s.failedOnce.mapDev fun d => { d with nonRecoverable := true, lifecycle := .withdrawn }) hfree
  have hcancel : host h cancelLinkTimer s.failedOnce.withdrawn = .ok ((), _) :=
    (host_nil (s := s.failedOnce.withdrawn) hi).trans (cancelLinkTimer_eq _)
  rw [resetFailed, Op.bind_of_ok (lock_first hfree), Op.bind_of_ok (updateDev_apply _ _), Op.bind_of_ok (read_apply _ _),
    if_neg (by exact hn.not_gt), Op.bind_of_ok (updateDev_apply _ _)]
  refine (Op.bind_of_ok hunlock).trans ?_
  rw [Op.bind_of_ok (point_nil (by exact hi)), Op.bind_of_ok (updateDev_apply _ _)]
  exact Op.bind_of_ok hcancel

end

/-- Settles O21: the count decides. -/
theorem failedResetsEscalate : Obligations.FailedResetsEscalate := fun _ _ hfree hi =>
  ⟨fun hn => resetFailed_counts hfree hn, fun hn => resetFailed_withdraws hfree hi hn⟩

/-! ## The mask requests -/

theorem maskRequest_refused (hl : s.dev.lifecycle ≠ .running) (v : Word) : maskRequest h v s = .ok (.invalidRequest, s) := by
  rw [maskRequest, Op.bind_of_ok (read_apply _ s), decide_eq_false hl, if_pos (by rfl), Op.pure_apply]

theorem maskRequest_eq (hq : s.quiet = true) (hl : s.dev.lifecycle = .running) (v : Word) :
    maskRequest h v s = .ok (.ok, s.mapRegs fun g => { g with intmask := v &&& 1 }) := by
  obtain ⟨-, hi, -⟩ := State.of_quiet hq
  rw [maskRequest, Op.bind_of_ok (read_apply _ s), hl, if_neg (by decide), Op.bind_of_ok (point_nil hi),
    Op.bind_of_ok (setMask_eq hi (State.idle_of_quiet hq).1), Op.pure_apply]

/-- Settles O24: both requests are the one write of the mask. -/
theorem maskRequestsWriteTheMask : Obligations.MaskRequestsWriteTheMask := fun _ hq =>
  ⟨fun hl => ⟨answer_of_ok (maskRequest_eq hq hl 0), answer_of_ok (maskRequest_eq hq hl 1)⟩,
    fun hl => ⟨answer_of_ok (maskRequest_refused hl 0), answer_of_ok (maskRequest_refused hl 1)⟩⟩

/-! ## SET_POWER -/

/-- The power state set. -/
def State.powered (target : PowerState) (s : State) : State := s.mapDev fun d => { d with power := target }

/-- Whether a power transition is pending. -/
def State.transitionPending (b : Bool) (s : State) : State := s.mapDev fun d => { d with powerTransitionPending := b }

/-- SET_POWER under its two locks. -/
def setPowerLocked (h : Handler) : PowerState → Op Status
  | .fullyPowered => do
    updateDev (fun d => { d with powerTransitionPending := false })
    unlock .rx
    unlock .dev
    pure .ok
  | .lowPower => do
    let held ← read (fun s => decide (0 < s.rx.outstandingReceives))
    if held then do
      updateDev (fun d => { d with powerTransitionPending := true })
      unlock .rx
      unlock .dev
      pure .pending
    else do
      unlock .rx
      unlock .dev
      callbacks h [.powerTransitionComplete]
      pure .ok

/-- The locks that SET_POWER holds. -/
def Locks.devRx : Locks := (Locks.free.put .dev true).put .rx true

theorem setPower_eq (hq : s.quiet = true) (hl : s.dev.lifecycle = .running) (target : PowerState) :
    setPower h target s = setPowerLocked h target ((s.powered target).holding Locks.devRx) := by
  obtain ⟨hfree, hi, -⟩ := State.of_quiet hq
  have hi' : (s.holding (Locks.free.put .dev true)).ports.interleaved = [] := hi
  unfold setPower
  rw [Op.bind_of_ok (read_apply _ s), hl, if_neg (by decide), Op.bind_of_ok (point_nil hi),
    Op.bind_of_ok (lock_first hfree), Op.bind_of_ok (point_nil hi'), Op.bind_of_ok lock_holding,
    Op.bind_of_ok (updateDev_apply _ _)]
  cases target <;> rfl

/-- Both locks given back. -/
theorem unlock_devRx (hfree : s.locks = Locks.free) (k : Op α) :
    (unlock .rx >>= fun _ => unlock .dev >>= fun _ => k) (s.holding Locks.devRx) = k s := by
  rw [Op.bind_of_ok (unlock_apply _ _)]
  exact Op.bind_of_ok (unlock_last hfree)

section
variable (hfree : s.locks = Locks.free)
include hfree

theorem setPowerLocked_up : setPowerLocked h .fullyPowered (s.holding Locks.devRx) =
    .ok (.ok, s.transitionPending false) :=
  (Op.bind_of_ok (updateDev_apply _ _)).trans (unlock_devRx (s := s.transitionPending false) hfree _)

theorem setPowerLocked_waits (ho : 0 < s.rx.outstandingReceives) : setPowerLocked h .lowPower (s.holding Locks.devRx) =
    .ok (.pending, s.transitionPending true) := by
  rw [setPowerLocked, Op.bind_of_ok (read_apply _ _), if_pos (decide_eq_true (by exact ho)), Op.bind_of_ok (updateDev_apply _ _)]
  exact unlock_devRx (s := s.transitionPending true) hfree _

theorem setPowerLocked_down (hi : s.ports.interleaved = []) (ho : s.rx.outstandingReceives = 0) :
    setPowerLocked h .lowPower (s.holding Locks.devRx) =
      .ok (.ok, s.mapEvents fun es => es ++ [.powerTransitionComplete]) := by
  have hnone : ¬ 0 < (s.holding Locks.devRx).rx.outstandingReceives := fun hpos => absurd ho (Nat.pos_iff_ne_zero.1 hpos)
  rw [setPowerLocked, Op.bind_of_ok (read_apply _ _), decide_eq_false hnone, if_neg (by decide), unlock_devRx hfree,
    Op.bind_of_ok (callbacks_eq _ (congrArg Locks.mine hfree) hi), Op.pure_apply]

end

/-- Settles O25: the target decides, and for low power whether a buffer is held. -/
theorem setPowerWaitsForHeldBuffers : Obligations.SetPowerWaitsForHeldBuffers := by
  intro s hq hl
  obtain ⟨hfree, hi, -⟩ := State.of_quiet hq
  exact ⟨answer_of_ok ((setPower_eq hq hl _).trans (setPowerLocked_up (s := s.powered .fullyPowered) hfree)),
    fun ho => answer_of_ok ((setPower_eq hq hl _).trans (setPowerLocked_waits (s := s.powered .lowPower) hfree ho)),
    fun ho => answer_of_ok ((setPower_eq hq hl _).trans (setPowerLocked_down (s := s.powered .lowPower) hfree hi ho))⟩

end Sys2Proof.Machine
end

