-- ==== Sys2Proof/Proofs/Teardown.lean ====
section
/-!
PROOF. TEARDOWN (spec/45_device_control.md R241) in its two transitions: the held packets failed and the transmit ring rebuilt,
which RESET (R242) does as well, and the posted descriptors freed.
-/
namespace Sys2Proof.Machine

-- The checker compiles the whole text as one: proofs elaborated one after the other keep that within its memory.
set_option Elab.async false

variable {α : Type} {h : Handler} {s t : State} {ls : Locks}

/-! ## The held packets failed, the ring rebuilt -/

/-- The state with the transmit ring rebuilt from scratch (R134). -/
def State.rebuilt (s : State) : State :=
  (s.mapMem (s.freshDescriptors (List.range s.cfg.numTcb))).mapTx (TxRing.rebuilt s.cfg.numTcb s.cfg.numLocalBuf)

theorem abortHeld_eq (hi : s.ports.interleaved = []) (hs : s.txLaidOut = true) :
    abortHeld h s = .ok (s.heldPackets, s.rebuilt) := by
  rw [abortHeld, Op.bind_of_ok (read_apply _ s), Op.bind_of_ok (poolInitTx_eq hi (State.txLaidOut_iff.1 hs).1)]
  rfl

/-- Where the descriptors lie is read off the base of the array and the configuration. -/
theorem State.freshDescriptors_congr (hb : t.tx.base = s.tx.base) (hc : t.cfg = s.cfg) (is : List Nat) (m : Memory) :
    t.freshDescriptors is m = s.freshDescriptors is m := by
  induction is generalizing m with
  | nil => rfl
  | cons i is ih =>
    rw [State.freshDescriptors, State.freshDescriptors, ih, State.nextLink, State.nextLink, State.tdAddr_congr hb hc, hc,
      State.tdAddr_congr hb hc]

theorem State.rebuilt_holding : (s.holding ls).rebuilt = s.rebuilt.holding ls := by
  rw [State.rebuilt, funext (State.freshDescriptors_congr (s := s) (t := s.holding ls) rfl rfl _)]
  rfl

theorem State.rebuilt_mapPorts (f : Ports → Ports) : (s.mapPorts f).rebuilt = s.rebuilt.mapPorts f := by
  rw [State.rebuilt, funext (State.freshDescriptors_congr (s := s) (t := s.mapPorts f) rfl rfl _)]
  rfl

/-- No byte outside the TD array is written. -/
theorem State.freshDescriptors_outside_array {m : Memory} {x : Nat}
    (hx : x < s.tx.base ∨ s.tx.base + s.cfg.numTcb * s.cfg.tdSize ≤ x) :
    (s.freshDescriptors (List.range s.cfg.numTcb) m).byte x = m.byte x := by
  refine State.freshDescriptors_outside fun i hr => ?_
  have hend : s.tdAddr i + s.cfg.tdSize ≤ s.tx.base + s.cfg.numTcb * s.cfg.tdSize :=
    s.tdAddr_add_tdSize_le (List.mem_range.1 hr)
  have hbase : s.tx.base ≤ s.tdAddr i := Nat.le_add_right _ _
  have hsize := twelve_le_tdSize s.cfg
  omega

/-- The locks of the ring's owner: `dev`, then `tx`. -/
def Locks.devTx : Locks := (Locks.free.put .dev true).put .tx true

section
variable (hfree : s.locks = Locks.free) (hi : s.ports.interleaved = [])
include hfree

/-- Both locks given back. -/
theorem unlock_devTx (k : Op α) : (unlock .tx >>= fun _ => unlock .dev >>= fun _ => k) (s.holding Locks.devTx) = k s := by
  rw [Op.bind_of_ok (unlock_apply _ _)]
  exact Op.bind_of_ok (unlock_last hfree)

include hi

/-- Under both locks the held packets are taken and the ring is rebuilt. -/
theorem abortHeld_locked (hs : s.txLaidOut = true) (k : List Packet → Op α) :
    (point h >>= fun _ => lock .dev >>= fun _ => point h >>= fun _ => lock .tx >>= fun _ => abortHeld h >>= k) s =
      k s.heldPackets (s.rebuilt.holding Locks.devTx) := by
  have hdev : (s.holding (Locks.free.put .dev true)).ports.interleaved = [] := hi
  have habort : abortHeld h (s.holding Locks.devTx) = .ok (s.heldPackets, s.rebuilt.holding Locks.devTx) :=
    (abortHeld_eq (s := s.holding Locks.devTx) hi hs).trans (by rw [State.rebuilt_holding]; rfl)
  rw [Op.bind_of_ok (point_nil hi), Op.bind_of_ok (lock_first hfree), Op.bind_of_ok (point_nil hdev), Op.bind_of_ok lock_holding]
  exact Op.bind_of_ok habort

end

/-- The events of packets that are given up. -/
def cancelled (ps : List Packet) : List Event := ps.map fun p => .completeSend p .cancelled

/-! ## The first transition -/

/-- The link timer is not armed, and the reference of a step that will never run is released (R24). -/
def State.linkTimerCancelled (s : State) : State :=
  (s.mapLink fun k => { k with timer := .idle }).mapDev fun d =>
    { d with refCount := if s.link.timer = .armed then d.refCount - 1 else d.refCount }

/-- A timer that is not armed need not be cancelled. -/
theorem State.linkTimerCancelled_of_idle (ht : s.link.timer ≠ .armed) : s.linkTimerCancelled = s := by
  have hidle : TimerState.idle = s.link.timer := by
    cases hs : s.link.timer with
    | idle => rfl
    | armed => exact absurd hs ht
  simp only [State.linkTimerCancelled, if_neg ht, hidle]
  rfl

/-- Steps 1 to 3: the device halts, the interrupt is masked, the health timer is cancelled. -/
def State.haltBegun (s : State) : State :=
  { s with
    dev := { s.dev with lifecycle := .halting, healthTimer := .idle }
    regs := { s.regs with intmask := 1 }
    ports := { s.ports with teardown := .beginning } }

/-- What TEARDOWN does once the timers are cancelled. -/
def haltUnits (h : Handler) : Op (Option Status) := do
  host h (regWrite .port 1)
  point h
  lock .dev
  point h
  lock .tx
  let aborted ← abortHeld h
  let reads ← read (fun s => s.link.pendingPropertyReads)
  updateLink (fun k =>
    { k with pendingPropertyReads := [], pendingFilter := none, pendingMcast := none, pendingReset := false })
  unlock .tx
  unlock .dev
  callbacks h (aborted.map (fun p => .completeSend p .cancelled))
  callbacks h (reads.map (fun e => .completeRequest e.1 .cancelled))
  updatePorts (fun p => { p with teardown := .notUnderWay })
  pure none

theorem teardown_refused (hn : s.mayTearDown = false) : teardown h s = .ok (some .invalidRequest, s) := by
  rw [teardown, Op.bind_of_ok (read_apply _ s), hn, if_pos (by rfl), Op.pure_apply]

theorem teardown_eq (hq : s.quiet = true) (hm : s.mayTearDown = true) :
    teardown h s = haltUnits h s.haltBegun.linkTimerCancelled := by
  obtain ⟨hfree, hi, -⟩ := State.of_quiet hq
  have hbeginning : updatePorts (fun p => { p with teardown := .beginning }) s =
    .ok ((), { s with ports := { s.ports with teardown := .beginning } }) := rfl
  have hunlock := unlock_last (l := .dev) (s := { s with
    ports := { s.ports with teardown := .beginning }, dev := { s.dev with lifecycle := .halting } }) hfree
  have hmask := setMask_eq (hd := h) (v := 1) (s := { s with
    ports := { s.ports with teardown := .beginning }, dev := { s.dev with lifecycle := .halting } })
    hi (State.idle_of_quiet hq).1
  have hcancel : host h cancelLinkTimer s.haltBegun = .ok ((), s.haltBegun.linkTimerCancelled) :=
    (host_nil (s := s.haltBegun) hi).trans (cancelLinkTimer_eq _)
  rw [teardown, Op.bind_of_ok (read_apply _ s), hm, if_neg (by decide), Op.bind_of_ok hbeginning,
    Op.bind_of_ok (point_nil (by exact hi)), Op.bind_of_ok (lock_first (by exact hfree)), Op.bind_of_ok (updateDev_apply _ _)]
  refine (Op.bind_of_ok hunlock).trans ?_
  rw [Op.bind_of_ok (point_nil (by exact hi)), Op.bind_of_ok hmask, Op.bind_of_ok (point_nil (by exact hi)),
    Op.bind_of_ok (updateDev_apply _ _), Op.bind_of_ok (point_nil (by exact hi)), Op.bind_of_ok (read_apply _ _)]
  show (if decide (s.link.timer = .armed) = true then host h cancelLinkTimer >>= fun _ => haltUnits h else haltUnits h)
    s.haltBegun = _
  by_cases ht : s.link.timer = .armed
  · rw [if_pos (decide_eq_true ht), Op.bind_of_ok hcancel]
  · rw [if_neg (mt of_decide_eq_true ht), State.linkTimerCancelled_of_idle (s := s.haltBegun) ht]

/-- The units are idle and no command is pending (R199). -/
def State.unitsIdle (s : State) : State :=
  { s with
    regs := { s.regs with status := withRus unitIdle (withCus unitIdle s.regs.status), command := 0 }
    units := { s.units with ruPhase := .none } }

/-- Nothing is deferred to the end of link detection. -/
def State.deferralsDropped (s : State) : State :=
  s.mapLink fun k => { k with pendingPropertyReads := [], pendingFilter := none, pendingMcast := none, pendingReset := false }

/-- What the first transition leaves, from the port reset on. -/
def State.unitsHalted (s : State) : State :=
  { s.unitsIdle.rebuilt.deferralsDropped with
    events := s.events ++ cancelled s.heldPackets ++ s.link.pendingPropertyReads.map fun e => .completeRequest e.1 .cancelled
    ports := { s.ports with teardown := .notUnderWay } }

theorem haltUnits_eq (hfree : s.locks = Locks.free) (hi : s.ports.interleaved = []) (hs : s.txLaidOut = true) :
    haltUnits h s = .ok (none, s.unitsHalted) := by
  have hport : host h (regWrite .port 1) s = .ok ((), s.unitsIdle) := host_nil hi
  have hpackets := callbacks_eq (hd := h) (cancelled s.heldPackets) (s := s.unitsIdle.rebuilt.deferralsDropped)
    (congrArg Locks.mine hfree) hi
  have hreads := callbacks_eq (hd := h) (s.link.pendingPropertyReads.map fun e => .completeRequest e.1 .cancelled)
    (s := s.unitsIdle.rebuilt.deferralsDropped.mapEvents fun es => es ++ cancelled s.heldPackets)
    (congrArg Locks.mine hfree) hi
  rw [haltUnits, Op.bind_of_ok hport, abortHeld_locked (s := s.unitsIdle) hfree hi hs, Op.bind_of_ok (read_apply _ _),
    Op.bind_of_ok (updateLink_apply _ _)]
  refine (unlock_devTx (s := s.unitsIdle.rebuilt.deferralsDropped) hfree _).trans ?_
  refine (Op.bind_of_ok hpackets).trans ((Op.bind_of_ok hreads).trans ?_)
  rw [Op.bind_of_ok (updatePorts_apply _ _), Op.pure_apply]
  rfl

theorem answerLater_of_ok {m : Op (Option Status)} {r : Option Status} (hm : m s = .ok (r, t)) :
    answerLater m s = .next (t.withResult r) := by
  rw [answerLater, hm]

/-- Settles O17: the gate, the timers, and the units with the ring. -/
theorem teardownBeginsHalting : Obligations.TeardownBeginsHalting := by
  intro s hq
  obtain ⟨hfree, hi, -⟩ := State.of_quiet hq
  refine ⟨fun hbad => ?refused, fun hl hn hs => ?halts⟩
  case refused =>
    refine answerLater_of_ok (teardown_refused ?_)
    rw [State.mayTearDown]
    rcases hbad with ⟨hr, hw⟩ | hf
    · rw [decide_eq_false hr, decide_eq_false hw]
      rfl
    · rw [hf]
      exact Bool.and_false _
  case halts =>
    have hm : s.mayTearDown = true := by simp [State.mayTearDown, hl, hn]
    have hports : { s.ports with teardown := .notUnderWay } = s.ports := by rw [← hn]
    have hhalt : teardown (handlerOf s) s = .ok (none, s.haltBegun.linkTimerCancelled.unitsHalted) :=
      (teardown_eq hq hm).trans (haltUnits_eq hfree hi hs)
    exact ⟨_, answerLater_of_ok hhalt, rfl, rfl, rfl, rfl, rfl, rfl, rfl, rfl, hports, rfl, rfl,
      fun x hx => State.freshDescriptors_outside_array (s := s.haltBegun.linkTimerCancelled.unitsIdle) hx⟩

/-! ## The posted descriptors freed -/

/-- Other shadow records, another count of them and other live regions. -/
def State.freeing (shadows : List (Nat × RxShadow)) (count : Nat) (live : List Region) (s : State) : State :=
  { s with rx := { s.rx with shadows := shadows, currentCount := count }, ports := { s.ports with liveRegions := live } }

theorem RxRing.shadow?_dropShadow_same (r : RxRing) (d : Nat) : (r.dropShadow d).shadow? d = none := by
  simp [RxRing.shadow?, RxRing.dropShadow]

theorem RxRing.shadow?_dropShadow_ne (r : RxRing) {d e : Nat} (he : e ≠ d) : (r.dropShadow d).shadow? e = r.shadow? e := by
  rw [RxRing.shadow?, RxRing.shadow?, RxRing.dropShadow, List.find?_filter]
  congr 2
  funext x
  by_cases hx : x.1 = e
  · simp [hx, he]
  · simp [hx]

/-- The live regions without the one a descriptor stands in. -/
def regionsWithout (base : Option Nat) (live : List Region) : List Region := live.filter fun r => some r.base != base

theorem poolFreeRx_eq (d : Nat) : poolFreeRx d s = .ok ((), s.freeing (s.rx.dropShadow d).shadows s.rx.currentCount
    (regionsWithout ((s.rx.shadow? d).bind (·.allocBase)) s.ports.liveRegions)) := by
  rw [poolFreeRx, Op.bind_of_ok (read_apply _ s)]
  cases (s.rx.shadow? d).bind (·.allocBase) with
  | none =>
    have hall : regionsWithout none s.ports.liveRegions = s.ports.liveRegions := List.filter_eq_self.2 fun _ _ => rfl
    rw [hall]
    rfl
  | some base => rfl

/-- The records of exactly these ids are gone, and the regions they stood in. -/
structure Freed (r : RxRing) (live : List Region) (ds : List Nat) (r' : RxRing) (live' : List Region) : Prop where
  gone : ∀ d ∈ ds, r'.shadow? d = none
  others : ∀ d, d ∉ ds → r'.shadow? d = r.shadow? d
  regions : ∀ x, x ∈ live' ↔ x ∈ live ∧ ∀ d ∈ ds, (r.shadow? d).bind (·.allocBase) ≠ some x.base

theorem Freed.nil (r : RxRing) (live : List Region) : Freed r live [] r live :=
  ⟨nofun, fun _ _ => rfl, fun _ => ⟨fun hx => ⟨hx, nofun⟩, And.left⟩⟩

theorem Freed.cons {r r' u : RxRing} {live live' : List Region} {d : Nat} {ds : List Nat}
    (hu : u.shadows = (r.dropShadow d).shadows)
    (hf : Freed u (regionsWithout ((r.shadow? d).bind (·.allocBase)) live) ds r' live') : Freed r live (d :: ds) r' live' where
  gone e he := by
    by_cases hmem : e ∈ ds
    · exact hf.gone e hmem
    · obtain rfl : e = d := (List.mem_cons.1 he).resolve_right hmem
      rw [hf.others e hmem, RxRing.shadow?_congr hu, RxRing.shadow?_dropShadow_same]
  others e he := by
    obtain ⟨hne, hmem⟩ := not_or.1 (mt List.mem_cons.2 he)
    rw [hf.others e hmem, RxRing.shadow?_congr hu, RxRing.shadow?_dropShadow_ne r hne]
  regions x := by
    have hfirst : x ∈ regionsWithout ((r.shadow? d).bind (·.allocBase)) live ↔
        x ∈ live ∧ (r.shadow? d).bind (·.allocBase) ≠ some x.base := by
      rw [regionsWithout, List.mem_filter, bne_iff_ne]
      exact and_congr_right fun _ => ne_comm
    rw [hf.regions, hfirst, and_assoc, List.forall_mem_cons]
    refine and_congr_right fun _ => and_congr_right fun hd => forall₂_congr fun e _ => ?_
    by_cases he : e = d
    · subst he
      rw [RxRing.shadow?_congr hu, RxRing.shadow?_dropShadow_same]
      exact ⟨fun _ => hd, fun _ => nofun⟩
    · rw [RxRing.shadow?_congr hu, RxRing.shadow?_dropShadow_ne r he]

/-- Freeing the posted descriptors changes only the records, their count and the live regions. -/
theorem freePosted_eq (ds : List Nat) : ∃ sh live,
    freePosted ds s = .ok ((), s.freeing sh (s.rx.currentCount - ds.length) live) ∧
    Freed s.rx s.ports.liveRegions ds { s.rx with shadows := sh } live := by
  induction ds generalizing s with
  | nil => exact ⟨_, _, rfl, .nil _ _⟩
  | cons d ds ih =>
    obtain ⟨sh, live, hrun, hfreed⟩ := ih (s := s.freeing (s.rx.dropShadow d).shadows (s.rx.currentCount - 1)
      (regionsWithout ((s.rx.shadow? d).bind (·.allocBase)) s.ports.liveRegions))
    refine ⟨sh, live, ?_, ?_⟩
    · rw [freePosted, Op.bind_of_ok (poolFreeRx_eq d), Op.bind_of_ok (updateRx_apply _ _)]
      refine Eq.trans hrun ?_
      rw [List.length_cons, Nat.add_comm, ← Nat.sub_sub]
      rfl
    · obtain ⟨hgone, hothers, hregions⟩ := hfreed
      exact Freed.cons (r' := { s.rx with shadows := sh }) rfl ⟨hgone, hothers, hregions⟩

/-! ## The second transition -/

theorem State.teardownMayFinish_iff : s.teardownMayFinish = true ↔
    s.ports.teardown = .notUnderWay ∧ s.dev.lifecycle = .halting ∧ s.dev.refCount = 0 ∧ s.rx.outstandingReceives = 0 ∧
      s.ports.submits = 0 := by
  simp only [State.teardownMayFinish, Bool.and_eq_true, decide_eq_true_eq, beq_iff_eq, and_assoc]

/-- A region that TEARDOWN does not return with the TD array and the local buffers. -/
def TxRing.keepsRegion (x : TxRing) (r : Region) : Bool := r.base != x.base && !x.bufs.contains r.base

/-- What the second transition leaves. -/
def State.tornDown (shadows : List (Nat × RxShadow)) (live : List Region) (s : State) : State :=
  { s with
    rx := { s.rx with
      shadows := shadows, currentCount := s.rx.currentCount - s.rx.readyList.length, readyList := [], readyCount := 0 }
    ports := { s.ports with liveRegions := live.filter s.tx.keepsRegion, teardown := .finished }
    dev := { s.dev with lifecycle := .halted }
    result := some .ok }

theorem teardownFree_eq (hfree : s.locks = Locks.free) (hbusy : s.tx.busyCount = 0) (hout : s.rx.outstandingReceives = 0)
    (href : s.dev.refCount = 0) (hpending : s.rx.pendingList = []) (halloc : s.rx.allocState = .idle) :
    ∃ sh live, teardownFree s = .ok ((), s.tornDown sh live) ∧
      Freed s.rx s.ports.liveRegions s.rx.readyList { s.rx with shadows := sh } live := by
  obtain ⟨sh, live, hfreed, hprop⟩ := freePosted_eq (s := s.holding (Locks.free.put .rx true)) s.rx.readyList
  refine ⟨sh, live, ?_, hprop⟩
  have hassert : assert (s.tx.busyCount == 0 && s.rx.outstandingReceives == 0 && s.dev.refCount == 0 &&
      s.rx.pendingList.isEmpty && decide (s.rx.allocState = .idle)) s = .ok ((), s) :=
    assert_ok.2 ⟨by rw [hbusy, hout, href, hpending, halloc]; rfl, rfl⟩
  have hunlock := unlock_last (l := .rx) (s := { s with
    rx := { s.rx with
      shadows := sh, currentCount := s.rx.currentCount - s.rx.readyList.length, readyList := [], readyCount := 0 }
    ports := { s.ports with liveRegions := live } }) hfree
  rw [teardownFree, Op.bind_of_ok (read_apply _ s), id, Op.bind_of_ok hassert, Op.bind_of_ok (lock_first hfree),
    Op.bind_of_ok hfreed, Op.bind_of_ok (updateRx_apply _ _)]
  refine (Op.bind_of_ok hunlock).trans ?_
  rw [Op.bind_of_ok (updatePorts_apply _ _), Op.bind_of_ok (updateDev_apply _ _)]
  rfl

/-- The late packets are failed, and the second transition goes on as from a ring without them. -/
def State.lateFailed (s : State) : State := s.rebuilt.mapEvents fun es => es ++ cancelled s.heldPackets

theorem State.lateFailed_advance : s.advance.lateFailed = s.lateFailed.advance := by
  rw [State.lateFailed, State.advance, State.rebuilt_mapPorts]
  rfl

theorem State.heldPackets_lateFailed (s : State) : s.lateFailed.heldPackets = [] := rfl

theorem abortLate_eq (hfree : s.locks = Locks.free) (hi : s.ports.interleaved = []) (hp : s.heldPackets ≠ [])
    (hs : s.txLaidOut = true) : abortLate h s = .ok ((), s.lateFailed) := by
  have hlate : (!s.heldPackets.isEmpty) = true := by simpa using hp
  rw [abortLate, Op.bind_of_ok (read_apply _ s), hlate, if_pos rfl, abortHeld_locked hfree hi hs,
    unlock_devTx (s := s.rebuilt) hfree]
  exact callbacks_eq _ (congrArg Locks.mine hfree) hi

theorem teardownFinish_late (hfree : s.locks = Locks.free) (hi : s.ports.interleaved = []) (hm : s.teardownMayFinish = true)
    (hp : s.heldPackets ≠ []) (hs : s.txLaidOut = true) : teardownFinish h s = teardownFinish h s.lateFailed := by
  have hm' : s.lateFailed.teardownMayFinish = true := hm
  rw [teardownFinish_drained hm' s.heldPackets_lateFailed, teardownFinish, Op.bind_of_ok (read_apply _ s), hm, if_pos rfl,
    Op.bind_of_ok (abortLate_eq hfree hi hp hs), Op.bind_of_ok (read_apply _ _), hm', if_pos rfl]

theorem step_teardownFinish {rest : List Stimulus} (hsched : s.ports.schedule = .teardownFinish :: rest) :
    step s = outcome (teardownFinish (handlerOf s)) s.advance := by
  have hfetch : fetch s = none := by rw [fetch, hsched]
  rw [step, hfetch, hsched]
  rfl

theorem State.advance_eq {e : Stimulus} {rest : List Stimulus} (hsched : s.ports.schedule = e :: rest) :
    s.advance = { s with ports := { s.ports with schedule := rest } } := by
  rw [State.advance, State.mapPorts, hsched]
  rfl

/-- Settles O18: not enabled, it does nothing; late packets are failed first; else its steps 7 to 9. -/
theorem teardownFinishesWhenDrained : Obligations.TeardownFinishesWhenDrained := by
  intro s rest hfree hsched
  refine ⟨fun hwait => ?waits, fun hl hn href hout hsub hi hp hs => ?late,
    fun hl hn href hout hsub hbusy hqueue hpending halloc => ?finishes⟩
  case waits =>
    rw [step_teardownFinish hsched, ← State.advance_eq hsched]
    refine outcome_of_ok (teardownFinish_waits (Bool.eq_false_iff.2 fun hm => ?_))
    obtain ⟨hn, hl, href, hout, hsub⟩ := State.teardownMayFinish_iff.1 hm
    rcases hwait with hw | hw | hw | hw | hw
    exacts [hw hl, hw hn, hw href, hw hout, hw hsub]
  case late =>
    have hm : s.advance.teardownMayFinish = true := State.teardownMayFinish_iff.2 ⟨hn, hl, href, hout, hsub⟩
    have hlate := teardownFinish_late (h := handlerOf s) (s := s.advance) hfree hi hm hp hs
    refine ⟨s.lateFailed, ?_, rfl, rfl, fun x hx => State.freshDescriptors_outside_array hx, rfl⟩
    rw [step_teardownFinish hsched, step_teardownFinish (s := s.lateFailed) hsched, ← State.lateFailed_advance, outcome, hlate]
    rfl
  case finishes =>
    have hm : s.advance.teardownMayFinish = true := State.teardownMayFinish_iff.2 ⟨hn, hl, href, hout, hsub⟩
    have hp : s.advance.heldPackets = [] := by
      show List.filterMap _ (List.range s.tx.busyCount) ++ s.tx.waitQueue = []
      rw [hbusy, hqueue]
      rfl
    obtain ⟨sh, live, hrun, hgone, hothers, hregions⟩ :=
      teardownFree_eq (s := s.advance) hfree hbusy hout href hpending halloc
    rw [step_teardownFinish hsched]
    refine ⟨_, outcome_of_ok ((teardownFinish_drained hm hp).trans hrun), rfl, rfl, rfl, rfl, rfl, hgone, hothers, fun r => ?_,
      ?_, hpending, hout, halloc, rfl, rfl, rfl, rfl, rfl, rfl, rfl, rfl, rfl, rfl⟩
    · show r ∈ live.filter s.tx.keepsRegion ↔ _
      rw [List.mem_filter, hregions, TxRing.keepsRegion]
      simp only [Bool.and_eq_true, bne_iff_ne, ne_eq, Bool.not_eq_true', List.contains_eq_mem, decide_eq_false_iff_not]
      tauto
    · rw [State.advance_eq hsched]
      rfl

end Sys2Proof.Machine
end

