-- ==== Sys2Proof/Proofs/Interrupt.lean ====
section
/-!
PROOF. INTERRUPT (spec/45_device_control.md R244, spec/60_exceptions.md R276, R277) from a quiet state: a line that is not
asserted, and an asserted one behind which there is nothing to service.
-/
namespace Sys2Proof.Machine

-- The checker compiles the whole text as one: proofs elaborated one after the other keep that within its memory.
set_option Elab.async false

variable {h : Handler} {s t : State} {r : Status}

/-! ## Services that find nothing to do -/

/-- With the receive unit ready ENSURE_STARTED changes nothing, whatever it answers. -/
theorem ensureStarted_unchanged (hi : s.ports.interleaved = []) (hr : statusRus s.regs.status = unitActive) :
    ∃ a, ensureStarted h s = .ok (a, s) := by
  rw [ensureStarted, Op.bind_of_ok (read_apply _ s), Op.ite_apply]
  split
  · exact ⟨_, rfl⟩
  · rw [Op.bind_of_ok (point_nil hi), Op.bind_of_ok (read_apply _ s), Op.ite_apply]
    split
    · exact ⟨_, rfl⟩
    · rw [ensureStartedChecked, Op.bind_of_ok (by rw [host_nil hi, regRead_status]), if_pos hr]
      exact ⟨_, rfl⟩

/-- With nothing to harvest and enough descriptors posted, HARVEST moves the interval counters only. -/
theorem harvest_nothing (hl : s.dev.lifecycle = .running) (hfree : s.locks = Locks.free) (hs : s.lockedRx.Stopped)
    (hn : s.cfg.rxLowWater ≤ s.rx.readyCount) : harvest h s = .ok (.ok, s.mapRx (RxRing.overSupplied s.cfg)) := by
  rw [harvest, Op.bind_of_ok (read_apply _ s), hl, if_neg (by decide), Op.bind_of_ok (point_nil (by exact hs.inside)),
    Op.bind_of_ok (lock_rx_eq hfree), Op.bind_of_ok (read_apply _ _), Op.bind_of_ok (hs.harvestLoop_eq _ []),
    if_neg (not_not.2 rfl)]
  refine (Op.bind_of_ok (updateThresholds_over (s := s.lockedRx) hn)).trans ?_
  exact Op.bind_of_ok (unlock_rx_eq hfree rfl)

/-- With no slot in use, nothing queued and no completion due RECLAIM changes nothing. -/
theorem reclaim_nothing (hl : s.dev.lifecycle = .running) (hfree : s.locks = Locks.free) (hi : s.ports.interleaved = [])
    (hnone : s.ports.completions = []) (hbusy : s.tx.busyCount = 0) (hw : s.tx.waitQueue = []) :
    reclaim h s = .ok (.ok, s) := by
  rw [reclaim_eq (done := []) (f := id) hl hfree hi hnone (by rw [hbusy]; rfl) hw]
  simp only [List.map_nil, List.append_nil]
  rfl

/-! ## The service -/

/-- The causes are cleared. -/
def State.acknowledged (s : State) : State := s.mapRegs fun g => { g with status := g.status &&& ~~~causeMask }

/-- Clearing the causes that stand is clearing all four. -/
theorem acknowledge_causesOf (w : Word) : w &&& ~~~(causesOf w &&& causeMask) = w &&& ~~~causeMask := by
  apply BitVec.eq_of_getLsbD_eq
  intro i hi
  simp only [causesOf, BitVec.getLsbD_and, BitVec.getLsbD_not]
  cases w.getLsbD i <;> cases causeMask.getLsbD i <;> simp

theorem serve_notMine (hi : s.ports.interleaved = []) (hn : s.lineAsserted = false) : serve h s = .ok (.notMine, s) := by
  have hgate : maskBit s.regs.intmask = true ∨ causesOf s.regs.status = 0 := by
    rw [State.lineAsserted, Bool.and_eq_false_iff, bne_eq_false_iff_eq, Bool.not_eq_false'] at hn
    exact hn.symm
  rw [serve, Op.bind_of_ok (by rw [host_nil hi, regRead_status]), Op.bind_of_ok (by rw [host_nil hi, regRead_intmask]),
    if_pos hgate, Op.pure_apply]

/-- What the service relies on where it has nothing to do but to acknowledge. -/
structure State.Unserviced (s : State) : Prop where
  running : s.dev.lifecycle = .running
  free : s.locks = Locks.free
  inside : s.ports.interleaved = []
  completions : s.ports.completions = []
  busy : s.tx.busyCount = 0
  queue : s.tx.waitQueue = []
  stopped : s.lockedRx.Stopped
  supplied : s.cfg.rxLowWater ≤ s.rx.readyCount
  ready : statusRus s.regs.status = unitActive

theorem State.Unserviced.acknowledged (hs : s.Unserviced) : s.acknowledged.Unserviced where
  running := hs.running
  free := hs.free
  inside := hs.inside
  completions := hs.completions
  busy := hs.busy
  queue := hs.queue
  stopped := ⟨⟨hs.inside, hs.stopped.locks, hs.stopped.indications⟩, hs.stopped.inSpace, hs.stopped.nothing⟩
  supplied := hs.supplied
  ready := (statusRus_acknowledge (c := causeMask) s.regs.status).trans hs.ready

theorem serve_acknowledges (hs : s.Unserviced) (ha : s.lineAsserted = true) :
    serve h s = .ok (.ok, s.acknowledged.mapRx (RxRing.overSupplied s.cfg)) := by
  have hgate : ¬ (maskBit s.regs.intmask = true ∨ causesOf s.regs.status = 0) := by
    rw [State.lineAsserted, Bool.and_eq_true, bne_iff_ne, Bool.not_eq_true'] at ha
    rintro (hm | hc)
    · rw [hm] at ha
      exact absurd ha.2 (by decide)
    · exact ha.1 hc
  have hwrite : host h (regWrite .status (causesOf s.regs.status)) s = .ok ((), s.acknowledged) := by
    rw [host_nil hs.inside, regWrite_status, State.mapRegs, acknowledge_causesOf]
    rfl
  have hi := hs.inside
  obtain ⟨hl, hfree, hi', hnone, hbusy, hw, hstop, hn, hr⟩ := hs.acknowledged
  obtain ⟨a, hensure⟩ := ensureStarted_unchanged (h := h) (s := s.acknowledged.mapRx (RxRing.overSupplied s.cfg)) hi hr
  rw [serve, Op.bind_of_ok (by rw [host_nil hi, regRead_status]), Op.bind_of_ok (by rw [host_nil hi, regRead_intmask]),
    if_neg hgate, Op.bind_of_ok hwrite, Op.bind_of_ok (point_nil hi'),
    Op.bind_of_ok (reclaim_nothing hl hfree hi' hnone hbusy hw), Op.bind_of_ok (point_nil hi'),
    Op.bind_of_ok (harvest_nothing hl hfree hstop hn), Op.bind_of_ok (point_nil (by exact hi'))]
  exact Op.bind_of_ok hensure

/-! ## The request -/

/-- INTERRUPT is under way or not. -/
def State.serving (b : Bool) (s : State) : State := s.mapPorts fun p => { p with isrActive := b }

section
variable (hq : s.quiet = true)
include hq

theorem interrupt_notRunning (hl : s.dev.lifecycle ≠ .running) : interrupt h s = .ok (.notMine, s) := by
  rw [interrupt, Op.bind_of_ok (read_apply _ s), Op.bind_of_ok (read_apply _ s), (State.idle_of_quiet hq).1,
    if_neg (by decide), decide_eq_false hl, if_pos (by rfl), Op.pure_apply]

theorem interrupt_eq (hl : s.dev.lifecycle = .running) (hr : serve h (s.serving true) = .ok (r, t)) :
    interrupt h s = .ok (r, t.serving false) := by
  rw [interrupt, Op.bind_of_ok (read_apply _ s), Op.bind_of_ok (read_apply _ s), (State.idle_of_quiet hq).1,
    if_neg (by decide), hl, if_neg (by decide), Op.bind_of_ok (updatePorts_apply _ s)]
  exact Op.bind_of_ok hr

/-- The service over, the ports are as before it. -/
theorem State.serving_ports : (s.serving true |>.serving false).ports = s.ports := by
  show { s.ports with isrActive := false } = s.ports
  rw [← (State.idle_of_quiet hq).1]

end

/-- Settles O23: the gate, the line, and the three services that find nothing to do. -/
theorem interruptAcknowledgesTheCauses : Obligations.InterruptAcknowledgesTheCauses := by
  intro s hq
  obtain ⟨hfree, hi, hnone⟩ := State.of_quiet hq
  have hports := State.serving_ports hq
  refine ⟨fun hn => ?notMine, fun hl ha hbusy hw hlaid hharvest hlow hr => ?acknowledges⟩
  case notMine =>
    by_cases hl : s.dev.lifecycle = .running
    · have hline : s.lineAsserted = false := hn.resolve_left (not_not.2 hl)
      have hserve := serve_notMine (h := handlerOf s) (s := s.serving true) hi hline
      refine (answer_of_ok (interrupt_eq hq hl hserve)).trans ?_
      show Host.Outcome.next { s with ports := (s.serving true |>.serving false).ports, result := _ } = _
      rw [hports]
    · exact answer_of_ok (interrupt_notRunning hq hl)
  case acknowledges =>
    have hstop : (s.serving true).lockedRx.Stopped :=
      { inside := hi
        locks := congrArg (·.put .rx true) hfree
        indications := (State.harvesting_underway (m := s.mem) (r := s.rx) (es := s.events) hq).indications
        inSpace := fun _ _ hc => State.rd_inSpace hlaid hc
        nothing := hharvest }
    have hs : (s.serving true).Unserviced := ⟨hl, hfree, hi, hnone, hbusy, hw, hstop, hlow, hr⟩
    refine (answer_of_ok (interrupt_eq hq hl (serve_acknowledges (h := handlerOf s) hs ha))).trans ?_
    show Host.Outcome.next { s with
      regs := { s.regs with status := s.regs.status &&& ~~~causeMask }, rx := s.rx.overSupplied s.cfg,
      ports := (s.serving true |>.serving false).ports, result := _ } = _
    rw [hports]

end Sys2Proof.Machine
end

