-- ==== Sys2Proof/Proofs/HealthCheck.lean ====
section
/-!
PROOF. HEALTH_CHECK (spec/45_device_control.md R243) from a quiet state: its gates, the hang test, the re-probe of the link, and
the RESET it runs, whose result it passes on.
-/
namespace Sys2Proof.Machine

-- The checker compiles the whole text as one: proofs elaborated one after the other keep that within its memory.
set_option Elab.async false

variable {h : Handler} {s t u : State} {r : Status} {a : PhyAddress}

/-! ## RESET schedules nothing -/

/-- Nothing is scheduled inside the operation. -/
def Uninterrupted (s : State) : Prop := s.ports.interleaved = []

theorem uninterrupted_lenient : Lenient Uninterrupted := fun _ _ hm hs => hm.interleaved.trans hs

theorem uninterrupted_point : Keeps Uninterrupted (point h) := fun s a t hs hr => by
  rw [point_nil hs] at hr
  cases hr
  exact hs

theorem uninterrupted_reset : Keeps Uninterrupted (reset h) := by
  have b : Base h Uninterrupted := .of_registers uninterrupted_lenient uninterrupted_point fun _ _ hs => hs
  have x : TxBlind h Uninterrupted := { toBase := b, locks := fun _ _ _ hs => hs, ring := fun _ _ hs => hs }
  have y : RxBlind h Uninterrupted := { toBase := b, locks := fun _ _ _ hs => hs, ring := fun _ _ hs => hs }
  have rings : Rings h Uninterrupted :=
    { toBase := b, locks := fun _ _ _ hs => hs, submit := x.section_.submit_keeps, drain := x.section_.drain_keeps,
      reclaim := x.section_.reclaim_keeps, harvest := y.harvest, recycle := y.recycle, rxReturn := y.rxReturn,
      shrink := y.shrink, grow := y.grow, growComplete := y.growComplete }
  exact rings.reset
    (x.section_.resetRings_keeps (uninterrupted_lenient.fullReset fun _ _ hs => hs) (.update fun _ hs => hs))
    (rings.resetFailed fun _ hs => hs)

/-! ## Around the body -/

/-- The health timer is armed or not. -/
def State.healthTimer (x : TimerState) (s : State) : State := s.mapDev fun d => { d with healthTimer := x }

/-- The health timer as it is. -/
theorem State.healthTimer_self {x : TimerState} (hx : s.dev.healthTimer = x) : s.healthTimer x = s := by
  subst hx
  rfl

/-- The timer is armed again if the device still runs. -/
def State.rearmed (s : State) : State := if s.dev.lifecycle = .running then s.healthTimer .armed else s

theorem armHealthTimer_eq (hi : s.ports.interleaved = []) : armHealthTimer h s = .ok ((), s.healthTimer .armed) := by
  rw [armHealthTimer, Op.bind_of_ok (point_nil hi)]
  rfl

section
variable (hq : s.quiet = true) (hl : s.dev.lifecycle = .running) (ha : s.dev.healthTimer = .armed)
include hq hl ha

/-- Past its first two gates the check has taken the timer. -/
theorem healthCheck_gates : healthCheck h s = (do
    point h
    let detected ← read (fun s => decide (s.link.phase = .done))
    if !detected then do
      armHealthTimer h
      pure .ok
    else do
      point h
      let r ← healthBody h
      point h
      let still ← read (fun s => decide (s.dev.lifecycle = .running))
      if still then armHealthTimer h else pure ()
      pure r : Op Status) (s.healthTimer .idle) := by
  obtain ⟨-, hi, -⟩ := State.of_quiet hq
  have hrunning : (!decide ((s.healthTimer .idle).dev.lifecycle = .running)) = false := by
    show (!decide (s.dev.lifecycle = .running)) = false
    rw [hl]
    rfl
  rw [healthCheck, Op.bind_of_ok (read_apply _ s), ha, if_neg (by decide), Op.bind_of_ok (point_nil hi),
    Op.bind_of_ok (updateDev_apply _ s)]
  refine (Op.bind_of_ok (point_nil (s := s.healthTimer .idle) hi)).trans ?_
  rw [Op.bind_of_ok (read_apply _ _), hrunning, if_neg (by decide)]

theorem healthCheck_detecting (hp : s.link.phase ≠ .done) : healthCheck h s = .ok (.ok, s) := by
  obtain ⟨-, hi, -⟩ := State.of_quiet hq
  have hpoint : point h (s.healthTimer .idle) = .ok ((), s.healthTimer .idle) := point_nil hi
  have hdetected : (!decide ((s.healthTimer .idle).link.phase = .done)) = true := by
    show (!decide (s.link.phase = .done)) = true
    rw [decide_eq_false hp]
    rfl
  rw [healthCheck_gates hq hl ha, Op.bind_of_ok hpoint, Op.bind_of_ok (read_apply _ _), hdetected, if_pos rfl,
    Op.bind_of_ok (armHealthTimer_eq (by exact hi)), Op.pure_apply]
  exact congrArg (fun x => Except.ok (Status.ok, x)) (State.healthTimer_self ha)

theorem healthCheck_eq (hp : s.link.phase = .done) (hr : healthBody h (s.healthTimer .idle) = .ok (r, t))
    (ht : t.ports.interleaved = []) : healthCheck h s = .ok (r, t.rearmed) := by
  obtain ⟨-, hi, -⟩ := State.of_quiet hq
  have hpoint : point h (s.healthTimer .idle) = .ok ((), s.healthTimer .idle) := point_nil hi
  have hdetected : (!decide ((s.healthTimer .idle).link.phase = .done)) = false := by
    show (!decide (s.link.phase = .done)) = false
    rw [hp]
    rfl
  rw [healthCheck_gates hq hl ha, Op.bind_of_ok hpoint, Op.bind_of_ok (read_apply _ _), hdetected, if_neg (by decide),
    Op.bind_of_ok hpoint, Op.bind_of_ok hr, Op.bind_of_ok (point_nil ht), Op.bind_of_ok (read_apply _ t), State.rearmed]
  by_cases hrun : t.dev.lifecycle = .running
  · rw [if_pos (decide_eq_true hrun), if_pos hrun]
    exact Op.bind_of_ok (armHealthTimer_eq ht)
  · rw [if_neg (mt of_decide_eq_true hrun), if_neg hrun]
    rfl

/-- Where the body is a RESET, that RESET's result is passed on. -/
theorem exec_healthCheck_resets (hp : s.link.phase = .done) (hi : u.ports.interleaved = []) (hports : u.ports = s.ports)
    (hbody : healthBody (handlerOf s) (s.healthTimer .idle) = reset (handlerOf s) u) (ht : exec .reset u = .next t) :
    exec .healthCheck s = .next
      (if t.dev.lifecycle = .running then { t with dev := { t.dev with healthTimer := .armed } } else t) := by
  have hsame : handlerOf u = handlerOf s := by rw [handlerOf, handlerOf, hports]
  obtain ⟨r, w, hw, rfl⟩ := answer_eq_next.1 ht
  rw [hsame] at hw
  have hquiet : w.ports.interleaved = [] := uninterrupted_reset u r w hi hw
  refine (answer_of_ok (healthCheck_eq hq hl ha hp (hbody.trans hw) hquiet)).trans (congrArg Host.Outcome.next ?_)
  show w.rearmed.withResult (some r) = if w.dev.lifecycle = .running then _ else _
  rw [State.rearmed]
  split <;> rfl

/-- Where the body leaves the device running, everything but the body's own changes is as before. -/
theorem exec_healthCheck (hp : s.link.phase = .done)
    (hbody : healthBody (handlerOf s) (s.healthTimer .idle) = .ok (r, t.healthTimer .idle)) (ht : t.ports.interleaved = [])
    (hdev : t.dev = s.dev) : exec .healthCheck s = .next { t with result := some r } := by
  have hrearmed : (t.healthTimer .idle).rearmed = t := by
    have hrun : (t.healthTimer .idle).dev.lifecycle = .running := (congrArg Device.lifecycle hdev).trans hl
    rw [State.rearmed, if_pos hrun]
    exact State.healthTimer_self ((congrArg Device.healthTimer hdev).trans ha)
  refine (answer_of_ok (healthCheck_eq hq hl ha hp hbody ht)).trans ?_
  rw [hrearmed]
  rfl

end

/-! ## The hang test -/

theorem hangCheck_empty (hbusy : s.tx.busyCount = 0) : hangCheck h s = .ok (false, s) := by
  rw [hangCheck, Op.bind_of_ok (read_apply _ s), id, if_neg (by rw [hbusy]; decide), Op.pure_apply]

/-- The head slot counted once more. -/
def State.retried (s : State) : State :=
  s.mapTx fun x => x.mapShadow s.tx.head fun sh => { sh with retryCount := sh.retryCount + 1 }

/-- The head slot of a ring in use is not completed, its descriptor laid out. -/
structure State.HeadStuck (s : State) : Prop where
  inside : s.ports.interleaved = []
  busy : 0 < s.tx.busyCount
  head : s.tx.head < s.cfg.numTcb
  laidOut : s.txLaidOut = true
  notDone : s.tdC s.tx.head = false

theorem hangCheck_counts (hs : s.HeadStuck) : hangCheck h s =
    .ok (decide (s.cfg.hangThreshold < (s.tx.shadowAt s.tx.head).retryCount + 1), s.retried) := by
  have hlen : s.tx.head < s.tx.shadow.length := (State.txLaidOut_iff.1 hs.laidOut).2 ▸ hs.head
  have hread : host h (readTdC s.tx.head) s = .ok (false, s) := by
    rw [host_nil hs.inside, readTdC_eq (State.slot_inSpace (State.txLaidOut_iff.1 hs.laidOut).1 hs.head), hs.notDone]
  have hcount : (s.retried.tx.shadowAt s.tx.head).retryCount = (s.tx.shadowAt s.tx.head).retryCount + 1 :=
    congrArg TxShadow.retryCount (TxRing.shadowAt_mapShadow_same hlen _)
  rw [hangCheck, Op.bind_of_ok (read_apply _ s), id, if_pos hs.busy, Op.bind_of_ok hread, if_neg (by decide),
    Op.bind_of_ok (updateTx_apply _ s), read_apply]
  show Except.ok (decide (s.cfg.hangThreshold < (s.retried.tx.shadowAt s.tx.head).retryCount), s.retried) = _
  rw [hcount]

/-! ## The re-probe -/

/-- The link results as the selected transceiver shows them. -/
def Link.reprobed (x : PhyRecord) (l : Link) : Link :=
  if x.present && x.linkUp then { l with speed := x.speed, duplex := x.duplex, media := .connected }
  else { l with media := .disconnected }

theorem reprobe_addr (hi : s.ports.interleaved = []) (hx : s.link.selected = .addr a) :
    ∃ up, reprobe h s = .ok (up, s.mapLink (Link.reprobed (phyRecordOf s.regs.phystat[a]))) := by
  have hset : ∀ f, host h (updateLink f) s = .ok ((), s.mapLink f) := fun f => host_nil hi
  have hprobe : reprobe h s = (do
      let old ← read (fun s => s.link.media)
      if (phyRecordOf s.regs.phystat[a]).present && (phyRecordOf s.regs.phystat[a]).linkUp then do
        host h (updateLink (fun l => { l with
          speed := (phyRecordOf s.regs.phystat[a]).speed, duplex := (phyRecordOf s.regs.phystat[a]).duplex,
          media := .connected }))
        pure (decide (old = .disconnected))
      else do
        host h (updateLink (fun l => { l with media := .disconnected }))
        pure false : Op Bool) s := by
    rw [reprobe, Op.bind_of_ok (read_apply _ s), hx]
    exact Op.bind_of_ok (phyProbe_eq hi)
  rw [hprobe, Op.bind_of_ok (read_apply _ s), Op.ite_apply, Op.bind_of_ok (hset _), Op.bind_of_ok (hset _)]
  unfold Link.reprobed
  split
  · exact ⟨_, rfl⟩
  · exact ⟨_, rfl⟩

theorem reprobe_wiring (hx : s.link.selected = .alternateWiring) : reprobe h s = .ok (false, s) := by
  rw [reprobe, Op.bind_of_ok (read_apply _ s), hx]
  rfl

/-! ## The body -/

section
variable (hfree : s.locks = Locks.free) (hi : s.ports.interleaved = [])
include hi

theorem healthBody_broken (he : s.dev.hardwareError = true) : healthBody h s = reset h s := by
  rw [healthBody, Op.bind_of_ok (read_apply _ s), Op.bind_of_ok (point_nil hi), he, if_pos rfl]

include hfree

/-- The hang test under lock `tx`, and what follows it. -/
theorem healthBody_tests {hung : Bool} (he : s.dev.hardwareError = false)
    (hr : hangCheck h (s.holding (Locks.free.put .tx true)) = .ok (hung, t.holding (Locks.free.put .tx true)))
    (ht : t.locks = Locks.free) (hti : t.ports.interleaved = []) : healthBody h s =
      (if hung then reset h else do
        lock .dev
        let up ← reprobe h
        unlock .dev
        point h
        if up then do
          let _ ← drain h
          point h
        else pure ()
        let _ ← ensureStarted h
        pure .ok : Op Status) t := by
  rw [healthBody, Op.bind_of_ok (read_apply _ s), Op.bind_of_ok (point_nil hi), he, if_neg (by decide),
    Op.bind_of_ok (lock_first hfree), Op.bind_of_ok hr, Op.bind_of_ok (unlock_last ht), Op.bind_of_ok (point_nil hti)]

/-- A link that is not new, or with nothing queued, and a receive unit that is ready leave nothing to do. -/
theorem healthBody_probes {up : Bool} (he : s.dev.hardwareError = false)
    (hr : hangCheck h (s.holding (Locks.free.put .tx true)) = .ok (false, t.holding (Locks.free.put .tx true)))
    (ht : t.locks = Locks.free) (hti : t.ports.interleaved = [])
    (hp : reprobe h (t.holding (Locks.free.put .dev true)) = .ok (up, u.holding (Locks.free.put .dev true)))
    (hu : u.locks = Locks.free) (hui : u.ports.interleaved = []) (hl : u.dev.lifecycle = .running)
    (hready : statusRus u.regs.status = unitActive) (hw : up = true → u.tx.waitQueue = []) :
    healthBody h s = .ok (.ok, u) := by
  obtain ⟨b, hensure⟩ := ensureStarted_unchanged (h := h) hui hready
  rw [healthBody_tests hfree hi he hr ht hti, if_neg (by decide), Op.bind_of_ok (lock_first ht), Op.bind_of_ok hp,
    Op.bind_of_ok (unlock_last hu), Op.bind_of_ok (point_nil hui)]
  cases up with
  | true =>
    rw [if_pos rfl, Op.bind_of_ok (drain_empty hl hu hui (hw rfl)), Op.bind_of_ok (point_nil hui)]
    exact Op.bind_of_ok hensure
  | false =>
    rw [if_neg (by decide)]
    exact Op.bind_of_ok hensure

end

/-- Settles O22: the gates, then the body: a RESET under the flag or past the threshold, else the re-probe. -/
theorem healthCheckProbesCountsAndResets : Obligations.HealthCheckProbesCountsAndResets := by
  intro s hq hl ha
  obtain ⟨hfree, hi, -⟩ := State.of_quiet hq
  refine ⟨fun hp => ?detecting, fun t hp he ht => ?broken, fun a hp he hbusy hw hx hr => ?probes,
    fun hp he hbusy hhead hs hC hn hx hr => ?counts, fun t hp he hbusy hhead hs hC hn ht => ?hung⟩
  case detecting => exact answer_of_ok (healthCheck_detecting hq hl ha hp)
  case broken =>
    exact exec_healthCheck_resets (u := s.healthTimer .idle) hq hl ha hp hi rfl
      (healthBody_broken (s := s.healthTimer .idle) hi he) ht
  case probes =>
    obtain ⟨up, hprobe⟩ :=
      reprobe_addr (h := handlerOf s) (s := (s.healthTimer .idle).holding (Locks.free.put .dev true)) hi hx
    exact exec_healthCheck (t := s.mapLink (Link.reprobed (phyRecordOf s.regs.phystat[a]))) hq hl ha hp
      (healthBody_probes hfree hi he (hangCheck_empty hbusy) hfree hi hprobe hfree hi hl hr fun _ => hw) hi rfl
  all_goals
    have hstuck : ((s.healthTimer .idle).holding (Locks.free.put .tx true)).HeadStuck := ⟨hi, hbusy, hhead, hs, hC⟩
    have htest := hangCheck_counts (h := handlerOf s) hstuck
  case counts =>
    have hbelow : decide (s.cfg.hangThreshold < (s.tx.shadowAt s.tx.head).retryCount + 1) = false :=
      decide_eq_false hn.not_gt
    have hcounted : hangCheck (handlerOf s) ((s.healthTimer .idle).holding (Locks.free.put .tx true)) =
        .ok (false, (s.healthTimer .idle).retried.holding (Locks.free.put .tx true)) := hbelow ▸ htest
    exact exec_healthCheck (t := s.retried) hq hl ha hp
      (healthBody_probes (s := s.healthTimer .idle) (t := (s.healthTimer .idle).retried) hfree hi he hcounted hfree hi
        (reprobe_wiring (by exact hx)) hfree hi hl hr nofun) hi rfl
  case hung =>
    have hpast : decide (s.cfg.hangThreshold < (s.tx.shadowAt s.tx.head).retryCount + 1) = true := decide_eq_true hn
    have hcounted : hangCheck (handlerOf s) ((s.healthTimer .idle).holding (Locks.free.put .tx true)) =
        .ok (true, (s.healthTimer .idle).retried.holding (Locks.free.put .tx true)) := hpast ▸ htest
    exact exec_healthCheck_resets (u := (s.healthTimer .idle).retried) hq hl ha hp hi rfl
      (healthBody_tests (s := s.healthTimer .idle) (t := (s.healthTimer .idle).retried) hfree hi he hcounted hfree hi) ht

end Sys2Proof.Machine
end

