-- ==== Sys2Proof/Proofs/EmptyPoints.lean ====
section
/-!
PROOF. Operations that pass points at which nothing is scheduled: how many, where a later point of the same schedule has a step of
another agent (spec/20_memory.md R82, spec/60_exceptions.md R281). The counts add up along an operation.
-/
namespace Sys2Proof.Machine

-- The checker compiles the whole text as one: proofs elaborated one after the other keep that within its memory.
set_option Elab.async false

variable {α β : Type} {h : Handler} {n c : Nat} {s t u : State} {a : α} {b : β} {m : Op α} {k : α → Op β}
  {ls : Locks} {l : Lock}

/-- From `s` the operation passes `n` points at which nothing is scheduled, and answers `a` in `t`. -/
def Passes (n : Nat) (m : Op α) (s : State) (a : α) (t : State) : Prop :=
  ∀ rest, m (s.withInside (List.replicate n [] ++ rest)) = .ok (a, t.withInside rest)

namespace Passes

/-- What follows the operation begins where its points end. -/
theorem then_eq (hm : Passes n m s a t) (rest : List (List Stimulus)) :
    (m >>= k) (s.withInside (List.replicate (n + c) [] ++ rest)) = k a (t.withInside (List.replicate c [] ++ rest)) := by
  rw [List.replicate_add, List.append_assoc]
  exact Op.bind_of_ok (hm _)

theorem bind (hm : Passes n m s a t) (hk : Passes c (k a) t b u) : Passes (n + c) (m >>= k) s b u :=
  fun rest => (hm.then_eq rest).trans (hk rest)

/-- The same operation under another name of the count. -/
theorem cost (hm : Passes n m s a t) (hn : c = n) : Passes c m s a t := hn ▸ hm

theorem pure (s : State) (a : α) : Passes 0 (pure a) s a s := fun _ => rfl

theorem point (s : State) : Passes 1 (point h) s () s := fun _ => point_cons_nil rfl

theorem host (hm : Passes n m s a t) : Passes (1 + n) (host h m) s a t := (point s).bind hm

theorem read {v : State → α} (hv : ∀ l, v (s.withInside l) = v s := by exact fun _ => rfl) :
    Passes 0 (read v) s (v s) s := by
  intro rest
  rw [read_apply, hv]
  rfl

theorem update {f : State → State} (hf : ∀ l, f (s.withInside l) = (f s).withInside l := by exact fun _ => rfl) :
    Passes 0 (update f) s () (f s) := by
  intro rest
  rw [update_apply]
  exact congrArg (fun x => Except.ok ((), x)) (hf rest)

theorem lock (hm : ls.mine.mayTake l = true := by rfl) (ho : ls.others.has l = false := by rfl) :
    Passes 0 (lock l) (s.holding ls) () (s.holding (ls.put l true)) := fun rest => lock_holding (s := s.withInside rest) hm ho

theorem lock_first (hfree : s.locks = Locks.free) : Passes 0 (Machine.lock l) s () (s.holding (Locks.free.put l true)) :=
  fun rest => Machine.lock_first (s := s.withInside rest) hfree

theorem unlock : Passes 0 (unlock l) (s.holding ls) () (s.holding (ls.put l false)) := update

theorem unlock_last (hfree : s.locks = Locks.free) : Passes 0 (Machine.unlock l) (s.holding (Locks.free.put l true)) () s :=
  fun rest => Machine.unlock_last (s := s.withInside rest) hfree

/-- An access outside an INTERRUPT. -/
theorem sync (hs : s.ports.isrActive = false) (hm : Passes n m s a t) : Passes (1 + n) (sync h m) s a t := by
  refine (point s).bind (cost (.bind read ?_) (Nat.zero_add n).symm)
  rw [hs, if_neg (by decide)]
  exact hm

/-- A callback has a point before it and one in it. -/
theorem callbacks (hl : s.locks.mine = Held.none) (es : List Event) :
    Passes (2 * es.length) (callbacks h es) s () (s.mapEvents fun xs => xs ++ es) := by
  induction es generalizing s with
  | nil =>
    have hsame : (s.mapEvents fun xs => xs ++ []) = s := by
      rw [State.mapEvents, List.append_nil]
    rw [hsame]
    exact pure s ()
  | cons e es ih =>
    have hemit : Passes 0 (emit e) s () (s.mapEvents fun xs => xs ++ [e]) := fun rest => emit_eq (s := s.withInside rest) hl
    have hback : Passes 1 (callback h e) s () (s.mapEvents fun xs => xs ++ [e]) :=
      cost (hemit.bind (point _)) rfl
    have hrest := ih (s := s.mapEvents fun xs => xs ++ [e]) hl
    have hall : ((s.mapEvents fun xs => xs ++ [e]).mapEvents fun xs => xs ++ es) = s.mapEvents fun xs => xs ++ e :: es := by
      simp only [State.mapEvents, List.append_assoc, List.singleton_append]
    rw [hall] at hrest
    refine cost ((point s).bind (hback.bind hrest)) ?_
    rw [List.length_cons]
    omega

end Passes

end Sys2Proof.Machine
end

