-- ==== Sys2Proof/Proofs/Reset.lean ====
section
/-!
PROOF. RESET (spec/45_device_control.md R242) on a device that answers: the points it passes up to the verification, at whose
first poll the Acceptor takes the restart, and what is left after it.
-/
namespace Sys2Proof.Machine

-- The checker compiles the whole text as one: proofs elaborated one after the other keep that within its memory.
set_option Elab.async false

variable {h : Handler} {s t u : State} {m m' : Memory} {a b d x : Nat} {as ds : List Nat}

/-! ## Headers whose status is cleared -/

/-- The header at `a` reads `C` 0, `OK` 0, `V` 0 and count 0. -/
def Memory.RdCleared (m : Memory) (a : Nat) : Prop :=
  m.rdC a = false ∧ m.rdOK a = false ∧ m.rdV a = false ∧ m.rdCount a = 0

theorem Memory.RdCleared.congr (hm : m.RdCleared a) (he : ∀ x, a ≤ x → x < a + 14 → m'.byte x = m.byte x) :
    m'.RdCleared a := by
  unfold Memory.RdCleared
  rwa [Memory.rdC_congr fun x _ _ => he x (by omega) (by omega), Memory.rdOK_congr fun x _ _ => he x (by omega) (by omega),
    Memory.rdV_congr fun x _ _ => he x (by omega) (by omega), Memory.rdCount_congr fun x _ _ => he x (by omega) (by omega)]

/-- The memory after the two writes by which RESET re-arms the header at `a`. -/
def statusCleared (m : Memory) (a : Nat) : Memory :=
  (m.write16 (a + 12) (rdCountWord 0 false)).write16 a (rdStatusWord false false)

theorem statusCleared_wf (hm : m.wf = true) (a : Nat) : (statusCleared m a).wf = true :=
  Memory.wf_write16 (Memory.wf_write16 hm _ _) _ _

theorem statusCleared_outside (hx : (x < a ∨ a + 2 ≤ x) ∧ (x < a + 12 ∨ a + 14 ≤ x)) :
    (statusCleared m a).byte x = m.byte x := by
  rw [statusCleared, Memory.byte_write16_outside _ a _ hx.1, Memory.byte_write16_outside _ (a + 12) _ (by omega)]

theorem statusCleared_rdCleared (hm : m.wf = true) (a : Nat) : (statusCleared m a).RdCleared a := by
  have hstatus : (statusCleared m a).read16 a = rdStatusWord false false :=
    Memory.read16_write16 (Memory.wf_write16 hm _ _) a _
  have hcount : (statusCleared m a).read16 (a + 12) = rdCountWord 0 false :=
    (Memory.read16_congr _ fun x _ _ => Memory.byte_write16_outside _ a _ (by omega)).trans (Memory.read16_write16 hm (a + 12) _)
  exact ⟨by rw [Memory.rdC, hstatus]; rfl, by rw [Memory.rdOK, hstatus]; rfl, by rw [Memory.rdV, hcount]; rfl,
    by rw [Memory.rdCount, hcount]; rfl⟩

theorem foldl_statusCleared_outside (hx : ∀ a ∈ as, (x < a ∨ a + 2 ≤ x) ∧ (x < a + 12 ∨ a + 14 ≤ x)) :
    (as.foldl statusCleared m).byte x = m.byte x := by
  induction as generalizing m with
  | nil => rfl
  | cons a as ih =>
    obtain ⟨ha, has⟩ := List.forall_mem_cons.1 hx
    rw [List.foldl_cons, ih has, statusCleared_outside ha]

/-- Every header written is cleared at the end: those written after it are other headers, or it again. -/
theorem foldl_statusCleared_rdCleared (hm : m.wf = true)
    (hapart : ∀ a ∈ as, ∀ b ∈ as, a = b ∨ a + 16 ≤ b ∨ b + 16 ≤ a) (hb : b ∈ as) :
    (as.foldl statusCleared m).RdCleared b := by
  induction as generalizing m with
  | nil => cases hb
  | cons a as ih =>
    have hwf := statusCleared_wf hm a
    have hrest : ∀ x ∈ as, ∀ y ∈ as, x = y ∨ x + 16 ≤ y ∨ y + 16 ≤ x := fun x hx y hy =>
      hapart x (List.mem_cons_of_mem a hx) y (List.mem_cons_of_mem a hy)
    by_cases hlater : b ∈ as
    · exact ih hwf hrest hlater
    · obtain rfl : b = a := (List.mem_cons.1 hb).resolve_right hlater
      rw [List.foldl_cons]
      refine (statusCleared_rdCleared hm b).congr fun x _ _ => foldl_statusCleared_outside fun c hc => ?_
      have hbc : b + 16 ≤ c ∨ c + 16 ≤ b :=
        (hapart b List.mem_cons_self c (List.mem_cons_of_mem b hc)).resolve_left fun he => hlater (he ▸ hc)
      omega

/-! ## The headers of posted descriptors -/

/-- Where the headers of the posted descriptors lie. -/
def State.postedAddrs (s : State) : List Nat := s.rx.readyList.filterMap s.rdAddr?

theorem State.mem_postedAddrs : a ∈ s.postedAddrs ↔ ∃ d ∈ s.rx.readyList, s.rdAddr? d = some a := List.mem_filterMap

/-- Two posted headers are the same one or share no byte. -/
theorem State.postedAddrs_apart (hs : s.rxLaidOut = true) :
    ∀ a ∈ s.postedAddrs, ∀ b ∈ s.postedAddrs, a = b ∨ a + 16 ≤ b ∨ b + 16 ≤ a := by
  intro a ha b hb
  obtain ⟨d, -, hd⟩ := State.mem_postedAddrs.1 ha
  obtain ⟨q, -, hq⟩ := State.mem_postedAddrs.1 hb
  by_cases he : d = q
  · subst he
    exact .inl (Option.some.inj (hd.symm.trans hq))
  · exact .inr (State.rd_apart hs he hd hq)

/-- In a laid-out pool an address names the one descriptor that stands there. -/
theorem State.rdAt?_eq_some (hs : s.rxLaidOut = true) (ha : s.rdAddr? d = some a) : s.rdAt? a = some d := by
  obtain ⟨sh, hsh, haddr⟩ := State.rdAddr?_eq_some.1 ha
  obtain ⟨e, he⟩ : ∃ e, s.rx.shadows.find? (fun e => e.2.hwAddress == some a) = some e := by
    refine Option.isSome_iff_exists.1 (List.find?_isSome.2 ⟨_, RxRing.mem_of_shadow? hsh, ?_⟩)
    simpa using haddr
  have hea : e.2.hwAddress = some a := by simpa using List.find?_some he
  have hsame : e.1 = d := by
    by_contra hne
    simp only [State.rxLaidOut, Bool.and_eq_true, decide_eq_true_eq] at hs
    obtain ⟨⟨hpair, -⟩, -⟩ := hs
    have : Std.Symm fun e f : Nat × RxShadow => separateHeaders e.2.hwAddress f.2.hwAddress = true :=
      ⟨fun e f h => (separateHeaders_comm _ _).trans h⟩
    have happart := hpair.forall (List.mem_of_find?_eq_some he) (RxRing.mem_of_shadow? hsh) fun hpe => hne (congrArg Prod.fst hpe)
    rw [hea, haddr, separateHeaders_some] at happart
    omega
  rw [State.rdAt?, he, Option.map_some, hsame]

/-- An address of the address space is read back from the word that holds it. -/
theorem addrWord_toNat {k : Nat} (hs : inSpace a k = true) (hk : 0 < k) : (addrWord a).toNat = a := by
  have hlt : a + k ≤ 2 ^ 32 := of_decide_eq_true hs
  rw [addrWord, BitVec.toNat_ofNat, Nat.mod_eq_of_lt (by omega)]

/-! ## RESET up to the callbacks -/

/-- The interrupt masked. -/
def State.masked (s : State) : State := s.mapRegs fun g => { g with intmask := 1 }

/-- The full port reset (R200). -/
def State.unitsReset (s : State) : State :=
  { s with
    regs := { s.regs with
      status := idled s.regs.status &&& ~~~causeMask, command := 0, pointer := 0, intmask := s.regs.intmask ||| 1 }
    units := ⟨0, none, .none⟩ }

/-- The full port reset, the error flag cleared. -/
def State.portReset (s : State) : State := s.unitsReset.mapDev fun d => { d with hardwareError := false }

/-- What the reset of the device and of the transmit ring leaves. -/
def State.transmitReset (s : State) : State :=
  s.masked.portReset.rebuilt.mapTx fun x => { x with transmitIdle := true, resumeWaitNeeded := true }

/-- After both rings: the posted headers are cleared as well. -/
def State.ringsReset (s : State) : State := s.transmitReset.mapMem fun m => s.postedAddrs.foldl statusCleared m

theorem initDescriptors_passes (is : List Nat) (hs : ∀ i ∈ is, inSpace (s.tdAddr i) 12 = true) :
    Passes (4 * is.length) (initDescriptors h is) s () (s.mapMem (s.freshDescriptors is)) := by
  induction is generalizing s with
  | nil => exact .pure s ()
  | cons i is ih =>
    obtain ⟨hsi, hsis⟩ := List.forall_mem_cons.1 hs
    have hC : Passes 0 (writeTdC i true) s () (s.mapMem fun m => m.write16 (s.tdAddr i) (tdStatusWord true)) :=
      fun rest => writeTdC_eq (s := s.withInside rest) hsi
    have hS : ∀ f, Passes 0 (writeTdS i false) (s.mapMem f) () (s.mapMem fun m =>
        (f m).write16 (s.tdAddr i + 2) (tdCommandWord false)) :=
      fun f rest => writeTdS_eq (s := (s.mapMem f).withInside rest) hsi
    have hnext : ∀ f, Passes 0 (read fun s => s.tdAddr (s.cfg.next i)) (s.mapMem f) (s.tdAddr (s.cfg.next i)) (s.mapMem f) :=
      fun _ _ => rfl
    have hlink : ∀ f, Passes 0 (writeTdLink i (s.nextLink i)) (s.mapMem f) () (s.mapMem fun m =>
        (f m).write32 (s.tdAddr i + 4) (s.nextLink i)) :=
      fun f rest => writeTdLink_eq (s := (s.mapMem f).withInside rest) hsi
    have hcount : ∀ f, Passes 0 (writeTdFragCount i 0) (s.mapMem f) () (s.mapMem fun m => (f m).setByte (s.tdAddr i + 8) 0) :=
      fun f rest => writeTdFragCount_eq (s := (s.mapMem f).withInside rest) hsi
    have hrest : Passes (4 * is.length) (initDescriptors h is)
        (s.mapMem (freshDescriptor (s.tdAddr i) (s.nextLink i))) () (s.mapMem (s.freshDescriptors (i :: is))) := by
      have hih := ih (s := s.mapMem (freshDescriptor (s.tdAddr i) (s.nextLink i))) hsis
      rwa [funext (State.freshDescriptors_mapMem s _ is)] at hih
    refine .cost (.bind (.host hC) (.bind (.host (hS _)) (.bind (hnext _) (.bind (.host (hlink _)) (.bind (.host (hcount _))
      hrest))))) ?_
    rw [List.length_cons]
    omega

theorem abortHeld_passes (hs : s.txLaidOut = true) :
    Passes (4 * s.cfg.numTcb) (abortHeld h) s s.heldPackets s.rebuilt := by
  have hinit := initDescriptors_passes (h := h) (List.range s.cfg.numTcb) fun i hr =>
    State.tdHeader_inSpace hs (List.mem_range.1 hr)
  rw [List.length_range] at hinit
  exact .cost (.bind .read (.bind (.bind .read (.bind hinit (.bind .read .update))) (.pure _ _))) (by omega)

theorem rearmPosted_passes (hs : ∀ d ∈ ds, ∃ a, s.rdAddr? d = some a ∧ inSpace a 16 = true) :
    Passes (2 * ds.length) (rearmPosted h ds) s () (s.mapMem fun m => (ds.filterMap s.rdAddr?).foldl statusCleared m) := by
  induction ds generalizing s with
  | nil => exact .pure s ()
  | cons d ds ih =>
    obtain ⟨⟨a, ha, hsa⟩, hsds⟩ := List.forall_mem_cons.1 hs
    have hcount : Passes 0 (writeRdCount d 0 false) s () (s.mapMem fun m => m.write16 (a + 12) (rdCountWord 0 false)) :=
      fun rest => writeRdCount_eq (s := s.withInside rest) ha hsa 0 false
    have hstatus : ∀ f, Passes 0 (writeRdStatus d false false) (s.mapMem f) () ((s.mapMem f).mapMem fun m =>
        m.write16 a (rdStatusWord false false)) :=
      fun f rest => writeRdStatus_eq (s := (s.mapMem f).withInside rest) ha hsa false false
    have hrest := ih (s := s.mapMem fun m => statusCleared m a) hsds
    rw [List.filterMap_cons_some ha]
    refine .cost (.bind (.host hcount) (.bind (.host (hstatus _)) hrest)) ?_
    rw [List.length_cons]
    omega

/-- The locks of a RESET: `dev`, `tx`, `rx`, taken in that order. -/
def Locks.devTxRx : Locks := ((Locks.free.put .dev true).put .tx true).put .rx true

section
variable (hfree : s.locks = Locks.free) (ht : s.txLaidOut = true) (hr : s.rxLaidOut = true)
include hfree ht hr

/-- From the mask to the last unlock. -/
theorem resetRings_passes (hs : s.ports.isrActive = false) :
    Passes (6 + 4 * s.cfg.numTcb + 2 * s.rx.readyList.length) (resetRings h) (s.holding (Locks.free.put .dev true))
      s.heldPackets s.ringsReset := by
  have hmask : Passes 1 (setMask h 1) (s.holding (Locks.free.put .dev true)) () (s.masked.holding (Locks.free.put .dev true)) :=
    .cost (.sync (n := 0) (s := s.holding _) hs fun _ => rfl) rfl
  have hport : Passes 1 (host h (regWrite .port 2)) (s.masked.holding Locks.devTxRx) ()
      (s.masked.unitsReset.holding Locks.devTxRx) := .cost (.host (n := 0) fun _ => fullReset_apply _) rfl
  have habort : Passes (4 * s.cfg.numTcb) (abortHeld h) (s.masked.portReset.holding Locks.devTxRx) s.heldPackets
      (s.masked.portReset.rebuilt.holding Locks.devTxRx) := by
    have hpass := abortHeld_passes (h := h) (s := s.masked.portReset.holding Locks.devTxRx) ht
    rwa [State.rebuilt_holding] at hpass
  have hcmd : Passes 0 (unlock .cmd) (s.transmitReset.holding (Locks.devTxRx.put .cmd true)) ()
      (s.transmitReset.holding Locks.devTxRx) := .unlock
  have hrearm : Passes (2 * s.rx.readyList.length) (rearmPosted h s.rx.readyList) (s.transmitReset.holding Locks.devTxRx) ()
      (s.ringsReset.holding Locks.devTxRx) :=
    rearmPosted_passes (s := s.transmitReset.holding Locks.devTxRx) fun d hd => by
      obtain ⟨a, ha⟩ := State.rdAddr?_of_mem_readyList hr hd
      exact ⟨a, ha, State.rd_inSpace hr ha⟩
  have hrx : Passes 0 (unlock .rx) (s.ringsReset.holding Locks.devTxRx) () (s.ringsReset.holding Locks.devTx) := .unlock
  have htx : Passes 0 (unlock .tx) (s.ringsReset.holding Locks.devTx) () (s.ringsReset.holding (Locks.free.put .dev true)) :=
    .unlock
  have hdev : Passes 0 (unlock .dev) (s.ringsReset.holding (Locks.free.put .dev true)) () s.ringsReset := .unlock_last hfree
  refine .cost (.bind hmask (.bind (.point _) (.bind .lock (.bind (.point _) (.bind .lock (.bind hport (.bind (.point _)
    (.bind .update (.bind habort (.bind (.point _) (.bind .lock (.bind .update (.bind hcmd (.bind .read
      (.bind hrearm (.bind hrx (.bind htx (.bind hdev (.pure _ _))))))))))))))))))) ?_
  omega

end

/-! ## The restart of the receive unit -/

theorem writeCommand_ruStart (hc : commandCode s.regs.command = 0) :
    writeCommand (codeRuStart.setWidth 32) s = .ok ((), s.mapRegs fun g => { g with command := 3 }) := by
  have hcode : (codeRuStart.setWidth 32 &&& 0xFF : Word) = 3 := by decide
  refine writeCommand_ok.2 ⟨.inl (by decide), by rw [hc]; rfl, by rw [hcode]⟩

/-- With the command register clear the wait ends at its first poll, and the start is written. -/
theorem issueLocked_passes (he : s.dev.hardwareError = false) (hb : 1 ≤ s.cfg.acceptPollBudget)
    (hc : commandCode s.regs.command = 0) :
    Passes 3 (issueLocked h codeRuStart true (addrWord a)) s .ok (s.receiveStarted a) := by
  obtain ⟨n, hn⟩ := Nat.exists_eq_add_of_le' hb
  have hwait : Passes 1 (waitAcceptLocked h (n + 1)) s true s := fun rest => waitAcceptLocked_accepts (point_cons_nil rfl) hc
  have hpointer : Passes 1 (host h (regWrite .pointer (addrWord a))) s () (s.mapRegs fun g => { g with pointer := addrWord a }) :=
    .cost (.host (n := 0) .update) rfl
  have hcommand : Passes 1 (host h (regWrite .command (codeRuStart.setWidth 32)))
      (s.mapRegs fun g => { g with pointer := addrWord a }) ()
      (s.mapRegs fun g => { g with pointer := addrWord a, command := 3 }) :=
    .cost (.host (n := 0) fun _ => writeCommand_ruStart hc) rfl
  refine .cost (.bind .read ?_) (by rfl : 3 = 0 + 3)
  rw [he, if_neg (by decide)]
  refine .cost (.bind .read ?_) (by rfl : 3 = 0 + 3)
  rw [hn, if_pos rfl]
  refine .cost (.bind hwait (.bind .read ?_)) (by rfl : 3 = 1 + (0 + 2))
  rw [he, if_neg (by decide), if_pos (by decide)]
  exact .cost (.bind hpointer (.bind hcommand (.bind .update (.pure _ _)))) rfl

/-- The first posted descriptor is one that the receive unit may be started at. -/
structure State.StartableAt (s : State) (d a : Nat) : Prop where
  locks : s.locks = Locks.free
  running : s.dev.lifecycle = .running
  noError : s.dev.hardwareError = false
  budget : 1 ≤ s.cfg.acceptPollBudget
  clear : commandCode s.regs.command = 0
  idle : statusRus s.regs.status ≠ unitActive
  head : s.rx.readyList.head? = some d
  addr : s.rdAddr? d = some a
  inside : inSpace a 16 = true
  untouched : s.mem.rdC a = false ∧ s.mem.rdV a = false

/-- ENSURE_STARTED finds the head untouched and writes its start. -/
theorem ensureStarted_passes (hs : s.StartableAt d a) : Passes 9 (ensureStarted h) s .ok (s.receiveStarted a) := by
  obtain ⟨rest, hready⟩ := List.head?_eq_some_iff.1 hs.head
  obtain ⟨hC, hV⟩ := hs.untouched
  have hstatus : Passes 1 (host h (regRead .status)) s s.regs.status s := .cost (.host .read) rfl
  have hreadC : Passes 1 (host h (readRdC d)) (s.holding (Locks.free.put .rx true)) false (s.holding (Locks.free.put .rx true)) :=
    .cost (.host (n := 0) fun rest => hC ▸ readRdC_eq (s := (s.holding _).withInside rest) hs.addr hs.inside) rfl
  have hreadV : Passes 1 (host h (readRdV d)) (s.holding (Locks.free.put .rx true)) false (s.holding (Locks.free.put .rx true)) :=
    .cost (.host (n := 0) fun rest => hV ▸ readRdV_eq (s := (s.holding _).withInside rest) hs.addr hs.inside) rfl
  have hwalk : Passes 2 (firstUntouched h (d :: rest)) (s.holding (Locks.free.put .rx true)) (some d)
      (s.holding (Locks.free.put .rx true)) :=
    .cost (.bind hreadC (.bind hreadV (.pure _ _))) rfl
  have haddr : Passes 0 (rdAddrOf d) (s.holding (Locks.free.put .rx true)) a (s.holding (Locks.free.put .rx true)) :=
    fun rest => rdAddrOf_eq (s := (s.holding _).withInside rest) hs.addr
  have hissue := issueLocked_passes (h := h) (a := a) (s := s.holding ((Locks.free.put .rx true).put .cmd true))
    hs.noError hs.budget hs.clear
  have hlast : Passes 0 (unlock .rx) ((s.receiveStarted a).holding (Locks.free.put .rx true)) () (s.receiveStarted a) :=
    .unlock_last hs.locks
  have hcmd : Passes 0 (unlock .cmd) ((s.receiveStarted a).holding ((Locks.free.put .rx true).put .cmd true)) ()
      ((s.receiveStarted a).holding (Locks.free.put .rx true)) := .unlock
  have hstart : Passes 4 (startAt h (some d)) (s.holding (Locks.free.put .rx true)) .ok (s.receiveStarted a) :=
    .cost (.bind haddr (.bind (.point _) (.bind .lock (.bind hissue (.bind hcmd (.bind hlast (.pure _ _))))))) rfl
  refine .cost (.bind .read ?_) (by rfl : 9 = 0 + 9)
  rw [hs.running, if_neg (by decide)]
  refine .cost (.bind (.point s) (.bind .read ?_)) (by rfl : 9 = 1 + (0 + 8))
  rw [hs.noError, if_neg (by decide)]
  refine .cost (.bind hstatus ?_) (by rfl : 8 = 1 + 7)
  rw [if_neg hs.idle]
  refine .cost (.bind (.point s) (.bind (.lock_first hs.locks) (.bind .read ?_))) (by rfl : 7 = 1 + (0 + (0 + 6)))
  show Passes 6 (firstUntouched h s.rx.readyList >>= _) _ _ _
  rw [hready]
  refine .cost (.bind hwalk ?_) (by rfl : 6 = 2 + 4)
  rw [if_neg nofun]
  exact hstart

/-- Where the Acceptor takes the start at the first poll of the verification, the device has answered. -/
theorem resetRestart_answers (hs : s.StartableAt d a) (hacc : Accepts h (s.receiveStarted a) u) :
    resetRestart h (s.withInside (List.replicate 10 [] ++ [[.device .accept]])) = .ok (.ok, u) := by
  obtain ⟨n, hn⟩ := Nat.exists_eq_add_of_le' hs.budget
  have hwait := (hacc.withInside [[.device .accept]]).lockedCmd.waitAcceptLocked_inTime (k := n) (n := 0) rfl (Nat.zero_le _)
  have hlock : lock .cmd ((s.receiveStarted a).withInside [[.device .accept]]) = .ok ((), _) := lock_cmd_eq hs.locks
  have hlocks : u.locks = Locks.free := hacc.taken.locks.trans hs.locks
  refine ((ensureStarted_passes hs).then_eq (c := 1) _).trans ?_
  rw [if_pos rfl]
  refine ((Passes.point _).then_eq (c := 0) _).trans ?_
  rw [Op.bind_of_ok (read_apply _ _)]
  refine (Op.bind_of_ok hlock).trans ?_
  show (waitAcceptLocked h s.cfg.acceptPollBudget >>= _) _ = _
  rw [hn, Op.bind_of_ok hwait, Op.bind_of_ok (unlock_cmd_eq hlocks rfl)]
  rfl

/-! ## The whole of RESET -/

/-- The rings reset and the held packets completed, the receive unit not started yet. -/
def State.restartable (s : State) : State := s.ringsReset.mapEvents fun es => es ++ cancelled s.heldPackets

/-- The Acceptor has taken the start of the receive unit. -/
def State.restarted (d a : Nat) (s : State) : State := ((s.restartable.receiveStarted a).withInside []).ruReadied d

/-- The failures forgotten. -/
def State.failuresCleared (s : State) : State := s.mapDev fun x => { x with consecutiveResetFailures := 0 }

/-- The interrupt unmasked. -/
def State.unmasked (s : State) : State := s.mapRegs fun g => { g with intmask := 0 }

/-- The mask clear and link detection begun. -/
def State.detecting (s : State) : State :=
  (s.failuresCleared.unmasked.mapLink (Link.begin s.cfg)).mapDev fun x => { x with refCount := x.refCount + 1 }

/-- In a settled state no INTERRUPT is under way. -/
theorem State.isrActive_of_settled (hs : s.settled = true) : s.ports.isrActive = false := by
  simp only [State.settled, Bool.and_eq_true, Bool.not_eq_true'] at hs
  obtain ⟨⟨⟨⟨⟨⟨-, hisr⟩, -⟩, -⟩, -⟩, -⟩, -⟩ := hs
  exact hisr

/-- A settled state is quiet once nothing is left of its schedule. -/
theorem State.quiet_withInside_nil (hs : s.settled = true) : (s.withInside []).quiet = true := by
  rw [State.quiet]
  exact Bool.and_eq_true_iff.2 ⟨hs, rfl⟩

/-- The end of RESET from a quiet state: the failures forgotten, the mask clear, link detection begun. -/
theorem resetEnd_eq (hq : s.quiet = true) (hl : s.dev.lifecycle = .running) (hp : s.link.phase.inProgress = false) :
    (do
      point h
      lock .dev
      updateDev (fun d => { d with consecutiveResetFailures := 0 })
      unlock .dev
      setMask h 0
      point h
      let _ ← linkStart h
      pure .ok : Op Status) s = .ok (.ok, s.detecting) := by
  obtain ⟨hfree, hi, -⟩ := State.of_quiet hq
  have hunlock : unlock .dev (s.failuresCleared.holding (Locks.free.put .dev true)) = .ok ((), s.failuresCleared) :=
    unlock_last hfree
  have hmask : setMask h 0 s.failuresCleared = .ok ((), s.failuresCleared.unmasked) := setMask_eq hi (State.idle_of_quiet hq).1
  have hlink : linkStart h s.failuresCleared.unmasked = .ok (.ok, s.detecting) := linkStart_begins hq hl hp
  rw [Op.bind_of_ok (point_nil hi), Op.bind_of_ok (lock_first hfree), Op.bind_of_ok (updateDev_apply _ _)]
  refine (Op.bind_of_ok hunlock).trans ?_
  rw [Op.bind_of_ok hmask, Op.bind_of_ok (point_nil (by exact hi))]
  exact Op.bind_of_ok hlink

/-- The points that RESET passes before the first poll of its verification: one before lock `dev`, those of the rings, those of
the callbacks, one after them, and ten from ENSURE_STARTED to the verification. -/
def State.resetPoints (s : State) : Nat :=
  18 + 4 * s.cfg.numTcb + 2 * s.rx.readyList.length + 2 * s.heldPackets.length

theorem reset_recovers (hset : s.settled = true) (hl : s.dev.lifecycle = .running) (hp : s.link.phase.inProgress = false)
    (ht : s.txLaidOut = true) (hr : s.rxLaidOut = true) (hs : s.restartable.StartableAt d a)
    (hacc : Accepts h (s.restartable.receiveStarted a) (s.restarted d a)) :
    reset h (s.withInside (List.replicate s.resetPoints [] ++ [[.device .accept]])) =
      .ok (.ok, (s.restarted d a).detecting) := by
  have hfree : s.locks = Locks.free := State.locks_of_settled hset
  have hquiet : (s.restarted d a).quiet = true := State.quiet_withInside_nil hset
  have hrunning : ∀ l, (s.withInside l).dev.lifecycle = .running := fun _ => hl
  have hdev : Passes 0 (read fun x => x.link.phase.inProgress) (s.holding (Locks.free.put .dev true)) s.link.phase.inProgress
    (s.holding (Locks.free.put .dev true)) := .read
  have hrings := resetRings_passes (h := h) hfree ht hr (State.isrActive_of_settled hset)
  have hcallbacks : Passes (2 * s.heldPackets.length) (callbacks h (cancelled s.heldPackets)) s.ringsReset () s.restartable := by
    have hpass := Passes.callbacks (h := h) (s := s.ringsReset) (congrArg Locks.mine hfree) (cancelled s.heldPackets)
    rwa [cancelled, List.length_map] at hpass
  have hcount : s.resetPoints =
      1 + (0 + (0 + ((6 + 4 * s.cfg.numTcb + 2 * s.rx.readyList.length) + (2 * s.heldPackets.length + (1 + 10))))) := by
    rw [State.resetPoints]
    omega
  rw [hcount, reset, Op.bind_of_ok (read_apply _ _), hrunning, if_neg (by decide), if_neg (by decide),
    (Passes.point s).then_eq, (Passes.lock_first hfree).then_eq, hdev.then_eq, hp, if_neg (by decide), hrings.then_eq]
  refine (hcallbacks.then_eq _).trans ?_
  rw [(Passes.point _).then_eq, Op.bind_of_ok (resetRestart_answers hs hacc)]
  exact resetEnd_eq hquiet hl hp

/-! ## What it leaves in memory -/

theorem State.freshDescriptors_wf (hm : m.wf = true) (is : List Nat) : (s.freshDescriptors is m).wf = true := by
  induction is generalizing m with
  | nil => exact hm
  | cons i is ih => exact ih (freshDescriptor_wf hm _ _)

/-- STATUS with the units idle and the causes clear. -/
theorem statusCus_portReset (w : Word) : statusCus (idled w &&& ~~~causeMask) = unitIdle := by
  have hcauses : causesOf causeMask = causeMask := by decide
  rw [← hcauses, statusCus_acknowledge, statusCus_idled]

theorem statusRus_portReset (w : Word) : statusRus (idled w &&& ~~~causeMask) = unitIdle := by
  have hcauses : causesOf causeMask = causeMask := by decide
  rw [← hcauses, statusRus_acknowledge, statusRus_idled]

/-- The receive unit ready since. -/
theorem statusCus_readied (w : Word) : statusCus (withRus unitActive (idled w &&& ~~~causeMask)) = unitIdle :=
  (statusCus_withRus _ _).trans (statusCus_portReset w)

theorem causesOf_readied (w : Word) : causesOf (withRus unitActive (idled w &&& ~~~causeMask)) = 0 :=
  (causesOf_withRus _ _).trans (causesOf_cleared _)

section
variable (ht : s.txLaidOut = true) (hr : s.rxLaidOut = true) (hm : s.mem.wf = true)
  (hclear : ∀ b ∈ s.postedAddrs, b + 16 ≤ s.tx.base ∨ s.tx.base + s.cfg.numTcb * s.cfg.tdSize ≤ b)
include hm hr

/-- The posted headers are cleared. -/
theorem State.restartable_rdCleared (hb : b ∈ s.postedAddrs) : s.restartable.mem.RdCleared b :=
  foldl_statusCleared_rdCleared (State.freshDescriptors_wf (s := s.masked.portReset) hm _) (State.postedAddrs_apart hr) hb

omit hr
include hclear

/-- The descriptors of the transmit ring are fresh: no posted header lies in the array. -/
theorem State.restartable_tdFresh {i : Nat} (hi : i < s.cfg.numTcb) :
    s.restartable.mem.TdFresh (s.tdAddr i) (s.nextLink i) := by
  have hfresh := State.freshDescriptors_tdFresh (s := s.masked.portReset) hm (List.mem_range.2 hi)
  have hend : s.tdAddr i + s.cfg.tdSize ≤ s.tx.base + s.cfg.numTcb * s.cfg.tdSize := s.tdAddr_add_tdSize_le hi
  have hbase : s.tx.base ≤ s.tdAddr i := Nat.le_add_right _ _
  have hsize := twelve_le_tdSize s.cfg
  refine Memory.TdFresh.congr hfresh fun x hlo hhi => foldl_statusCleared_outside fun b hb => ?_
  have hlo : s.tdAddr i ≤ x := hlo
  have hhi : x < s.tdAddr i + 9 := hhi
  have := hclear b hb
  omega

omit hm hclear

/-- Nothing else is written. -/
theorem State.restartable_outside (hx : x < s.tx.base ∨ s.tx.base + s.cfg.numTcb * s.cfg.tdSize ≤ x)
    (hposted : ∀ b ∈ s.postedAddrs, (x < b ∨ b + 2 ≤ x) ∧ (x < b + 12 ∨ b + 14 ≤ x)) :
    s.restartable.mem.byte x = s.mem.byte x :=
  (foldl_statusCleared_outside hposted).trans (State.freshDescriptors_outside_array (s := s.masked.portReset) hx)

end

/-- The parts of the state before the restart. -/
theorem State.restartable_eq (s : State) : s.restartable = { s with
    regs := { s.regs with
      status := idled s.regs.status &&& ~~~causeMask, command := 0, pointer := 0, intmask := 1 ||| 1 }
    units := ⟨0, none, .none⟩
    tx := { s.tx with head := 0, tail := 0, busyCount := 0, waitQueue := [], transmitIdle := true,
                      resumeWaitNeeded := true, shadow := List.replicate s.cfg.numTcb TxShadow.clear,
                      localBufFree := List.range s.cfg.numLocalBuf }
    dev := { s.dev with hardwareError := false }
    mem := s.restartable.mem
    events := s.events ++ cancelled s.heldPackets } := rfl

/-- The parts of the state after RESET. -/
theorem State.restarted_detecting_eq (d a : Nat) (s : State) : (s.restarted d a).detecting = { s with
    regs := { s.regs with
      status := withRus unitActive (idled s.regs.status &&& ~~~causeMask), command := 0, pointer := addrWord a, intmask := 0 }
    units := ⟨0, some d, .none⟩
    tx := { s.tx with head := 0, tail := 0, busyCount := 0, waitQueue := [], transmitIdle := true,
                      resumeWaitNeeded := true, shadow := List.replicate s.cfg.numTcb TxShadow.clear,
                      localBufFree := List.range s.cfg.numLocalBuf }
    dev := { s.dev with hardwareError := false, consecutiveResetFailures := 0, refCount := s.dev.refCount + 1 }
    link := s.link.begin s.cfg
    mem := s.restartable.mem
    events := s.events ++ cancelled s.heldPackets
    ports := { s.ports with interleaved := [] } } := by
  rw [State.restarted, State.restartable_eq]
  rfl

/-- Settles O19: the rings are reset under the locks, the restart is taken at the first poll of the verification. -/
theorem resetRecoversTheDevice : Obligations.ResetRecoversTheDevice := by
  intro s d a rest hset hi hl hp ht hr hm hb hready ha haligned houtside
  have hinside : inSpace a 16 = true := State.rd_inSpace hr ha
  have hd : d ∈ s.rx.readyList := by rw [hready]; exact List.mem_cons_self
  have hclear : ∀ b ∈ s.postedAddrs, b + 16 ≤ s.tx.base ∨ s.tx.base + s.cfg.numTcb * s.cfg.tdSize ≤ b := by
    intro b hmem
    obtain ⟨x, hx, hxb⟩ := State.mem_postedAddrs.1 hmem
    exact houtside x hx b hxb
  have hcleared : ∀ x ∈ s.rx.readyList, ∀ b, s.rdAddr? x = some b → s.restartable.mem.RdCleared b := fun x hx b hxb =>
    State.restartable_rdCleared hr hm (State.mem_postedAddrs.2 ⟨x, hx, hxb⟩)
  have hstart : s.restartable.StartableAt d a := by
    obtain ⟨hC, -, hV, -⟩ := hcleared d hd a ha
    exact
      { locks := State.locks_of_settled hset, running := hl, noError := rfl, budget := hb, clear := rfl
        idle := by
          have hidle : statusRus s.restartable.regs.status = unitIdle := statusRus_portReset s.regs.status
          rw [hidle]
          decide
        head := by
          show s.rx.readyList.head? = some d
          rw [hready]
          rfl
        addr := ha, inside := hinside, untouched := ⟨hC, hV⟩ }
  have hacc : Accepts (handlerOf s) (s.restartable.receiveStarted a) (s.restarted d a) := by
    refine ⟨by show commandCode 3 ≠ 0; decide, handlerOf_accept (by simp [hi]), ?_⟩
    have hgiven : s.rdGiven? (addrWord a).toNat = some d := by
      rw [addrWord_toNat hinside (by decide)]
      exact State.rdGiven?_eq_some.2 ⟨haligned, State.rdAt?_eq_some hr ha⟩
    exact acceptRuStart_readies (s := (s.restartable.receiveStarted a).withInside []) hgiven
  have hrun := reset_recovers hset hl hp ht hr hstart hacc
  rw [State.resetPoints, ← hi, State.restarted_detecting_eq] at hrun
  refine ⟨_, answer_of_ok hrun, rfl, fun i hlt => State.restartable_tdFresh hm hclear hlt, rfl, rfl, rfl, rfl,
    statusCus_readied _, statusRus_withRus _ _, causesOf_readied _, rfl, rfl, rfl, rfl, rfl, rfl,
    hcleared, fun y hy hposted => State.restartable_outside hy fun b hmem => ?frame, rfl, rfl, rfl⟩
  case frame =>
    obtain ⟨x, hx, hxb⟩ := State.mem_postedAddrs.1 hmem
    exact hposted x hx b hxb

end Sys2Proof.Machine
end

