-- ==== Sys2Proof/Proofs/StartAllocate.lean ====
section
/-!
PROOF. What START asks of the allocators (spec/45_device_control.md R240 step 1), where every answer is a region that may be
delivered: the answers taken, the regions entered.
-/
namespace Sys2Proof.Machine

-- The checker compiles the whole text as one: proofs elaborated one after the other keep that within its memory.
set_option Elab.async false

variable {s : State} {live : List Region} {r : Region} {rs qs : List Region} {bases as : List Nat} {size base : Nat}
  {rest : List (Option Nat)} {shadows : List Bool}

/-! ## Regions that may be delivered -/

/-- Beside the live regions the allocator may deliver these, one after the other (U8). -/
structure Deliverable (live rs : List Region) : Prop where
  apart : (live ++ rs).Pairwise fun a b => a.disjoint b = true
  inside : ∀ r ∈ rs, 0 < r.base ∧ inSpace r.base r.size = true

namespace Deliverable

theorem first (hd : Deliverable live (r :: rs)) : regionAllowed live r = true := by
  obtain ⟨hpos, hspace⟩ := hd.inside r List.mem_cons_self
  have hlive := (List.pairwise_append.1 hd.apart).2.2
  rw [regionAllowed, hspace, decide_eq_true hpos]
  exact List.all_eq_true.2 fun l hl => hlive l hl r List.mem_cons_self

/-- What is left beside the regions delivered first. -/
theorem after (hd : Deliverable live (rs ++ qs)) : Deliverable (live ++ rs) qs where
  apart := by
    rw [List.append_assoc]
    exact hd.apart
  inside r hr := hd.inside r (List.mem_append_right rs hr)

theorem initial (hd : Deliverable live (rs ++ qs)) : Deliverable live rs where
  apart := (List.pairwise_append.1 (List.append_assoc live rs qs ▸ hd.apart)).1
  inside r hr := hd.inside r (List.mem_append_left qs hr)

end Deliverable

/-! ## The answers -/

/-- The regions entered, the answers that are left. -/
def Ports.delivered (rs : List Region) (rest : List (Option Nat)) (p : Ports) : Ports :=
  { p with sharedReplies := rest, liveRegions := p.liveRegions ++ rs }

theorem State.delivered_delivered (s : State) (rs qs : List Region) (more rest : List (Option Nat)) :
    (s.mapPorts (Ports.delivered rs more)).mapPorts (Ports.delivered qs rest) = s.mapPorts (Ports.delivered (rs ++ qs) rest) := by
  simp only [State.mapPorts_mapPorts, Ports.delivered, List.append_assoc]
  rfl

theorem allocShared_delivers (hr : s.ports.sharedReplies = some base :: rest)
    (ha : regionAllowed s.ports.liveRegions ⟨base, size⟩ = true) :
    allocShared size s = .ok (some base, s.mapPorts (Ports.delivered [⟨base, size⟩] rest)) := by
  have hadd : addRegion ⟨base, size⟩ (s.mapPorts fun p => { p with sharedReplies := rest }) = .ok ((), _) :=
    addRegion_ok.2 ⟨ha, rfl⟩
  rw [allocShared, Op.bind_of_ok (read_apply _ s), hr]
  exact (Op.bind_of_ok (updatePorts_apply _ s)).trans (Op.bind_of_ok hadd)

/-- The regions of one size at these addresses. -/
def regionsAt (size : Nat) (bases : List Nat) : List Region := bases.map fun b => ⟨b, size⟩

theorem allocSharedMany_delivers (hr : s.ports.sharedReplies = bases.map some ++ rest)
    (hd : Deliverable s.ports.liveRegions (regionsAt size bases)) :
    allocSharedMany bases.length size s = .ok (some bases, s.mapPorts (Ports.delivered (regionsAt size bases) rest)) := by
  induction bases generalizing s with
  | nil =>
    have hsame : Ports.delivered [] rest s.ports = s.ports := by
      rw [Ports.delivered, List.append_nil, show rest = s.ports.sharedReplies from hr.symm]
    rw [regionsAt, List.map_nil, State.mapPorts, hsame]
    rfl
  | cons b bs ih =>
    have hrest := ih (s := s.mapPorts (Ports.delivered [⟨b, size⟩] (bs.map some ++ rest))) rfl
      (Deliverable.after (rs := [⟨b, size⟩]) hd)
    rw [List.length_cons, allocSharedMany, Op.bind_of_ok (allocShared_delivers hr hd.first)]
    refine (Op.bind_of_ok hrest).trans ?_
    rw [State.delivered_delivered]
    rfl

theorem allocShadows_delivers {n : Nat} (hr : s.ports.lookasideReplies = List.replicate n true ++ shadows) :
    allocShadows n s = .ok (true, s.mapPorts fun p => { p with lookasideReplies := shadows }) := by
  induction n generalizing s with
  | zero =>
    rw [show shadows = s.ports.lookasideReplies from hr.symm]
    rfl
  | succ n ih =>
    have hone : allocShadow s =
        .ok (true, s.mapPorts fun p => { p with lookasideReplies := List.replicate n true ++ shadows }) := by
      rw [allocShadow, Op.bind_of_ok (read_apply _ s), hr]
      rfl
    rw [allocShadows, Op.bind_of_ok hone, if_pos rfl]
    exact ih (s := s.mapPorts _) rfl

theorem requireAlignedAll_eq (ha : ∀ a ∈ as, Config.aligned s.cfg a = true) : requireAlignedAll as s = .ok ((), s) := by
  induction as with
  | nil => rfl
  | cons a as ih =>
    obtain ⟨h, has⟩ := List.forall_mem_cons.1 ha
    rw [requireAlignedAll, Op.bind_of_ok (requireAligned_ok.2 ⟨h, rfl⟩), ih has]

/-! ## Step 1 of START -/

theorem startRegions_eq (c : Config) (base : Nat) (bufs regions : List Nat) : startRegions c base bufs regions =
    [⟨base, c.numTcb * c.tdSize⟩] ++ (regionsAt c.maxFrameSize bufs ++ regionsAt c.rxRegionSize regions) := rfl

/-- All of it is delivered. -/
def State.allocated (rs : List Region) (rest : List (Option Nat)) (shadows : List Bool) (s : State) : State :=
  (s.mapPorts (Ports.delivered rs rest)).mapPorts fun p => { p with lookasideReplies := shadows }

/-- The answers of the allocators to START: regions it may use, aligned for descriptors, and the shadow records. -/
structure State.Granted (s : State) (base : Nat) (bufs regions : List Nat) (rest : List (Option Nat)) (shadows : List Bool) :
    Prop where
  bufCount : bufs.length = s.cfg.numLocalBuf
  regionCount : regions.length = s.cfg.rxInitialCount
  shared : s.ports.sharedReplies = (base :: (bufs ++ regions)).map some ++ rest
  lookaside : s.ports.lookasideReplies = List.replicate s.cfg.rxInitialCount true ++ shadows
  deliverable : Deliverable s.ports.liveRegions (startRegions s.cfg base bufs regions)
  alignedTd : ∀ i < s.cfg.numTcb, Config.aligned s.cfg (base + i * s.cfg.tdSize) = true
  alignedRd : ∀ r ∈ regions, Config.aligned s.cfg (r + s.cfg.rxAlignShift) = true

theorem startAllocate_eq {bufs regions : List Nat} (hg : s.Granted base bufs regions rest shadows) :
    startAllocate s = .ok (some (base, bufs, regions), s.allocated (startRegions s.cfg base bufs regions) rest shadows) := by
  obtain ⟨hbufs, hregions, hshared, hlookaside, hd, htd, hrd⟩ := hg
  rw [startRegions_eq] at hd
  have hbase := allocShared_delivers (s := s) (rest := (bufs ++ regions).map some ++ rest) hshared hd.initial.first
  have htds : ∀ a ∈ (List.range s.cfg.numTcb).map (fun i => base + i * s.cfg.tdSize), Config.aligned s.cfg a = true := by
    intro a ha
    obtain ⟨i, hi, rfl⟩ := List.mem_map.1 ha
    exact htd i (List.mem_range.1 hi)
  have hrds : ∀ a ∈ regions.map (fun r => r + s.cfg.rxAlignShift), Config.aligned s.cfg a = true := by
    intro a ha
    obtain ⟨r, hr, rfl⟩ := List.mem_map.1 ha
    exact hrd r hr
  have hmany := allocSharedMany_delivers (rest := regions.map some ++ rest)
    (s := s.mapPorts (Ports.delivered [⟨base, s.cfg.numTcb * s.cfg.tdSize⟩] ((bufs ++ regions).map some ++ rest)))
    (by rw [List.map_append, List.append_assoc]; rfl) hd.after.initial
  rw [hbufs, State.delivered_delivered] at hmany
  have hlast := allocSharedMany_delivers (rest := rest)
    (s := s.mapPorts (Ports.delivered ([⟨base, s.cfg.numTcb * s.cfg.tdSize⟩] ++ regionsAt s.cfg.maxFrameSize bufs)
      (regions.map some ++ rest))) rfl (by
        have := hd.after.after
        rwa [List.append_assoc] at this)
  rw [hregions, State.delivered_delivered, List.append_assoc, ← startRegions_eq] at hlast
  have hrecords := allocShadows_delivers (n := s.cfg.rxInitialCount)
    (s := s.mapPorts (Ports.delivered (startRegions s.cfg base bufs regions) rest)) hlookaside
  rw [startAllocate, Op.bind_of_ok (read_apply _ s), Op.bind_of_ok hbase]
  refine (Op.bind_of_ok (requireAlignedAll_eq (s := s.mapPorts _) htds)).trans ?_
  refine (Op.bind_of_ok hmany).trans ((Op.bind_of_ok hlast).trans ?_)
  refine (Op.bind_of_ok (requireAlignedAll_eq (s := s.mapPorts _) hrds)).trans ?_
  exact Op.bind_of_ok hrecords

end Sys2Proof.Machine
end

