-- ==== Sys2Proof/Proofs/StartReceive.lean ====
section
/-!
PROOF. The receive ring of START (spec/45_device_control.md R240 step 5): the regions made into descriptors one after the other,
each linked behind the one before, and what their headers read as at the end.
-/
namespace Sys2Proof.Machine

-- The checker compiles the whole text as one: proofs elaborated one after the other keep that within its memory.
set_option Elab.async false

variable {h : Handler} {s : State} {c : Config} {m m' : Memory} {a b d k n r x : Nat} {as done rest : List Nat}
  {last next : Option Nat}

/-! ## The headers -/

/-- The memory after the headers at `as`, each initialised, re-armed and linked behind the one before, the first behind
`last`. -/
def chained (capacity : Nat) : Option Nat → List Nat → Memory → Memory
  | _, [], m => m
  | last, a :: as, m => chained capacity (some a) as (recycled a last (initialised a capacity m))

theorem recycled_wf (hm : m.wf = true) (a : Nat) (last : Option Nat) : (recycled a last m).wf = true := by
  cases last with
  | none => exact rearmed_wf hm a
  | some b => exact gateOpened_wf (rearmed_wf hm a) b a

/-- Only the headers are written, and of the one before them its link and gate. -/
theorem chained_outside (hx : ∀ a ∈ as, x < a ∨ a + 16 ≤ x) (hlast : ∀ b ∈ last, x < b + 2 ∨ b + 8 ≤ x) :
    (chained n last as m).byte x = m.byte x := by
  induction as generalizing last m with
  | nil => rfl
  | cons a as ih =>
    obtain ⟨ha, has⟩ := List.forall_mem_cons.1 hx
    rw [chained, ih has fun b hb => ?_, recycled_outside (by omega) hlast, initialised_outside _ _ ha]
    obtain rfl : a = b := by simpa using hb
    omega

theorem PostedAt.congr (hp : PostedAt c m a next) (he : ∀ x, a ≤ x → x < a + 16 → m'.byte x = m.byte x) :
    PostedAt c m' a next := by
  unfold PostedAt
  rwa [Memory.rdC_congr fun x _ _ => he x (by omega) (by omega), Memory.rdOK_congr fun x _ _ => he x (by omega) (by omega),
    Memory.rdV_congr fun x _ _ => he x (by omega) (by omega), Memory.rdCount_congr fun x _ _ => he x (by omega) (by omega),
    Memory.rdPayloadPtr_congr fun x _ _ => he x (by omega) (by omega),
    Memory.rdCapacity_congr fun x _ _ => he x (by omega) (by omega),
    Memory.rdEL_congr fun x _ _ => he x (by omega) (by omega), Memory.rdLink_congr fun x _ _ => he x (by omega) (by omega)]

/-- Two headers share no byte. -/
def HeadersApart (a b : Nat) : Prop := a + 16 ≤ b ∨ b + 16 ≤ a

/-- A header just posted ends the list. -/
theorem postedAt_recycled (hm : m.wf = true) (hn : c.rxBufferCapacity ≤ 16383) (hlast : ∀ b ∈ last, HeadersApart a b) :
    PostedAt c (recycled a last (initialised a c.rxBufferCapacity m)) a none := by
  obtain ⟨hC, hOK, hV, hcount, hEL, hlink⟩ := recycled_rdRearmed (initialised_wf hm a c.rxBufferCapacity) hlast
  obtain ⟨hpointer, hcapacity⟩ := initialised_read hm a hn
  have hkept : ∀ x, a + 8 ≤ x → x < a + 12 ∨ a + 14 ≤ x → x < a + 16 →
      (recycled a last (initialised a c.rxBufferCapacity m)).byte x = (initialised a c.rxBufferCapacity m).byte x :=
    fun x _ _ _ => recycled_outside (by omega) fun b hb => by
      have := hlast b hb
      unfold HeadersApart at this
      omega
  exact ⟨hC, hOK, hV, hcount,
    (Memory.rdPayloadPtr_congr fun x _ _ => hkept x (by omega) (by omega) (by omega)).trans hpointer,
    (Memory.rdCapacity_congr fun x _ _ => hkept x (by omega) (by omega) (by omega)).trans hcapacity, hEL, hlink⟩

/-- The header behind which the next one is posted leads to it. -/
theorem PostedAt.followed (hp : PostedAt c m a none) (hm : m.wf = true) (hab : HeadersApart a b) :
    PostedAt c (recycled b (some a) (initialised b n m)) a (some b) := by
  obtain ⟨hC, hOK, hV, hcount, hpointer, hcapacity, -⟩ := hp
  obtain ⟨hlink, hEL⟩ := recycled_tail (initialised_wf hm b n) b a
  unfold HeadersApart at hab
  have hkept : ∀ x, a ≤ x → x < a + 2 ∨ a + 8 ≤ x → x < a + 16 →
      (recycled b (some a) (initialised b n m)).byte x = m.byte x := fun x _ _ _ => by
    rw [recycled_outside (by omega) (by rintro _ ⟨⟩; omega), initialised_outside _ _ (by omega)]
  exact ⟨(Memory.rdC_congr fun x _ _ => hkept x (by omega) (by omega) (by omega)).trans hC,
    (Memory.rdOK_congr fun x _ _ => hkept x (by omega) (by omega) (by omega)).trans hOK,
    (Memory.rdV_congr fun x _ _ => hkept x (by omega) (by omega) (by omega)).trans hV,
    (Memory.rdCount_congr fun x _ _ => hkept x (by omega) (by omega) (by omega)).trans hcount,
    (Memory.rdPayloadPtr_congr fun x _ _ => hkept x (by omega) (by omega) (by omega)).trans hpointer,
    (Memory.rdCapacity_congr fun x _ _ => hkept x (by omega) (by omega) (by omega)).trans hcapacity, hEL, hlink⟩

/-- The last header posted so far leads to the first of the others in the end. -/
theorem PostedAt.chained (hp : PostedAt c m a none) (hm : m.wf = true) (hapart : (a :: as).Pairwise HeadersApart) :
    PostedAt c (chained n (some a) as m) a as.head? := by
  cases as with
  | nil => exact hp
  | cons b as =>
    obtain ⟨ha, -⟩ := List.pairwise_cons.1 hapart
    show PostedAt c (chained n (some b) as (recycled b (some a) (initialised b n m))) a (some b)
    refine (hp.followed hm (ha b List.mem_cons_self)).congr fun x _ _ => chained_outside (fun e he => ?_) ?_
    · have := ha e (List.mem_cons_of_mem b he)
      unfold HeadersApart at this
      omega
    · rintro _ ⟨⟩
      have := ha b List.mem_cons_self
      unfold HeadersApart at this
      omega

/-- At the end each header is posted and leads to the next. -/
theorem chained_posted (hm : m.wf = true) (hn : c.rxBufferCapacity ≤ 16383) (hapart : as.Pairwise HeadersApart)
    (hlast : ∀ b ∈ last, ∀ a ∈ as, HeadersApart a b) (ha : as[k]? = some a) :
    PostedAt c (chained c.rxBufferCapacity last as m) a as[k + 1]? := by
  induction as generalizing last m k with
  | nil => simp at ha
  | cons e as ih =>
    obtain ⟨he, has⟩ := List.pairwise_cons.1 hapart
    have hwf := recycled_wf (initialised_wf hm e c.rxBufferCapacity) e last
    cases k with
    | zero =>
      obtain rfl : e = a := by simpa using ha
      have hpost := postedAt_recycled hm hn fun b hb => hlast b hb e List.mem_cons_self
      have hchain := hpost.chained (n := c.rxBufferCapacity) hwf hapart
      rwa [List.head?_eq_getElem?] at hchain
    | succ k =>
      refine ih hwf has ?_ (by simpa using ha)
      rintro _ ⟨⟩ b hb
      exact (he b hb).symm

/-! ## The ring -/

/-- The record of a posted descriptor over the region at `r`. -/
def postedShadow (c : Config) (r : Nat) : RxShadow :=
  ⟨.posted, some r, some (r + c.rxAlignShift), c.rxBufferCapacity, 0⟩

/-- The receive ring with these regions posted in order, nothing else in it. -/
def postedRing (c : Config) (regions : List Nat) : RxRing :=
  { RxRing.reset with
    shadows := regions.zipIdx.map fun e => (e.2, postedShadow c e.1)
    readyList := List.range regions.length
    readyCount := regions.length
    currentCount := regions.length }

/-- A list paired with its positions is searched by position. -/
theorem find_zipIdx {α β : Type} (f : α → β) (l : List α) (n k : Nat) :
    (((l.zipIdx n).map fun e => (e.2, f e.1)).find? fun e => e.1 == n + k).map (·.2) = l[k]?.map f := by
  induction l generalizing n k with
  | nil => rfl
  | cons x l ih =>
    cases k with
    | zero => simp
    | succ k =>
      have hne : (n == n + (k + 1)) = false := by simp
      rw [List.zipIdx_cons, List.map_cons, List.find?_cons, hne, List.getElem?_cons_succ, ← ih (n + 1) k, Nat.add_assoc,
        Nat.add_comm 1 k]

theorem shadow?_postedRing (c : Config) (regions : List Nat) (k : Nat) :
    (postedRing c regions).shadow? k = regions[k]?.map (postedShadow c) := by
  have hfind := find_zipIdx (postedShadow c) regions 0 k
  rwa [Nat.zero_add] at hfind

/-- An id behind all others comes last. -/
theorem putShadow_append {sh : RxShadow} {l : List (Nat × RxShadow)} (hl : ∀ e ∈ l, e.1 < d) :
    putShadow d sh l = l ++ [(d, sh)] := by
  induction l with
  | nil => rfl
  | cons e l ih =>
    obtain ⟨k, y⟩ := e
    obtain ⟨hk, hl⟩ := List.forall_mem_cons.1 hl
    have hk : k < d := hk
    rw [putShadow, if_neg (by omega), if_neg (by omega), ih hl, List.cons_append]

/-- One region more is entered, counted and posted. -/
theorem postedRing_append (c : Config) (done : List Nat) (r : Nat) :
    appended done.length { (postedRing c done).entered done.length (Config.pendingShadow c r) with
      currentCount := done.length + 1 } = postedRing c (done ++ [r]) := by
  have hlt : ∀ e ∈ done.zipIdx.map (fun e => (e.2, postedShadow c e.1)), e.1 < done.length := by
    intro e he
    obtain ⟨y, hy, rfl⟩ := List.mem_map.1 he
    simpa using (List.mem_zipIdx hy).2.1
  have hkept : ∀ (f : RxShadow → RxShadow), (done.zipIdx.map fun e => (e.2, postedShadow c e.1)).map
      (fun e => if e.1 = done.length then (e.1, f e.2) else e) = done.zipIdx.map fun e => (e.2, postedShadow c e.1) :=
    fun f => (List.map_congr_left fun e he => if_neg (hlt e he).ne).trans (List.map_id _)
  have hshadows : (putShadow done.length (Config.pendingShadow c r) (postedRing c done).shadows).map (fun e =>
      if e.1 = done.length then (e.1, { e.2 with state := .posted, actualBytes := 0 }) else e) =
      (postedRing c (done ++ [r])).shadows := by
    show (putShadow _ _ (done.zipIdx.map fun e => (e.2, postedShadow c e.1))).map _ =
      (done ++ [r]).zipIdx.map fun e => (e.2, postedShadow c e.1)
    rw [putShadow_append hlt, List.map_append, hkept fun sh => { sh with state := .posted, actualBytes := 0 },
      List.zipIdx_append, List.map_append]
    simp [postedShadow, Config.pendingShadow]
  have hcount : (done ++ [r]).length = done.length + 1 := List.length_append
  rw [appended, RxRing.mapShadow]
  simp only [RxRing.entered, hshadows]
  rw [postedRing, postedRing, hcount, List.range_succ]

/-! ## The operation -/

/-- Where the header in the region at `r` lies. -/
def headerIn (c : Config) (r : Nat) : Nat := r + c.rxAlignShift

/-- The ring after these regions: the headers in memory, the records. -/
def State.received (done rest : List Nat) (s : State) : State :=
  (s.mapMem (chained s.cfg.rxBufferCapacity (done.getLast?.map (headerIn s.cfg)) (rest.map (headerIn s.cfg)))).mapRx fun _ =>
    postedRing s.cfg (done ++ rest)

theorem State.rdAddr?_postedRing (hrx : s.rx = postedRing s.cfg done) (k : Nat) :
    s.rdAddr? k = done[k]?.map (headerIn s.cfg) := by
  rw [State.rdAddr?, hrx, shadow?_postedRing, Option.bind_map]
  cases done[k]? <;> rfl

/-- The ring with the header of the next region entered, initialised and counted, not posted yet. -/
def State.entering (k r : Nat) (s : State) : State :=
  ((s.mapRx (RxRing.entered k (Config.pendingShadow s.cfg r))).mapMem
    (initialised (headerIn s.cfg r) s.cfg.rxBufferCapacity)).mapRx fun x => { x with currentCount := x.currentCount + 1 }

section
variable (hi : s.ports.interleaved = []) (hrx : s.rx = postedRing s.cfg done)
include hrx

theorem State.rdAddr?_entering {q : Nat} (hq : q < done.length) :
    (s.entering done.length r).rdAddr? q = done[q]?.map (headerIn s.cfg) := by
  rw [← State.rdAddr?_postedRing hrx]
  exact State.rdAddr?_congr (RxRing.shadow?_entered_ne s.rx hq.ne _)

theorem State.readyList_entering : (s.entering k r).rx.readyList = List.range done.length := by
  show s.rx.readyList = _
  rw [hrx]
  rfl

/-- The tail that the next header is linked behind is that of the last region. -/
theorem State.lastAddr?_entering : (s.entering done.length r).lastAddr? (s.entering done.length r).rx.readyList =
    done.getLast?.map (headerIn s.cfg) := by
  rw [State.readyList_entering hrx, State.lastAddr?, List.getLast?_range, List.getLast?_eq_getElem?]
  split
  · next hnil => simp [List.length_eq_zero_iff.1 hnil]
  · exact State.rdAddr?_entering hrx (by omega)

include hi

theorem State.recyclable_entering (hspace : ∀ x ∈ done ++ [r], inSpace (headerIn s.cfg x) 16 = true) :
    (s.entering done.length r).Recyclable done.length (headerIn s.cfg r) where
  inside := hi
  addr := State.rdAddr?_eq_some.2 ⟨_, RxRing.shadow?_entered_same s.rx done.length (Config.pendingShadow s.cfg r), rfl⟩
  inSpace := hspace r (by simp)
  tail q hq := by
    rw [State.readyList_entering hrx] at hq
    have hlt : q < done.length := List.mem_range.1 (List.mem_of_getLast? hq)
    refine ⟨headerIn s.cfg done[q], ?_, hspace _ (by simp)⟩
    rw [State.rdAddr?_entering hrx hlt, List.getElem?_eq_getElem hlt, Option.map_some]

theorem startReceive_eq (hspace : ∀ r ∈ done ++ rest, inSpace (headerIn s.cfg r) 16 = true) :
    startReceive h done.length rest s = .ok ((), s.received done rest) := by
  induction rest generalizing s done with
  | nil =>
    have hsame : s.received done [] = s := by
      rw [State.received, List.append_nil, ← hrx]
      rfl
    rw [hsame]
    rfl
  | cons r rest ih =>
    rw [List.append_cons] at hspace
    have hmine : ∀ x ∈ done ++ [r], inSpace (headerIn s.cfg x) 16 = true := fun x hx =>
      hspace x (List.mem_append_left rest hx)
    have hpool := poolAllocRx_eq (h := h) (d := done.length) (base := r) hi rfl (hmine r (by simp))
    have hrecycle := recycleLocked_eq (h := h) (State.recyclable_entering hi hrx hmine)
    have hring : ((s.entering done.length r).recycled done.length (headerIn s.cfg r)).rx = postedRing s.cfg (done ++ [r]) := by
      have hcount : s.rx.currentCount = done.length := congrArg RxRing.currentCount hrx
      rw [← postedRing_append, ← hrx, ← hcount]
      rfl
    have hrest := ih (s := (s.entering done.length r).recycled done.length (headerIn s.cfg r)) hi hring hspace
    rw [List.length_append, List.length_singleton] at hrest
    rw [startReceive, Op.bind_of_ok hpool, Op.bind_of_ok (updateRx_apply _ _)]
    refine (Op.bind_of_ok hrecycle).trans (hrest.trans ?_)
    rw [State.recycled, State.lastAddr?_entering hrx, State.received, State.received, List.append_cons done r rest,
      List.getLast?_concat]
    rfl

end

end Sys2Proof.Machine
end

