-- ==== Sys2Proof/Proofs/StartTransmit.lean ====
section
/-!
PROOF. The fields of the transmit descriptors that START clears before POOL_INIT_TX (spec/45_device_control.md R240 step 3,
spec/10_state.md R54): the reserved field and the fragment pairs.
-/
namespace Sys2Proof.Machine

-- The checker compiles the whole text as one: proofs elaborated one after the other keep that within its memory.
set_option Elab.async false

variable {h : Handler} {s : State} {m m' : Memory} {a b i k n x : Nat} {as is : List Nat}

/-! ## One slot -/

/-- The first `n` fragment pairs of the descriptor at `a` are 0. -/
def Memory.PairsClear (n : Nat) (m : Memory) (a : Nat) : Prop :=
  ∀ k < n, m.read32 (a + 12 + 8 * k) = 0 ∧ m.read32 (a + 16 + 8 * k) = 0

theorem Memory.PairsClear.congr (hm : m.PairsClear n a)
    (he : ∀ x, a + 12 ≤ x → x < a + 12 + 8 * n → m'.byte x = m.byte x) : m'.PairsClear n a := fun k hk => by
  rw [Memory.read32_congr (a + 12 + 8 * k) fun x _ _ => he x (by omega) (by omega),
    Memory.read32_congr (a + 16 + 8 * k) fun x _ _ => he x (by omega) (by omega)]
  exact hm k hk

/-- The memory with the reserved field and `n` fragment pairs of the descriptor at `a` cleared. -/
def slotCleared (n : Nat) (m : Memory) (a : Nat) : Memory :=
  pairsWritten (a + 12) (List.replicate n ⟨0, 0⟩) (m.writeBytes (a + 9) [0, 0, 0])

theorem slotCleared_wf (hm : m.wf = true) (n a : Nat) : (slotCleared n m a).wf = true :=
  pairsWritten_wf (Memory.wf_writeBytes hm _ _) _ _

theorem slotCleared_outside (hx : x < a ∨ a + (12 + 8 * n) ≤ x) : (slotCleared n m a).byte x = m.byte x := by
  rw [slotCleared, pairsWritten_outside _ _ _ (by rw [List.length_replicate]; omega)]
  exact Memory.byte_writeBytes_outside m (a + 9) _ (by simp only [List.length_cons, List.length_nil]; omega)

theorem slotCleared_pairsClear (hm : m.wf = true) (n a : Nat) : (slotCleared n m a).PairsClear n a := fun k hk => by
  have hread := pairsWritten_read (Memory.wf_writeBytes hm (a + 9) [0, 0, 0]) (a + 12) (k := k) (f := ⟨0, 0⟩)
    (fs := List.replicate n ⟨0, 0⟩) (by rw [List.getElem?_replicate, if_pos hk])
  rwa [show a + 12 + 8 * k + 4 = a + 16 + 8 * k by omega] at hread

/-! ## All slots -/

theorem foldl_slotCleared_wf (hm : m.wf = true) (n : Nat) (as : List Nat) : (as.foldl (slotCleared n) m).wf = true := by
  induction as generalizing m with
  | nil => exact hm
  | cons a as ih => exact ih (slotCleared_wf hm n a)

theorem foldl_slotCleared_outside (hx : ∀ a ∈ as, x < a ∨ a + (12 + 8 * n) ≤ x) :
    (as.foldl (slotCleared n) m).byte x = m.byte x := by
  induction as generalizing m with
  | nil => rfl
  | cons a as ih =>
    obtain ⟨ha, has⟩ := List.forall_mem_cons.1 hx
    rw [List.foldl_cons, ih has, slotCleared_outside ha]

/-- Every slot written is clear at the end: those written after it are other slots, or it again. -/
theorem foldl_slotCleared_pairsClear (hm : m.wf = true)
    (hapart : ∀ a ∈ as, ∀ b ∈ as, a = b ∨ a + (12 + 8 * n) ≤ b ∨ b + (12 + 8 * n) ≤ a) (hb : b ∈ as) :
    (as.foldl (slotCleared n) m).PairsClear n b := by
  induction as generalizing m with
  | nil => cases hb
  | cons a as ih =>
    have hrest : ∀ x ∈ as, ∀ y ∈ as, x = y ∨ x + (12 + 8 * n) ≤ y ∨ y + (12 + 8 * n) ≤ x := fun x hx y hy =>
      hapart x (List.mem_cons_of_mem a hx) y (List.mem_cons_of_mem a hy)
    by_cases hlater : b ∈ as
    · exact ih (slotCleared_wf hm n a) hrest hlater
    · obtain rfl : b = a := (List.mem_cons.1 hb).resolve_right hlater
      rw [List.foldl_cons]
      refine (slotCleared_pairsClear hm n b).congr fun x _ _ => foldl_slotCleared_outside fun c hc => ?_
      have := (hapart b List.mem_cons_self c (List.mem_cons_of_mem b hc)).resolve_left fun he => hlater (he ▸ hc)
      omega

/-! ## The operation -/

/-- To clear fragments is to write empty ones. -/
theorem clearFragments_eq (i k n : Nat) :
    clearFragments h i (List.range' k n) = writeFragments h i k (List.replicate n ⟨0, 0⟩) := by
  induction n generalizing k with
  | zero => rfl
  | succ n ih =>
    rw [List.range'_succ, List.replicate_succ, clearFragments, writeFragments, ih]

theorem clearSlots_eq (hi : s.ports.interleaved = []) (hs : ∀ i ∈ is, inSpace (s.tdAddr i) s.cfg.tdSize = true) :
    clearSlots h is s = .ok ((), s.mapMem ((is.map s.tdAddr).foldl (slotCleared s.cfg.maxFragments))) := by
  induction is generalizing s with
  | nil => rfl
  | cons i is ih =>
    obtain ⟨hsi, hsis⟩ := List.forall_mem_cons.1 hs
    have hsize : s.cfg.tdSize = 12 + 8 * s.cfg.maxFragments := rfl
    have hreserved : host h (writeTdReserved i) s = .ok ((), s.mapMem fun m => m.writeBytes (s.tdAddr i + 9) [0, 0, 0]) := by
      rw [host_nil hi, writeTdReserved, Op.bind_of_ok (read_apply _ s)]
      exact memWrite_eq (inSpace_sub hsi (by simp only [List.length_cons, List.length_nil]; omega)) s
    have hpairs : clearFragments h i (List.range s.cfg.maxFragments)
        (s.mapMem fun m => m.writeBytes (s.tdAddr i + 9) [0, 0, 0]) =
        .ok ((), s.mapMem fun m => slotCleared s.cfg.maxFragments m (s.tdAddr i)) := by
      rw [List.range_eq_range', clearFragments_eq]
      exact writeFragments_eq (b := s.tdAddr i + 12) _ hi rfl (inSpace_sub hsi (by rw [List.length_replicate]; omega))
    have hrest := ih (s := s.mapMem fun m => slotCleared s.cfg.maxFragments m (s.tdAddr i)) hi hsis
    rw [clearSlots, Op.bind_of_ok hreserved, Op.bind_of_ok (read_apply _ _)]
    exact (Op.bind_of_ok hpairs).trans hrest

end Sys2Proof.Machine
end

