-- ==== Sys2Proof/Proofs/Start.lean ====
section
/-!
PROOF. START (spec/45_device_control.md R240) from a quiet state, where the allocators deliver what it asks for: the rings it
builds, what they read as in memory, and the start of the receive unit.
-/
namespace Sys2Proof.Machine

-- The checker compiles the whole text as one: proofs elaborated one after the other keep that within its memory.
set_option Elab.async false

variable {h : Handler} {s : State} {b : Bool} {a d base i k r x : Nat} {bufs regions : List Nat} {rest : List (Option Nat)}
  {shadows : List Bool}

/-! ## The rings built -/

/-- The software variables at their values of R54, the regions of the transmit ring given. -/
def State.variablesReset (base : Nat) (bufs : List Nat) (s : State) : State :=
  { s with tx := { TxRing.reset with base := base, bufs := bufs }, rx := RxRing.reset, link := Link.reset s.cfg,
           dev := Device.reset, events := [] }

/-- The fields of the transmit descriptors that POOL_INIT_TX does not write are 0. -/
def State.slotsCleared (s : State) : State :=
  s.mapMem (((List.range s.cfg.numTcb).map s.tdAddr).foldl (slotCleared s.cfg.maxFragments))

theorem startVariables_eq (hi : s.ports.interleaved = []) (hs : inSpace base (s.cfg.numTcb * s.cfg.tdSize) = true) :
    startVariables h base bufs s = .ok ((), (s.variablesReset base bufs).slotsCleared) := by
  have hclear := clearSlots_eq (h := h) (s := s.variablesReset base bufs) (is := List.range s.cfg.numTcb) hi fun i hr =>
    inSpace_sub hs ((s.variablesReset base bufs).tdAddr_add_tdSize_le (List.mem_range.1 hr))
  rw [startVariables, Op.bind_of_ok (update_apply _ s), Op.bind_of_ok (read_apply _ _)]
  exact hclear

/-- The device and the software variables reset, the slots cleared. -/
def State.slotsReady (base : Nat) (bufs : List Nat) (s : State) : State := (s.unitsReset.variablesReset base bufs).slotsCleared

/-- The transmit ring built. -/
def State.transmitBuilt (base : Nat) (bufs : List Nat) (s : State) : State :=
  (s.slotsReady base bufs).rebuilt.mapTx fun x => { x with transmitIdle := true, resumeWaitNeeded := true }

/-- Both rings built. -/
def State.ringsBuilt (base : Nat) (bufs regions : List Nat) (s : State) : State := (s.transmitBuilt base bufs).received [] regions

/-- A START is under way or not. -/
def State.starting (b : Bool) (s : State) : State := s.mapPorts fun p => { p with startActive := b }

/-- The device runs. -/
def State.running (s : State) : State := s.mapDev fun x => { x with lifecycle := .running }

/-- Whether a START is under way has no part in what is built. -/
theorem State.ringsBuilt_starting (b : Bool) (base : Nat) (bufs regions : List Nat) (s : State) :
    (s.starting b).ringsBuilt base bufs regions = (s.ringsBuilt base bufs regions).starting b := by
  have hrebuilt : ((s.starting b).slotsReady base bufs).rebuilt = (s.slotsReady base bufs).rebuilt.starting b :=
    State.rebuilt_mapPorts (s := s.slotsReady base bufs) fun p => { p with startActive := b }
  rw [State.ringsBuilt, State.transmitBuilt, hrebuilt]
  rfl

theorem State.starting_self (hs : s.ports.startActive = b) : s.starting b = s := by
  subst hs
  rfl

theorem startInitialise_eq (hfree : s.locks = Locks.free) (hi : s.ports.interleaved = [])
    (hidle : s.ports.startActive = false)
    (htd : inSpace base (s.cfg.numTcb * s.cfg.tdSize) = true)
    (hrd : ∀ r ∈ regions, inSpace (headerIn s.cfg r) 16 = true) :
    startInitialise h base bufs regions s = .ok ((), (s.ringsBuilt base bufs regions).running) := by
  have hport : host h (regWrite .port 2) (s.starting true) = .ok ((), (s.starting true).unitsReset) :=
    (host_nil (s := s.starting true) hi).trans (fullReset_apply _)
  have hvariables : startVariables h base bufs (s.starting true).unitsReset = .ok ((), (s.starting true).slotsReady base bufs) :=
    startVariables_eq (s := (s.starting true).unitsReset) hi htd
  have hpool : poolInitTx h (((s.starting true).slotsReady base bufs).holding (Locks.free.put .tx true)) =
      .ok ((), ((s.starting true).slotsReady base bufs).rebuilt.holding (Locks.free.put .tx true)) :=
    (poolInitTx_eq (s := ((s.starting true).slotsReady base bufs).holding _) hi htd).trans
      (congrArg (fun x => Except.ok ((), x)) State.rebuilt_holding)
  have hunlockTx : unlock .tx (((s.starting true).slotsReady base bufs).rebuilt.holding (Locks.free.put .tx true)) =
      .ok ((), ((s.starting true).slotsReady base bufs).rebuilt) := unlock_last hfree
  have hreceive : startReceive h 0 regions (((s.starting true).transmitBuilt base bufs).holding (Locks.free.put .rx true)) =
      .ok ((), ((s.starting true).ringsBuilt base bufs regions).holding (Locks.free.put .rx true)) :=
    startReceive_eq (done := []) (s := ((s.starting true).transmitBuilt base bufs).holding _) hi rfl hrd
  have hunlockRx : unlock .rx (((s.starting true).ringsBuilt base bufs regions).holding (Locks.free.put .rx true)) =
      .ok ((), (s.starting true).ringsBuilt base bufs regions) := unlock_last hfree
  rw [startInitialise, Op.bind_of_ok (updatePorts_apply _ s)]
  refine (Op.bind_of_ok hport).trans ((Op.bind_of_ok hvariables).trans ?_)
  rw [Op.bind_of_ok (point_nil (by exact hi)), Op.bind_of_ok (lock_first (by exact hfree)), Op.bind_of_ok hpool,
    Op.bind_of_ok hunlockTx, Op.bind_of_ok (point_nil (by exact hi)), Op.bind_of_ok (updateTx_apply _ _)]
  refine (Op.bind_of_ok (point_nil (s := (s.starting true).transmitBuilt base bufs) hi)).trans ?_
  rw [Op.bind_of_ok (lock_first (by exact hfree))]
  refine (Op.bind_of_ok hreceive).trans ((Op.bind_of_ok hunlockRx).trans ?_)
  have hover : ((s.starting true).ringsBuilt base bufs regions).running.starting false =
      (s.ringsBuilt base bufs regions).running := by
    rw [State.ringsBuilt_starting]
    exact State.starting_self (s := (s.ringsBuilt base bufs regions).running) hidle
  rw [Op.bind_of_ok (point_nil (by exact hi)), Op.bind_of_ok (updateDev_apply _ _), updatePorts_apply, ← hover]
  rfl

/-- The parts of the state with both rings built. -/
theorem State.ringsBuilt_eq (base : Nat) (bufs regions : List Nat) (s : State) : s.ringsBuilt base bufs regions = { s with
    regs := { s.regs with
      status := idled s.regs.status &&& ~~~causeMask, command := 0, pointer := 0, intmask := s.regs.intmask ||| 1 }
    units := ⟨0, none, .none⟩
    tx := { base := base, bufs := bufs, head := 0, tail := 0, busyCount := 0,
            shadow := List.replicate s.cfg.numTcb TxShadow.clear, localBufFree := List.range s.cfg.numLocalBuf,
            waitQueue := [], transmitIdle := true, resumeWaitNeeded := true }
    rx := postedRing s.cfg regions
    link := Link.reset s.cfg
    dev := Device.reset
    mem := (s.ringsBuilt base bufs regions).mem
    events := [] } := rfl

/-! ## Where they lie -/

/-- The TD array and the receive headers lie in the address space, and no two of them share a byte. -/
structure StartLayout (c : Config) (base : Nat) (regions : List Nat) : Prop where
  td : inSpace base (c.numTcb * c.tdSize) = true
  rd : ∀ r ∈ regions, inSpace (headerIn c r) 16 = true
  apart : (regions.map (headerIn c)).Pairwise HeadersApart
  outside : ∀ a ∈ regions.map (headerIn c), a + 16 ≤ base ∨ base + c.numTcb * c.tdSize ≤ a

theorem Region.disjoint_iff {a b : Region} :
    a.disjoint b = true ↔ a.base + a.size ≤ b.base ∨ b.base + b.size ≤ a.base := by
  rw [Region.disjoint, Bool.or_eq_true, decide_eq_true_eq, decide_eq_true_eq]

/-- The header of a region lies in it. -/
theorem headerIn_inside (c : Config) (r : Nat) : r ≤ headerIn c r ∧ headerIn c r + 16 ≤ r + c.rxRegionSize := by
  have hsize : c.rxRegionSize = c.rxAlignShift + 16 + c.rxBufferCapacity := rfl
  unfold headerIn
  omega

theorem startLayout_of_deliverable {live : List Region} {c : Config}
    (hd : Deliverable live (startRegions c base bufs regions)) : StartLayout c base regions := by
  obtain ⟨hpair, hinside⟩ := hd
  obtain ⟨-, hpair, -⟩ := List.pairwise_append.1 hpair
  obtain ⟨htd, hpair⟩ := List.pairwise_cons.1 hpair
  obtain ⟨-, hpair, -⟩ := List.pairwise_append.1 hpair
  have hmem : ∀ r ∈ regions, Region.mk r c.rxRegionSize ∈ startRegions c base bufs regions := fun r hr =>
    List.mem_cons_of_mem _ (List.mem_append_right _ (List.mem_map_of_mem hr))
  refine ⟨(hinside _ List.mem_cons_self).2, fun r hr => ?rd, ?apart, fun a ha => ?outside⟩
  case rd =>
    have hspace : inSpace r c.rxRegionSize = true := (hinside _ (hmem r hr)).2
    exact inSpace_sub hspace (headerIn_inside c r).2
  case apart =>
    rw [List.pairwise_map] at hpair ⊢
    refine hpair.imp fun {r q} hrq => ?_
    have hr := headerIn_inside c r
    have hq := headerIn_inside c q
    have : r + c.rxRegionSize ≤ q ∨ q + c.rxRegionSize ≤ r := Region.disjoint_iff.1 hrq
    unfold HeadersApart
    omega
  case outside =>
    obtain ⟨r, hr, rfl⟩ := List.mem_map.1 ha
    have hin := headerIn_inside c r
    have : base + c.numTcb * c.tdSize ≤ r ∨ r + c.rxRegionSize ≤ base :=
      Region.disjoint_iff.1 (htd _ (List.mem_append_right _ (List.mem_map_of_mem hr)))
    omega

/-! ## What they read as -/

section
variable (hm : s.mem.wf = true) (hlay : StartLayout s.cfg base regions)

/-- A slot of the array lies in it. -/
theorem slot_inside {c : Config} (base : Nat) (hi : i < c.numTcb) :
    base + i * c.tdSize + c.tdSize ≤ base + c.numTcb * c.tdSize := by
  have := Nat.mul_le_mul_right c.tdSize (Nat.succ_le_of_lt hi)
  rw [Nat.succ_mul] at this
  omega

theorem State.tdAddr_slotsReady (base : Nat) (bufs : List Nat) (i : Nat) (s : State) :
    (s.slotsReady base bufs).tdAddr i = base + i * s.cfg.tdSize := rfl

include hlay in
/-- The receive headers leave the TD array alone. -/
theorem State.ringsBuilt_array (hx : base ≤ x ∧ x < base + s.cfg.numTcb * s.cfg.tdSize) :
    (s.ringsBuilt base bufs regions).mem.byte x = (s.slotsReady base bufs).rebuilt.mem.byte x :=
  chained_outside (fun a ha => by have := hlay.outside a ha; omega) nofun

include hm

theorem State.slotsReady_wf (base : Nat) (bufs : List Nat) : (s.slotsReady base bufs).mem.wf = true :=
  foldl_slotCleared_wf hm _ _

include hlay

/-- Each transmit descriptor is fresh. -/
theorem State.ringsBuilt_tdFresh (hi : i < s.cfg.numTcb) :
    (s.ringsBuilt base bufs regions).mem.TdFresh (base + i * s.cfg.tdSize) (addrWord (base + s.cfg.next i * s.cfg.tdSize)) := by
  have hfresh := State.freshDescriptors_tdFresh (s := s.slotsReady base bufs) (State.slotsReady_wf hm base bufs)
    (List.mem_range.2 hi)
  have hin := slot_inside base hi
  have hsize := twelve_le_tdSize s.cfg
  exact Memory.TdFresh.congr hfresh fun x _ _ => State.ringsBuilt_array hlay (by omega)

/-- Each has no fragments left. -/
theorem State.ringsBuilt_pairsClear (hi : i < s.cfg.numTcb) :
    (s.ringsBuilt base bufs regions).mem.PairsClear s.cfg.maxFragments (base + i * s.cfg.tdSize) := by
  have hsize : s.cfg.tdSize = 12 + 8 * s.cfg.maxFragments := rfl
  have hin := slot_inside base hi
  have hslots : ∀ a ∈ (List.range s.cfg.numTcb).map (s.slotsReady base bufs).tdAddr,
      ∀ b ∈ (List.range s.cfg.numTcb).map (s.slotsReady base bufs).tdAddr,
      a = b ∨ a + (12 + 8 * s.cfg.maxFragments) ≤ b ∨ b + (12 + 8 * s.cfg.maxFragments) ≤ a := by
    intro a ha b hb
    obtain ⟨j, -, rfl⟩ := List.mem_map.1 ha
    obtain ⟨k, -, rfl⟩ := List.mem_map.1 hb
    by_cases hjk : j = k
    · exact .inl (hjk ▸ rfl)
    · exact .inr ((s.slotsReady base bufs).td_apart hjk)
  have hclear := foldl_slotCleared_pairsClear (m := s.mem) hm hslots (List.mem_map_of_mem (List.mem_range.2 hi))
  refine Memory.PairsClear.congr hclear fun x _ _ => ?_
  refine (State.ringsBuilt_array hlay (by omega)).trans (State.freshDescriptors_outside fun j _ => ?_)
  by_cases hij : i = j
  · subst hij
    rw [State.tdAddr_slotsReady]
    omega
  · have hapart := State.td_apart (s := s.slotsReady base bufs) hij
    have hcfg : (s.slotsReady base bufs).cfg = s.cfg := rfl
    rw [hcfg, State.tdAddr_slotsReady, State.tdAddr_slotsReady] at hapart
    rw [State.tdAddr_slotsReady]
    omega

/-- Each receive descriptor is posted and leads to the next. -/
theorem State.ringsBuilt_posted (hn : s.cfg.rxBufferCapacity ≤ 16383) (hk : regions[k]? = some r) :
    PostedAt s.cfg (s.ringsBuilt base bufs regions).mem (headerIn s.cfg r) (regions[k + 1]?.map (headerIn s.cfg)) := by
  have hposted := chained_posted (m := (s.slotsReady base bufs).rebuilt.mem) (last := none)
    (State.freshDescriptors_wf (State.slotsReady_wf hm base bufs) _) hn hlay.apart nofun
    (by rw [List.getElem?_map, hk, Option.map_some])
  rwa [List.getElem?_map] at hposted

end

/-- Nothing outside the regions is written. -/
theorem State.ringsBuilt_outside (hx : ∀ r ∈ startRegions s.cfg base bufs regions, x < r.base ∨ r.base + r.size ≤ x) :
    (s.ringsBuilt base bufs regions).mem.byte x = s.mem.byte x := by
  have harray : x < base ∨ base + s.cfg.numTcb * s.cfg.tdSize ≤ x := hx _ List.mem_cons_self
  have hheaders : ∀ a ∈ regions.map (headerIn s.cfg), x < a ∨ a + 16 ≤ x := by
    intro a ha
    obtain ⟨r, hr, rfl⟩ := List.mem_map.1 ha
    have hin := headerIn_inside s.cfg r
    have : x < r ∨ r + s.cfg.rxRegionSize ≤ x :=
      hx _ (List.mem_cons_of_mem _ (List.mem_append_right _ (List.mem_map_of_mem hr)))
    omega
  have hslots : ∀ a ∈ (List.range s.cfg.numTcb).map (s.slotsReady base bufs).tdAddr,
      x < a ∨ a + (12 + 8 * s.cfg.maxFragments) ≤ x := by
    intro a ha
    obtain ⟨i, hi, rfl⟩ := List.mem_map.1 ha
    have hin := slot_inside base (List.mem_range.1 hi)
    have hsize : s.cfg.tdSize = 12 + 8 * s.cfg.maxFragments := rfl
    rw [State.tdAddr_slotsReady]
    omega
  calc (s.ringsBuilt base bufs regions).mem.byte x
      = (s.slotsReady base bufs).rebuilt.mem.byte x := chained_outside hheaders nofun
    _ = (s.slotsReady base bufs).mem.byte x := State.freshDescriptors_outside_array harray
    _ = s.mem.byte x := foldl_slotCleared_outside hslots

/-! ## The rest of START -/

/-- From a quiet state ENSURE_STARTED starts the receive unit at the head. -/
theorem ensureStarted_head (hq : s.quiet = true) (hs : s.StartableAt d a) :
    ensureStarted h s = .ok (.ok, s.receiveStarted a) := by
  obtain ⟨-, hi, -⟩ := State.of_quiet hq
  obtain ⟨hfree, hrun, he, hb, hc, hidle, hhead, haddr, hspace, hC, hV⟩ := hs
  obtain ⟨rest, hready⟩ := List.head?_eq_some_iff.1 hhead
  have huntouched : s.lockedRx.rxUntouched d = true := by
    rw [State.rxUntouched_eq (s := s.lockedRx) haddr]
    show (!s.mem.rdC a && !s.mem.rdV a) = true
    rw [hC, hV]
    rfl
  have hwalk : firstUntouched h s.rx.readyList s.lockedRx = .ok (some d, s.lockedRx) := by
    rw [hready]
    exact firstUntouched_found (s := s.lockedRx) hi haddr hspace huntouched
  exact (ensureStarted_startAt hq hrun he hidle hwalk nofun).trans (startAt_eq hfree hi he hb hc haddr)

/-- Link detection begun, with its reference. -/
def State.linkBegun (s : State) : State :=
  (s.mapLink (Link.begin s.cfg)).mapDev fun x => { x with refCount := x.refCount + 1 }

/-- The end of START: link detection and the receive unit started, the mask clear, the health timer armed. -/
def State.startEnded (a : Nat) (s : State) : State := ((s.linkBegun.receiveStarted a).unmasked).healthTimer .armed

theorem start_eq (hq : s.quiet = true) (hl : s.dev.lifecycle = .uninitialised)
    (hg : s.Granted base bufs regions rest shadows)
    (hs : (((s.allocated (startRegions s.cfg base bufs regions) rest shadows).ringsBuilt base bufs
      regions).running.linkBegun).StartableAt d a) :
    start h s = .ok (.ok, ((s.allocated (startRegions s.cfg base bufs regions) rest shadows).ringsBuilt base bufs
      regions).running.startEnded a) := by
  obtain ⟨hfree, hi, -⟩ := State.of_quiet hq
  obtain ⟨hisr, hidle⟩ := State.idle_of_quiet hq
  have hlay := startLayout_of_deliverable hg.deliverable
  have hinit := startInitialise_eq (h := h) (s := s.allocated (startRegions s.cfg base bufs regions) rest shadows) (bufs := bufs)
    hfree hi hidle hlay.td hlay.rd
  generalize hw : ((s.allocated (startRegions s.cfg base bufs regions) rest shadows).ringsBuilt base bufs regions).running = w
    at hinit hs ⊢
  have hwq : w.quiet = true := hw ▸ hq
  have hwl : w.dev.lifecycle = .running := hw ▸ rfl
  have hwp : w.link.phase.inProgress = false := hw ▸ rfl
  obtain ⟨-, hwi, -⟩ := State.of_quiet hwq
  have hlink : linkStart h w = .ok (.ok, w.linkBegun) := linkStart_begins hwq hwl hwp
  have hensure : ensureStarted h w.linkBegun = .ok (.ok, w.linkBegun.receiveStarted a) :=
    ensureStarted_head (s := w.linkBegun) hwq hs
  have hmask : setMask h 0 (w.linkBegun.receiveStarted a) = .ok ((), (w.linkBegun.receiveStarted a).unmasked) :=
    setMask_eq hwi (State.idle_of_quiet hwq).1
  have harm : armHealthTimer h (w.linkBegun.receiveStarted a).unmasked = .ok ((), w.startEnded a) := armHealthTimer_eq hwi
  rw [start, Op.bind_of_ok (read_apply _ s), id, hidle, if_neg (by decide), hl, if_neg (by decide),
    Op.bind_of_ok (startAllocate_eq hg)]
  refine (Op.bind_of_ok hinit).trans ?_
  rw [Op.bind_of_ok (point_nil hwi), Op.bind_of_ok hlink]
  refine (Op.bind_of_ok (point_nil (s := w.linkBegun) hwi)).trans ?_
  rw [Op.bind_of_ok hensure, Op.bind_of_ok hmask]
  exact Op.bind_of_ok harm

/-- The parts of the state after START. -/
theorem State.startEnded_eq (a base : Nat) (bufs regions : List Nat) (s : State) :
    (s.ringsBuilt base bufs regions).running.startEnded a = { s with
      regs := { s.regs with
        status := idled s.regs.status &&& ~~~causeMask, command := 3, pointer := addrWord a, intmask := 0 }
      units := ⟨0, none, .none⟩
      tx := { base := base, bufs := bufs, head := 0, tail := 0, busyCount := 0,
              shadow := List.replicate s.cfg.numTcb TxShadow.clear, localBufFree := List.range s.cfg.numLocalBuf,
              waitQueue := [], transmitIdle := true, resumeWaitNeeded := true }
      rx := postedRing s.cfg regions
      link := Link.begin s.cfg (Link.reset s.cfg)
      dev := { Device.reset with lifecycle := .running, refCount := 1, healthTimer := .armed }
      mem := (s.ringsBuilt base bufs regions).mem
      events := [] } := by
  rw [State.ringsBuilt_eq]
  rfl

/-- The limits of a legal configuration that START meets. -/
theorem Config.limits_of_wf {c : Config} (hc : c.wf = true) :
    1 ≤ c.rxInitialCount ∧ c.rxBufferCapacity ≤ 16383 ∧ 1 ≤ c.acceptPollBudget := by
  simp only [Config.wf, Bool.and_eq_true, decide_eq_true_eq] at hc
  omega

/-- With the rings built and link detection begun the receive unit may be started at the head. -/
theorem State.startableAt_linkBegun (hfree : s.locks = Locks.free) (hc : s.cfg.wf = true) (hm : s.mem.wf = true)
    (hlay : StartLayout s.cfg base (r :: regions)) :
    (s.ringsBuilt base bufs (r :: regions)).running.linkBegun.StartableAt 0 (headerIn s.cfg r) := by
  obtain ⟨-, hcapacity, hbudget⟩ := Config.limits_of_wf hc
  obtain ⟨hC, -, hV, -⟩ := State.ringsBuilt_posted (bufs := bufs) (k := 0) (r := r) hm hlay hcapacity rfl
  refine ⟨hfree, rfl, rfl, hbudget, rfl, ?idle, ?head, ?addr, hlay.rd r List.mem_cons_self, hC, hV⟩
  case idle =>
    have hidle : statusRus (s.ringsBuilt base bufs (r :: regions)).regs.status = unitIdle := statusRus_portReset s.regs.status
    show statusRus (s.ringsBuilt base bufs (r :: regions)).regs.status ≠ unitActive
    rw [hidle]
    decide
  case head =>
    show (List.range (regions.length + 1)).head? = some 0
    rw [List.range_succ_eq_map]
    rfl
  case addr =>
    exact State.rdAddr?_postedRing (s := s.ringsBuilt base bufs (r :: regions)) (done := r :: regions) rfl 0

/-- Settles O16: the regions are taken, the rings built in them, then the link machine and the receive unit are started. -/
theorem startBringsTheDeviceUp : Obligations.StartBringsTheDeviceUp := by
  intro s base bufs regions more shadows hq hl hc hm hbufs hregions hshared hlookaside hapart hinside htd hrd
  obtain ⟨hfree, -, -⟩ := State.of_quiet hq
  obtain ⟨hcount, hcapacity, -⟩ := Config.limits_of_wf hc
  obtain ⟨r, rs, rfl⟩ := List.exists_cons_of_length_pos (hregions.symm ▸ hcount)
  have hg : s.Granted base bufs (r :: rs) more shadows :=
    ⟨hbufs, hregions, hshared, hlookaside, ⟨hapart, hinside⟩, htd, hrd⟩
  have hlay := startLayout_of_deliverable hg.deliverable
  have hstartable := State.startableAt_linkBegun (s := s.allocated (startRegions s.cfg base bufs (r :: rs)) more shadows)
    (bufs := bufs) hfree hc hm hlay
  have hrun := start_eq (h := handlerOf s) hq hl hg hstartable
  have hshadow : ∀ k, (postedRing s.cfg (r :: rs)).shadow? k = (r :: rs)[k]?.map (postedShadow s.cfg) :=
    shadow?_postedRing s.cfg (r :: rs)
  rw [State.startEnded_eq] at hrun
  refine ⟨_, answer_of_ok hrun, rfl, rfl, rfl, rfl, fun i hi => ?transmit, fun k q hk => ⟨?record, ?posted⟩,
    fun k hk => ?others, congrArg List.range hregions, hregions, hregions, rfl, rfl, rfl, rfl, rfl, statusCus_portReset _,
    statusRus_portReset _, causesOf_cleared _, rfl, rfl, rfl, rfl, rfl, rfl, fun x hx => ?frame, rfl, rfl, rfl⟩
  case transmit =>
    obtain ⟨hC, hS, hlink, hfrags⟩ :=
      State.ringsBuilt_tdFresh (s := s.allocated _ more shadows) (base := base) (bufs := bufs) hm hlay hi
    exact ⟨hC, hS, hlink, hfrags,
      State.ringsBuilt_pairsClear (s := s.allocated _ more shadows) (base := base) (bufs := bufs) hm hlay hi⟩
  case record => exact (hshadow k).trans (by rw [hk]; rfl)
  case posted => exact State.ringsBuilt_posted (s := s.allocated _ more shadows) hm hlay hcapacity hk
  case others => exact (hshadow k).trans (by rw [List.getElem?_eq_none (by omega)]; rfl)
  case frame => exact State.ringsBuilt_outside (s := s.allocated _ more shadows) hx

end Sys2Proof.Machine
end
